-- ==== Sys2Proof/Word.lean ====
section
/-! DEFINITION. The word and byte types of SAE (`10_state.md` R21, R40). -/

namespace Sys2Proof

/-- A register of the REG space, or the bit pattern of one binary32 element (R21, R40). -/
abbrev Word := BitVec 32

/-- One element of SRC, AUX or DST (R40). -/
abbrev Byte := BitVec 8

end Sys2Proof
end

