-- ==== Sys2Proof/Config.lean ====
section
/-! DEFINITION. The constants of `00_scope.md` R6, the parameters of R7, and the free value. -/

namespace Sys2Proof

/-- The parameters R7 leaves OPEN, as model arguments (D6). A state carries them, so every
statement about all states is about every choice of them (log 1). -/
structure Capacities where
  /-- SRC_CAP: bytes of SRC -/
  src : Nat
  /-- AUX_CAP: bytes of AUX -/
  aux : Nat
  /-- DST_CAP: bytes of DST -/
  dst : Nat
  /-- CH_MAX: largest channel count -/
  ch : Nat
  /-- SMP_CAP: frames per channel of SMP -/
  smp : Nat
  /-- LA_MAX: largest lookAheadSamples -/
  la : Nat
deriving DecidableEq, Repr

/-- The bounds R7 puts on the capacities; the last keeps DST_LEN representable in its register
(log 19). -/
def Capacities.wf (c : Capacities) : Bool :=
  decide (1 ≤ c.src) && decide (1 ≤ c.aux) && decide (c.src ≤ c.dst) && decide (1 ≤ c.ch) &&
    decide (c.ch ≤ 255) && decide (c.dst < 2 ^ 32)

/-- The tie rule of `round_int` (R12, U7, G6). -/
inductive TieRule where
  | away
  | even
  | up
deriving DecidableEq, Repr

/-- What a FMT.SIGNED flag that disagrees with the bit depth does (R7, D13). -/
inductive SignedPolicy where
  | refuse
  | ignore
deriving DecidableEq, Repr

/-- What output samples no full frame covers hold (R7, D18). -/
inductive TailPolicy where
  | zero
  | passthrough
deriving DecidableEq, Repr

namespace Config

/-- The capacities of the machine `State.reset` describes. DESIGN CHOICE (log 1): R7 leaves them
OPEN; no statement rests on these numbers. -/
def capacities : Capacities :=
  { src := 1048576, aux := 1048576, dst := 1048576, ch := 8, smp := 1048576, la := 4096 }

/-- FFT_SIZE (R6). -/
def fftSize : Nat := 2048
/-- log2 of FFT_SIZE, and LOGN_MAX (R7, D32). -/
def lognMax : Nat := 11
/-- HOP_SIZE (R6). -/
def hopSize : Nat := 512
/-- NBINS (R6). -/
def nBins : Nat := 1025
/-- AUTO_FRAMES (R6). -/
def autoFrames : Nat := 10
/-- OLA_SCALE (R6). -/
def olaScale : Rat := mkRat 1 2
/-- PROFILE_EPS (R6, exact by D45). -/
def profileEps : Rat := mkRat 1 1000000
/-- SMOOTH_EPS (R6). -/
def smoothEps : Rat := mkRat 1 1000000
/-- NR_K (R6). -/
def nrK : Rat := 5
/-- GAIN_TOL (R6). -/
def gainTol : Rat := mkRat 1 1000
/-- RATIO_CAP (R6). -/
def ratioCap : Rat := 20
/-- SOFT_DRIVE (R6). -/
def softDrive : Rat := mkRat 3 2

/-- ROUND_TIES (R7, R12, D9). -/
def roundTies : TieRule := .away
/-- HANN_DENOM (R7, R153, D16). -/
def hannDenom : Nat := 2047
/-- NR_TAIL (R7, R175, D18). -/
def nrTail : TailPolicy := .zero
/-- SIGNED_POLICY (R7, R102, D13). -/
def signedPolicy : SignedPolicy := .refuse
/-- LEARN_CHANNEL (R7, R160, D21). -/
def learnChannel : Nat := 0

/-- Fraction bits of the enclosures a float command is first evaluated with; each further evaluation
has four times as many (log 7). DESIGN CHOICE: no stored value depends on it. -/
def precision : Nat := 320
/-- Evaluations made before the separation bound is looked at (log 7). DESIGN CHOICE, as
`precision`. -/
def earlyRounds : Nat := 4

/-- FREE VALUE: what a host read returns where the spec says "unspecified value" (R44, R48, R62,
U4, U6, U8), applied to the state's draw counter (log 6). -/
opaque freeRead : Nat → Word

end Config

end Sys2Proof
end

