-- ==== Sys2Proof/Syntax.lean ====
section
/-! DEFINITION. The twelve commands, one constructor per row of `spec/opcode_table.json`
(`30_encoding.md` R83). -/

namespace Sys2Proof

/-- A command of SAE. Every operand but `logn` (R82) is a named register or memory. -/
inductive Instr where
  /-- 0x01, R107 -/
  | decode
  /-- 0x02, R108 -/
  | encode
  /-- 0x03, R121 -/
  | gain
  /-- 0x04, R133; `logn` is bits 12:8 -/
  | fft (logn : BitVec 5)
  /-- 0x05, R134 -/
  | ifft (logn : BitVec 5)
  /-- 0x06, R135 -/
  | magph (logn : BitVec 5)
  /-- 0x07, R160 -/
  | nrlearn
  /-- 0x08, R163 -/
  | nrlearnr
  /-- 0x09, R166 -/
  | nrreset
  /-- 0x0A, R168 -/
  | nrproc
  /-- 0x0B, R180 -/
  | adproc
  /-- 0x0C, R190 -/
  | process
deriving DecidableEq, Repr

end Sys2Proof
end

