-- ==== Sys2Proof/WellFormed.lean ====
section
/-! DEFINITION. Which terms of `Instr` a command word can carry (`30_encoding.md` R81, R82). -/

namespace Sys2Proof

/-- R82: 0 <= logn <= LOGN_MAX = 11. -/
def lognOk (logn : BitVec 5) : Bool := decide (logn.toNat ≤ Config.lognMax)

/-- The commands R81 lets a word encode. -/
def Instr.wf : Instr → Bool
  | .fft logn => lognOk logn
  | .ifft logn => lognOk logn
  | .magph logn => lognOk logn
  | .decode => true
  | .encode => true
  | .gain => true
  | .nrlearn => true
  | .nrlearnr => true
  | .nrreset => true
  | .nrproc => true
  | .adproc => true
  | .process => true

end Sys2Proof
end

