-- ==== Sys2Proof/Decode.lean ====
section
/-! DEFINITION. Decoding a command word (`30_encoding.md` R80, R81, R83, R84), and the encoder. -/

namespace Sys2Proof

/-- Why a word is illegal (R81). All three end as IllegalCommand (R205). -/
inductive IllegalWord where
  /-- R81: op is not one of the twelve opcodes of R83 -/
  | unknownOpcode
  /-- R81: a `zero` field of R80 is not 0 -/
  | nonzeroField
  /-- R81: logn is above LOGN_MAX -/
  | lognTooLarge
deriving DecidableEq, Repr

/-- `w[7:0]` (R80). -/
def opField (w : Word) : BitVec 8 := w.extractLsb' 0 8

/-- `w[12:8]` (R80, R82). -/
def lognField (w : Word) : BitVec 5 := w.extractLsb' 8 5

/-- Format Z: bits 31:8 must be 0 (R80, R81). -/
def formatZ (i : Instr) (w : Word) : Except IllegalWord Instr :=
  if w.extractLsb' 8 24 = 0 then .ok i else .error .nonzeroField

/-- Format L: bits 31:13 must be 0 and logn at most LOGN_MAX (R80, R81). -/
def formatL (mk : BitVec 5 → Instr) (w : Word) : Except IllegalWord Instr :=
  if w.extractLsb' 13 19 = 0 then
    if lognOk (lognField w) then .ok (mk (lognField w)) else .error .lognTooLarge
  else .error .nonzeroField

/-- R81 over the opcode map of R83. -/
def decode (w : Word) : Except IllegalWord Instr :=
  match (opField w).toNat with
  | 0x01 => formatZ .decode w
  | 0x02 => formatZ .encode w
  | 0x03 => formatZ .gain w
  | 0x04 => formatL .fft w
  | 0x05 => formatL .ifft w
  | 0x06 => formatL .magph w
  | 0x07 => formatZ .nrlearn w
  | 0x08 => formatZ .nrlearnr w
  | 0x09 => formatZ .nrreset w
  | 0x0A => formatZ .nrproc w
  | 0x0B => formatZ .adproc w
  | 0x0C => formatZ .process w
  | _ => .error .unknownOpcode

/-- The opcode of R83. -/
def Instr.opcode : Instr → BitVec 8
  | .decode => 0x01
  | .encode => 0x02
  | .gain => 0x03
  | .fft _ => 0x04
  | .ifft _ => 0x05
  | .magph _ => 0x06
  | .nrlearn => 0x07
  | .nrlearnr => 0x08
  | .nrreset => 0x09
  | .nrproc => 0x0A
  | .adproc => 0x0B
  | .process => 0x0C

/-- The `logn` operand, 0 for format Z. -/
def Instr.logn : Instr → BitVec 5
  | .fft n => n
  | .ifft n => n
  | .magph n => n
  | .decode => 0
  | .encode => 0
  | .gain => 0
  | .nrlearn => 0
  | .nrlearnr => 0
  | .nrreset => 0
  | .nrproc => 0
  | .adproc => 0
  | .process => 0

/-- The command word of R80 and R86: `op + logn * 256`, every other bit 0. -/
def encode (i : Instr) : Word := (0#19 ++ i.logn) ++ i.opcode

/-- What the decoder reads from a command word whose bits, numbered as the opcode table numbers
them, are `w`; the bits from `nbits` up are 0. A command word moves as one 32-bit value (R65), so
no byte order enters. -/
def decodeTableWord (nbits w : Nat) : Option Instr :=
  match decode (BitVec.ofNat 32 (w % 2 ^ nbits)) with
  | .ok i => some i
  | .error _ => none

end Sys2Proof
end

