-- ==== Sys2Proof/Machine/CosSum.lean ====
section
/-! DEFINITION. Rational combinations of the window's cosines `cos (2 pi k / 2047)` (R153), with the
test that decides whether their value is rational (log 7). Sums of a frame are such combinations in
the bins whose twiddle factors are 1, -1 and 0, and there a tie of `rnd32` is decided exactly. -/

namespace Sys2Proof.Machine

/-- The sum of `q * cos (2 pi k / 2047)` over the pairs (k, q). -/
abbrev CosSum := List (Nat × Rat)

namespace CosSum

def scale (a : Rat) (c : CosSum) : CosSum := c.map (fun t => (t.1, a * t.2))

/-- Twice the sum in the powers of `z = exp (2 pi i / 2047)`: entry n is the coefficient of z^n, since
`2 cos (2 pi k / 2047) = z^k + z^-k`. -/
def doubled (c : CosSum) : Array Rat :=
  c.foldl
    (fun a t =>
      let k := t.1 % Config.hannDenom
      (a.modify k (· + t.2)).modify ((Config.hannDenom - k) % Config.hannDenom) (· + t.2))
    (Array.replicate Config.hannDenom 0)

/-- The coefficient at (i, j), where z^(89 i + 23 j) runs over all powers as i < 23 and j < 89 do. -/
def atGrid (a : Array Rat) (i j : Nat) : Rat := a.getD ((89 * i + 23 * j) % Config.hannDenom) 0

/-- The coefficient at (i, j) after the relations between the powers, `sum over i of z^(89 i) = 0` and
`sum over j of z^(23 j) = 0`, have cleared row 22 and column 88. -/
def reduced (a : Array Rat) (i j : Nat) : Rat :=
  atGrid a i j - atGrid a 22 j - atGrid a i 88 + atGrid a 22 88

/-- The value, if it is rational: the reduced powers are linearly independent over the rationals, so it
is rational exactly when only z^0 is left. -/
def rational? (c : CosSum) : Option Rat :=
  let a := doubled c
  let q := reduced a 0 0
  if (List.range 22).all fun i => (List.range 88).all fun j =>
      reduced a i j == if i = 0 ∧ j = 0 then q else 0
  then some (q / 2) else none

end CosSum

end Sys2Proof.Machine
end

