-- ==== Sys2Proof/Machine/Binary32.lean ====
section
/-! DEFINITION. IEEE binary32 patterns as exact rationals (`00_scope.md` R10), rounding a rational
to binary32, and `round_int` (R12). Everything is integer arithmetic in units of 2^-149, the
spacing of the smallest binary32 values. -/

namespace Sys2Proof.Machine

/-- The exponent field. -/
def expField (w : Word) : Nat := (w.extractLsb' 23 8).toNat

/-- The fraction field. -/
def fracField (w : Word) : Nat := (w.extractLsb' 0 23).toNat

/-- The sign bit. -/
def signBit (w : Word) : Bool := w.getLsbD 31

/-- R10: finite means the exponent field is not all ones. -/
def isFinite (w : Word) : Bool := decide (expField w ≠ 255)

/-- The magnitude of a finite pattern in units of 2^-149. -/
def magUnits (w : Word) : Nat :=
  if expField w = 0 then fracField w else (2 ^ 23 + fracField w) * 2 ^ (expField w - 1)

/-- The value of a finite pattern in units of 2^-149; both zero patterns give 0. -/
def units (w : Word) : Int := if signBit w then -(magUnits w : Int) else (magUnits w : Int)

/-- R10: `f32(w)`, defined only when w is finite. -/
def f32 (w : Word) : Option Rat := if isFinite w then some (mkRat (units w) (2 ^ 149)) else none

/-- R111: an operand of ENCODE. -/
inductive F32x where
  | fin (q : Rat)
  | posInf
  | negInf
  | nan
deriving DecidableEq, Repr

/-- R111: `f32x(w)`, with the NaN patterns named (they have no encoding). -/
def f32x (w : Word) : F32x :=
  match f32 w with
  | some q => .fin q
  | none => if fracField w = 0 then (if signBit w then .negInf else .posInf) else .nan

/-- The integer nearest a / b, ties to even; b > 0. -/
def divEven (a b : Nat) : Nat :=
  if 2 * (a % b) < b then a / b
  else if b < 2 * (a % b) then a / b + 1
  else a / b + a / b % 2

/-- The exponent and fraction bits (31 of them) of the binary32 value nearest n / d, ties to the
even significand, 0x7F800000 (infinity) on overflow; d > 0. With `t = n/d * 2^149`, significands
have spacing `2^u` units where `u` is `floor(log2 t) - 23`, or 0 below the normal range; the
pattern of `m * 2^u` units is `u * 2^23 + m` in both ranges, and a carry out of the significand
moves into the exponent field by itself. -/
def magPattern (n d : Nat) : Nat :=
  let t := n * 2 ^ 149
  let u := (t / d).log2 - 23
  min (u * 2 ^ 23 + divEven t (d * 2 ^ u)) 0x7F800000

/-- R10: `bits32(rnd32(r))` of a rational r: the pattern of the nearest binary32 value, ties to
even, overflow to the infinity of r's sign. The value 0 is stored as 0x00000000, whatever the sign
of r (log 9). -/
def rnd32 (r : Rat) : Word :=
  let m := magPattern r.num.natAbs r.den
  BitVec.ofNat 32 (if r.num < 0 ∧ m ≠ 0 then 2 ^ 31 + m else m)

/-- R12: `round_int(q)`, the integer nearest q, under the tie rule. -/
def roundInt (t : TieRule) (q : Rat) : Int :=
  match t with
  | .away =>
    let m : Int := ((2 * q.num.natAbs + q.den) / (2 * q.den) : Nat)
    if q.num < 0 then -m else m
  | .even =>
    let m : Int := (divEven q.num.natAbs q.den : Nat)
    if q.num < 0 then -m else m
  | .up => (2 * q.num + q.den) / (2 * q.den)

/-- R8: `clamp(v, lo, hi)`. -/
def clampInt (v lo hi : Int) : Int := if v < lo then lo else if hi < v then hi else v

/-- A pattern that `rnd32` can produce: not a NaN, not the negative zero. -/
def isStorable (w : Word) : Bool := decide (w.toNat % 2 ^ 31 ≤ 0x7F800000) && (w != 0x80000000#32)

/-- The order of the values of storable patterns, the infinities at the ends. -/
def orderKey (w : Word) : Int :=
  if signBit w then -((w.toNat % 2 ^ 31 : Nat) : Int) else ((w.toNat % 2 ^ 31 : Nat) : Int)

end Sys2Proof.Machine
end

