-- ==== Sys2Proof/Machine/Interval.lean ====
section
/-! DEFINITION. Interval arithmetic in fixed point: `Ivl` with p fraction bits stands for the reals
between `lo / 2^p` and `hi / 2^p`; every function here answers an interval that holds the exact
result for every choice of arguments in its argument intervals (log 7). -/

namespace Sys2Proof.Machine

/-- The reals r with `lo <= r * 2^p <= hi`; p is the precision in force. -/
structure Ivl where
  lo : Int
  hi : Int
deriving DecidableEq, Repr

/-- Ceiling of a / b for b > 0. -/
def ceilDiv (a : Int) (b : Nat) : Int := -((-a) / (b : Int))

/-- Square root digit by digit in base 4: right for n < 4 ^ fuel. -/
def isqrtLoop : Nat → Nat → Nat
  | 0, _ => 0
  | fuel + 1, n =>
    let r := 2 * isqrtLoop fuel (n / 4)
    if (r + 1) * (r + 1) ≤ n then r + 1 else r

/-- `floor(sqrt n)`. -/
def isqrt (n : Nat) : Nat := isqrtLoop (n.log2 / 2 + 1) n

namespace Ivl

/-- The least interval of precision p around a rational. -/
def ofRat (p : Nat) (q : Rat) : Ivl :=
  ⟨q.num * 2 ^ p / (q.den : Int), ceilDiv (q.num * 2 ^ p) q.den⟩

def add (a b : Ivl) : Ivl := ⟨a.lo + b.lo, a.hi + b.hi⟩
def neg (a : Ivl) : Ivl := ⟨-a.hi, -a.lo⟩
def sub (a b : Ivl) : Ivl := ⟨a.lo - b.hi, a.hi - b.lo⟩

def min4 (a b c d : Int) : Int := min (min a b) (min c d)
def max4 (a b c d : Int) : Int := max (max a b) (max c d)

def mul (p : Nat) (a b : Ivl) : Ivl :=
  let x := a.lo * b.lo
  let y := a.lo * b.hi
  let z := a.hi * b.lo
  let w := a.hi * b.hi
  ⟨min4 x y z w / 2 ^ p, ceilDiv (max4 x y z w) (2 ^ p)⟩

/-- Quotient by an interval of positive reals, 0 < b.lo. -/
def divPos (p : Nat) (a b : Ivl) : Ivl :=
  let n := a.lo * 2 ^ p
  let m := a.hi * 2 ^ p
  ⟨min (n / b.lo) (n / b.hi), max (ceilDiv m b.lo.toNat) (ceilDiv m b.hi.toNat)⟩

/-- Quotient; none when the divisor may be 0. -/
def div? (p : Nat) (a b : Ivl) : Option Ivl :=
  if 0 < b.lo then some (divPos p a b)
  else if b.hi < 0 then some (divPos p a.neg b.neg)
  else none

/-- Quotient by a positive whole number. -/
def divNat (a : Ivl) (n : Nat) : Ivl := ⟨a.lo / (n : Int), ceilDiv a.hi n⟩

/-- Product with a whole number. -/
def scale (a : Ivl) (k : Int) : Ivl :=
  if 0 ≤ k then ⟨a.lo * k, a.hi * k⟩ else ⟨a.hi * k, a.lo * k⟩

def maxI (a b : Ivl) : Ivl := ⟨max a.lo b.lo, max a.hi b.hi⟩
def minI (a b : Ivl) : Ivl := ⟨min a.lo b.lo, min a.hi b.hi⟩

def abs (a : Ivl) : Ivl :=
  if 0 ≤ a.lo then a else if a.hi ≤ 0 then a.neg else ⟨0, max (-a.lo) a.hi⟩

/-- The least interval around both. -/
def hull (a b : Ivl) : Ivl := ⟨min a.lo b.lo, max a.hi b.hi⟩

/-- Square root; negative reals count as 0, as in `Real.sqrt`. -/
def sqrt (p : Nat) (a : Ivl) : Ivl :=
  ⟨isqrt (a.lo.toNat * 2 ^ p), isqrt (a.hi.toNat * 2 ^ p) + 1⟩

/-- The whole number k. -/
def ofInt (p : Nat) (k : Int) : Ivl := ⟨k * 2 ^ p, k * 2 ^ p⟩

/-- The reals between 0 and 1. -/
def unit (p : Nat) : Ivl := ⟨0, 2 ^ p⟩

/-! Each series below is its Taylor polynomial in Horner form, started from an interval that holds
the rest of the alternating series divided by its leading factor. -/

/-- `cos x = 1 - x²/(1·2)·(1 - x²/(3·4)·(…))`, the tail in [0, 1]. -/
def cosLoop (p : Nat) (x2 : Ivl) : Nat → Ivl → Ivl
  | 0, h => h
  | i + 1, h =>
    cosLoop p x2 i ((ofInt p 1).sub (divNat (mul p x2 h) ((2 * i + 1) * (2 * i + 2))))

/-- `sin x = x·(1 - x²/(2·3)·(1 - x²/(4·5)·(…)))`, the tail in [0, 1]. -/
def sinLoop (p : Nat) (x2 : Ivl) : Nat → Ivl → Ivl
  | 0, h => h
  | i + 1, h =>
    sinLoop p x2 i ((ofInt p 1).sub (divNat (mul p x2 h) ((2 * i + 2) * (2 * i + 3))))

/-- `atan y = y·(1 - y²·(1/3 - y²·(1/5 - …)))`; the value at level i is the sum from 1/(2i+1). -/
def atanLoop (p : Nat) (y2 : Ivl) : Nat → Ivl → Ivl
  | 0, h => h
  | i + 1, h => atanLoop p y2 i ((divNat (ofInt p 1) (2 * i + 1)).sub (mul p y2 h))

/-- `exp (-r) = 1 - r/1·(1 - r/2·(1 - …))`, the tail in [0, 1]. -/
def expLoop (p : Nat) (r : Ivl) : Nat → Ivl → Ivl
  | 0, h => h
  | i + 1, h => expLoop p r i ((ofInt p 1).sub (divNat (mul p r h) (i + 1)))

/-- Terms that leave the tail of the cosine and sine series below 2^-p. -/
def trigTerms (p : Nat) : Nat := p / 8 + 8

/-- cos x for x in [0, 1]. -/
def cosSmall (p : Nat) (x : Ivl) : Ivl := cosLoop p (mul p x x) (trigTerms p) (unit p)

/-- sin x for x in [0, 1]. -/
def sinSmall (p : Nat) (x : Ivl) : Ivl := mul p x (sinLoop p (mul p x x) (trigTerms p) (unit p))

/-- The arc tangent series for y in [-1, 1], with n terms. -/
def atanSeries (p n : Nat) (y : Ivl) : Ivl :=
  mul p y (atanLoop p (mul p y y) n ⟨0, ceilDiv (2 ^ p) (2 * n + 1)⟩)

/-- `y / (1 + sqrt(1 + y²))`: the tangent of half the angle. -/
def halfTan (p : Nat) (y : Ivl) : Ivl :=
  divPos p y ((ofInt p 1).add (sqrt p ((ofInt p 1).add (abs (mul p y y)))))

/-- atan y, with the angle halved three times before the series. -/
def atan (p : Nat) (y : Ivl) : Ivl :=
  scale (atanSeries p (p / 6 + 4) (halfTan p (halfTan p (halfTan p y)))) 8

/-- pi = 16 atan(1/5) - 4 atan(1/239) (Machin). -/
def pi (p : Nat) : Ivl :=
  (scale (atanSeries p (p / 4 + 4) (divNat (ofInt p 1) 5)) 16).sub
    (scale (atanSeries p (p / 4 + 4) (divNat (ofInt p 1) 239)) 4)

/-- Squaring k times. -/
def squares (p : Nat) : Nat → Ivl → Ivl
  | 0, a => a
  | k + 1, a => squares p k (mul p a a)

/-- exp(-t) for t >= 0. From t = p + 8 on the value is below 2^-p. -/
def expNeg (p : Nat) (t : Ivl) : Ivl :=
  if ((p : Int) + 8) * 2 ^ p ≤ t.lo then ⟨0, 1⟩
  else
    let k := (t.hi.toNat / 2 ^ p).log2 + 2
    squares p k (expLoop p (divNat t (2 ^ k)) (p / 4 + 8) (unit p))

/-- tanh x for x >= 0, as (1 - y)/(1 + y) with y = exp(-2x). -/
def tanhPos (p : Nat) (x : Ivl) : Ivl :=
  let y := expNeg p (scale x 2)
  (div? p ((ofInt p 1).sub y) ((ofInt p 1).add y)).getD (unit p)

/-- tanh x; across 0 by |tanh x| <= min(|x|, 1). -/
def tanh (p : Nat) (x : Ivl) : Ivl :=
  if 0 ≤ x.lo then tanhPos p x
  else if x.hi ≤ 0 then (tanhPos p x.neg).neg
  else ⟨max x.lo (-(2 ^ p)), min x.hi (2 ^ p)⟩

/-- The angle 2 pi a / b, from an interval around pi. -/
def turn (pi : Ivl) (a b : Nat) : Ivl := divNat (scale pi (2 * (a : Int))) b

/-- The length of (x, y). -/
def hypot (p : Nat) (x y : Ivl) : Ivl := sqrt p ((abs (mul p x x)).add (abs (mul p y y)))

/-- [-4, 4], which holds every angle in (-pi, pi]. -/
def anyAngle (p : Nat) : Ivl := ⟨-(4 * 2 ^ p), 4 * 2 ^ p⟩


/-- 2 atan(s / (r + c)), the angle of a point with coordinates c and s at distance r; none when
r + c may be 0. -/
def halfAngle (p : Nat) (s r c : Ivl) : Option Ivl :=
  if 0 < r.lo + c.lo then some (scale (atan p (divPos p s (r.add c))) 2) else none

/-- atan2(y, x) (R10): from the half angle where x >= 0 is certain, from the angle to the y axis
where the sign of y is certain, else any angle. -/
def atan2 (p : Nat) (pi y x : Ivl) : Ivl :=
  let r := hypot p x y
  if 0 ≤ x.lo then (halfAngle p y r x).getD (anyAngle p)
  else if 0 < y.lo then
    match halfAngle p x r y with
    | some a => (divNat pi 2).sub a
    | none => anyAngle p
  else if y.hi < 0 then
    match halfAngle p x r y.neg with
    | some a => a.sub (divNat pi 2)
    | none => anyAngle p
  else anyAngle p

/-- x / sqrt(x² + y²) clamped to [-1, 1]: the cosine of atan2(y, x) away from the origin. -/
def direction (p : Nat) (x y : Ivl) : Ivl :=
  let r := hypot p x y
  if 0 < r.lo then
    let c := divPos p x r
    ⟨max c.lo (-(2 ^ p)), min c.hi (2 ^ p)⟩
  else ⟨-(2 ^ p), 2 ^ p⟩

end Ivl

end Sys2Proof.Machine
end

