-- ==== Sys2Proof/Machine/Numerics.lean ====
section
/-! DEFINITION. The arithmetic of the float commands as the configuration record of `00_scope.md`
R11, the instance the machine runs (certified enclosures of the exact reals), the instance that bounds
how near a result can come to a tie without being one, and the stored rounding (log 7). -/

namespace Sys2Proof.Machine

/-- R10, R11: the real functions the float-domain rules use. The rules are written over this
record; `Numerics.enclosing` is what the machine evaluates, and `Numerics.real`
(`Machine/Reference.lean`) is the reference of R11 over the real numbers. -/
structure Numerics where
  R : Type
  /-- a rational constant or operand -/
  rat : Rat → R
  add : R → R → R
  sub : R → R → R
  mul : R → R → R
  div : R → R → R
  neg : R → R
  abs : R → R
  max : R → R → R
  min : R → R → R
  sqrt : R → R
  /-- `cos (2 pi k / m)` -/
  cosTurn : Nat → Nat → R
  /-- `sin (2 pi k / m)` -/
  sinTurn : Nat → Nat → R
  /-- `atan2 y x` -/
  atan2 : R → R → R
  /-- `cos (atan2 y x)` -/
  cosAtan2 : R → R → R
  /-- `sin (atan2 y x)` -/
  sinAtan2 : R → R → R
  tanh : R → R
  /-- `if a > b then t else e` -/
  ifGt : R → R → R → R → R

/-- What the model knows of a real: its exact rational value, its value as a combination of the
window's cosines together with an interval of precision p, such an interval alone, or nothing. Plain
data (log 8). -/
inductive Encl where
  | exact (q : Rat)
  | lin (c : CosSum) (p : Nat) (lo hi : Int)
  | span (p : Nat) (lo hi : Int)
  | any
deriving DecidableEq, Repr

namespace Encl

/-- A combination of cosines whose value is rational becomes that value, any other its interval. -/
def plain : Encl → Encl
  | exact q => exact q
  | lin c p lo hi =>
    match c.rational? with
    | some q => exact q
    | none => span p lo hi
  | span p lo hi => span p lo hi
  | any => any

/-- An interval of precision p' at precision p. -/
def rescale (p p' : Nat) (lo hi : Int) : Ivl :=
  if p' ≤ p then ⟨lo * 2 ^ (p - p'), hi * 2 ^ (p - p')⟩
  else ⟨lo / 2 ^ (p' - p), ceilDiv hi (2 ^ (p' - p))⟩

/-- The same real as an interval of precision p. -/
def toIvl (p : Nat) : Encl → Option Ivl
  | exact q => some (Ivl.ofRat p q)
  | lin _ p' lo hi => some (rescale p p' lo hi)
  | span p' lo hi => some (rescale p p' lo hi)
  | any => none

/-- An interval of precision p as an enclosure; no interval is no knowledge. -/
def ofIvl (p : Nat) : Option Ivl → Encl
  | some a => span p a.lo a.hi
  | none => any

/-- An operation of one argument on intervals. -/
def onIvl (p : Nat) (f : Ivl → Ivl) (x : Encl) : Encl := ofIvl p ((x.toIvl p).map f)

/-- An operation of two arguments on intervals. -/
def onIvls (p : Nat) (f : Ivl → Ivl → Option Ivl) (x y : Encl) : Encl :=
  match x.toIvl p, y.toIvl p with
  | some a, some b => ofIvl p (f a b)
  | _, _ => any

/-- The real as a combination of cosines, if it is known as one. -/
def cosSum? : Encl → Option CosSum
  | exact q => some [(0, q)]
  | lin c _ _ _ => some c
  | span _ _ _ => none
  | any => none

/-- The enclosure, with the combination of cosines that it encloses where there is one. -/
def withSum (c : Option CosSum) (e : Encl) : Encl :=
  match c, e with
  | some c, span p lo hi => lin c p lo hi
  | _, e => e

/-- The sum of two combinations of cosines. -/
def sumOf (x y : Option CosSum) : Option CosSum :=
  match x, y with
  | some a, some b => some (a ++ b)
  | _, _ => none

/-- A combination of cosines times a rational. -/
def scaleOf (a : Rat) (x : Encl) : Option CosSum := x.cosSum?.map (CosSum.scale a)

def add (p : Nat) : Encl → Encl → Encl
  | exact a, exact b => exact (a + b)
  | x, y => withSum (sumOf x.cosSum? y.cosSum?) (onIvls p (fun a b => some (a.add b)) x y)

def sub (p : Nat) : Encl → Encl → Encl
  | exact a, exact b => exact (a - b)
  | x, y => withSum (sumOf x.cosSum? (y.scaleOf (-1))) (onIvls p (fun a b => some (a.sub b)) x y)

/-- Whether the real is the exact 0. -/
def isZero : Encl → Bool
  | exact q => decide (q.num = 0)
  | lin _ _ _ _ => false
  | span _ _ _ => false
  | any => false

/-- The product as intervals. -/
def mulIvls (p : Nat) (x y : Encl) : Encl := onIvls p (fun a b => some (Ivl.mul p a b)) x y

/-- The product of enclosures none of which is a combination of cosines. -/
def mulPlain (p : Nat) : Encl → Encl → Encl
  | exact a, exact b => exact (a * b)
  | x, y => mulIvls p x y

/-- A factor known to be 0 gives 0 exactly; a rational times a combination of cosines is one. -/
def mul (p : Nat) (x y : Encl) : Encl :=
  if x.isZero || y.isZero then exact 0
  else
    match x, y with
    | exact a, exact b => exact (a * b)
    | exact a, lin c q lo hi => withSum ((lin c q lo hi).scaleOf a) (mulIvls p (exact a) (lin c q lo hi))
    | lin c q lo hi, exact b => withSum ((lin c q lo hi).scaleOf b) (mulIvls p (lin c q lo hi) (exact b))
    | lin c q lo hi, lin d r l h => mulPlain p (lin c q lo hi).plain (lin d r l h).plain
    | x, y => mulIvls p x y

/-- The quotient of enclosures none of which is a combination of cosines; a divisor that may be 0 gives
no knowledge. -/
def divPlain (p : Nat) : Encl → Encl → Encl
  | exact a, exact b => if b.num = 0 then any else exact (a / b)
  | x, y => onIvls p (Ivl.div? p) x y

def div (p : Nat) : Encl → Encl → Encl
  | lin c q lo hi, exact b =>
    if b.num = 0 then any else mul p (lin c q lo hi) (exact (1 / b))
  | x, y => divPlain p x.plain y.plain

def neg (p : Nat) : Encl → Encl
  | exact a => exact (-a)
  | x => withSum (x.scaleOf (-1)) (onIvl p Ivl.neg x)

def abs (p : Nat) (x : Encl) : Encl :=
  match x.plain with
  | exact a => exact (if a.num < 0 then -a else a)
  | x => onIvl p Ivl.abs x

def max (p : Nat) (x y : Encl) : Encl :=
  match x.plain, y.plain with
  | exact a, exact b => exact (if a < b then b else a)
  | x, y => onIvls p (fun a b => some (a.maxI b)) x y

def min (p : Nat) (x y : Encl) : Encl :=
  match x.plain, y.plain with
  | exact a, exact b => exact (if b < a then b else a)
  | x, y => onIvls p (fun a b => some (a.minI b)) x y

/-- The exact root of a rational whose numerator and denominator are squares. -/
def ratSqrt (q : Rat) : Option Rat :=
  let n := isqrt q.num.toNat
  let d := isqrt q.den
  if 0 ≤ q.num ∧ n * n = q.num.toNat ∧ d * d = q.den then some (mkRat n d) else none

def sqrt (p : Nat) (x : Encl) : Encl :=
  match x.plain with
  | exact q =>
    match ratSqrt q with
    | some r => exact r
    | none => onIvl p (Ivl.sqrt p) (exact q)
  | x => onIvl p (Ivl.sqrt p) x

/-- cos of the angle 2 pi a / b for 0 <= a/b <= 1/4: exact at 0 and at the quarter turn, else the
series of the angle or of its complement, whichever is at most an eighth of a turn. -/
def cosQuarter (p : Nat) (pi : Ivl) (a b : Nat) : Encl :=
  if a = 0 then exact 1
  else if 4 * a = b then exact 0
  else if 8 * a ≤ b then ofIvl p (some (Ivl.cosSmall p (Ivl.turn pi a b)))
  else ofIvl p (some (Ivl.sinSmall p (Ivl.turn pi (b - 4 * a) (4 * b))))

/-- cos (2 pi k / m), m > 0, folded into the first quarter turn; a cosine of the window is known as
such. -/
def cosTurn (p : Nat) (pi : Ivl) (k m : Nat) : Encl :=
  let r := k % m
  let a := if m < 2 * r then m - r else r
  withSum (if m = Config.hannDenom then some [(r, 1)] else none)
    (if 4 * a ≤ m then cosQuarter p pi a m else (cosQuarter p pi (m - 2 * a) (2 * m)).neg p)

/-- sin (2 pi k / m) = cos (2 pi (1/4 - k/m)) = cos (2 pi (5/4 - (k mod m)/m)). -/
def sinTurn (p : Nat) (pi : Ivl) (k m : Nat) : Encl :=
  cosTurn p pi (5 * m - 4 * (k % m)) (4 * m)

/-- R10: `atan2(y, x)`; exactly 0 on the non-negative x axis, pi on the negative one. -/
def atan2 (p : Nat) (pi : Ivl) (y x : Encl) : Encl :=
  match y.plain, x.plain with
  | exact a, exact b =>
    if a.num = 0 then (if 0 ≤ b.num then exact 0 else ofIvl p (some pi))
    else onIvls p (fun u v => some (Ivl.atan2 p pi u v)) (exact a) (exact b)
  | y, x => onIvls p (fun u v => some (Ivl.atan2 p pi u v)) y x

/-- The coordinate u of the point (u, v) over its distance from the origin; `origin` at the origin
(log 12). Exact where the distance is rational. -/
def directed (p : Nat) (origin : Rat) (u v : Encl) : Encl :=
  match u.plain, v.plain with
  | exact a, exact b =>
    match ratSqrt (a * a + b * b) with
    | some r => exact (if r.num = 0 then origin else a / r)
    | none => onIvls p (fun u v => some (Ivl.direction p u v)) (exact a) (exact b)
  | u, v => onIvls p (fun u v => some (Ivl.direction p u v)) u v

/-- cos (atan2 y x): `x / sqrt(x² + y²)`, and 1 at the origin (log 12). -/
def cosAtan2 (p : Nat) (y x : Encl) : Encl := directed p 1 x y

/-- sin (atan2 y x): `y / sqrt(x² + y²)`, and 0 at the origin (log 12). -/
def sinAtan2 (p : Nat) (y x : Encl) : Encl := directed p 0 y x

def tanh (p : Nat) (x : Encl) : Encl :=
  if x.plain.isZero then exact 0 else onIvl p (Ivl.tanh p) x.plain

/-- The least enclosure of precision p around two. -/
def hull (p : Nat) (x y : Encl) : Encl := onIvls p (fun a b => some (a.hull b)) x y

/-- `if a > b then t else e`; an undecided comparison keeps both branches. -/
def ifGt (p : Nat) (a b t e : Encl) : Encl :=
  match a.plain, b.plain with
  | exact x, exact y => if y < x then t else e
  | a, b =>
    match a.toIvl p, b.toIvl p with
    | some u, some v => if v.hi < u.lo then t else if u.hi ≤ v.lo then e else hull p t e
    | _, _ => hull p t e

/-- The rounding of an end of an interval of precision p. -/
def rndEnd (p : Nat) (k : Int) : Word := rnd32 (mkRat k (2 ^ p))

/-- The common value of two patterns, if they are one. -/
def agreed (a b : Word) : Option Word := if a = b then some a else none

/-- Of two patterns the one with the even significand, the first if both or none are even. -/
def evenOf (a b : Word) : Word := if a.getLsbD 0 = true ∧ b.getLsbD 0 = false then b else a

/-- The binary32 pattern every real of the enclosure rounds to, if there is one (`rnd32` is
monotone, so the two ends decide). -/
def rounded (e : Encl) : Option Word :=
  match e.plain with
  | exact q => some (rnd32 q)
  | span p lo hi => agreed (rndEnd p lo) (rndEnd p hi)
  | lin _ _ _ _ => none
  | any => none

/-- R10: the rounding of a real that is a tie if its enclosure does not decide it: of the roundings of
the two ends the one with the even significand (log 7). -/
def settled (e : Encl) : Word :=
  match e.plain with
  | exact q => rnd32 q
  | span p lo hi => evenOf (rndEnd p lo) (rndEnd p hi)
  | lin _ _ _ _ => 0
  | any => 0

end Encl

/-- The arithmetic the machine runs, with p fraction bits. -/
abbrev Numerics.enclosing (p : Nat) : Numerics :=
  let pi := Ivl.pi p
  { R := Encl
    rat := .exact
    add := .add p
    sub := .sub p
    mul := .mul p
    div := .div p
    neg := .neg p
    abs := .abs p
    max := .max p
    min := .min p
    sqrt := .sqrt p
    cosTurn := .cosTurn p pi
    sinTurn := .sinTurn p pi
    atan2 := .atan2 p pi
    cosAtan2 := .cosAtan2 p
    sinAtan2 := .sinAtan2 p
    tanh := .tanh p
    ifGt := .ifGt p }

/-! ### How near a result can come to a tie

A tie of `rnd32` is a rational of at most 151 bits. An algebraic real of degree at most D and absolute
logarithmic height (base 2) at most h is such a tie or differs from each by more than
`2^(-D (h + 160))` (Liouville's inequality); a hyperbolic tangent or an angle of algebraic numbers is
transcendental or 0, so never a tie (log 7). -/

/-- What bounds the distance of a real from the ties it is not: its degree is at most `2^logDeg`, its
height at most `ht`; `trans` where it is computed from a transcendental function. -/
structure Sep where
  logDeg : Nat
  ht : Nat
  trans : Bool
deriving DecidableEq, Repr

namespace Sep

def rat (q : Rat) : Sep := ⟨0, (Nat.max q.num.natAbs q.den).log2 + 1, false⟩

/-- An operation of two arguments that adds e to the degrees' logarithms and h to the heights. -/
def join (e h : Nat) (x y : Sep) : Sep := ⟨x.logDeg + y.logDeg + e, x.ht + y.ht + h, x.trans || y.trans⟩

/-- One of two. -/
def either (x y : Sep) : Sep := ⟨max x.logDeg y.logDeg, max x.ht y.ht, x.trans || y.trans⟩

/-- `(z + 1/z)/2` for a root of unity z of order m. -/
def cosine (m : Nat) : Sep := ⟨m.log2 + 1, 2, false⟩

def sqrt (x : Sep) : Sep := { x with logDeg := x.logDeg + 1 }

/-- A coordinate over the distance from the origin. -/
def direction (x y : Sep) : Sep := join 1 (x.ht + y.ht + 2) x y

def transcendental (x : Sep) : Sep := { x with trans := true }

/-- After this many fourfold increases of `Config.precision`, an enclosure that still decides nothing
encloses a tie: the bits then exceed those of the distance and those the operations lose (log 7). -/
def levels (x : Sep) : Nat :=
  if x.trans then 8 * (2 ^ x.logDeg * (x.ht + 161) + 16)
  else 2 * x.logDeg + 2 * (x.ht + 1).log2 + 16

/-- The greatest of the levels of a list. -/
def levelsOf (xs : List Sep) : Nat := xs.foldl (fun n x => max n x.levels) 0

end Sep

/-- The arithmetic of the separation bounds. -/
abbrev Numerics.separating : Numerics :=
  { R := Sep
    rat := .rat
    add := .join 0 1
    sub := .join 0 1
    mul := .join 0 0
    div := .join 0 0
    neg := id
    abs := id
    max := .either
    min := .either
    sqrt := .sqrt
    cosTurn := fun _ m => .cosine m
    sinTurn := fun _ m => .cosine (4 * m)
    atan2 := fun y x => (Sep.direction x y).transcendental
    cosAtan2 := fun y x => .direction x y
    sinAtan2 := fun y x => .direction x y
    tanh := .transcendental
    ifGt := fun _ _ t e => .either t e }

/-! ### Stores -/

/-- The words of the first of n evaluations, from precision p on with four times the bits each, that
decides every element; where none does, what `last` makes of the next precision. -/
def refine (run : Nat → List Encl) (last : Nat → List Word) : Nat → Nat → List Word
  | 0, p => last p
  | n + 1, p =>
    match (run p).mapM Encl.rounded with
    | some ws => ws
    | none => refine run last n (4 * p)

/-- R10, R11: `bits32(rnd32(r))` of each real of a run, given by its enclosures of every precision.
Evaluations are refined until every element is decided; after `levels ()` of them what is open is a
tie, stored as the even one (log 7). -/
def storeFloats (run : Nat → List Encl) (levels : Unit → Nat) : List Word :=
  refine run (fun p => refine run (fun p => (run p).map Encl.settled) (levels ()) p)
    Config.earlyRounds Config.precision

/-- R11: one `rnd32` for each element of a computation over the reals. -/
def storeReals (f : (A : Numerics) → List A.R) : List Word :=
  storeFloats (fun p => f (Numerics.enclosing p)) (fun _ => Sep.levelsOf (f Numerics.separating))

end Sys2Proof.Machine
end

