-- ==== Sys2Proof/Machine/State.lean ====
section
/-! DEFINITION. The architectural state of SAE (`10_state.md` R20 to R48), the host's pending
transactions, the reasons a step can stop, and the state after reset (R47, R230). -/

namespace Sys2Proof.Machine

/-- A memory as (index, element) pairs, indices strictly rising. An index that is not listed holds
no value (R48; log 5), so no entry is redundant. -/
abbrev Memory (α : Type) := List (Nat × α)

/-- The noise profile's state (R24, R150); the value 3 of the field never occurs. -/
inductive PState where
  | unset
  | autoEstimated
  | learned
deriving DecidableEq, Repr

/-- The values STATUS.ERR takes (`60_exceptions.md` R200). Code 2 is never raised (R208). -/
inductive ErrCode where
  | none
  | unsupportedBitDepth
  | invalidSelectionRange
  | illegalCommand
  | unsupportedFormat
  | capacityExceeded
deriving DecidableEq, Repr

/-- The spaces a transaction can name, ids 0 to 9 (R40, R60). -/
inductive Space where
  | reg
  | src
  | aux
  | dst
  | smp
  | xr
  | xi
  | mag
  | ph
  | profile
deriving DecidableEq, Repr

/-- What the host does next (R60, R86, R230; log 2). A byte space takes the low 8 bits of a
written value. -/
inductive HostOp where
  /-- `HostRead(space, i)` -/
  | read (sp : Space) (i : Nat)
  /-- `HostWrite(space, i, v)` -/
  | write (sp : Space) (i : Nat) (v : Word)
  /-- `HostReset()` -/
  | reset
  /-- `wait`: read STATUS until BUSY is 0 -/
  | wait
deriving DecidableEq, Repr

/-- SAE stops with no fault: its errors are codes in STATUS.ERR, next states (R204), and no
behaviour is stuck (`93_implementation_defined.md`). -/
inductive Fault where
deriving DecidableEq, Repr

/-- Where the spec gives a command or a transaction no meaning ("refuse" in
`93_implementation_defined.md`). Every one is safe: the model stops where hardware goes on. -/
inductive Refusal where
  /-- Raised by `exec`'s arm of a command without a meaning; no arm does. Safe. -/
  | notModelled (mnemonic : String)
  /-- U1: raised by a command that reads a memory element nothing has written since it last became
  unspecified (R48). Safe. -/
  | unwritten (space : Space) (index : Nat)
  /-- U2: raised by a command that reads a non-finite element (ENCODE: a NaN element) (R111,
  R133, R168, R180). Safe. -/
  | nonFiniteElement (space : Space) (index : Nat)
  /-- U2: raised by a command that reads a non-finite float parameter register, by its index
  (R34, R121, R168, R180). Safe. -/
  | nonFiniteParameter (index : Nat)
  /-- U3: raised by a command that reads a parameter register outside its range, by its index
  (R29, R35, R36, R244). Safe. -/
  | parameterOutOfRange (index : Nat)
  /-- U5: raised by a host transaction other than a STATUS read while BUSY = 1 (R240, R241).
  Safe. -/
  | hostWhileBusy
deriving DecidableEq, Repr

/-- The state of SAE, with the model's own fields last. -/
structure State where
  /-- CMD: the command word being run, 0 when idle (R23) -/
  cmd : Word
  /-- STATUS.BUSY (R24, R25) -/
  busy : Bool
  /-- STATUS.DONE (R24, R25) -/
  isDone : Bool
  /-- STATUS.PSTATE (R24, R26) -/
  pstate : PState
  /-- STATUS.ERR (R24, R200) -/
  err : ErrCode
  /-- STATUS.TRUNC (R24, R27) -/
  trunc : Bool
  /-- FMT (R28) -/
  fmt : Word
  /-- SRATE (R29) -/
  srate : Word
  /-- SRC_LEN (R30) -/
  srcLen : Word
  /-- AUX_LEN (R31) -/
  auxLen : Word
  /-- DST_LEN (R32) -/
  dstLen : Word
  /-- SMP_LEN (R33) -/
  smpLen : Word
  /-- GAINF (R34) -/
  gainf : Word
  /-- AD_THRESH (R35) -/
  adThresh : Word
  /-- AD_RATIO (R35) -/
  adRatio : Word
  /-- AD_MAKEUP (R35) -/
  adMakeup : Word
  /-- NR_REDUCT (R36) -/
  nrReduct : Word
  /-- NR_FLOOR (R36) -/
  nrFloor : Word
  /-- NR_SMOOTH (R36) -/
  nrSmooth : Word
  /-- CTRL (R37) -/
  ctrl : Word
  /-- RANGE_START (R38) -/
  rangeStart : Word
  /-- RANGE_END (R38) -/
  rangeEnd : Word
  /-- SRC (R40, R41) -/
  src : List Host.Cell
  /-- AUX (R40, R41) -/
  aux : List Host.Cell
  /-- DST (R40, R41) -/
  dst : List Host.Cell
  /-- SMP (R40, R42) -/
  smp : Memory Word
  /-- XR (R40, R43) -/
  xr : Memory Word
  /-- XI (R40, R43) -/
  xi : Memory Word
  /-- MAG (R40, R43) -/
  mag : Memory Word
  /-- PH (R40, R43) -/
  ph : Memory Word
  /-- PROFILE (R40, R44) -/
  profile : Memory Word
  /-- PREVMAG, hidden (R45; log 8) -/
  prevMag : Memory Encl
  /-- PREVPH, hidden, written and never read (R45; log 8) -/
  prevPh : Memory Encl
  /-- LA, hidden (R45, R182; log 8) -/
  la : Memory Encl
  /-- model's own: the capacities, which no step changes (R7; log 1) -/
  cap : Capacities
  /-- model's own: the host's pending transactions, first one first (R46; log 2) -/
  script : List HostOp
  /-- model's own: the value the last HostRead returned, a byte zero-extended (log 16) -/
  answer : Option Word
  /-- model's own: how many free values have been drawn (log 6) -/
  draws : Nat
deriving DecidableEq, Repr

/-- R47, R48, R230: every register 0, no memory element with a value, the engine idle. -/
def State.powerOn (cap : Capacities) : State :=
  { cmd := 0, busy := false, isDone := false, pstate := .unset, err := .none, trunc := false
    fmt := 0, srate := 0, srcLen := 0, auxLen := 0, dstLen := 0, smpLen := 0, gainf := 0
    adThresh := 0, adRatio := 0, adMakeup := 0, nrReduct := 0, nrFloor := 0, nrSmooth := 0
    ctrl := 0, rangeStart := 0, rangeEnd := 0
    src := [], aux := [], dst := [], smp := [], xr := [], xi := [], mag := [], ph := []
    profile := [], prevMag := [], prevPh := [], la := []
    cap := cap, script := [], answer := none, draws := 0 }

/-- The machine right after reset, with the capacities of `Config.capacities` (log 1). -/
def State.reset : State := State.powerOn Config.capacities

end Sys2Proof.Machine
end

