-- ==== Sys2Proof/Machine/Flags.lean ====
section
/-! DEFINITION. The STATUS word (`10_state.md` R24), the TRUNC flag (R27), and the fields of FMT and
CTRL (R28, R37). -/

namespace Sys2Proof.Machine

/-- The PSTATE field (R24). -/
def PState.code : PState → Nat
  | .unset => 0
  | .autoEstimated => 1
  | .learned => 2

/-- The ERR field (R200). -/
def ErrCode.code : ErrCode → Nat
  | .none => 0
  | .unsupportedBitDepth => 1
  | .invalidSelectionRange => 3
  | .illegalCommand => 4
  | .unsupportedFormat => 5
  | .capacityExceeded => 6

/-- STATUS as the host reads it (R24); bits 31:9 read 0. -/
def State.statusWord (s : State) : Word :=
  BitVec.ofNat 32 (s.busy.toNat + 2 * s.isDone.toNat + 4 * s.pstate.code + 16 * s.err.code
    + 256 * s.trunc.toNat)

/-- The bits of FMT a write reaches (R28). -/
def fmtMask : Word := 0x00FF03FF#32

/-- The bits of CTRL a write reaches (R37). -/
def ctrlMask : Word := 0x00000007#32

/-- FMT.BITS (R28). -/
def State.fmtBits (s : State) : Nat := (s.fmt.extractLsb' 0 8).toNat
/-- FMT.BE (R28). -/
def State.fmtBe (s : State) : Bool := s.fmt.getLsbD 8
/-- FMT.SIGNED (R28). -/
def State.fmtSigned (s : State) : Bool := s.fmt.getLsbD 9
/-- FMT.CH (R28). -/
def State.fmtCh (s : State) : Nat := (s.fmt.extractLsb' 16 8).toNat

/-- CTRL.NR_EN (R37). -/
def State.nrEn (s : State) : Bool := s.ctrl.getLsbD 0
/-- CTRL.AD_EN (R37). -/
def State.adEn (s : State) : Bool := s.ctrl.getLsbD 1
/-- CTRL.SOFTCLIP (R37). -/
def State.softClip (s : State) : Bool := s.ctrl.getLsbD 2

/-- R27, R105: bytes of a buffer of length `len` that fill no frame. -/
def truncated (len frameBytes : Nat) : Bool := decide (len % frameBytes ≠ 0)

end Sys2Proof.Machine
end

