-- ==== Sys2Proof/Machine/Ops.lean ====
section
/-! DEFINITION. The memory operations, acceptance, completion and error entry of a command
(`60_exceptions.md` R203, R204), and the host's transactions (`20_memory.md` R60, R62, R68). -/

namespace Sys2Proof.Machine

namespace Memory

/-- Element i, if it holds a value. -/
def read {α : Type} : Memory α → Nat → Option α
  | [], _ => none
  | (k, v) :: m, i => if k = i then some v else read m i

/-- Consecutive entries from index i. -/
def enumFrom {α : Type} : Nat → List α → Memory α
  | _, [] => []
  | i, v :: vs => (i, v) :: enumFrom (i + 1) vs

/-- `MemWrite` of the elements `vs` at base, base + 1, … (R9); every other element keeps its
value. -/
def writeRun {α : Type} (m : Memory α) (base : Nat) (vs : List α) : Memory α :=
  m.filter (fun e => decide (e.1 < base)) ++ enumFrom base vs ++
    m.filter (fun e => decide (base + vs.length ≤ e.1))

/-- `MemWrite` of one element (R9). -/
def write {α : Type} (m : Memory α) (i : Nat) (v : α) : Memory α := writeRun m i [v]

/-- `MemReadBytes` (R9) for elements of any kind: the n elements from index i on, or the first
index of the run that holds no value. Indices of `m` rise, so what lies below i is passed over. -/
def readRun {α : Type} : Memory α → Nat → Nat → Except Nat (List α)
  | _, _, 0 => .ok []
  | [], i, _ + 1 => .error i
  | (k, v) :: m, i, n + 1 =>
    if k < i then readRun m i (n + 1)
    else if k = i then
      match readRun m (i + 1) n with
      | .ok vs => .ok (v :: vs)
      | .error j => .error j
    else .error i

/-- The canonical form from index lo on: indices rise strictly and stay below len. -/
def wfFrom {α : Type} (len : Nat) : Nat → Memory α → Bool
  | _, [] => true
  | lo, (k, _) :: m => decide (lo ≤ k) && decide (k < len) && wfFrom len (k + 1) m

/-- The canonical form of a memory of `len` elements. -/
def wf {α : Type} (len : Nat) (m : Memory α) : Bool := wfFrom len 0 m

end Memory

/-- Lengths of the memories in elements (R40). -/
def Capacities.smpLen (c : Capacities) : Nat := c.ch * c.smp

/-- Number of elements of a space (R40). -/
def spaceLen (c : Capacities) : Space → Nat
  | .reg => 32
  | .src => c.src
  | .aux => c.aux
  | .dst => c.dst
  | .smp => c.ch * c.smp
  | .xr => Config.fftSize
  | .xi => Config.fftSize
  | .mag => Config.fftSize
  | .ph => Config.fftSize
  | .profile => Config.nBins

/-! ### How a command ends -/

/-- Why a command's rule stops: `raise Err(CODE)` (R204), or a precondition the spec has a model
refuse. -/
inductive Stop where
  | err (e : ErrCode)
  | refuse (r : Refusal)
deriving DecidableEq, Repr

/-- What a command that raises nothing leaves: the state it wrote and its TRUNC. -/
structure Effect where
  state : State
  trunc : Bool

/-- `if cond: raise Err(e)`. -/
def raiseIf (cond : Bool) (e : ErrCode) : Except Stop Unit :=
  if cond then .error (.err e) else .ok ()

/-- A precondition the spec has a model refuse. -/
def refuseIf (cond : Bool) (r : Refusal) : Except Stop Unit :=
  if cond then .error (.refuse r) else .ok ()

/-- R203, R25: acceptance of the command word w. -/
def accept (s : State) (w : Word) : State :=
  { s with cmd := w, busy := true, isDone := false, err := .none, trunc := false }

/-- R203, R25: completion with error code e and TRUNC t; the word is held no longer (R22; log 4). -/
def complete (s : State) (e : ErrCode) (t : Bool) : State :=
  { s with cmd := 0, busy := false, isDone := true, err := e, trunc := t }

/-- R204: error entry, SAE's one exception mechanism. Nothing but STATUS (and the latched word)
changes; there is no handler and no return (R212). -/
def raiseErr (s : State) (e : ErrCode) : State := complete s e false

/-- How the outcome of a command's rule becomes the outcome of the step. -/
def finish (s : State) : Except Stop Effect → Host.Outcome State Fault Refusal
  | .ok e => .next (complete e.state .none e.trunc)
  | .error (.err c) => .next (raiseErr s c)
  | .error (.refuse r) => .refused r

/-! ### The host's transactions -/

/-- The word a host read of register i returns (R21, R23, R39): CMD reads 0, indices 18 to 31 read
0 (log 14). -/
def State.regWord (s : State) (i : Nat) : Word :=
  match i with
  | 1 => s.statusWord
  | 2 => s.fmt
  | 3 => s.srate
  | 4 => s.srcLen
  | 5 => s.auxLen
  | 6 => s.dstLen
  | 7 => s.smpLen
  | 8 => s.gainf
  | 9 => s.adThresh
  | 10 => s.adRatio
  | 11 => s.adMakeup
  | 12 => s.nrReduct
  | 13 => s.nrFloor
  | 14 => s.nrSmooth
  | 15 => s.ctrl
  | 16 => s.rangeStart
  | 17 => s.rangeEnd
  | _ => 0

/-- R30, R150: the event "a new source buffer is loaded". -/
def loadSource (s : State) (v : Word) : State := { s with srcLen := v, pstate := .unset }

/-- R23, R203: a CMD write while BUSY = 0. An illegal word "starts no operation and completes at
once" (R81; log 3). -/
def writeCmd (s : State) (w : Word) : State :=
  match decode w with
  | .ok _ => accept s w
  | .error _ => raiseErr (accept s w) .illegalCommand

/-- A host write to register i (R21, R28, R30, R37, R39, R62): STATUS, DST_LEN and the reserved
indices ignore it (log 14). -/
def writeReg (s : State) (i : Nat) (v : Word) : State :=
  match i with
  | 0 => writeCmd s v
  | 2 => { s with fmt := v &&& fmtMask }
  | 3 => { s with srate := v }
  | 4 => loadSource s v
  | 5 => { s with auxLen := v }
  | 7 => { s with smpLen := v }
  | 8 => { s with gainf := v }
  | 9 => { s with adThresh := v }
  | 10 => { s with adRatio := v }
  | 11 => { s with adMakeup := v }
  | 12 => { s with nrReduct := v }
  | 13 => { s with nrFloor := v }
  | 14 => { s with nrSmooth := v }
  | 15 => { s with ctrl := v &&& ctrlMask }
  | 16 => { s with rangeStart := v }
  | 17 => { s with rangeEnd := v }
  | _ => s

/-- The value a host read returns where the spec gives one: no value beyond a space's length
(R62), none for an element without a value (R48), none for PROFILE while PSTATE is Unset (R44). -/
def State.peek (s : State) (sp : Space) (i : Nat) : Option Word :=
  if i < spaceLen s.cap sp then
    match sp with
    | .reg => some (s.regWord i)
    | .src => (Memory.read s.src i).map (·.setWidth 32)
    | .aux => (Memory.read s.aux i).map (·.setWidth 32)
    | .dst => (Memory.read s.dst i).map (·.setWidth 32)
    | .smp => Memory.read s.smp i
    | .xr => Memory.read s.xr i
    | .xi => Memory.read s.xi i
    | .mag => Memory.read s.mag i
    | .ph => Memory.read s.ph i
    | .profile => if s.pstate = .unset then none else Memory.read s.profile i
  else none

/-- The free word as an element of the space: a byte where the space holds bytes. -/
def asElement (sp : Space) (w : Word) : Word :=
  match sp with
  | .src => w &&& 0xFF#32
  | .aux => w &&& 0xFF#32
  | .dst => w &&& 0xFF#32
  | .reg => w
  | .smp => w
  | .xr => w
  | .xi => w
  | .mag => w
  | .ph => w
  | .profile => w

/-- R60, R68: HostRead. No side effect; an unspecified value is a free value (log 6). -/
def hostRead (s : State) (sp : Space) (i : Nat) : State :=
  match s.peek sp i with
  | some w => { s with answer := some w }
  | none =>
    { s with answer := some (asElement sp (Config.freeRead s.draws)), draws := s.draws + 1 }

/-- R60, R62: HostWrite. DST, MAG, PH, PROFILE are read-only; an index beyond the space's length is
ignored (log 14). -/
def hostWrite (s : State) (sp : Space) (i : Nat) (v : Word) : State :=
  if i < spaceLen s.cap sp then
    match sp with
    | .reg => writeReg s i v
    | .src => { s with src := Memory.write s.src i (v.setWidth 8) }
    | .aux => { s with aux := Memory.write s.aux i (v.setWidth 8) }
    | .dst => s
    | .smp => { s with smp := Memory.write s.smp i v }
    | .xr => { s with xr := Memory.write s.xr i v }
    | .xi => { s with xi := Memory.write s.xi i v }
    | .mag => s
    | .ph => s
    | .profile => s
  else s

/-- R230, R231: HostReset, at any time; what is left is the reset state of the same machine, with
the rest of the host's script and the model's own counter. -/
def hostReset (s : State) : State :=
  { State.powerOn s.cap with script := s.script, draws := s.draws }

/-- R240, R241: what the host may do while BUSY = 1. -/
def allowedWhileBusy : HostOp → Bool
  | .read .reg 1 => true
  | .read _ _ => false
  | .write _ _ _ => false
  | .reset => true
  | .wait => true

/-- One transaction of the host; the transaction has left the script. `wait` ends here, with a
STATUS read (R86). -/
def hostTurn (s : State) (op : HostOp) : Host.Outcome State Fault Refusal :=
  if s.busy && !allowedWhileBusy op then .refused .hostWhileBusy
  else
    match op with
    | .read sp i => .next (hostRead s sp i)
    | .write sp i v => .next (hostWrite s sp i v)
    | .reset => .next (hostReset s)
    | .wait => .next (hostRead s .reg 1)

end Sys2Proof.Machine
end

