-- ==== Sys2Proof/Machine/Operands.lean ====
section
/-! DEFINITION. How commands get their operands: the format check (`40_codec.md` R102), byte
buffers (R101, R105, `20_memory.md` R66), float elements and parameters
(`93_implementation_defined.md` U1 to U3), and the list shapes between buffers and channels. -/

namespace Sys2Proof.Machine

/-- The supported bit depths (R28, R102). -/
inductive Depth where
  | d8
  | d16
  | d24
deriving DecidableEq, Repr

/-- B = BITS/8 (R100). -/
def Depth.bytes : Depth → Nat
  | .d8 => 1
  | .d16 => 2
  | .d24 => 3

/-- S = SCALE(BITS) (R6, R100). -/
def Depth.scale : Depth → Nat
  | .d8 => 128
  | .d16 => 32768
  | .d24 => 8388608

/-- LO (R100). -/
def Depth.lo (d : Depth) : Int := -(d.scale : Int)
/-- HI (R100). -/
def Depth.hi (d : Depth) : Int := (d.scale : Int) - 1

/-- FMT.BITS as a depth. -/
def Depth.ofBits (n : Nat) : Option Depth :=
  if n = 8 then some .d8 else if n = 16 then some .d16 else if n = 24 then some .d24 else none

/-- The FMT.SIGNED that agrees with a depth (R102). -/
def Depth.signed : Depth → Bool
  | .d8 => false
  | .d16 => true
  | .d24 => true

/-- A format that passed `fmt_check`. -/
structure Format where
  depth : Depth
  be : Bool
  ch : Nat
deriving DecidableEq, Repr

/-- B * CH: the bytes of a frame (R101). -/
def Format.frameBytes (f : Format) : Nat := f.depth.bytes * f.ch

/-- The channel count test of R102, R168, R180. -/
def badChannels (s : State) : Bool := decide (s.fmtCh = 0) || decide (s.cap.ch < s.fmtCh)

/-- The signed flag test of R102. -/
def badSigned (s : State) (d : Depth) : Bool :=
  match Config.signedPolicy with
  | .refuse => s.fmtSigned != d.signed
  | .ignore => false

/-- R102: `fmt_check()`, bit depth first, then channel count, then signed flag (R209). -/
def fmtCheck (s : State) : Except Stop Format :=
  match Depth.ofBits s.fmtBits with
  | none => .error (.err .unsupportedBitDepth)
  | some d =>
    if badChannels s || badSigned s d then .error (.err .unsupportedFormat)
    else .ok { depth := d, be := s.fmtBe, ch := s.fmtCh }

/-- The check of NRPROC and ADPROC: the channel count alone (R168, R180). -/
def chCheck (s : State) : Except Stop Nat :=
  if badChannels s then .error (.err .unsupportedFormat) else .ok s.fmtCh

/-- The elements i to i + n - 1 of a memory; an element without a value is U1. -/
def readAll {α : Type} (sp : Space) (m : Memory α) (i n : Nat) : Except Stop (List α) :=
  match Memory.readRun m i n with
  | .ok vs => .ok vs
  | .error j => .error (.refuse (.unwritten sp j))

/-- The first n groups of `size` elements. -/
def chunks {α : Type} (size : Nat) : Nat → List α → List (List α)
  | 0, _ => []
  | n + 1, l => l.take size :: chunks size n (l.drop size)

/-- Channel c of f frames, from the samples in buffer order (R101). -/
def channelOf (ch f c : Nat) (samples : List Int) : List Int :=
  (chunks ch f samples).map (fun frame => frame.getD c 0)

/-- Buffer order (R101) of per-channel lists, f frames. -/
def interleave {α : Type} : Nat → List (List α) → List α
  | 0, _ => []
  | f + 1, chs => chs.filterMap List.head? ++ interleave f (chs.map List.tail)

/-- The values of float elements from index i on; a non-finite one is U2. -/
def finiteFrom (sp : Space) : Nat → List Word → Except Stop (List Rat)
  | _, [] => .ok []
  | i, w :: ws =>
    match f32 w with
    | none => .error (.refuse (.nonFiniteElement sp i))
    | some q =>
      match finiteFrom sp (i + 1) ws with
      | .ok qs => .ok (q :: qs)
      | .error e => .error e

/-- `f32` of the n elements from index i on (U1, U2). -/
def readFloats (sp : Space) (m : Memory Word) (i n : Nat) : Except Stop (List Rat) :=
  match readAll sp m i n with
  | .ok ws => finiteFrom sp i ws
  | .error e => .error e

/-- SMP of `n` channels from channel c on, f frames each, at `c * SMP_CAP` (R42). -/
def readChannels (cap : Nat) (m : Memory Word) (f : Nat) : Nat → Nat → Except Stop (List (List Rat))
  | _, 0 => .ok []
  | c, n + 1 =>
    match readFloats .smp m (c * cap) f with
    | .error e => .error e
    | .ok x =>
      match readChannels cap m f (c + 1) n with
      | .error e => .error e
      | .ok xs => .ok (x :: xs)

/-- The same without asking for finite values (ENCODE, R111). -/
def readPatterns (cap : Nat) (m : Memory Word) (f : Nat) :
    Nat → Nat → Except Stop (List (List Word))
  | _, 0 => .ok []
  | c, n + 1 =>
    match readAll .smp m (c * cap) f with
    | .error e => .error e
    | .ok x =>
      match readPatterns cap m f (c + 1) n with
      | .error e => .error e
      | .ok xs => .ok (x :: xs)

/-- Channels c, c + 1, … stored to SMP at `c * SMP_CAP` (R42). -/
def writeChannels (cap : Nat) : Memory Word → Nat → List (List Word) → Memory Word
  | m, _, [] => m
  | m, c, x :: xs => writeChannels cap (Memory.writeRun m (c * cap) x) (c + 1) xs

/-- `f32` of parameter register i (U2). -/
def param (i : Nat) (w : Word) : Except Stop Rat :=
  match f32 w with
  | some q => .ok q
  | none => .error (.refuse (.nonFiniteParameter i))

/-- R34, R121: the gain factor, finite. -/
def gainFactor (s : State) : Except Stop Rat := param 8 s.gainf

/-- The parameters of the noise reduction stage (R36). -/
structure NrParams where
  red : Rat
  nf : Rat
  sm : Rat
deriving DecidableEq, Repr

/-- R36, R168, U2, U3: finite, 0 <= smoothingFactor <= 1, noiseFloor > 0, reductionFactor >= 0. -/
def nrParams (s : State) : Except Stop NrParams := do
  let red ← param 12 s.nrReduct
  let nf ← param 13 s.nrFloor
  let sm ← param 14 s.nrSmooth
  refuseIf (decide (red < 0)) (.parameterOutOfRange 12)
  refuseIf (decide (nf ≤ 0)) (.parameterOutOfRange 13)
  refuseIf (decide (sm < 0) || decide (1 < sm)) (.parameterOutOfRange 14)
  pure ⟨red, nf, sm⟩

/-- The parameters of the anti-distortion stage (R35). -/
structure AdParams where
  thr : Rat
  ratio : Rat
  makeup : Rat
deriving DecidableEq, Repr

/-- R35, R180, U2, U3: finite, 0 < threshold <= 1, ratio >= 1, makeupGain > 0. -/
def adParams (s : State) : Except Stop AdParams := do
  let thr ← param 9 s.adThresh
  let ratio ← param 10 s.adRatio
  let makeup ← param 11 s.adMakeup
  refuseIf (decide (thr ≤ 0) || decide (1 < thr)) (.parameterOutOfRange 9)
  refuseIf (decide (ratio < 1)) (.parameterOutOfRange 10)
  refuseIf (decide (makeup ≤ 0)) (.parameterOutOfRange 11)
  pure ⟨thr, ratio, makeup⟩

/-- R181: LAS = floor(rate * 5 / 1000) of a positive rate. -/
def lookAheadOf (rate : Rat) : Nat := (rate.num * 5 / ((rate.den : Int) * 1000)).toNat

/-- R29, R181, U2, U3: the look-ahead length of the sample rate, finite and positive. -/
def lookAhead (s : State) : Except Stop Nat := do
  let rate ← param 3 s.srate
  refuseIf (decide (rate ≤ 0)) (.parameterOutOfRange 3)
  pure (lookAheadOf rate)

/-- R81, R82: the transform length exponent. A decoded command always passes; the test makes every
meaning total on `Instr` (log 27). -/
def lognCheck (logn : BitVec 5) : Except Stop Nat :=
  if lognOk logn then .ok logn.toNat else .error (.err .illegalCommand)

end Sys2Proof.Machine
end

