-- ==== Sys2Proof/Machine/AntiDistortion.lean ====
section
/-! DEFINITION. The anti-distortion stage: ADPROC (`44_anti_distortion.md`). -/

namespace Sys2Proof.Machine

/-- R182: the look-ahead buffer of a signal. -/
def lookAheadBuffer (A : Numerics) (las : Nat) (x : List A.R) : List A.R :=
  x ++ List.replicate las (A.rat 0)

/-- R183: the largest absolute value of a window. -/
def peakOf (A : Numerics) : List A.R → A.R
  | [] => A.rat 0
  | v :: vs => vs.foldl (fun m u => A.max m (A.abs u)) (A.abs v)

/-- R183: the gain of a window whose peak is `peak`. -/
def adGain (A : Numerics) (par : AdParams) (peak : A.R) : A.R :=
  let thr := A.rat par.thr
  let excess := A.sub peak thr
  let dr := A.min (A.rat Config.ratioCap)
    (A.mul (A.rat par.ratio) (A.add (A.rat 1) (A.mul (A.rat 2) excess)))
  A.ifGt peak thr (A.div (A.add thr (A.div excess dr)) peak) (A.rat 1)

/-- R184: `clip(v, soft)`. -/
def clip (A : Numerics) (soft : Bool) (v : A.R) : A.R :=
  if soft then A.div (A.tanh (A.mul v (A.rat Config.softDrive))) (A.rat Config.softDrive)
  else A.max (A.rat (-1)) (A.min (A.rat 1) v)

/-- R183, the loop: `la` is the look-ahead buffer from the current sample on. -/
def adSamples (A : Numerics) (las : Nat) (par : AdParams) (soft : Bool) :
    List A.R → List A.R → List A.R
  | [], _ => []
  | v :: vs, la =>
    let g := adGain A par (peakOf A (la.take (las + 1)))
    clip A soft (A.mul (A.mul v g) (A.rat par.makeup)) :: adSamples A las par soft vs la.tail

/-- R183: `ad_channel(x)`. -/
def adChannel (A : Numerics) (las : Nat) (par : AdParams) (soft : Bool) (x : List A.R) : List A.R :=
  adSamples A las par soft x (lookAheadBuffer A las x)

/-- LA as a channel leaves it (R182; log 8). An empty channel leaves its LAS zeros here, although R180 says
that L = 0 "writes nothing": the model follows R182 (DESIGN CHOICE, log 28). -/
def storeLa (s : State) (las : Nat) (x : List Encl) : State :=
  { s with la := Memory.writeRun s.la 0 (lookAheadBuffer (Numerics.enclosing Config.precision) las x) }

/-- R180, R183: the words a channel stores to SMP. -/
def adStored (las : Nat) (par : AdParams) (soft : Bool) (x : List Rat) : List Word :=
  storeReals (fun A => adChannel A las par soft (x.map A.rat))

/-- R180. -/
def adprocRule (s : State) : Except Stop Effect := do
  let ch ← chCheck s
  let l := s.smpLen.toNat
  raiseIf (decide (s.cap.smp < l)) .capacityExceeded
  let las ← lookAhead s
  raiseIf (decide (s.cap.la < las)) .capacityExceeded
  let par ← adParams s
  let xs ← readChannels s.cap.smp s.smp l 0 ch
  let words := xs.map (adStored las par s.softClip)
  let s1 := storeLa s las ((xs.getLastD []).map Encl.exact)
  pure { state := { s1 with smp := writeChannels s.cap.smp s.smp 0 words }
         trunc := false }

/-- ADPROC (R180). -/
def execAdproc (s : State) : Host.Outcome State Fault Refusal := finish s (adprocRule s)

end Sys2Proof.Machine
end

