-- ==== Sys2Proof/Machine/Codec.lean ====
section
/-! DEFINITION. The PCM codec: DECODE and ENCODE (`40_codec.md`). -/

namespace Sys2Proof.Machine

/-- R8: `sext_N(v)`. -/
def sext (n v : Nat) : Int := if v < 2 ^ (n - 1) then (v : Int) else (v : Int) - 2 ^ n

/-- The unsigned number of little-endian bytes. -/
def leNat : List Byte → Nat
  | [] => 0
  | b :: bs => b.toNat + 256 * leNat bs

/-- R103: `unpack(b, BITS, BE)`; `b` holds the depth's bytes, lowest index first. -/
def unpack (d : Depth) (be : Bool) (b : List Byte) : Int :=
  match d with
  | .d8 => (leNat b : Int) - 128
  | .d16 => sext 16 (leNat (if be then b.reverse else b))
  | .d24 => sext 24 (leNat (if be then b.reverse else b))

/-- R104: `pack(v, BITS, BE)`. -/
def pack (d : Depth) (be : Bool) (v : Int) : List Byte :=
  match d with
  | .d8 => [BitVec.ofInt 8 (v + 128)]
  | .d16 =>
    let u : BitVec 16 := BitVec.ofInt 16 v
    let le := [u.extractLsb' 0 8, u.extractLsb' 8 8]
    if be then le.reverse else le
  | .d24 =>
    let u : BitVec 24 := BitVec.ofInt 24 v
    let le := [u.extractLsb' 0 8, u.extractLsb' 8 8, u.extractLsb' 16 8]
    if be then le.reverse else le

/-- R109: `to_float(v, BITS)`. -/
def toFloat (d : Depth) (v : Int) : Rat := mkRat v d.scale

/-- R106 for a real: scale, round, clamp. -/
def toInt (d : Depth) (s : Rat) : Int :=
  clampInt (roundInt Config.roundTies (s * (d.scale : Rat))) d.lo d.hi

/-- R106, R111: `to_int(f32x(w), BITS)`; a NaN has no encoding. -/
def quantise (d : Depth) : F32x → Option Int
  | .fin s => some (toInt d s)
  | .posInf => some d.hi
  | .negInf => some d.lo
  | .nan => none

/-- The integers of the first k samples of a byte list (R101, R103). -/
def unpackAll (f : Format) (k : Nat) (bytes : List Byte) : List Int :=
  (chunks f.depth.bytes k bytes).map (unpack f.depth f.be)

/-- The bytes of samples in buffer order (R101, R104). -/
def packAll (f : Format) (vs : List Int) : List Byte := vs.flatMap (pack f.depth f.be)

/-- The channels, as reals, of the first `n` frames of a byte list (R101, R103, R109). -/
def decodeFrames (f : Format) (n : Nat) (bytes : List Byte) : List (List Rat) :=
  let samples := unpackAll f (n * f.ch) bytes
  (List.range f.ch).map (fun c => (channelOf f.ch n c samples).map (toFloat f.depth))

/-- `to_int` of a channel's patterns from element i on; a NaN is U2. -/
def quantiseFrom (d : Depth) : Nat → List Word → Except Stop (List Int)
  | _, [] => .ok []
  | i, w :: ws =>
    match quantise d (f32x w) with
    | none => .error (.refuse (.nonFiniteElement .smp i))
    | some v =>
      match quantiseFrom d (i + 1) ws with
      | .ok vs => .ok (v :: vs)
      | .error e => .error e

/-- `to_int` of every channel, channel c at element `c * SMP_CAP`. -/
def quantiseChannels (cap : Nat) (d : Depth) : Nat → List (List Word) → Except Stop (List (List Int))
  | _, [] => .ok []
  | c, x :: xs =>
    match quantiseFrom d (c * cap) x with
    | .error e => .error e
    | .ok v =>
      match quantiseChannels cap d (c + 1) xs with
      | .error e => .error e
      | .ok vs => .ok (v :: vs)

/-- R108's loops: the bytes of n frames of SMP patterns. -/
def encodeFrames (cap : Nat) (f : Format) (n : Nat) (chs : List (List Word)) :
    Except Stop (List Byte) :=
  match quantiseChannels cap f.depth 0 chs with
  | .ok vs => .ok (packAll f (interleave n vs))
  | .error e => .error e

/-- R107. -/
def decodeRule (s : State) : Except Stop Effect := do
  let f ← fmtCheck s
  let len := s.srcLen.toNat
  raiseIf (decide (s.cap.src < len)) .capacityExceeded
  let n := len / f.frameBytes
  raiseIf (decide (s.cap.smp < n)) .capacityExceeded
  let bytes ← readAll .src s.src 0 (n * f.frameBytes)
  let words := (decodeFrames f n bytes).map (·.map rnd32)
  pure { state := { s with smp := writeChannels s.cap.smp s.smp 0 words
                           smpLen := BitVec.ofNat 32 n }
         trunc := truncated len f.frameBytes }

/-- DECODE (R107). -/
def execDecode (s : State) : Host.Outcome State Fault Refusal := finish s (decodeRule s)

/-- R108. -/
def encodeRule (s : State) : Except Stop Effect := do
  let f ← fmtCheck s
  let n := s.smpLen.toNat
  raiseIf (decide (s.cap.smp < n) || decide (s.cap.dst < n * f.frameBytes)) .capacityExceeded
  let chs ← readPatterns s.cap.smp s.smp n 0 f.ch
  let bytes ← encodeFrames s.cap.smp f n chs
  pure { state := { s with dst := Memory.writeRun s.dst 0 bytes
                           dstLen := BitVec.ofNat 32 (n * f.frameBytes) }
         trunc := false }

/-- ENCODE (R108). -/
def execEncode (s : State) : Host.Outcome State Fault Refusal := finish s (encodeRule s)

end Sys2Proof.Machine
end

