-- ==== Sys2Proof/Machine/Gain.lean ====
section
/-! DEFINITION. The gain stage: GAIN (`41_gain.md`). -/

namespace Sys2Proof.Machine

/-- R122: `scale_int(v, g, BITS)`. -/
def scaleInt (d : Depth) (g : Rat) (v : Int) : Int :=
  clampInt (roundInt Config.roundTies ((v : Rat) * g)) d.lo d.hi

/-- R123: `abs(g - 1) < 1/1000`, exactly. -/
def isIdentityGain (g : Rat) : Bool :=
  decide (g - 1 < Config.gainTol) && decide (1 - g < Config.gainTol)

/-- What the gain stage produces: the bytes, and TRUNC. -/
structure GainResult where
  bytes : List Byte
  trunc : Bool
deriving DecidableEq, Repr

/-- R121, R190 stage 1: the gain stage on SRC[0 .. len-1]. -/
def gainStage (s : State) (f : Format) (g : Rat) (len : Nat) : Except Stop GainResult :=
  if isIdentityGain g then
    match readAll .src s.src 0 len with
    | .ok bytes => .ok { bytes, trunc := false }
    | .error e => .error e
  else
    let k := len / f.frameBytes * f.ch
    match readAll .src s.src 0 (k * f.depth.bytes) with
    | .ok bytes =>
      .ok { bytes := packAll f ((unpackAll f k bytes).map (scaleInt f.depth g))
            trunc := truncated len f.frameBytes }
    | .error e => .error e

/-- The result bytes to DST[0 ..], their number to DST_LEN (R121, R190). -/
def storeDst (s : State) (bytes : List Byte) : State :=
  { s with dst := Memory.writeRun s.dst 0 bytes, dstLen := BitVec.ofNat 32 bytes.length }

/-- R121. -/
def gainRule (s : State) : Except Stop Effect := do
  let f ← fmtCheck s
  let len := s.srcLen.toNat
  raiseIf (decide (s.cap.src < len) || decide (s.cap.dst < len)) .capacityExceeded
  let g ← gainFactor s
  let r ← gainStage s f g len
  pure { state := storeDst s r.bytes, trunc := r.trunc }

/-- GAIN (R121). -/
def execGain (s : State) : Host.Outcome State Fault Refusal := finish s (gainRule s)

end Sys2Proof.Machine
end

