-- ==== Sys2Proof/Machine/Spectral.lean ====
section
/-! DEFINITION. The spectral engine: FFT, IFFT, MAGPH (`42_spectral.md`). The transform of R139 is
written once over the operations its butterflies use; the noise reduction stage runs it on pairs of
`Numerics` values, and the FFT and IFFT commands on exact cyclotomic numbers (log 11). -/

namespace Sys2Proof.Machine

/-- R132: `rev(j, logn)`. -/
def bitRev : Nat → Nat → Nat
  | 0, _ => 0
  | logn + 1, j => j % 2 * 2 ^ logn + bitRev logn (j / 2)

/-- The operations of a butterfly: complex sum, difference, and product with a twiddle factor. -/
structure FftOps (T C : Type) where
  add : C → C → C
  sub : C → C → C
  mulW : T → C → C

/-- R139, one block of a stage: `u + v` for the lower half and `u - v` for the upper, with v the
upper input times the twiddle factor. -/
def butterflies {T C : Type} (o : FftOps T C) (tw : List T) (blk : List C) : List C :=
  let u := blk.take tw.length
  let v := List.zipWith o.mulW tw (blk.drop tw.length)
  List.zipWith o.add u v ++ List.zipWith o.sub u v

/-- R139, the stage whose m/2 twiddle factors are `tw`, on `blocks` blocks of size m. -/
def stage {T C : Type} (o : FftOps T C) (y : List C) (tw : List T) : List C :=
  (chunks (2 * tw.length) (y.length / (2 * tw.length)) y).flatMap (butterflies o tw)

/-- R139: `fft(x)` of 2^logn complex numbers: bit reversal, then the stages m = 2, 4, …, N with
their twiddle factors `tws`. -/
def fft {T C : Type} (o : FftOps T C) (zero : C) (tws : List (List T)) (logn : Nat) (x : List C) :
    List C :=
  tws.foldl (stage o) ((List.range (2 ^ logn)).map (fun j => x.getD (bitRev logn j) zero))

/-! ### Complex numbers over a `Numerics` -/

/-- A complex number: real part, imaginary part. -/
abbrev Cplx (A : Numerics) := A.R × A.R

namespace Cplx

def conj {A : Numerics} (c : Cplx A) : Cplx A := (c.1, A.neg c.2)

/-- R131: `W(m, k) = cos(2 pi k / m) - i sin(2 pi k / m)`. -/
def twiddle (A : Numerics) (m k : Nat) : Cplx A := (A.cosTurn k m, A.neg (A.sinTurn k m))

def ops (A : Numerics) : FftOps (Cplx A) (Cplx A) where
  add a b := (A.add a.1 b.1, A.add a.2 b.2)
  sub a b := (A.sub a.1 b.1, A.sub a.2 b.2)
  mulW w c := (A.sub (A.mul w.1 c.1) (A.mul w.2 c.2), A.add (A.mul w.1 c.2) (A.mul w.2 c.1))

def zero (A : Numerics) : Cplx A := (A.rat 0, A.rat 0)

/-- The twiddle factors of the stages m = 2, 4, …, 2^logn. -/
def twiddles (A : Numerics) (logn : Nat) : List (List (Cplx A)) :=
  (List.range logn).map (fun t => (List.range (2 ^ t)).map (twiddle A (2 ^ (t + 1))))

/-- R136: `ifft(X)`: conjugate, `fft`, conjugate, divide by N. -/
def ifft (A : Numerics) (tws : List (List (Cplx A))) (logn : Nat) (x : List (Cplx A)) :
    List (Cplx A) :=
  let n := A.rat ((2 ^ logn : Nat) : Rat)
  (fft (ops A) (zero A) tws logn (x.map conj)).map
    (fun c => (A.div (conj c).1 n, A.div (conj c).2 n))

/-- R135, R154: `sqrt(Re² + Im²)`. -/
def magnitude (A : Numerics) (c : Cplx A) : A.R :=
  A.sqrt (A.add (A.mul c.1 c.1) (A.mul c.2 c.2))

/-- R135, R154: `atan2(Im, Re)`. -/
def phase (A : Numerics) (c : Cplx A) : A.R := A.atan2 c.2 c.1

end Cplx

/-! ### Cyclotomic numbers: the exact arithmetic of the FFT and IFFT commands

With `M = max 4 N` and `z = exp(2 pi i / M)`, a number is its list of M/2 integer coordinates in
1, z, …, z^(M/2 - 1), in units of 2^-149. The operands are such numbers (i = z^(M/4)), a twiddle
factor is a power of z, so every butterfly is exact. -/

namespace Cyc

/-- M. -/
def order (logn : Nat) : Nat := max 4 (2 ^ logn)

def zero (m : Nat) : List Int := List.replicate (m / 2) 0

/-- The number with real part a and imaginary part b. -/
def ofUnits (m : Nat) (a b : Int) : List Int := ((zero m).set (m / 4) b).set 0 a

/-- Product with z^e, 0 <= e < M, where z^(M/2) = -1. -/
def rotate (m e : Nat) (c : List Int) : List Int :=
  let half := m / 2
  let k := e % half
  let r := (c.drop (half - k)).map (fun x => -x) ++ c.take (half - k)
  if e < half then r else r.map (fun x => -x)

/-- Twiddle factors by their power of z: `W(m, k) = z^(M - k * M / m)`. -/
def twiddles (logn : Nat) : List (List Nat) :=
  let big := order logn
  (List.range logn).map (fun t =>
    (List.range (2 ^ t)).map (fun k => (big - k * (big / 2 ^ (t + 1))) % big))

def ops (m : Nat) : FftOps Nat (List Int) where
  add := List.zipWith (fun a b => a + b)
  sub := List.zipWith (fun a b => a - b)
  mulW := rotate m

/-- Coordinates in 1 and cos(2 pi j / M), 1 <= j < M/4, of the real part: cos of M/2 - j eighth…
turns is minus that of j, and cos of the quarter turn is 0. -/
def realPart (m : Nat) (c : List Int) : List Int :=
  let q := m / 4
  c.getD 0 0 :: List.zipWith (fun a b => a - b) ((c.take q).drop 1) (c.drop (q + 1)).reverse

/-- The same of the imaginary part: sin of j is cos of M/4 - j, and of M/4 + j is cos of j. -/
def imagPart (m : Nat) (c : List Int) : List Int :=
  let q := m / 4
  c.getD q 0 :: List.zipWith (fun a b => a + b) ((c.take q).drop 1).reverse (c.drop (q + 1))

/-- Cosines of 2 pi j / M for 1 <= j < M/4, as intervals. -/
def cosines (p m : Nat) : List Ivl :=
  let pi := Ivl.pi p
  ((List.range (m / 4)).drop 1).map (fun j =>
    ((Encl.cosQuarter p pi j m).toIvl p).getD ⟨-(2 ^ p), 2 ^ p⟩)

/-- Sum of `d * x` over paired lists, passing over d = 0. -/
def weighted : List Int → List Ivl → Ivl
  | d :: ds, x :: xs => if d = 0 then weighted ds xs else (x.scale d).add (weighted ds xs)
  | _, _ => ⟨0, 0⟩

/-- The real with cosine coordinates `d`, in units of 1/den: exact when it is rational (the cosines
of a power-of-two order are linearly independent over the rationals), else an enclosure. So a tie of
`rnd32` is always exact here (log 11). -/
def value (p den : Nat) (cs : List Ivl) (d : List Int) : Encl :=
  match d with
  | [] => .exact 0
  | d0 :: ds =>
    if ds.all (· == 0) then .exact (mkRat d0 den)
    else
      let s := (weighted ds cs).add (Ivl.ofInt p d0)
      .ofIvl p (some (s.divNat den))

/-- `fft` of N operands given in units. -/
def transform (logn : Nat) (re im : List Int) : List (List Int) :=
  let m := order logn
  fft (ops m) (zero m) (twiddles logn) logn (List.zipWith (ofUnits m) re im)

/-- The degree and height of a real with cosine coordinates `d`, in units of 1/den (log 7). -/
def separation (m den : Nat) (d : List Int) : Sep :=
  ⟨m.log2 + 1, (d.foldl (fun n x => n + Int.natAbs x) 0).log2 + den.log2 + 4, false⟩

/-- A transform's values by their cosine coordinates, in units of 1/den: real parts and imaginary
parts. -/
structure Parts where
  order : Nat
  den : Nat
  re : List (List Int)
  im : List (List Int)
deriving DecidableEq, Repr

/-- The enclosures of precision p of a transform's real or imaginary parts `ds`. -/
def Parts.enclosed (t : Parts) (ds : List (List Int)) (p : Nat) : List Encl :=
  let cs := cosines p t.order
  ds.map (value p t.den cs)

/-- The words stored for a transform's real or imaginary parts `ds`. -/
def Parts.stored (t : Parts) (ds : List (List Int)) : List Word :=
  storeFloats (t.enclosed ds) (fun _ => Sep.levelsOf (ds.map (separation t.order t.den)))

end Cyc

/-! ### The commands -/

/-- A float element in units of 2^-149 (finite by `finiteFrom`). -/
def unitsOf (q : Rat) : Int := q.num * ((2 ^ 149 / q.den : Nat) : Int)

/-- R133: the exact spectrum. -/
def fftParts (logn : Nat) (re im : List Rat) : Cyc.Parts :=
  let m := Cyc.order logn
  let x := Cyc.transform logn (re.map unitsOf) (im.map unitsOf)
  { order := m, den := 2 ^ 149
    re := (List.range (2 ^ logn)).map (fun k => Cyc.realPart m (x.getD k []))
    im := (List.range (2 ^ logn)).map (fun k => Cyc.imagPart m (x.getD k [])) }

/-- R134, R136: conjugate, `fft`, conjugate, divide by N. -/
def ifftParts (logn : Nat) (re im : List Rat) : Cyc.Parts :=
  let m := Cyc.order logn
  let x := Cyc.transform logn (re.map unitsOf) ((im.map unitsOf).map (fun b => -b))
  { order := m, den := 2 ^ 149 * 2 ^ logn
    re := (List.range (2 ^ logn)).map (fun k => Cyc.realPart m (x.getD k []))
    im := (List.range (2 ^ logn)).map (fun k => (Cyc.imagPart m (x.getD k [])).map (fun b => -b)) }

/-- The common part of R133 and R134: operands XR, XI below N, results in their place. For N = 1 the
rules' pseudocode stores 0x00000000 for the pattern 0x80000000, and their corner case says the element
is left unchanged; the pseudocode is followed (log 9). -/
def transformRule (parts : Nat → List Rat → List Rat → Cyc.Parts) (logn : BitVec 5) (s : State) :
    Except Stop Effect := do
  let n ← lognCheck logn
  let re ← readFloats .xr s.xr 0 (2 ^ n)
  let im ← readFloats .xi s.xi 0 (2 ^ n)
  let t := parts n re im
  pure { state := { s with xr := Memory.writeRun s.xr 0 (t.stored t.re)
                           xi := Memory.writeRun s.xi 0 (t.stored t.im) }
         trunc := false }

/-- FFT (R133). -/
def execFft (logn : BitVec 5) (s : State) : Host.Outcome State Fault Refusal :=
  finish s (transformRule fftParts logn s)

/-- IFFT (R134). -/
def execIfft (logn : BitVec 5) (s : State) : Host.Outcome State Fault Refusal :=
  finish s (transformRule ifftParts logn s)

/-- R135: the magnitudes of the operands. -/
def magnitudes (A : Numerics) (re im : List Rat) : List A.R :=
  List.zipWith (fun a b => Cplx.magnitude A (A.rat a, A.rat b)) re im

/-- R135: the phases of the operands. -/
def phases (A : Numerics) (re im : List Rat) : List A.R :=
  List.zipWith (fun a b => Cplx.phase A (A.rat a, A.rat b)) re im

/-- R135. -/
def magphRule (logn : BitVec 5) (s : State) : Except Stop Effect := do
  let n ← lognCheck logn
  let re ← readFloats .xr s.xr 0 (2 ^ n)
  let im ← readFloats .xi s.xi 0 (2 ^ n)
  pure { state := { s with mag := Memory.writeRun s.mag 0 (storeReals (magnitudes · re im))
                           ph := Memory.writeRun s.ph 0 (storeReals (phases · re im)) }
         trunc := false }

/-- MAGPH (R135). -/
def execMagph (logn : BitVec 5) (s : State) : Host.Outcome State Fault Refusal :=
  finish s (magphRule logn s)

end Sys2Proof.Machine
end

