-- ==== Sys2Proof/Machine/NoiseReduction.lean ====
section
/-! DEFINITION. The noise reduction stage: NRLEARN, NRLEARNR, NRRESET, NRPROC
(`43_noise_reduction.md`). -/

namespace Sys2Proof.Machine

/-- R151: `hop_frames(L)`. -/
def hopFrames (l : Nat) : Nat :=
  if l < Config.fftSize then 0 else (l - Config.fftSize) / Config.hopSize + 1

/-- R151: `block_frames(L)`. -/
def blockFrames (l : Nat) : Nat := l / Config.fftSize

/-- The fixed tables of R153 and R131 (R46: not state). -/
structure NrTables (A : Numerics) where
  window : List A.R
  tws : List (List (Cplx A))

/-- R153: `w[n]`. -/
def hann (A : Numerics) (n : Nat) : A.R :=
  A.mul (A.rat (mkRat 1 2)) (A.sub (A.rat 1) (A.cosTurn n Config.hannDenom))

def nrTables (A : Numerics) : NrTables A where
  window := (List.range Config.fftSize).map (hann A)
  tws := Cplx.twiddles A Config.lognMax

/-- R154: `spectrum(x, o)`, bins 0 to N/2. -/
def spectrum (A : Numerics) (t : NrTables A) (x : List A.R) (o : Nat) : List (Cplx A) :=
  let z := List.zipWith (fun a w => (A.mul a w, A.rat 0)) (x.drop o) t.window
  (fft (Cplx.ops A) (Cplx.zero A) t.tws Config.lognMax z).take Config.nBins

/-- Bin b of a list of per-bin values; bins are below NBINS. -/
def bin {A : Numerics} (l : List A.R) (b : Nat) : A.R := l.getD b (A.rat 0)

/-- R155: sums over the frames of `mag(spectrum(x, o))[b]`. -/
def magnitudeSums (A : Numerics) (t : NrTables A) (x : List A.R) : List Nat → List A.R
  | [] => List.replicate Config.nBins (A.rat 0)
  | o :: os =>
    List.zipWith A.add ((spectrum A t x o).map (Cplx.magnitude A)) (magnitudeSums A t x os)

/-- R155: the entries `max(a, PROFILE_EPS)` of `set_profile(x, starts)`. -/
def profileEntries (A : Numerics) (x : List A.R) (starts : List Nat) : List A.R :=
  let sums := magnitudeSums A (nrTables A) x starts
  let k := starts.length
  (List.range Config.nBins).map (fun b =>
    let a := if k = 0 then A.rat 0 else A.div (bin sums b) (A.rat (k : Rat))
    A.max a (A.rat Config.profileEps))

/-- R152: the frame offsets of `auto_estimate` on L samples. -/
def autoStarts (l : Nat) : List Nat :=
  (List.range (min Config.autoFrames (blockFrames l))).map (· * Config.fftSize)

/-- R156: the frame offsets of `learn` on L samples. -/
def learnStarts (l : Nat) : List Nat := (List.range (hopFrames l)).map (· * Config.hopSize)

/-- R155: the words of a profile. -/
def profileStored (x : List Rat) (starts : List Nat) : List Word :=
  storeReals (fun A => profileEntries A (x.map A.rat) starts)

/-- R155: PROFILE written from the signal and PSTATE set. -/
def setProfile (s : State) (x : List Rat) (starts : List Nat) (ps : PState) : State :=
  { s with profile := Memory.writeRun s.profile 0 (profileStored x starts)
           pstate := ps }

/-- R43, R245: XR and XI have no value after a command that uses the transform datapath. -/
def clobberTransform (s : State) : State := { s with xr := [], xi := [] }

/-! ### Learning -/

/-- Channel LEARN_CHANNEL of frames a to a + n - 1 of a byte buffer (R160, R163); only the bytes of
that channel are read. -/
def learnSignal (sp : Space) (m : Memory Byte) (f : Format) (a : Nat) : Nat → Except Stop (List Rat)
  | 0 => .ok []
  | n + 1 =>
    match readAll sp m ((a * f.ch + Config.learnChannel) * f.depth.bytes) f.depth.bytes with
    | .error e => .error e
    | .ok b =>
      match learnSignal sp m f (a + 1) n with
      | .error e => .error e
      | .ok xs => .ok (toFloat f.depth (unpack f.depth f.be b) :: xs)

/-- R156 and the ends of R160 and R163: `learn` over frames a to a + n - 1 of a buffer. A selection
shorter than a frame is a no-op with InvalidSelectionRange, decided before the samples are read. -/
def learnRule (s : State) (sp : Space) (m : Memory Byte) (f : Format) (a n len : Nat) :
    Except Stop Effect := do
  raiseIf (decide (hopFrames n = 0)) .invalidSelectionRange
  let x ← learnSignal sp m f a n
  pure { state := clobberTransform (setProfile s x (learnStarts n) .learned)
         trunc := truncated len f.frameBytes }

/-- R160. -/
def nrlearnRule (s : State) : Except Stop Effect := do
  let f ← fmtCheck s
  let len := s.auxLen.toNat
  raiseIf (decide (s.cap.aux < len)) .capacityExceeded
  learnRule s .aux s.aux f 0 (len / f.frameBytes) len

/-- NRLEARN (R160). -/
def execNrlearn (s : State) : Host.Outcome State Fault Refusal := finish s (nrlearnRule s)

/-- R163. -/
def nrlearnrRule (s : State) : Except Stop Effect := do
  let f ← fmtCheck s
  let len := s.srcLen.toNat
  raiseIf (decide (s.cap.src < len)) .capacityExceeded
  let a := s.rangeStart.toNat
  let e := s.rangeEnd.toNat
  raiseIf (decide (e ≤ a) || decide (len / f.frameBytes < e)) .invalidSelectionRange
  learnRule s .src s.src f a (e - a) len

/-- NRLEARNR (R163). -/
def execNrlearnr (s : State) : Host.Outcome State Fault Refusal := finish s (nrlearnrRule s)

/-- NRRESET (R166). -/
def execNrreset (s : State) : Host.Outcome State Fault Refusal :=
  finish s (.ok { state := { s with pstate := .unset }, trunc := false })

/-! ### Processing -/

/-- The operands of `nr_channel` besides the signal (R170). -/
structure NrSetup where
  par : NrParams
  /-- `P[b]` -/
  profile : List Rat
deriving DecidableEq, Repr

/-- R171: step 3, `max(0, 1 - (NR_K * red * P[b]) / max(m, nf))`. -/
def suppression (A : Numerics) (par : NrParams) (pb : Rat) (m : A.R) : A.R :=
  A.max (A.rat 0) (A.sub (A.rat 1)
    (A.div (A.mul (A.rat (Config.nrK * par.red)) (A.rat pb)) (A.max m (A.rat par.nf))))

/-- R172: step 4, `sm * g + (1 - sm) * (PREVMAG[b] / max(m, SMOOTH_EPS))`. -/
def smoothed (A : Numerics) (par : NrParams) (g prev m : A.R) : A.R :=
  A.add (A.mul (A.rat par.sm) g)
    (A.mul (A.rat (1 - par.sm)) (A.div prev (A.max m (A.rat Config.smoothEps))))

/-- R170, steps 3 to 5 of one bin: the scaled magnitude m2. `prev` is PREVMAG[b], absent in the
first frame. -/
def scaledMagnitude (A : Numerics) (par : NrParams) (pb : Rat) (prev : Option A.R) (c : Cplx A) :
    A.R :=
  let m := Cplx.magnitude A c
  let g := suppression A par pb m
  match prev with
  | none => A.mul m g
  | some pm => A.mul m (smoothed A par g pm m)

/-- R170, R173: `Y[b] = m2 * cos(p) + i * m2 * sin(p)` with p the phase of the bin. -/
def rebuilt (A : Numerics) (m2 : A.R) (c : Cplx A) : Cplx A :=
  (A.mul m2 (A.cosAtan2 c.2 c.1), A.mul m2 (A.sinAtan2 c.2 c.1))

/-- R173: bins N/2 + 1 to N - 1 are the conjugates of bins N/2 - 1 down to 1. -/
def mirrored {A : Numerics} (y : List (Cplx A)) : List (Cplx A) :=
  y ++ (((y.take (Config.nBins - 1)).drop 1).reverse).map Cplx.conj

/-- `y[o + n] + t[n]` for the elements of t. -/
def addAt (A : Numerics) : Nat → List A.R → List A.R → List A.R
  | _, [], _ => []
  | 0, y :: ys, [] => y :: ys
  | 0, y :: ys, t :: ts => A.add y t :: addAt A 0 ys ts
  | o + 1, y :: ys, ts => y :: addAt A o ys ts

/-- What the frames so far leave: the output, and PREVMAG with the spectrum whose phases are
PREVPH, absent before the first frame. -/
structure NrTrack (A : Numerics) where
  out : List A.R
  prevMag : Option (List A.R)
  last : List (Cplx A)

/-- R170, the body of the loop over frames, at offset o. -/
def nrFrame (A : Numerics) (t : NrTables A) (u : NrSetup) (x : List A.R) (k : NrTrack A) (o : Nat) :
    NrTrack A :=
  let spec := spectrum A t x o
  let bins := (List.range Config.nBins).zip spec
  let m2s := bins.map (fun e =>
    scaledMagnitude A u.par (u.profile.getD e.1 0) (k.prevMag.map (fun l => bin l e.1)) e.2)
  let y := mirrored (List.zipWith (rebuilt A) m2s spec)
  let frame := List.zipWith
    (fun (c : Cplx A) w => A.mul (A.mul c.1 w) (A.rat Config.olaScale))
    (Cplx.ifft A t.tws Config.lognMax y) t.window
  { out := addAt A o k.out frame, prevMag := some m2s, last := spec }

/-- R175: the samples no full frame covers start as NR_TAIL says, all others as 0. -/
def nrStart (A : Numerics) (x : List A.R) : List A.R :=
  match Config.nrTail with
  | .zero => x.map (fun _ => A.rat 0)
  | .passthrough =>
    let covered :=
      if hopFrames x.length = 0 then 0
      else (hopFrames x.length - 1) * Config.hopSize + Config.fftSize
    (x.take covered).map (fun _ => A.rat 0) ++ x.drop covered

/-- R170: `nr_channel(x)` after the auto-estimation step. -/
def nrChannel (A : Numerics) (u : NrSetup) (x : List A.R) : NrTrack A :=
  let t := nrTables A
  (learnStarts x.length).foldl (nrFrame A t u x)
    { out := nrStart A x, prevMag := none, last := [] }

/-- R152, R170's first line: the state after the auto-estimation step on channel 0. -/
def autoEstimated (s : State) (x : List Rat) : State :=
  if s.pstate = .unset then setProfile s x (autoStarts x.length) .autoEstimated else s

/-- `P[b]` for every bin, read when the L samples of a channel hold a frame (R170; U1, U2). -/
def readProfile (s : State) (l : Nat) : Except Stop (List Rat) :=
  if hopFrames l = 0 then .ok [] else readFloats .profile s.profile 0 Config.nBins

/-- PREVMAG and PREVPH as a channel's frames leave them (R170, R45; log 8). -/
def storeHiddenNr (s : State) (k : NrTrack (Numerics.enclosing Config.precision)) : State :=
  match k.prevMag with
  | none => s
  | some m2s =>
    { s with
      prevMag := Memory.writeRun s.prevMag 0 m2s
      prevPh := Memory.writeRun s.prevPh 0
        (k.last.map (Cplx.phase (Numerics.enclosing Config.precision))) }

/-- `nr_channel` with p fraction bits. -/
def nrRun (p : Nat) (u : NrSetup) (x : List Rat) : NrTrack (Numerics.enclosing p) :=
  nrChannel (Numerics.enclosing p) u (x.map (Numerics.enclosing p).rat)

/-- R168, R170: the words a channel stores to SMP. -/
def nrStored (u : NrSetup) (x : List Rat) : List Word :=
  storeReals (fun A => (nrChannel A u (x.map A.rat)).out)

/-- R168. -/
def nrprocRule (s : State) : Except Stop Effect := do
  let ch ← chCheck s
  let l := s.smpLen.toNat
  raiseIf (decide (s.cap.smp < l)) .capacityExceeded
  let par ← nrParams s
  let xs ← readChannels s.cap.smp s.smp l 0 ch
  let s1 := autoEstimated s (xs.getD 0 [])
  let profile ← readProfile s1 l
  let u := NrSetup.mk par profile
  let words := xs.map (nrStored u)
  let s2 := storeHiddenNr s1 (nrRun Config.precision u (xs.getLastD []))
  pure { state := clobberTransform
           { s2 with smp := writeChannels s.cap.smp s.smp 0 words }
         trunc := false }

/-- NRPROC (R168). -/
def execNrproc (s : State) : Host.Outcome State Fault Refusal := finish s (nrprocRule s)

end Sys2Proof.Machine
end

