-- ==== Sys2Proof/Machine/Orchestrator.lean ====
section
/-! DEFINITION. The pipeline orchestrator: PROCESS (`45_orchestrator.md`). -/

namespace Sys2Proof.Machine

/-- The enabled float stages with their operands (R191); an absent one is disabled. -/
structure Stages where
  nr : Option NrSetup
  /-- look-ahead length, parameters, SOFTCLIP -/
  ad : Option (Nat × AdParams × Bool)
deriving DecidableEq, Repr

/-- The stages of one channel before the store (R190, R192): the reals that enter anti-distortion
are those that leave noise reduction, with no rounding between. -/
structure ChainOut (A : Numerics) where
  /-- the signal that enters anti-distortion -/
  mid : List A.R
  /-- the noise reduction stage's trace, when it ran -/
  track : Option (NrTrack A)
  /-- the signal that is stored -/
  out : List A.R

/-- R190: `if nr: S[c] = nr_channel(S[c])`, `if ad: S[c] = ad_channel(S[c])`. -/
def chain (A : Numerics) (st : Stages) (x : List A.R) : ChainOut A :=
  let track := st.nr.map (fun u => nrChannel A u x)
  let mid := (track.map (·.out)).getD x
  { mid, track
    out := match st.ad with
      | some (las, par, soft) => adChannel A las par soft mid
      | none => mid }

/-- `chain` with p fraction bits. -/
def chainRun (p : Nat) (st : Stages) (x : List Rat) : ChainOut (Numerics.enclosing p) :=
  chain (Numerics.enclosing p) st (x.map (Numerics.enclosing p).rat)

/-- R190: the words a channel stores to SMP. -/
def chainStored (st : Stages) (x : List Rat) : List Word :=
  storeReals (fun A => (chain A st (x.map A.rat)).out)

/-- The hidden memories as the stages leave them (R45, R170, R182; log 8). -/
def storeHidden (s : State) (st : Stages) (k : ChainOut (Numerics.enclosing Config.precision)) :
    State :=
  let s1 := match k.track with
    | some t => storeHiddenNr s t
    | none => s
  match st.ad with
  | some (las, _, _) => storeLa s1 las k.mid
  | none => s1

/-- R190: the operands of the anti-distortion stage when CTRL.AD_EN = 1, its capacity test first. -/
def processAd (s : State) : Except Stop (Option (Nat × AdParams × Bool)) :=
  if s.adEn then do
    let las ← lookAhead s
    raiseIf (decide (s.cap.la < las)) .capacityExceeded
    let par ← adParams s
    pure (some (las, par, s.softClip))
  else pure none

/-- R190: the parameters of the noise reduction stage when CTRL.NR_EN = 1. -/
def processNr (s : State) : Except Stop (Option NrParams) :=
  if s.nrEn then do
    let par ← nrParams s
    pure (some par)
  else pure none

/-- R190, the float branch: decode the gained bytes, run the stages per channel, store SMP, encode
it. -/
def floatStages (s : State) (f : Format) (n : Nat) (nr : Option NrParams)
    (ad : Option (Nat × AdParams × Bool)) (bytes : List Byte) : Except Stop State := do
  let xs := decodeFrames f n bytes
  let s1 := if nr.isSome then autoEstimated s (xs.getD 0 []) else s
  let setup ← match nr with
    | some par => do
      let profile ← readProfile s1 n
      pure (some (NrSetup.mk par profile))
    | none => pure none
  let st : Stages := { nr := setup, ad := ad }
  let words := xs.map (chainStored st)
  let out ← encodeFrames s.cap.smp f n words
  let s2 := storeHidden s1 st (chainRun Config.precision st (xs.getLastD []))
  let s3 := { s2 with smp := writeChannels s.cap.smp s.smp 0 words
                      smpLen := BitVec.ofNat 32 n }
  pure (storeDst (if nr.isSome then clobberTransform s3 else s3) out)

/-- R190. -/
def processRule (s : State) : Except Stop Effect := do
  let f ← fmtCheck s
  let len := s.srcLen.toNat
  let n := len / f.frameBytes
  raiseIf (decide (s.cap.src < len) || decide (s.cap.dst < len)) .capacityExceeded
  raiseIf ((s.nrEn || s.adEn) && decide (s.cap.smp < n)) .capacityExceeded
  let ad ← processAd s
  let g ← gainFactor s
  let nr ← processNr s
  let r ← gainStage s f g len
  if s.nrEn || s.adEn then do
    let s' ← floatStages s f n nr ad r.bytes
    pure { state := s', trunc := truncated len f.frameBytes }
  else pure { state := storeDst s r.bytes, trunc := r.trunc }

/-- PROCESS (R190). -/
def execProcess (s : State) : Host.Outcome State Fault Refusal := finish s (processRule s)

end Sys2Proof.Machine
end

