-- ==== Sys2Proof/Machine/Dispatch.lean ====
section
/-! DEFINITION. One arm per command (`30_encoding.md` R83). -/

namespace Sys2Proof.Machine

open Host

/-- The meaning of each command, on the state its acceptance left. -/
def exec (i : Instr) (s : State) : Host.Outcome State Fault Refusal :=
  match i with
  | .decode => Sys2Proof.Machine.execDecode s
  | .encode => Sys2Proof.Machine.execEncode s
  | .gain => Sys2Proof.Machine.execGain s
  | .fft logn => Sys2Proof.Machine.execFft logn s
  | .ifft logn => Sys2Proof.Machine.execIfft logn s
  | .magph logn => Sys2Proof.Machine.execMagph logn s
  | .nrlearn => Sys2Proof.Machine.execNrlearn s
  | .nrlearnr => Sys2Proof.Machine.execNrlearnr s
  | .nrreset => Sys2Proof.Machine.execNrreset s
  | .nrproc => Sys2Proof.Machine.execNrproc s
  | .adproc => Sys2Proof.Machine.execAdproc s
  | .process => Sys2Proof.Machine.execProcess s

end Sys2Proof.Machine
end

