-- ==== Sys2Proof/Machine/Engine.lean ====
section
/-! DEFINITION. The engine's turn: it runs the latched command word to completion
(`10_state.md` R22, R23, `20_memory.md` R70, R73). -/

namespace Sys2Proof.Machine

/-- R81, R203: with BUSY = 1 the latched word's command runs, an illegal word completes with
IllegalCommand; with BUSY = 0 "the engine is idle with all state retained" (R217). -/
def engineTurn (s : State) : Host.Outcome State Fault Refusal :=
  if s.busy then
    match decode s.cmd with
    | .ok i => exec i s
    | .error _ => .next (raiseErr s .illegalCommand)
  else .next s

/-- The command word that a table's numbering of its bits gives; bits from nbits up are 0. -/
def tableWord (nbits w : Nat) : Word := BitVec.ofNat 32 (w % 2 ^ nbits)

end Sys2Proof.Machine
end

