-- ==== Sys2Proof/Machine/Step.lean ====
section
/-! DEFINITION. One step of SAE and its host (log 2, log 3). -/

namespace Sys2Proof.Machine

/-- One step. The script says who moves: the host's next transaction, or the engine when the host
has nothing left to do or waits for BUSY to clear (R86). -/
def step (s : State) : Host.Outcome State Fault Refusal :=
  match s.script with
  | [] => engineTurn s
  | op :: rest =>
    if op = .wait ∧ s.busy = true then engineTurn s else hostTurn { s with script := rest } op

/-- The state in which the command word has been accepted (R203) and the host waits for it, so that
the next step runs it. -/
def State.withFetchWord (s : State) (nbits w : Nat) : State :=
  { accept s (tableWord nbits w) with script := .wait :: s.script }

end Sys2Proof.Machine
end

