-- ==== Sys2Proof/Machine/Reference.lean ====
section
/-! DEFINITION. The reference numerics of `00_scope.md` R11 over the real numbers, what it means for an
enclosure to hold a real, and the rules' formulas for the transforms, the noise reduction stage and the
anti-distortion stage, written out over the reals without the machine's code. The machine does not
evaluate these; statements about what it computes are made with them (log 7). -/

namespace Sys2Proof.Machine

open Classical in
/-- R10, R11: exact real arithmetic. `atan2 y x` is the angle in (-pi, pi] of the point (x, y), 0 at
the origin, which is `Complex.arg`. -/
noncomputable abbrev Numerics.real : Numerics where
  R := ℝ
  rat q := (q : ℝ)
  add a b := a + b
  sub a b := a - b
  mul a b := a * b
  div a b := a / b
  neg a := -a
  abs a := |a|
  max a b := Max.max a b
  min a b := Min.min a b
  sqrt a := Real.sqrt a
  cosTurn k m := Real.cos (2 * Real.pi * k / m)
  sinTurn k m := Real.sin (2 * Real.pi * k / m)
  atan2 y x := Complex.arg ⟨x, y⟩
  cosAtan2 y x := Real.cos (Complex.arg ⟨x, y⟩)
  sinAtan2 y x := Real.sin (Complex.arg ⟨x, y⟩)
  tanh a := Real.tanh a
  ifGt a b t e := if b < a then t else e

/-- The real is among those the interval of precision p stands for. -/
def Ivl.holds (p : Nat) (a : Ivl) (r : ℝ) : Prop :=
  (a.lo : ℝ) ≤ r * 2 ^ p ∧ r * 2 ^ p ≤ (a.hi : ℝ)

/-- The value of a combination of the window's cosines. -/
noncomputable def CosSum.value (c : CosSum) : ℝ :=
  (c.map (fun t => (t.2 : ℝ) * Real.cos (2 * Real.pi * t.1 / 2047))).sum

/-- The real is among those the enclosure stands for. -/
def Encl.holds : Encl → ℝ → Prop
  | .exact q, r => r = (q : ℝ)
  | .lin c p lo hi, r => r = c.value ∧ Ivl.holds p ⟨lo, hi⟩ r
  | .span p lo hi, r => Ivl.holds p ⟨lo, hi⟩ r
  | .any, _ => True

/-- The natural number nearest x >= 0, ties to even. -/
noncomputable def nearestEven (x : ℝ) : Nat :=
  if x - ⌊x⌋₊ < 1 / 2 then ⌊x⌋₊
  else if 1 / 2 < x - ⌊x⌋₊ then ⌊x⌋₊ + 1
  else ⌊x⌋₊ + ⌊x⌋₊ % 2

/-- `magPattern` of a real magnitude. -/
noncomputable def magPatternReal (t : ℝ) : Nat :=
  let u := (⌊t * 2 ^ 149⌋₊).log2 - 23
  min (u * 2 ^ 23 + nearestEven (t * 2 ^ 149 / 2 ^ u)) 0x7F800000

open Classical in
/-- R10: `bits32(rnd32(r))` of a real r; `rnd32` is its restriction to the rationals. -/
noncomputable def rndReal (r : ℝ) : Word :=
  BitVec.ofNat 32
    (if r < 0 ∧ magPatternReal |r| ≠ 0 then 2 ^ 31 + magPatternReal |r| else magPatternReal |r|)

/-- R139: the discrete Fourier transform, real and imaginary part of
`X[k] = sum over n of x[n] * exp(-2 pi i k n / N)`. -/
noncomputable def dft (n : Nat) (re im : List ℝ) (k : Nat) : ℂ :=
  ∑ j ∈ Finset.range n,
    ((re.getD j 0 : ℂ) + (im.getD j 0 : ℂ) * Complex.I) *
      Complex.exp (-(2 * Real.pi * k * j / n : ℝ) * Complex.I)

/-- R136: `x[n] = (1/N) * sum over k of X[k] * exp(+2 pi i k n / N)`. -/
noncomputable def idft (n : Nat) (re im : List ℝ) (j : Nat) : ℂ :=
  (∑ k ∈ Finset.range n,
    ((re.getD k 0 : ℂ) + (im.getD k 0 : ℂ) * Complex.I) *
      Complex.exp ((2 * Real.pi * k * j / n : ℝ) * Complex.I)) / n

/-! ### Noise reduction -/

/-- R153: `w[n]`. -/
noncomputable def hannReal (n : Nat) : ℝ := (1 - Real.cos (2 * Real.pi * n / 2047)) / 2

/-- R154: bin b of `spectrum(x, o)`. -/
noncomputable def spectrumReal (x : List ℝ) (o b : Nat) : ℂ :=
  ∑ n ∈ Finset.range 2048, ((x.getD (o + n) 0 * hannReal n : ℝ) : ℂ) *
    Complex.exp (-(2 * Real.pi * b * n / 2048 : ℝ) * Complex.I)

/-- R155: entry b of `set_profile(x, starts)` before its store. -/
noncomputable def profileReal (x : List ℝ) (starts : List Nat) (b : Nat) : ℝ :=
  max ((starts.map (fun o => ‖spectrumReal x o b‖)).sum / starts.length) (1 / 1000000)

/-- R170 to R172: m2 of frame j and bin b, with `P` the profile's entries. -/
noncomputable def scaledReal (par : NrParams) (P : Nat → ℝ) (x : List ℝ) : Nat → Nat → ℝ
  | 0, b =>
    let m := ‖spectrumReal x 0 b‖
    m * max 0 (1 - 5 * par.red * P b / max m par.nf)
  | j + 1, b =>
    let m := ‖spectrumReal x ((j + 1) * 512) b‖
    let g := max 0 (1 - 5 * par.red * P b / max m par.nf)
    m * (par.sm * g + (1 - par.sm) * (scaledReal par P x j b / max m (1 / 1000000)))

/-- R170: `Y[b]` of frame j for the bins 0 to 1024, from the scaled magnitude and the phase. -/
noncomputable def rebuiltReal (par : NrParams) (P : Nat → ℝ) (x : List ℝ) (j b : Nat) : ℂ :=
  scaledReal par P x j b * Complex.exp (Complex.arg (spectrumReal x (j * 512) b) * Complex.I)

/-- R173: `Y[b]` of frame j for all bins, those above 1024 the conjugates of their mirror images. -/
noncomputable def mirroredReal (par : NrParams) (P : Nat → ℝ) (x : List ℝ) (j b : Nat) : ℂ :=
  if b ≤ 1024 then rebuiltReal par P x j b
  else (starRingEnd ℂ) (rebuiltReal par P x j (2048 - b))

/-- R174: `Re(t[n]) * w[n] * OLA_SCALE` of frame j. -/
noncomputable def frameReal (par : NrParams) (P : Nat → ℝ) (x : List ℝ) (j n : Nat) : ℝ :=
  ((∑ b ∈ Finset.range 2048, mirroredReal par P x j b *
    Complex.exp ((2 * Real.pi * b * n / 2048 : ℝ) * Complex.I)) / 2048).re * hannReal n / 2

/-- R170, R175: `y[k]` of `nr_channel(x)`, the sum over the full frames that cover sample k. -/
noncomputable def nrReal (par : NrParams) (P : Nat → ℝ) (x : List ℝ) (k : Nat) : ℝ :=
  ∑ j ∈ Finset.range (if x.length < 2048 then 0 else (x.length - 2048) / 512 + 1),
    if j * 512 ≤ k ∧ k < j * 512 + 2048 then frameReal par P x j (k - j * 512) else 0

/-! ### Anti-distortion -/

/-- R182, R183: the peak of the window of sample i, `LA` being the signal and zeros. -/
noncomputable def peakReal (las : Nat) (x : List ℝ) (i : Nat) : ℝ :=
  (Finset.Icc i (i + las)).sup' (Finset.nonempty_Icc.2 (Nat.le_add_right i las))
    (fun j => |x.getD j 0|)

open Classical in
/-- R183: the gain at a peak. -/
noncomputable def gainReal (par : AdParams) (peak : ℝ) : ℝ :=
  if par.thr < peak then
    (par.thr + (peak - par.thr) / min 20 (par.ratio * (1 + 2 * (peak - par.thr)))) / peak
  else 1

/-- R184: `clip(v, soft)`. -/
noncomputable def clipReal (soft : Bool) (v : ℝ) : ℝ :=
  if soft then Real.tanh (v * (3 / 2)) / (3 / 2) else max (-1) (min 1 v)

end Sys2Proof.Machine
end

