-- ==== Sys2Proof/Safety.lean ====
section
/-! DEFINITION. What a safe step is, the invariant of SAE, and the conditions under which the
statements say a command executes. -/

namespace Sys2Proof.Machine

/-- The step has an outcome the spec defines: SAE has no stop of its own, so only a refusal is
unsafe to go past. -/
def State.safe (s : State) : Prop := ∃ t, step s = .next t

/-- Every memory is in canonical form and within its length (R40). -/
def State.memWf (s : State) : Bool :=
  Memory.wf s.cap.src s.src && Memory.wf s.cap.aux s.aux && Memory.wf s.cap.dst s.dst &&
    Memory.wf (s.cap.ch * s.cap.smp) s.smp && Memory.wf Config.fftSize s.xr &&
    Memory.wf Config.fftSize s.xi && Memory.wf Config.fftSize s.mag &&
    Memory.wf Config.fftSize s.ph && Memory.wf Config.nBins s.profile &&
    Memory.wf Config.nBins s.prevMag && Memory.wf Config.nBins s.prevPh &&
    Memory.wf (s.cap.smp + s.cap.la) s.la

/-- Reserved bits of FMT and CTRL read 0 (R28, R37); a word is latched only while BUSY (R22, R23);
BUSY and DONE exclude each other (R25); DST_LEN bytes fit DST (R32, R202). -/
def State.regWf (s : State) : Bool :=
  (s.fmt &&& fmtMask == s.fmt) && (s.ctrl &&& ctrlMask == s.ctrl) && (s.busy || s.cmd == 0) &&
    !(s.busy && s.isDone) && decide (s.dstLen.toNat ≤ s.cap.dst)

/-- While PSTATE is not Unset every PROFILE entry has a value (R44, R150). -/
def State.profileWf (s : State) : Bool :=
  decide (s.pstate = .unset) ||
    (List.range Config.nBins).all (fun b => (Memory.read s.profile b).isSome)

/-- The invariant every step keeps. -/
def State.Inv (s : State) : Prop :=
  s.cap.wf = true ∧ s.memWf = true ∧ s.regWf = true ∧ s.profileWf = true

/-- R102 passes with format f: a supported depth, 1 <= CH <= CH_MAX, and a signed flag that agrees
with the depth. -/
def FormatIs (s : State) (f : Format) : Prop :=
  Depth.ofBits s.fmtBits = some f.depth ∧ f.be = s.fmtBe ∧ f.ch = s.fmtCh ∧
    1 ≤ s.fmtCh ∧ s.fmtCh ≤ s.cap.ch ∧ s.fmtSigned = f.depth.signed

/-- Elements i, i + 1, … of a memory hold the values `vs`. -/
def Holds {α : Type} (m : Memory α) (i : Nat) (vs : List α) : Prop :=
  ∀ k (h : k < vs.length), Memory.read m (i + k) = some vs[k]

/-- Elements i, i + 1, … of a float memory hold finite patterns with the values `qs`. -/
def HoldsFloats (m : Memory Word) (i : Nat) (qs : List Rat) : Prop :=
  ∀ k (h : k < qs.length), ∃ w, Memory.read m (i + k) = some w ∧ f32 w = some qs[k]

/-- SMP holds finite samples: channel c of `xs` at `c * SMP_CAP`, each of l frames (R42). -/
def HoldsChannels (s : State) (l : Nat) (xs : List (List Rat)) : Prop :=
  ∀ c (h : c < xs.length), xs[c].length = l ∧ HoldsFloats s.smp (c * s.cap.smp) xs[c]

/-- The parameters of the noise reduction stage are `par`, finite and in the ranges of R36. -/
def NrParamsAre (s : State) (par : NrParams) : Prop :=
  f32 s.nrReduct = some par.red ∧ f32 s.nrFloor = some par.nf ∧ f32 s.nrSmooth = some par.sm ∧
    0 ≤ par.red ∧ 0 < par.nf ∧ 0 ≤ par.sm ∧ par.sm ≤ 1

/-- The sample rate is `rate`, finite and positive (R29), its look-ahead fits LA (R181, R202), and the
parameters of the anti-distortion stage are `par`, finite and in the ranges of R35. -/
def AdParamsAre (s : State) (rate : Rat) (par : AdParams) : Prop :=
  f32 s.srate = some rate ∧ 0 < rate ∧ lookAheadOf rate ≤ s.cap.la ∧
    f32 s.adThresh = some par.thr ∧ f32 s.adRatio = some par.ratio ∧
    f32 s.adMakeup = some par.makeup ∧ 0 < par.thr ∧ par.thr ≤ 1 ∧ 1 ≤ par.ratio ∧
    0 < par.makeup

/-- `P` of R170 for signals of l samples: PROFILE's values, finite; not read when no frame fits. -/
def ProfileIs (s : State) (l : Nat) (prof : List Rat) : Prop :=
  if l < 2048 then prof = [] else prof.length = 1025 ∧ HoldsFloats s.profile 0 prof

/-- U3: a value of parameter register k outside its range (R29, R35, R36). -/
def OutOfRange (k : Nat) (q : Rat) : Prop :=
  (k = 3 ∧ q ≤ 0) ∨ (k = 9 ∧ (q ≤ 0 ∨ 1 < q)) ∨ (k = 10 ∧ q < 1) ∨ (k = 11 ∧ q ≤ 0) ∨
    (k = 12 ∧ q < 0) ∨ (k = 13 ∧ q ≤ 0) ∨ (k = 14 ∧ (q < 0 ∨ 1 < q))

/-- The state after a command completed without error: STATUS and the latched word (R25). -/
def completed (s : State) (t : Bool) : State :=
  { s with cmd := 0, busy := false, isDone := true, err := .none, trunc := t }

/-- The state after a command ended with error e (R204). -/
def erred (s : State) (e : ErrCode) : State :=
  { s with cmd := 0, busy := false, isDone := true, err := e, trunc := false }

end Sys2Proof.Machine
end

