-- ==== Sys2Proof/Certificates/Slice0/Obligations.lean ====
section
/-! DEFINITION. The statements about SAE for the provers. Each docstring names the rule of `spec/` it
formalises, or the log entry it rests on. -/

open Sys2Proof Sys2Proof.Machine

/-! ### Encoding -/

/-- R80 to R83: every well-formed command is the decoding of its own command word. -/
def Obligations.DecodeOfEncodeIsIdentity : Prop :=
  ∀ i : Instr, i.wf = true → decode (encode i) = .ok i

/-- R80 to R84: a word the decoder accepts is the encoding of the well-formed command it gives, so no
bit of a legal word is dropped; and the legal words are exactly those R81 says: op in 7:0; for the nine
format Z opcodes bits 31:8 are 0; for the three format L opcodes bits 31:13 are 0 and bits 12:8 at most
11. -/
def Obligations.LegalWordsAreTheTwelveEncodings : Prop :=
  (∀ (w : Word) (i : Instr), decode w = .ok i → i.wf = true ∧ encode i = w) ∧
  ∀ w : Word, (∃ i, decode w = .ok i) ↔
    (w.toNat % 256 ∈ [1, 2, 3, 7, 8, 9, 10, 11, 12] ∧ w.toNat / 256 = 0) ∨
      (w.toNat % 256 ∈ [4, 5, 6] ∧ w.toNat / 8192 = 0 ∧ w.toNat / 256 % 32 ≤ 11)

/-- R80, R83: command words written out from the encoding tables. -/
def Obligations.WrittenOutWordsDecode : Prop :=
  decode 0x00000001#32 = .ok .decode ∧ decode 0x0000000C#32 = .ok .process ∧
    decode 0x00000304#32 = .ok (.fft 3) ∧ decode 0x00000B05#32 = .ok (.ifft 11) ∧
    decode 0x00000B06#32 = .ok (.magph 11) ∧ decode 0x0000000B#32 = .ok .adproc

/-! ### The step, acceptance and completion -/

/-- R22, R23, R203: with a command latched (BUSY = 1) and the host done or waiting, a step is exactly
the meaning of the decoded command on the present state; the step adds nothing around it. -/
def Obligations.StepRunsTheDecodedCommand : Prop :=
  ∀ (s : State) (i : Instr), s.busy = true → decode s.cmd = .ok i →
    (s.script = [] ∨ ∃ rest, s.script = .wait :: rest) → step s = exec i s

/-- R203: acceptance of a legal command word: BUSY <- 1, DONE <- 0, ERR <- 0, TRUNC <- 0, the word
latched, nothing else changed; the engine's next turn runs the command, which ends with BUSY = 0 and
DONE = 1 (and with CMD cleared, log 4). Acceptance and completion are two steps (log 3). -/
def Obligations.AcceptedCommandIsLatchedRunAndCompleted : Prop :=
  ∀ (s : State) (w : Word) (i : Instr) (rest : List HostOp), s.busy = false →
    s.script = .write .reg 0 w :: rest → decode w = .ok i →
    ∃ t, step s = .next t ∧
      t = { s with script := rest, cmd := w, busy := true, isDone := false, err := .none,
                   trunc := false } ∧
      engineTurn t = exec i t ∧
      ∀ u, exec i t = .next u → u.busy = false ∧ u.isDone = true ∧ u.cmd = 0

/-- R81, R205: an illegal word completes at once with IllegalCommand; no register but STATUS and no
memory changes (log 3: acceptance and completion are then one step). -/
def Obligations.IllegalWordCompletesAtOnce : Prop :=
  ∀ (s : State) (w : Word) (rest : List HostOp), s.busy = false →
    s.script = .write .reg 0 w :: rest → (∀ i, decode w ≠ .ok i) →
    step s = .next { s with script := rest, cmd := 0, busy := false, isDone := true,
                            err := .illegalCommand, trunc := false }

/-- R217, R86, R60, R71: with nothing latched the engine's turn changes nothing, and a step performs
exactly the host's next transaction, a write as `hostWrite` and a read as `hostRead` says, and takes it
from the script (the script is log 2); `wait` lets the engine run while BUSY = 1 and reads STATUS once it
is 0. -/
def Obligations.IdleEngineKeepsStateAndWaitEnds : Prop :=
  (∀ s : State, s.busy = false → s.script = [] → step s = .next s) ∧
  (∀ (s : State) (sp : Space) (i : Nat) (v : Word) (rest : List HostOp), s.busy = false →
    s.script = .write sp i v :: rest → step s = .next (hostWrite { s with script := rest } sp i v)) ∧
  (∀ (s : State) (sp : Space) (i : Nat) (rest : List HostOp), s.busy = false →
    s.script = .read sp i :: rest → step s = .next (hostRead { s with script := rest } sp i)) ∧
  ∀ (s : State) (rest : List HostOp), s.script = .wait :: rest →
    (s.busy = true → step s = engineTurn s) ∧
      (s.busy = false →
        step s = .next { s with script := rest, answer := some s.statusWord })

/-- R240, R241, U5: while BUSY = 1 a CMD write, and every transaction that is not a read of STATUS, is
refused; a read of STATUS answers it with bit 0 set and changes nothing else. -/
def Obligations.BusyMachineRefusesTheHost : Prop :=
  ∀ (s : State) (op : HostOp) (rest : List HostOp), s.busy = true → s.script = op :: rest →
    ((∀ sp i v, op = .write sp i v → step s = .refused .hostWhileBusy) ∧
      (∀ sp i, op = .read sp i → ¬(sp = .reg ∧ i = 1) → step s = .refused .hostWhileBusy) ∧
      (op = .read .reg 1 →
        step s = .next { s with script := rest, answer := some s.statusWord } ∧
          s.statusWord.getLsbD 0 = true))

/-! ### Registers, STATUS, reset -/

/-- R24, R200: the fields of STATUS as the host reads them; bits 31:9 read 0 and PSTATE is never 3. -/
def Obligations.StatusWordHasItsFields : Prop :=
  ∀ s : State, s.statusWord.getLsbD 0 = s.busy ∧ s.statusWord.getLsbD 1 = s.isDone ∧
    (s.statusWord.extractLsb' 2 2).toNat =
      (match s.pstate with | .unset => 0 | .autoEstimated => 1 | .learned => 2) ∧
    (s.statusWord.extractLsb' 4 4).toNat =
      (match s.err with
        | .none => 0 | .unsupportedBitDepth => 1 | .invalidSelectionRange => 3
        | .illegalCommand => 4 | .unsupportedFormat => 5 | .capacityExceeded => 6) ∧
    s.statusWord.getLsbD 8 = s.trunc ∧ s.statusWord.toNat < 512

/-- R47: after reset every register of R21 holds 0, STATUS is 0 (not busy, not done, Unset, no
error), and the pattern 0 is the value 0. -/
def Obligations.ResetRegistersAreZero : Prop :=
  (∀ i, State.reset.regWord i = 0) ∧ State.reset.cmd = 0 ∧ State.reset.busy = false ∧
    State.reset.isDone = false ∧ State.reset.pstate = .unset ∧ State.reset.err = .none ∧
    State.reset.trunc = false ∧ f32 0#32 = some 0

/-- R230: `HostReset()` at any time, a command in flight or not, makes every register 0, discards the
latched word, and leaves no memory element with a value. The capacities, the rest of the host's
script and the draw counter are the model's own (log 1, log 2, log 6). -/
def Obligations.HostResetClearsEverything : Prop :=
  ∀ (s : State) (rest : List HostOp), s.script = .reset :: rest →
    ∃ t, step s = .next t ∧ (∀ i, t.regWord i = 0) ∧ t.cmd = 0 ∧ t.busy = false ∧
      t.isDone = false ∧ t.pstate = .unset ∧ t.err = .none ∧ t.trunc = false ∧
      (∀ a, Memory.read t.src a = none ∧ Memory.read t.aux a = none ∧ Memory.read t.dst a = none ∧
        Memory.read t.smp a = none ∧ Memory.read t.xr a = none ∧ Memory.read t.xi a = none ∧
        Memory.read t.mag a = none ∧ Memory.read t.ph a = none ∧
        Memory.read t.profile a = none ∧ Memory.read t.prevMag a = none ∧
        Memory.read t.prevPh a = none ∧ Memory.read t.la a = none) ∧
      t.cap = s.cap ∧ t.script = rest ∧ t.draws = s.draws

/-- R30: a host write of SRC_LEN, with any value, stores it and sets PSTATE to Unset and changes
nothing else; no command writes SRC_LEN. -/
def Obligations.SourceLengthWriteUnsetsProfile : Prop :=
  (∀ (s : State) (v : Word), hostWrite s .reg 4 v = { s with srcLen := v, pstate := .unset }) ∧
    ∀ (i : Instr) (s t : State), exec i s = .next t → t.srcLen = s.srcLen

/-- R39 (the hardware's behaviour; log 14): a reserved register index reads 0 and ignores writes;
reserved bits of FMT (R28), CTRL (R37) and STATUS (R24) read 0 and ignore writes, and a write of FMT or
CTRL changes nothing but its other bits. -/
def Obligations.ReservedRegistersAndBitsReadZero : Prop :=
  (∀ (s : State) (i : Nat) (v : Word), 18 ≤ i → i < 32 →
    hostWrite s .reg i v = s ∧ hostRead s .reg i = { s with answer := some 0 }) ∧
  (∀ (s : State) (v : Word),
    hostWrite s .reg 2 v = { s with fmt := v &&& 0x00FF03FF#32 } ∧ s.regWord 2 = s.fmt ∧
    hostWrite s .reg 15 v = { s with ctrl := v &&& 0x00000007#32 } ∧ s.regWord 15 = s.ctrl ∧
    hostWrite s .reg 1 v = s ∧ (s.regWord 1).toNat < 512)

/-- R21, R29, R31, R33 to R36, R38, R62: a host write of a plain register stores the value in that
register and changes nothing else, and the register of that index reads as the value stored. Host writes
to DST, MAG, PH, PROFILE, STATUS and DST_LEN are ignored, as is a write beyond a space's length (the
hardware's behaviour; log 14); CMD reads 0, and STATUS, SRC_LEN and DST_LEN read as what they hold. -/
def Obligations.HostRegisterWritesAndReads : Prop :=
  (∀ (s : State) (v : Word),
    hostWrite s .reg 3 v = { s with srate := v } ∧ s.regWord 3 = s.srate ∧
    hostWrite s .reg 5 v = { s with auxLen := v } ∧ s.regWord 5 = s.auxLen ∧
    hostWrite s .reg 7 v = { s with smpLen := v } ∧ s.regWord 7 = s.smpLen ∧
    hostWrite s .reg 8 v = { s with gainf := v } ∧ s.regWord 8 = s.gainf ∧
    hostWrite s .reg 9 v = { s with adThresh := v } ∧ s.regWord 9 = s.adThresh ∧
    hostWrite s .reg 10 v = { s with adRatio := v } ∧ s.regWord 10 = s.adRatio ∧
    hostWrite s .reg 11 v = { s with adMakeup := v } ∧ s.regWord 11 = s.adMakeup ∧
    hostWrite s .reg 12 v = { s with nrReduct := v } ∧ s.regWord 12 = s.nrReduct ∧
    hostWrite s .reg 13 v = { s with nrFloor := v } ∧ s.regWord 13 = s.nrFloor ∧
    hostWrite s .reg 14 v = { s with nrSmooth := v } ∧ s.regWord 14 = s.nrSmooth ∧
    hostWrite s .reg 16 v = { s with rangeStart := v } ∧ s.regWord 16 = s.rangeStart ∧
    hostWrite s .reg 17 v = { s with rangeEnd := v } ∧ s.regWord 17 = s.rangeEnd ∧
    s.regWord 0 = 0 ∧ s.regWord 1 = s.statusWord ∧ s.regWord 4 = s.srcLen ∧
    s.regWord 6 = s.dstLen) ∧
  ∀ (s : State) (i : Nat) (v : Word),
    hostWrite s .dst i v = s ∧ hostWrite s .mag i v = s ∧ hostWrite s .ph i v = s ∧
      hostWrite s .profile i v = s ∧ hostWrite s .reg 1 v = s ∧ hostWrite s .reg 6 v = s ∧
      ∀ sp, spaceLen s.cap sp ≤ i → hostWrite s sp i v = s

/-- R40, R44, R48, R62, R68: a host read answers the value there, a byte extended by zeros (log 16), and
changes nothing else: REG its registers, every memory its elements within the length of R40, PROFILE its
own unless PSTATE is Unset. Where there is no value (an element without one, PROFILE while Unset, an
index beyond the length) it answers the free value and advances the model's counter (log 6, log 14). -/
def Obligations.HostReadsAnswerWhatIsHeld : Prop :=
  ∀ (s : State) (sp : Space) (i : Nat),
    (∀ w, s.peek sp i = some w → hostRead s sp i = { s with answer := some w }) ∧
    (s.peek sp i = none → hostRead s sp i =
      { s with answer := some (asElement sp (Config.freeRead s.draws)), draws := s.draws + 1 }) ∧
    s.peek .reg i = (if i < 32 then some (s.regWord i) else none) ∧
    s.peek .src i = (if i < s.cap.src then (Memory.read s.src i).map (·.setWidth 32) else none) ∧
    s.peek .aux i = (if i < s.cap.aux then (Memory.read s.aux i).map (·.setWidth 32) else none) ∧
    s.peek .dst i = (if i < s.cap.dst then (Memory.read s.dst i).map (·.setWidth 32) else none) ∧
    s.peek .smp i = (if i < s.cap.ch * s.cap.smp then Memory.read s.smp i else none) ∧
    s.peek .xr i = (if i < 2048 then Memory.read s.xr i else none) ∧
    s.peek .xi i = (if i < 2048 then Memory.read s.xi i else none) ∧
    s.peek .mag i = (if i < 2048 then Memory.read s.mag i else none) ∧
    s.peek .ph i = (if i < 2048 then Memory.read s.ph i else none) ∧
    s.peek .profile i =
      (if i < 1025 ∧ s.pstate ≠ .unset then Memory.read s.profile i else none)

/-- R60, R68, R71, R243: a host write to SRC, AUX, SMP, XR or XI writes that memory and nothing else: no
register, no STATUS field (PSTATE keeps its value even when SRC is written), no other memory. What is
written to an element is what reads back there, and every other element reads as before. -/
def Obligations.HostWriteIsReadBack : Prop :=
  (∀ (s : State) (i : Nat) (v : Word),
    (i < s.cap.src →
      hostWrite s .src i v = { s with src := Memory.write s.src i (v.setWidth 8) }) ∧
    (i < s.cap.aux →
      hostWrite s .aux i v = { s with aux := Memory.write s.aux i (v.setWidth 8) }) ∧
    (i < s.cap.ch * s.cap.smp → hostWrite s .smp i v = { s with smp := Memory.write s.smp i v }) ∧
    (i < 2048 → hostWrite s .xr i v = { s with xr := Memory.write s.xr i v } ∧
      hostWrite s .xi i v = { s with xi := Memory.write s.xi i v })) ∧
  ∀ (s : State) (sp : Space) (i j : Nat) (v : Word), sp ∈ [Space.src, .aux, .smp, .xr, .xi] →
    i < spaceLen s.cap sp →
    (hostWrite s sp i v).peek sp i =
        some (if sp ∈ [Space.src, .aux] then v &&& 0xFF#32 else v) ∧
      (j ≠ i → (hostWrite s sp i v).peek sp j = s.peek sp j)

/-! ### Errors -/

/-- R204: a command that ends with an error changes nothing but STATUS (and gives up the latched word,
log 4), and completes with TRUNC = 0. -/
def Obligations.ErroringCommandChangesOnlyStatus : Prop :=
  ∀ (i : Instr) (s t : State), exec i s = .next t → t.err ≠ .none →
    t = { s with cmd := 0, busy := false, isDone := true, err := t.err, trunc := false }

/-- R201: an unsupported bit depth ends the six commands of the byte buffers with UnsupportedBitDepth,
before anything else is looked at (R209): the command does nothing and the engine is ready for the next
one. No other command ever reports it, NRPROC and ADPROC among them. -/
def Obligations.UnsupportedBitDepthIsReported : Prop :=
  (∀ (i : Instr) (s : State),
    i ∈ [Instr.decode, .encode, .gain, .nrlearn, .nrlearnr, .process] →
    s.fmtBits ≠ 8 → s.fmtBits ≠ 16 → s.fmtBits ≠ 24 →
    exec i s = .next (erred s .unsupportedBitDepth)) ∧
  ∀ (i : Instr) (s t : State), exec i s = .next t → t.err = .unsupportedBitDepth →
    i ∈ [Instr.decode, .encode, .gain, .nrlearn, .nrlearnr, .process]

/-- R206: channel count 0 or above CH_MAX, or a signed flag that disagrees with a supported depth, ends
the six buffer commands with UnsupportedFormat; the channel count alone does for NRPROC and ADPROC, and
nothing else makes a command report it. -/
def Obligations.UnsupportedFormatIsReported : Prop :=
  (∀ (i : Instr) (s : State) (d : Depth),
    i ∈ [Instr.decode, .encode, .gain, .nrlearn, .nrlearnr, .process] →
    Depth.ofBits s.fmtBits = some d →
    (s.fmtCh = 0 ∨ s.cap.ch < s.fmtCh ∨ s.fmtSigned ≠ d.signed) →
    exec i s = .next (erred s .unsupportedFormat)) ∧
  (∀ (i : Instr) (s : State), i ∈ [Instr.nrproc, .adproc] →
    (s.fmtCh = 0 ∨ s.cap.ch < s.fmtCh) → exec i s = .next (erred s .unsupportedFormat)) ∧
  ∀ (i : Instr) (s t : State), exec i s = .next t → t.err = .unsupportedFormat →
    (i ∈ [Instr.nrproc, .adproc] ∧ (s.fmtCh = 0 ∨ s.cap.ch < s.fmtCh)) ∨
      (i ∈ [Instr.decode, .encode, .gain, .nrlearn, .nrlearnr, .process] ∧
        ∃ d, Depth.ofBits s.fmtBits = some d ∧
          (s.fmtCh = 0 ∨ s.cap.ch < s.fmtCh ∨ s.fmtSigned ≠ d.signed))

/-- R202: the capacity comparisons of the commands. That each is reported before any operand of U1 to U3
is read is the model's choice (log 13), as is that ADPROC and PROCESS compare SMP_LEN (or the frame count)
before they look at SRATE, and the look-ahead before the other parameters. -/
def Obligations.CapacityExceededIsReported : Prop :=
  ∀ (s : State) (f : Format), FormatIs s f →
    (s.cap.src < s.srcLen.toNat →
      ∀ i ∈ [Instr.decode, .gain, .nrlearnr, .process],
        exec i s = .next (erred s .capacityExceeded)) ∧
    (s.cap.aux < s.auxLen.toNat → exec .nrlearn s = .next (erred s .capacityExceeded)) ∧
    (s.cap.dst < s.srcLen.toNat →
      ∀ i ∈ [Instr.gain, .process], exec i s = .next (erred s .capacityExceeded)) ∧
    (s.cap.smp < s.srcLen.toNat / f.frameBytes →
      exec .decode s = .next (erred s .capacityExceeded) ∧
        ((s.nrEn || s.adEn) = true → exec .process s = .next (erred s .capacityExceeded))) ∧
    (s.cap.smp < s.smpLen.toNat →
      ∀ i ∈ [Instr.encode, .nrproc, .adproc], exec i s = .next (erred s .capacityExceeded)) ∧
    (s.cap.dst < s.smpLen.toNat * f.frameBytes →
      exec .encode s = .next (erred s .capacityExceeded)) ∧
    (∀ q, f32 s.srate = some q → 0 < q → s.cap.la < lookAheadOf q →
      exec .adproc s = .next (erred s .capacityExceeded) ∧
        (s.adEn = true → exec .process s = .next (erred s .capacityExceeded)))

/-- R207: an empty or out-of-bounds range, or a selection shorter than FFT_SIZE = 2048 samples, is a
no-op with InvalidSelectionRange. That this is reported whatever the samples are, unwritten ones among
them, is the model's choice (log 13): R160 and R163 read the samples before the length is looked at. -/
def Obligations.InvalidSelectionIsReported : Prop :=
  ∀ (s : State) (f : Format), FormatIs s f →
    (s.srcLen.toNat ≤ s.cap.src →
      (s.rangeEnd.toNat ≤ s.rangeStart.toNat ∨
        s.srcLen.toNat / f.frameBytes < s.rangeEnd.toNat ∨
        s.rangeEnd.toNat - s.rangeStart.toNat < 2048) →
      exec .nrlearnr s = .next (erred s .invalidSelectionRange)) ∧
    (s.auxLen.toNat ≤ s.cap.aux → s.auxLen.toNat / f.frameBytes < 2048 →
      exec .nrlearn s = .next (erred s .invalidSelectionRange))

/-- U1, U2, U3, R34, R35, R36, R48, R111: no command faults (SAE has no fault, log 23), and one that is
refused names a true cause: an element that holds no value, a non-finite element or parameter, or a
parameter outside its range. PROFILE is read after the auto-estimation step of R152; an entry of it that
is infinite is refused under U2 (log 25). -/
def Obligations.CommandsAreRefusedOnlyForCause : Prop :=
  ∀ (i : Instr) (s : State) (o : Host.Outcome State Fault Refusal), s.memWf = true → exec i s = o →
    match o with
    | .next _ => True
    | .fault _ => False
    | .refused (.unwritten sp k) =>
      (sp ≠ .profile ∧ s.peek sp k = none) ∨
        (sp = .profile ∧ s.pstate ≠ .unset ∧ Memory.read s.profile k = none)
    | .refused (.nonFiniteElement sp k) =>
      (sp ≠ .profile ∧ ∃ w, s.peek sp k = some w ∧ f32 w = none) ∨
        (sp = .profile ∧ s.pstate ≠ .unset ∧
          ∃ w, Memory.read s.profile k = some w ∧ f32 w = none) ∨
        (sp = .profile ∧ s.pstate = .unset ∧ ∃ x w,
          ((i = .nrproc ∧ x.length = s.smpLen.toNat ∧ HoldsFloats s.smp 0 x) ∨
            (i = .process ∧ ∃ f g r, FormatIs s f ∧ f32 s.gainf = some g ∧
              gainStage s f g s.srcLen.toNat = .ok r ∧
              x = (decodeFrames f (s.srcLen.toNat / f.frameBytes) r.bytes).getD 0 [])) ∧
          (profileStored x ((List.range (min 10 (x.length / 2048))).map (· * 2048)))[k]? = some w ∧
          f32 w = none)
    | .refused (.nonFiniteParameter k) => f32 (s.regWord k) = none
    | .refused (.parameterOutOfRange k) => ∃ q, f32 (s.regWord k) = some q ∧ OutOfRange k q
    | .refused _ => False

/-! ### Codec -/

/-- R64, R103, R104: the integer of a sample's bytes, lowest index first, is the byte less 128, or the
two's complement number with the lowest byte least significant (BE = 0) or most significant (BE = 1);
`unpack(pack(v)) = v` for every v in range, and `pack(unpack(b)) = b` with the integer in range for every
byte list of the depth's size. -/
def Obligations.PackAndUnpackAreInverse : Prop :=
  (∀ (be : Bool) (b : Byte), unpack .d8 be [b] = (b.toNat : Int) - 128) ∧
  (∀ b0 b1 : Byte, unpack .d16 false [b0, b1] = (b1 ++ b0).toInt ∧
    unpack .d16 true [b0, b1] = (b0 ++ b1).toInt) ∧
  (∀ b0 b1 b2 : Byte, unpack .d24 false [b0, b1, b2] = (b2 ++ b1 ++ b0).toInt ∧
    unpack .d24 true [b0, b1, b2] = (b0 ++ b1 ++ b2).toInt) ∧
  ∀ (d : Depth) (be : Bool),
    (∀ v : Int, d.lo ≤ v → v ≤ d.hi → unpack d be (pack d be v) = v) ∧
      ∀ b : List Byte, b.length = d.bytes →
        pack d be (unpack d be b) = b ∧ d.lo ≤ unpack d be b ∧ unpack d be b ≤ d.hi

/-- R109: `to_float(v) = v / S` lies in [-1, (S-1)/S] and is stored with no rounding error. -/
def Obligations.DecodedSamplesAreExact : Prop :=
  ∀ (d : Depth) (v : Int), d.lo ≤ v → v ≤ d.hi →
    toFloat d v = (v : Rat) / (d.scale : Rat) ∧
      f32 (rnd32 (toFloat d v)) = some ((v : Rat) / (d.scale : Rat)) ∧
      -1 ≤ toFloat d v ∧ toFloat d v ≤ ((d.scale : Rat) - 1) / (d.scale : Rat)

/-- R12: `round_int` is a nearest integer, and of two nearest integers the one farther from zero. -/
def Obligations.RoundIntIsNearestTiesAway : Prop :=
  ∀ (q : Rat) (z : Int), |q - (roundInt Config.roundTies q : Rat)| ≤ |q - (z : Rat)| ∧
    (|q - (roundInt Config.roundTies q : Rat)| = |q - (z : Rat)| →
      |z| ≤ |roundInt Config.roundTies q|)

/-- R12, R106, R111: the quantiser stays in range, rounds a scaled value that is in range to a nearest
integer, of two nearest ones the one farther from zero, clamps the infinities and everything beyond the range, and gives a NaN no integer. -/
def Obligations.QuantiserRoundsAndClamps : Prop :=
  ∀ d : Depth,
    (∀ s : Rat, d.lo ≤ toInt d s ∧ toInt d s ≤ d.hi ∧
      ((d.lo : Rat) ≤ s * (d.scale : Rat) → s * (d.scale : Rat) ≤ (d.hi : Rat) →
        |s * (d.scale : Rat) - (toInt d s : Rat)| ≤ 1 / 2 ∧
          ∀ z : Int, |s * (d.scale : Rat) - (toInt d s : Rat)| ≤ |s * (d.scale : Rat) - (z : Rat)| ∧
            (|s * (d.scale : Rat) - (toInt d s : Rat)| = |s * (d.scale : Rat) - (z : Rat)| →
              |z| ≤ |toInt d s|)) ∧
      ((d.hi : Rat) ≤ s * (d.scale : Rat) → toInt d s = d.hi) ∧
      (s * (d.scale : Rat) ≤ (d.lo : Rat) → toInt d s = d.lo)) ∧
    (∀ w : Word, quantise d (f32x w) = match f32x w with
      | .fin s => some (toInt d s) | .posInf => some d.hi | .negInf => some d.lo | .nan => none) ∧
    f32x 0x7F800000#32 = .posInf ∧ f32x 0xFF800000#32 = .negInf ∧ f32x 0x80000000#32 = .fin 0

/-- R107 on its normal path: DECODE of a checked format, with lengths that fit and every sample byte
written, stores `to_float` of each sample at channel c, frame k, sets SMP_LEN and TRUNC, and changes
no other state. -/
def Obligations.DecodeCommandResult : Prop :=
  ∀ (s : State) (f : Format) (bs : List Byte), s.memWf = true → FormatIs s f →
    s.srcLen.toNat ≤ s.cap.src → s.srcLen.toNat / f.frameBytes ≤ s.cap.smp →
    bs.length = s.srcLen.toNat / f.frameBytes * f.frameBytes → Holds s.src 0 bs →
    ∃ m, exec .decode s = .next (completed
        { s with smp := m, smpLen := BitVec.ofNat 32 (s.srcLen.toNat / f.frameBytes) }
        (decide (s.srcLen.toNat % f.frameBytes ≠ 0))) ∧
      ∀ c k, c < f.ch → k < s.srcLen.toNat / f.frameBytes →
        Memory.read m (c * s.cap.smp + k) = some (rnd32 (toFloat f.depth (unpack f.depth f.be
          ((bs.drop ((k * f.ch + c) * f.depth.bytes)).take f.depth.bytes))))

/-- R108 on its normal path: ENCODE of a checked format, with lengths that fit and every sample
written and no NaN, stores the packed quantised sample of channel c, frame k at its place, sets
DST_LEN, clears TRUNC, and changes no other state. -/
def Obligations.EncodeCommandResult : Prop :=
  ∀ (s : State) (f : Format) (pat : Nat → Nat → Word) (v : Nat → Nat → Int), s.memWf = true →
    FormatIs s f → s.smpLen.toNat ≤ s.cap.smp → s.smpLen.toNat * f.frameBytes ≤ s.cap.dst →
    (∀ c k, c < f.ch → k < s.smpLen.toNat →
      Memory.read s.smp (c * s.cap.smp + k) = some (pat c k) ∧
        quantise f.depth (f32x (pat c k)) = some (v c k)) →
    ∃ m, exec .encode s = .next (completed
        { s with dst := m, dstLen := BitVec.ofNat 32 (s.smpLen.toNat * f.frameBytes) } false) ∧
      ∀ c k j, c < f.ch → k < s.smpLen.toNat → j < f.depth.bytes →
        Memory.read m ((k * f.ch + c) * f.depth.bytes + j) =
          (pack f.depth f.be (v c k))[j]?

/-- R110: DECODE followed by ENCODE reproduces every byte of the whole frames of SRC, and sets DST_LEN
to their number, for every supported format. -/
def Obligations.DecodeThenEncodeRestoresBytes : Prop :=
  ∀ (s t : State) (f : Format), s.cap.wf = true → s.memWf = true → FormatIs s f →
    exec .decode s = .next t → t.err = .none →
    ∃ u, exec .encode t = .next u ∧ u.err = .none ∧
      u.dstLen.toNat = s.srcLen.toNat / f.frameBytes * f.frameBytes ∧
      ∀ a, a < s.srcLen.toNat / f.frameBytes * f.frameBytes →
        (Memory.read s.src a).isSome = true ∧ Memory.read u.dst a = Memory.read s.src a

/-! ### Gain -/

/-- R121 off the fast path: GAIN stores `scale_int` of every sample of the whole frames, sets DST_LEN
and TRUNC, and changes no other state. -/
def Obligations.GainCommandScalesSamples : Prop :=
  ∀ (s : State) (f : Format) (g : Rat) (bs : List Byte), s.memWf = true → FormatIs s f →
    s.srcLen.toNat ≤ s.cap.src → s.srcLen.toNat ≤ s.cap.dst → f32 s.gainf = some g →
    1 / 1000 ≤ |g - 1| → bs.length = s.srcLen.toNat / f.frameBytes * f.frameBytes →
    Holds s.src 0 bs →
    ∃ m, exec .gain s = .next (completed
        { s with dst := m
                 dstLen := BitVec.ofNat 32 (s.srcLen.toNat / f.frameBytes * f.frameBytes) }
        (decide (s.srcLen.toNat % f.frameBytes ≠ 0))) ∧
      ∀ k j, k < s.srcLen.toNat / f.frameBytes * f.ch → j < f.depth.bytes →
        Memory.read m (k * f.depth.bytes + j) =
          (pack f.depth f.be (scaleInt f.depth g (unpack f.depth f.be
            ((bs.drop (k * f.depth.bytes)).take f.depth.bytes))))[j]?

/-- R123, R124: with a factor within 1/1000 of 1 (1.0 = 0x3F800000 among them) GAIN copies all SRC_LEN
bytes, trailing ones included, sets DST_LEN to SRC_LEN and leaves TRUNC 0; the binary32 nearest 0.999
is within, the one nearest 1.001 is not. -/
def Obligations.GainFastPathCopiesEveryByte : Prop :=
  (∀ (s : State) (f : Format) (g : Rat) (bs : List Byte), s.memWf = true → FormatIs s f →
    s.srcLen.toNat ≤ s.cap.src → s.srcLen.toNat ≤ s.cap.dst → f32 s.gainf = some g →
    |g - 1| < 1 / 1000 → bs.length = s.srcLen.toNat → Holds s.src 0 bs →
    ∃ m, exec .gain s = .next (completed { s with dst := m, dstLen := s.srcLen } false) ∧
      Holds m 0 bs) ∧
  f32 0x3F800000#32 = some 1 ∧
  f32 0x3F7FBE77#32 = some (mkRat 16760439 16777216) ∧ |mkRat 16760439 16777216 - 1| < 1 / 1000 ∧
  f32 0x3F8020C5#32 = some (mkRat 8396997 8388608) ∧ 1 / 1000 < |mkRat 8396997 8388608 - 1|

/-- R12, R122: `scale_int` saturates and never wraps: in range always, a nearest integer of the exact
product when that is in range, of two nearest ones the one farther from zero, and HI or LO beyond it. -/
def Obligations.GainSaturatesAndNeverWraps : Prop :=
  ∀ (d : Depth) (g : Rat) (v : Int),
    d.lo ≤ scaleInt d g v ∧ scaleInt d g v ≤ d.hi ∧
      ((d.lo : Rat) ≤ v * g → v * g ≤ (d.hi : Rat) →
        |(v : Rat) * g - (scaleInt d g v : Rat)| ≤ 1 / 2 ∧
          ∀ z : Int, |(v : Rat) * g - (scaleInt d g v : Rat)| ≤ |(v : Rat) * g - (z : Rat)| ∧
            (|(v : Rat) * g - (scaleInt d g v : Rat)| = |(v : Rat) * g - (z : Rat)| →
              |z| ≤ |scaleInt d g v|)) ∧
      ((d.hi : Rat) ≤ v * g → scaleInt d g v = d.hi) ∧
      (v * g ≤ (d.lo : Rat) → scaleInt d g v = d.lo)

/-! ### Binary32 and the enclosures -/

/-- R10: `rnd32` of a rational below the overflow bound is a finite pattern whose value no finite
pattern's value is nearer to, an even one where two are equally near; from the bound on it is the
infinity of the sign. The bound 2^128 - 2^103 is the model's choice, the one of IEEE 754 (log 10). -/
def Obligations.Rnd32IsNearestTiesEven : Prop :=
  ∀ q : Rat,
    (|q| < 2 ^ 128 - 2 ^ 103 → ∃ v, f32 (rnd32 q) = some v ∧
      ∀ w u, f32 w = some u → |q - v| ≤ |q - u| ∧
        (|q - v| = |q - u| → u ≠ v → (rnd32 q).getLsbD 0 = false)) ∧
    (2 ^ 128 - 2 ^ 103 ≤ q → rnd32 q = 0x7F800000#32) ∧
    (q ≤ -(2 ^ 128 - 2 ^ 103) → rnd32 q = 0xFF800000#32)

/-- R10, R11, log 7: what a float command stores for enclosures `run p` of every precision p. The pattern
an enclosure decides is the reference rounding of every real it holds. A store takes the first evaluation
(precision 320, then four times as many bits each time) that decides every element, and each of its words
is then the reference rounding of the real enclosed there. Only where all of the evaluations leave some
element open, which log 7 argues is a tie, is an element its last enclosure's settled pattern: the
reference rounding of one of the interval's two ends, the even one if they differ. -/
def Obligations.StoredRoundingAgreesWithTheReference : Prop :=
  (∀ (e : Encl) (r : ℝ) (w : Word), e.holds r → e.rounded = some w → w = rndReal r ∧ e.settled = w) ∧
  (∀ (run : Nat → List Encl) (levels : Unit → Nat) (rs : List ℝ),
    (∀ p, (run p).length = rs.length ∧
      ∀ k (h : k < rs.length), ∃ e, (run p)[k]? = some e ∧ e.holds rs[k]) →
    ((∃ n, n < 4 + levels () ∧ ∀ e ∈ run (320 * 4 ^ n), e.rounded ≠ none) →
      storeFloats run levels = rs.map rndReal) ∧
    ((∀ n, n < 4 + levels () → ∃ e ∈ run (320 * 4 ^ n), e.rounded = none) →
      storeFloats run levels = (run (320 * 4 ^ (4 + levels ()))).map Encl.settled)) ∧
  ∀ (p : Nat) (lo hi : Int), lo ≤ hi →
    ((Encl.span p lo hi).settled = rndReal ((lo : ℝ) / 2 ^ p) ∨
      (Encl.span p lo hi).settled = rndReal ((hi : ℝ) / 2 ^ p)) ∧
    (rndReal ((lo : ℝ) / 2 ^ p) ≠ rndReal ((hi : ℝ) / 2 ^ p) →
      ((rndReal ((lo : ℝ) / 2 ^ p)).getLsbD 0 = false ∨
        (rndReal ((hi : ℝ) / 2 ^ p)).getLsbD 0 = false) →
      ((Encl.span p lo hi).settled).getLsbD 0 = false)

/-- R11, log 7: the ring and order operations of the machine's arithmetic hold the exact results of the
reals their operands hold. -/
def Obligations.EnclosureArithmeticIsSound : Prop :=
  ∀ (p : Nat) (x y t e : Encl) (a b c d : ℝ), x.holds a → y.holds b → t.holds c → e.holds d →
    (Encl.add p x y).holds (a + b) ∧ (Encl.sub p x y).holds (a - b) ∧
      (Encl.mul p x y).holds (a * b) ∧ (Encl.div p x y).holds (a / b) ∧
      (Encl.neg p x).holds (-a) ∧ (Encl.abs p x).holds |a| ∧
      (Encl.max p x y).holds (max a b) ∧ (Encl.min p x y).holds (min a b) ∧
      (Encl.sqrt p x).holds (Real.sqrt a) ∧
      (Encl.ifGt p x y t e).holds (Numerics.real.ifGt a b c d)

/-- R10, R131, R135, R153, R184, log 7, log 12; the angle is `Complex.arg` (log 10): the cosines and sines of the twiddle factors and of the
window, the phases with their cosines and sines, and the hyperbolic tangent of the soft clipper are
enclosed. -/
def Obligations.EnclosureFunctionsAreSound : Prop :=
  (∀ p k m : Nat, 0 < m →
    (Encl.cosTurn p (Ivl.pi p) k m).holds (Real.cos (2 * Real.pi * k / m)) ∧
      (Encl.sinTurn p (Ivl.pi p) k m).holds (Real.sin (2 * Real.pi * k / m))) ∧
  (∀ (p : Nat) (y x : Encl) (b a : ℝ), y.holds b → x.holds a →
    (Encl.atan2 p (Ivl.pi p) y x).holds (Complex.arg ⟨a, b⟩) ∧
      (Encl.cosAtan2 p y x).holds (Real.cos (Complex.arg ⟨a, b⟩)) ∧
      (Encl.sinAtan2 p y x).holds (Real.sin (Complex.arg ⟨a, b⟩))) ∧
  ∀ (p : Nat) (x : Encl) (a : ℝ), x.holds a → (Encl.tanh p x).holds (Real.tanh a)

/-! ### Spectral engine -/

/-- R133, R134 on their normal path: FFT and IFFT with logn <= 11 and finite operands replace the first
2^logn elements of XR and XI by one stored word each and change no other element and no other state. -/
def Obligations.TransformCommandsComplete : Prop :=
  ∀ (s : State) (logn : BitVec 5) (re im : List Rat), s.memWf = true → logn.toNat ≤ 11 →
    re.length = 2 ^ logn.toNat → im.length = 2 ^ logn.toNat →
    HoldsFloats s.xr 0 re → HoldsFloats s.xi 0 im →
    ∃ x y : Cyc.Parts, x = fftParts logn.toNat re im ∧ y = ifftParts logn.toNat re im ∧
      exec (.fft logn) s = .next (completed
        { s with xr := Memory.writeRun s.xr 0 (x.stored x.re)
                 xi := Memory.writeRun s.xi 0 (x.stored x.im) } false) ∧
      exec (.ifft logn) s = .next (completed
        { s with xr := Memory.writeRun s.xr 0 (y.stored y.re)
                 xi := Memory.writeRun s.xi 0 (y.stored y.im) } false) ∧
      (x.stored x.re).length = 2 ^ logn.toNat ∧ (x.stored x.im).length = 2 ^ logn.toNat ∧
      (y.stored y.re).length = 2 ^ logn.toNat ∧ (y.stored y.im).length = 2 ^ logn.toNat

/-- R133, R136, R139, log 11: what FFT and IFFT round are 2^logn enclosures, each with knowledge of its
real, of the discrete Fourier transform and its inverse of the operands, for every precision, length and
operand values of binary32; and where one of the first four evaluations decides every word of a part, the
words stored for that part are the reference roundings (log 7). With n = 0 and the operand 0x80000000 that
is the pattern 0x00000000, which is the model's choice: R133 and R134 also say there that the element is
left unchanged (log 9). -/
def Obligations.TransformValuesHoldTheDft : Prop :=
  ∀ (n : Nat) (wr wi : List Word) (re im : List Rat), n ≤ 11 → wr.length = 2 ^ n →
    wi.length = 2 ^ n → wr.map f32 = re.map some → wi.map f32 = im.map some →
    ∀ (x y : Cyc.Parts) (X x' : Nat → ℂ), x = fftParts n re im → y = ifftParts n re im →
    X = dft (2 ^ n) (re.map (↑)) (im.map (↑)) → x' = idft (2 ^ n) (re.map (↑)) (im.map (↑)) →
    ∀ (t : Cyc.Parts) (ds : List (List Int)) (value : Nat → ℝ),
      (t = x ∧ ds = x.re ∧ value = fun k => (X k).re) ∨
        (t = x ∧ ds = x.im ∧ value = fun k => (X k).im) ∨
        (t = y ∧ ds = y.re ∧ value = fun k => (x' k).re) ∨
        (t = y ∧ ds = y.im ∧ value = fun k => (x' k).im) →
      (∀ p k, k < 2 ^ n → ∃ e, (t.enclosed ds p)[k]? = some e ∧ e ≠ .any ∧ e.holds (value k)) ∧
      ((∃ j, j < 4 ∧ ∀ e ∈ t.enclosed ds (320 * 4 ^ j), e.rounded ≠ none) →
        t.stored ds = (List.range (2 ^ n)).map (fun k => rndReal (value k)))

/-- R139: in exact arithmetic the bit reversal and butterflies of `fft` give the discrete Fourier
transform. -/
def Obligations.ButterfliesAreTheDft : Prop :=
  ∀ (n : Nat) (re im : List ℝ), re.length = 2 ^ n → im.length = 2 ^ n → ∀ k, k < 2 ^ n →
    (fft (Cplx.ops Numerics.real) (Cplx.zero Numerics.real) (Cplx.twiddles Numerics.real n) n
        (re.zip im))[k]? =
      some ((dft (2 ^ n) re im k).re, (dft (2 ^ n) re im k).im)

/-- R135 on its normal path: MAGPH stores one word per operand to MAG and PH, the roundings of the
magnitude and the phase of R135, and changes no other element and no other state. -/
def Obligations.MagphCommandResult : Prop :=
  ∀ (s : State) (logn : BitVec 5) (re im : List Rat), s.memWf = true → logn.toNat ≤ 11 →
    re.length = 2 ^ logn.toNat → im.length = 2 ^ logn.toNat →
    HoldsFloats s.xr 0 re → HoldsFloats s.xi 0 im →
    ∃ ms ps, ms = storeReals (fun A => List.zipWith (fun a b =>
          A.sqrt (A.add (A.mul (A.rat a) (A.rat a)) (A.mul (A.rat b) (A.rat b)))) re im) ∧
      ps = storeReals (fun A => List.zipWith (fun a b => A.atan2 (A.rat b) (A.rat a)) re im) ∧
      ms.length = 2 ^ logn.toNat ∧ ps.length = 2 ^ logn.toNat ∧
      exec (.magph logn) s = .next (completed
        { s with mag := Memory.writeRun s.mag 0 ms, ph := Memory.writeRun s.ph 0 ps } false)

/-! ### Noise reduction -/

/-- R150: the state machine of the noise profile: over every command that answers a next state, over
the host's write of SRC_LEN, and over reset. What a learned or estimated profile holds is stated by
`LearnCommandsResult` and `NrprocResult`. -/
def Obligations.ProfileStateMachine : Prop :=
  (∀ (i : Instr) (s t : State), exec i s = .next t →
    (t.err ≠ .none → t.pstate = s.pstate ∧ t.profile = s.profile) ∧
    (t.err = .none →
      (i = .nrreset → t.pstate = .unset ∧ t.profile = s.profile) ∧
      (i = .nrlearn ∨ i = .nrlearnr → t.pstate = .learned ∧
        ∃ ws : List Word, ws.length = 1025 ∧ t.profile = Memory.writeRun s.profile 0 ws) ∧
      (i = .nrproc ∨ i = .process ∧ s.nrEn = true →
        (s.pstate = .unset → t.pstate = .autoEstimated ∧
          ∃ ws : List Word, ws.length = 1025 ∧ t.profile = Memory.writeRun s.profile 0 ws) ∧
        (s.pstate ≠ .unset → t.pstate = s.pstate ∧ t.profile = s.profile)) ∧
      (i ∉ [Instr.nrreset, .nrlearn, .nrlearnr, .nrproc] → ¬(i = .process ∧ s.nrEn = true) →
        t.pstate = s.pstate ∧ t.profile = s.profile))) ∧
  ∀ (s : State) (v : Word), (hostWrite s .reg 4 v).pstate = .unset ∧ (hostReset s).pstate = .unset

/-- R166: NRRESET sets PSTATE to Unset, leaves PROFILE as it is, changes nothing else but STATUS, and
cannot fail. -/
def Obligations.NrresetResult : Prop :=
  ∀ s : State, exec .nrreset s = .next (completed { s with pstate := .unset } false)

/-- R160, R163 on their normal paths: NRLEARN with a checked format, a length that fits, at least 2048
frames and every byte of channel 0 written, and NRLEARNR with frames RANGE_START to RANGE_END - 1 of SRC
so, store the averaged, floored magnitudes of the signal's hop-spaced frames to PROFILE (R155, R156),
set PSTATE to Learned and TRUNC by the trailing bytes, leave XR and XI without a value (log 17), and
change nothing else. -/
def Obligations.LearnCommandsResult : Prop :=
  ∀ (s : State) (f : Format) (x : List Rat), s.memWf = true → FormatIs s f → 2048 ≤ x.length →
    (s.auxLen.toNat ≤ s.cap.aux → x.length = s.auxLen.toNat / f.frameBytes →
      (∀ k (h : k < x.length), ∃ b, b.length = f.depth.bytes ∧
        Holds s.aux (k * f.ch * f.depth.bytes) b ∧
          x[k] = toFloat f.depth (unpack f.depth f.be b)) →
      exec .nrlearn s = .next (completed
        { s with
          profile := Memory.writeRun s.profile 0 (storeReals (fun A => profileEntries A (x.map A.rat)
            ((List.range ((x.length - 2048) / 512 + 1)).map (· * 512))))
          pstate := .learned, xr := [], xi := [] }
        (decide (s.auxLen.toNat % f.frameBytes ≠ 0)))) ∧
    (s.srcLen.toNat ≤ s.cap.src → s.rangeEnd.toNat ≤ s.srcLen.toNat / f.frameBytes →
      s.rangeStart.toNat + x.length = s.rangeEnd.toNat →
      (∀ k (h : k < x.length), ∃ b, b.length = f.depth.bytes ∧
        Holds s.src ((s.rangeStart.toNat + k) * f.ch * f.depth.bytes) b ∧
          x[k] = toFloat f.depth (unpack f.depth f.be b)) →
      exec .nrlearnr s = .next (completed
        { s with
          profile := Memory.writeRun s.profile 0 (storeReals (fun A => profileEntries A (x.map A.rat)
            ((List.range ((x.length - 2048) / 512 + 1)).map (· * 512))))
          pstate := .learned, xr := [], xi := [] }
        (decide (s.srcLen.toNat % f.frameBytes ≠ 0))))

/-- R168 on its normal path: NRPROC with a channel count in range, a length that fits, parameters in
range, finite samples and a finite profile stores `nr_channel` of every channel and leaves XR and XI
without a value (log 17). From Unset, PROFILE is first estimated from channel 0, from its first
min(10, floor(L/2048)) frames at offsets 0, 2048, 4096, … (R152, R155). -/
def Obligations.NrprocResult : Prop :=
  ∀ (s : State) (par : NrParams) (xs : List (List Rat)) (m : Memory Word) (prof : List Rat),
    s.memWf = true → 1 ≤ s.fmtCh → s.fmtCh ≤ s.cap.ch → s.smpLen.toNat ≤ s.cap.smp →
    NrParamsAre s par → xs.length = s.fmtCh → HoldsChannels s s.smpLen.toNat xs →
    m = (if s.pstate = .unset then
        Memory.writeRun s.profile 0 (storeReals (fun A =>
          profileEntries A ((xs.getD 0 []).map A.rat)
            ((List.range (min 10 (s.smpLen.toNat / 2048))).map (· * 2048))))
      else s.profile) →
    ProfileIs { s with profile := m } s.smpLen.toNat prof →
    ∃ t, exec .nrproc s = .next t ∧ t.err = .none ∧ t.trunc = false ∧ t.xr = [] ∧ t.xi = [] ∧
      t.profile = m ∧ t.pstate = (if s.pstate = .unset then .autoEstimated else s.pstate) ∧
      ∀ c k, c < s.fmtCh → k < s.smpLen.toNat → ∃ w,
        (storeReals (fun A => (nrChannel A ⟨par, prof⟩ ((xs.getD c []).map A.rat)).out))[k]? = some w ∧
          Memory.read t.smp (c * s.cap.smp + k) = some w

/-- R152, R168, R175: NRPROC of a signal shorter than one frame (2048) makes every sample 0 and, from
Unset, every PROFILE entry the floor pattern 0x358637BD with PSTATE AutoEstimated. -/
def Obligations.ShortSignalIsSilenced : Prop :=
  ∀ (s : State) (par : NrParams) (xs : List (List Rat)), s.memWf = true →
    1 ≤ s.fmtCh → s.fmtCh ≤ s.cap.ch → s.smpLen.toNat ≤ s.cap.smp → s.smpLen.toNat < 2048 →
    NrParamsAre s par → xs.length = s.fmtCh → HoldsChannels s s.smpLen.toNat xs →
    ∃ t, exec .nrproc s = .next t ∧ t.err = .none ∧ t.pstate ≠ .unset ∧
      (s.pstate = .unset → t.pstate = .autoEstimated ∧
        ∀ b, b < 1025 → Memory.read t.profile b = some 0x358637BD#32) ∧
      ∀ c k, c < s.fmtCh → k < s.smpLen.toNat →
        Memory.read t.smp (c * s.cap.smp + k) = some 0

/-- R171: the step-3 gain of the reference is the rule's formula, is never negative, at most 1, and
exactly 1 when reductionFactor is 0. -/
def Obligations.SuppressionGainIsAtMostOne : Prop :=
  ∀ (par : NrParams) (pb : Rat) (m : ℝ), 0 ≤ par.red → 0 < par.nf → 0 ≤ pb →
    ∃ g : ℝ, suppression Numerics.real par pb m = g ∧
      g = max 0 (1 - 5 * par.red * pb / max m par.nf) ∧ max m (par.nf : ℝ) ≠ 0 ∧
      0 ≤ g ∧ g ≤ 1 ∧ (par.red = 0 → g = 1)

/-- R153 to R155, log 7: over the reals a profile has 1025 entries, and entry b is the mean over the
frames of the magnitude of bin b of the Hann-windowed frame's transform (`profileReal`, written out in
`Machine/Reference.lean`), floored at PROFILE_EPS = 1e-6. -/
def Obligations.ProfileEntriesAreFlooredMeans : Prop :=
  ∀ (x : List ℝ) (starts : List Nat),
    (profileEntries Numerics.real x starts).length = 1025 ∧
      (∀ b, b < 1025 →
        (profileEntries Numerics.real x starts)[b]? = some (profileReal x starts b)) ∧
      ∀ a ∈ profileEntries Numerics.real x starts, (1 / 1000000 : ℝ) ≤ a

/-- R170 to R175: over the reals, sample k of `nr_channel` is the sum over the full frames that cover it
of the frame rebuilt from the scaled magnitudes (with the smoothing of R172) and the phases, mirrored
(R173), inversely transformed, windowed and halved (R174): `nrReal`, written out in
`Machine/Reference.lean`. Over any arithmetic the output has the input's length, and the samples no full
frame covers are 0. -/
def Obligations.NoiseReductionFormula : Prop :=
  (∀ (u : NrSetup) (x : List ℝ) (k : Nat), k < x.length →
    (nrChannel Numerics.real u x).out[k]? =
      some (nrReal u.par (fun b => (u.profile.getD b 0 : ℝ)) x k)) ∧
  ∀ (A : Numerics) (u : NrSetup) (x : List A.R),
    (nrChannel A u x).out.length = x.length ∧
      ∀ k, k < x.length →
        (if x.length < 2048 then 0 else (x.length - 2048) / 512 * 512 + 2048) ≤ k →
        (nrChannel A u x).out[k]? = some (A.rat 0)

/-! ### Anti-distortion -/

/-- R180 on its normal path: ADPROC with a channel count in range, lengths that fit, parameters in range
and finite samples stores `ad_channel` of every channel, leaves in LA the last channel followed by LAS
zeros (R182; held as enclosures, log 8; with no samples too, which is the model's choice, log 28), and
changes nothing else. -/
def Obligations.AdprocResult : Prop :=
  ∀ (s : State) (q : Rat) (par : AdParams) (xs : List (List Rat)), s.memWf = true →
    1 ≤ s.fmtCh → s.fmtCh ≤ s.cap.ch → s.smpLen.toNat ≤ s.cap.smp → AdParamsAre s q par →
    xs.length = s.fmtCh → HoldsChannels s s.smpLen.toNat xs →
    ∃ m, exec .adproc s = .next (completed
        { s with
          smp := m
          la := Memory.writeRun s.la 0 ((xs.getD (s.fmtCh - 1) []).map Encl.exact ++
            List.replicate (lookAheadOf q) (Encl.exact 0)) } false) ∧
      ∀ c k, c < s.fmtCh → k < s.smpLen.toNat → ∃ w,
        (storeReals (fun A =>
          adChannel A (lookAheadOf q) par s.softClip ((xs.getD c []).map A.rat)))[k]? = some w ∧
          Memory.read m (c * s.cap.smp + k) = some w

/-- R181: the look-ahead length is the greatest whole number not above rate * 5 / 1000: 220 at 44100 Hz,
240 at 48000 Hz, 110 at 22050 Hz, 40 at 8000 Hz, 5 at 1000 Hz, and 0 below 200 Hz. -/
def Obligations.LookAheadIsTruncated : Prop :=
  (∀ q : Rat, 0 < q →
    (lookAheadOf q : Rat) ≤ q * 5 / 1000 ∧ q * 5 / 1000 < (lookAheadOf q : Rat) + 1 ∧
      (q < 200 → lookAheadOf q = 0)) ∧
  lookAheadOf 44100 = 220 ∧ lookAheadOf 48000 = 240 ∧ lookAheadOf 22050 = 110 ∧
    lookAheadOf 8000 = 40 ∧ lookAheadOf 1000 = 5

/-- R182 to R185: over the reals, sample i of `ad_channel` is the clipped x[i] * g * makeup, where g is
the gain at the peak of |LA[j]| over i <= j <= i + LAS (`peakReal`, `gainReal`, `clipReal`, written out in
`Machine/Reference.lean`). The gain is exactly 1 while the peak is at most the threshold; above it, for
parameters in range, the scaled peak is `thr + over/dr` (R183), above the threshold and at most the peak.
For every input the hard clamp gives a value in [-1, 1] and keeps one that is there, and the soft clipper
is `tanh(v * 1.5) / 1.5`, strictly inside (-2/3, 2/3), odd and increasing. -/
def Obligations.CompressorAndClipperProperties : Prop :=
  (∀ (las : Nat) (par : AdParams) (soft : Bool) (x : List ℝ) (i : Nat) (v : ℝ), x[i]? = some v →
    (adChannel Numerics.real las par soft x)[i]? =
      some (clipReal soft (v * gainReal par (peakReal las x i) * par.makeup))) ∧
  (∀ (par : AdParams) (peak : ℝ), ∃ g : ℝ, adGain Numerics.real par peak = g ∧
    (peak ≤ par.thr → g = 1) ∧
    (par.thr < peak → 0 < par.thr → 1 ≤ par.ratio →
      g * peak = par.thr +
          (peak - par.thr) / min 20 (par.ratio * (1 + 2 * (peak - par.thr))) ∧
        par.thr < g * peak ∧ g * peak ≤ peak)) ∧
  ∃ hard soft : ℝ → ℝ, (∀ v, clip Numerics.real false v = hard v) ∧
    (∀ v, clip Numerics.real true v = soft v) ∧
    (∀ v, -1 ≤ hard v ∧ hard v ≤ 1 ∧ (|v| ≤ 1 → hard v = v)) ∧
    ∀ v u, soft v = Real.tanh (v * (3 / 2)) / (3 / 2) ∧ -(2 / 3) < soft v ∧ soft v < 2 / 3 ∧
      soft (-v) = -soft v ∧ (v < u → soft v < soft u)

/-- R11, R155, R170, R183, R192, log 7: what the float stages of ADPROC, NRPROC and PROCESS round, and
what learning and auto-estimation round, are enclosures of the reference results over the real numbers,
element by element, for every precision, every combination of stages and every operand. The reference
results themselves are given by `NoiseReductionFormula`, `CompressorAndClipperProperties` and
`ProfileEntriesAreFlooredMeans`. -/
def Obligations.StagesRefineTheReference : Prop :=
  (∀ (p : Nat) (st : Stages) (x : List Rat),
    (chainRun p st x).out.length = x.length ∧
      ∀ k, k < x.length → ∃ (r : ℝ) (e : Encl),
        (chain Numerics.real st (x.map (fun q : Rat => (q : ℝ)))).out[k]? = some r ∧
          (chainRun p st x).out[k]? = some e ∧ e.holds r) ∧
  ∀ (p : Nat) (x : List Rat) (starts : List Nat) (b : Nat), b < 1025 → ∃ (r : ℝ) (e : Encl),
    (profileEntries Numerics.real (x.map (fun q : Rat => (q : ℝ))) starts)[b]? = some r ∧
      (profileEntries (Numerics.enclosing p) (x.map .exact) starts)[b]? = some e ∧ e.holds r

/-! ### Orchestrator -/

/-- R190, R192 with both optional stages off: PROCESS leaves in DST what GAIN leaves there, and equals
GAIN in every other respect. -/
def Obligations.ProcessWithoutStagesIsGain : Prop :=
  ∀ s : State, s.nrEn = false → s.adEn = false → exec .process s = exec .gain s

/-- R190, R191, R192 on the normal paths with a float stage enabled: PROCESS completes; SMP holds each
channel of the gained, decoded signal after noise reduction (if enabled) and anti-distortion (if
enabled), stored once; SMP_LEN its frames, and DST the encoding of what SMP holds. With noise reduction
and PSTATE Unset, PROFILE is first estimated from the gained channel 0, as `NrprocResult` says. Noise
reduction leaves XR and XI without a value (R43, R245; log 17). -/
def Obligations.ProcessWithFloatStages : Prop :=
  ∀ (s : State) (f : Format) (g q : Rat) (npar : NrParams) (apar : AdParams) (r : GainResult)
    (n : Nat) (xs : List (List Rat)) (m : Memory Word) (prof : List Rat), s.memWf = true →
    s.cap.wf = true → FormatIs s f → (s.nrEn || s.adEn) = true → s.srcLen.toNat ≤ s.cap.src →
    s.srcLen.toNat ≤ s.cap.dst → n = s.srcLen.toNat / f.frameBytes → n ≤ s.cap.smp →
    (s.nrEn = true → NrParamsAre s npar) → (s.adEn = true → AdParamsAre s q apar) →
    f32 s.gainf = some g → gainStage s f g s.srcLen.toNat = .ok r →
    xs = decodeFrames f n r.bytes →
    m = (if s.nrEn = true ∧ s.pstate = .unset then
        Memory.writeRun s.profile 0 (storeReals (fun A =>
          profileEntries A ((xs.getD 0 []).map A.rat)
            ((List.range (min 10 (n / 2048))).map (· * 2048))))
      else s.profile) →
    (s.nrEn = true → ProfileIs { s with profile := m } n prof) →
    ∃ t, exec .process s = .next t ∧ t.err = .none ∧
      t.pstate = (if s.nrEn = true ∧ s.pstate = .unset then .autoEstimated else s.pstate) ∧
      t.profile = m ∧ t.smpLen.toNat = n ∧ t.dstLen.toNat = n * f.frameBytes ∧
      t.trunc = decide (s.srcLen.toNat % f.frameBytes ≠ 0) ∧
      (s.nrEn = true → t.xr = [] ∧ t.xi = []) ∧
      ∀ c k, c < f.ch → k < n → ∃ w v,
        (storeReals (fun A => (chain A
          { nr := if s.nrEn then some ⟨npar, prof⟩ else none
            ad := if s.adEn then some (lookAheadOf q, apar, s.softClip) else none }
          ((xs.getD c []).map A.rat)).out))[k]? = some w ∧
        Memory.read t.smp (c * s.cap.smp + k) = some w ∧
        quantise f.depth (f32x w) = some v ∧
        ∀ j, j < f.depth.bytes →
          Memory.read t.dst ((k * f.ch + c) * f.depth.bytes + j) = (pack f.depth f.be v)[j]?

/-! ### Frames -/

/-- R49: DECODE writes SMP and SMP_LEN; ENCODE and GAIN write DST and DST_LEN; all else but STATUS and
the latched word is unchanged, and so is every element outside the stored ones. -/
def Obligations.FrameOfCodecAndGain : Prop :=
  (∀ s t : State, exec .decode s = .next t →
    t = { s with cmd := t.cmd, busy := t.busy, isDone := t.isDone, err := t.err, trunc := t.trunc,
                 smp := t.smp, smpLen := t.smpLen } ∧
      ∀ a, (∀ c, c < s.fmtCh → ¬(c * s.cap.smp ≤ a ∧
          a < c * s.cap.smp + s.srcLen.toNat / (s.fmtBits / 8 * s.fmtCh))) →
        Memory.read t.smp a = Memory.read s.smp a) ∧
  ∀ (i : Instr) (s t : State), i = .encode ∨ i = .gain → exec i s = .next t →
    t = { s with cmd := t.cmd, busy := t.busy, isDone := t.isDone, err := t.err, trunc := t.trunc,
                 dst := t.dst, dstLen := t.dstLen } ∧
      (s.cap.dst < 2 ^ 32 → t.err = .none →
        ∀ a, t.dstLen.toNat ≤ a → Memory.read t.dst a = Memory.read s.dst a)

/-- R49, R133 to R135, U17: the spectral commands write the first 2^logn elements of XR and XI (FFT,
IFFT) or of MAG and PH (MAGPH) and nothing else but STATUS and the latched word;
STATUS.PSTATE, PROFILE and all other registers and memories are kept (R138). -/
def Obligations.FrameOfSpectralCommands : Prop :=
  (∀ (i : Instr) (logn : BitVec 5) (s t : State), i = .fft logn ∨ i = .ifft logn →
    exec i s = .next t →
    t = { s with cmd := t.cmd, busy := t.busy, isDone := t.isDone, err := t.err, trunc := t.trunc,
                 xr := t.xr, xi := t.xi } ∧
      ∀ a, 2 ^ logn.toNat ≤ a → Memory.read t.xr a = Memory.read s.xr a ∧
        Memory.read t.xi a = Memory.read s.xi a) ∧
  ∀ (logn : BitVec 5) (s t : State), exec (.magph logn) s = .next t →
    t = { s with cmd := t.cmd, busy := t.busy, isDone := t.isDone, err := t.err, trunc := t.trunc,
                 mag := t.mag, ph := t.ph } ∧
      ∀ a, 2 ^ logn.toNat ≤ a → Memory.read t.mag a = Memory.read s.mag a ∧
        Memory.read t.ph a = Memory.read s.ph a

/-- R49: what the noise reduction commands and ADPROC leave unchanged: NRLEARN and NRLEARNR write
PROFILE, PSTATE, XR and XI; NRPROC also SMP, PREVMAG and PREVPH; ADPROC writes SMP and LA; NRRESET
writes PSTATE. Elements of SMP outside the channels' frames are kept. -/
def Obligations.FrameOfFloatStages : Prop :=
  (∀ (i : Instr) (s t : State), i = .nrlearn ∨ i = .nrlearnr → exec i s = .next t →
    t = { s with cmd := t.cmd, busy := t.busy, isDone := t.isDone, err := t.err, trunc := t.trunc,
                 profile := t.profile, pstate := t.pstate, xr := t.xr, xi := t.xi }) ∧
  (∀ s t : State, exec .nrreset s = .next t →
    t = { s with cmd := t.cmd, busy := t.busy, isDone := t.isDone, err := t.err, trunc := t.trunc,
                 pstate := t.pstate }) ∧
  (∀ s t : State, exec .nrproc s = .next t →
    t = { s with cmd := t.cmd, busy := t.busy, isDone := t.isDone, err := t.err, trunc := t.trunc,
                 smp := t.smp, profile := t.profile, pstate := t.pstate, prevMag := t.prevMag,
                 prevPh := t.prevPh, xr := t.xr, xi := t.xi }) ∧
  (∀ s t : State, exec .adproc s = .next t →
    t = { s with cmd := t.cmd, busy := t.busy, isDone := t.isDone, err := t.err, trunc := t.trunc,
                 smp := t.smp, la := t.la }) ∧
  ∀ (i : Instr) (s t : State), i = .nrproc ∨ i = .adproc → exec i s = .next t →
    ∀ a, (∀ c, c < s.fmtCh → ¬(c * s.cap.smp ≤ a ∧ a < c * s.cap.smp + s.smpLen.toNat)) →
      Memory.read t.smp a = Memory.read s.smp a

/-- R49: PROCESS writes DST and DST_LEN; SMP, SMP_LEN only when a float stage is enabled; PROFILE,
PSTATE, PREVMAG, PREVPH, XR, XI only with NR_EN; LA only with AD_EN; nothing else but STATUS and
the latched word. -/
def Obligations.FrameOfProcess : Prop :=
  ∀ s t : State, exec .process s = .next t →
    t = { s with cmd := t.cmd, busy := t.busy, isDone := t.isDone, err := t.err, trunc := t.trunc,
                 dst := t.dst, dstLen := t.dstLen, smp := t.smp, smpLen := t.smpLen,
                 profile := t.profile, pstate := t.pstate, prevMag := t.prevMag,
                 prevPh := t.prevPh, xr := t.xr, xi := t.xi, la := t.la } ∧
      (s.nrEn = false → s.adEn = false →
        t.smp = s.smp ∧ t.smpLen = s.smpLen) ∧
      (s.nrEn = false → t.profile = s.profile ∧ t.pstate = s.pstate ∧ t.prevMag = s.prevMag ∧
        t.prevPh = s.prevPh ∧ t.xr = s.xr ∧ t.xi = s.xi) ∧
      (s.adEn = false → t.la = s.la) ∧
      (s.cap.dst < 2 ^ 32 → t.err = .none →
        ∀ a, t.dstLen.toNat ≤ a → Memory.read t.dst a = Memory.read s.dst a) ∧
      ∀ a, (∀ c, c < s.fmtCh → ¬(c * s.cap.smp ≤ a ∧
          a < c * s.cap.smp + s.srcLen.toNat / (s.fmtBits / 8 * s.fmtCh))) →
        Memory.read t.smp a = Memory.read s.smp a

/-! ### Invariant -/

/-- The invariant holds at reset: canonical memories (log 5), reserved bits 0 (R28, R37), no latched
word while idle (R22), DST_LEN within DST (R32). The capacities are the model's choice of numbers (log 1),
their bound below 2^32 that of log 19. -/
def Obligations.InvariantAtReset : Prop := State.reset.Inv

/-- Every step from a state with the invariant that answers a next state keeps it, and keeps the
capacities: memories stay canonical and within the lengths of R40, reserved bits of FMT and CTRL stay
0, a word is latched only while BUSY, BUSY and DONE exclude each other, DST_LEN fits DST, and PROFILE
is complete whenever PSTATE is not Unset. -/
def Obligations.StepKeepsTheInvariant : Prop :=
  ∀ s t : State, s.Inv → step s = .next t → t.Inv ∧ t.cap = s.cap
end

