-- ==== Sys2Proof/Laws/Memory.lean ====
section
/-! SUPPORT. What the memory operations do, element by element, and that they keep the canonical
form. -/

namespace Sys2Proof.Machine.Memory

variable {α : Type}

theorem read_append (m n : Memory α) (a : Nat) :
    read (m ++ n) a = (read m a).or (read n a) := by
  induction m with
  | nil => simp [read]
  | cons e m ih =>
    obtain ⟨k, v⟩ := e
    by_cases h : k = a <;> simp [read, h, ih]

theorem read_filter_of_true (m : Memory α) (p : Nat → Bool) (a : Nat) (h : p a = true) :
    read (m.filter (fun e => p e.1)) a = read m a := by
  induction m with
  | nil => rfl
  | cons e m ih =>
    obtain ⟨k, v⟩ := e
    by_cases hk : k = a
    · subst hk; simp [List.filter, h, read]
    · cases hp : p k <;> simp [List.filter, hp, read, hk, ih]

theorem read_filter_of_false (m : Memory α) (p : Nat → Bool) (a : Nat) (h : p a = false) :
    read (m.filter (fun e => p e.1)) a = none := by
  induction m with
  | nil => rfl
  | cons e m ih =>
    obtain ⟨k, v⟩ := e
    cases hp : p k
    · simp [List.filter, hp, ih]
    · have hk : k ≠ a := by rintro rfl; simp [h] at hp
      simp [List.filter, hp, read, hk, ih]

theorem read_enumFrom (base : Nat) (vs : List α) (a : Nat) :
    read (enumFrom base vs) a = if base ≤ a then vs[a - base]? else none := by
  induction vs generalizing base with
  | nil => simp [enumFrom, read]
  | cons v vs ih =>
    by_cases h : base = a
    · subst h; simp [enumFrom, read]
    · simp only [enumFrom, read, h, if_false, ih]
      by_cases hle : base ≤ a
      · have : a - base = (a - (base + 1)) + 1 := by omega
        rw [if_pos (by omega), if_pos hle, this, List.getElem?_cons_succ]
      · rw [if_neg (by omega), if_neg hle]

/-- What a run of writes leaves at every index. -/
theorem read_writeRun (m : Memory α) (base : Nat) (vs : List α) (a : Nat) :
    read (writeRun m base vs) a =
      if base ≤ a ∧ a < base + vs.length then vs[a - base]? else read m a := by
  unfold writeRun
  rw [read_append, read_append, read_enumFrom]
  by_cases h1 : a < base
  · rw [read_filter_of_true m (fun k => decide (k < base)) a (by simpa using h1),
      read_filter_of_false m (fun k => decide (base + vs.length ≤ k)) a (by simp; omega),
      if_neg (by omega), if_neg (by omega)]
    simp
  · by_cases h2 : a < base + vs.length
    · rw [read_filter_of_false m (fun k => decide (k < base)) a (by simpa using h1),
        read_filter_of_false m (fun k => decide (base + vs.length ≤ k)) a (by simp; omega),
        if_pos (by omega), if_pos (by omega)]
      simp
    · rw [read_filter_of_false m (fun k => decide (k < base)) a (by simpa using h1),
        read_filter_of_true m (fun k => decide (base + vs.length ≤ k)) a (by simp; omega),
        if_pos (by omega), if_neg (by omega)]
      have : vs[a - base]? = none := by
        rw [List.getElem?_eq_none_iff]; omega
      simp [this]

theorem read_writeRun_in (m : Memory α) (base : Nat) (vs : List α) (k : Nat) (h : k < vs.length) :
    read (writeRun m base vs) (base + k) = some vs[k] := by
  rw [read_writeRun, if_pos (by omega), Nat.add_sub_cancel_left, List.getElem?_eq_getElem h]

theorem read_writeRun_out (m : Memory α) (base : Nat) (vs : List α) (a : Nat)
    (h : a < base ∨ base + vs.length ≤ a) : read (writeRun m base vs) a = read m a := by
  rw [read_writeRun, if_neg (by omega)]

theorem wfFrom_mono {len lo lo' : Nat} {m : Memory α} (h : wfFrom len lo m = true) (hl : lo' ≤ lo) :
    wfFrom len lo' m = true := by
  cases m with
  | nil => rfl
  | cons e m =>
    obtain ⟨k, v⟩ := e
    simp only [wfFrom, Bool.and_eq_true, decide_eq_true_eq] at h ⊢
    exact ⟨⟨by omega, h.1.2⟩, h.2⟩

theorem wfFrom_filter_ge {len lo : Nat} {m : Memory α} (b : Nat) (h : wfFrom len lo m = true) :
    wfFrom len (max lo b) (m.filter (fun e => decide (b ≤ e.1))) = true := by
  induction m generalizing lo with
  | nil => rfl
  | cons e m ih =>
    obtain ⟨k, v⟩ := e
    simp only [wfFrom, Bool.and_eq_true, decide_eq_true_eq] at h
    by_cases hk : b ≤ k
    · rw [List.filter_cons_of_pos (by simpa using hk)]
      simp only [wfFrom, Bool.and_eq_true, decide_eq_true_eq]
      exact ⟨⟨by omega, h.1.2⟩, wfFrom_mono (ih h.2) (by omega)⟩
    · rw [List.filter_cons_of_neg (by simpa using hk)]
      exact wfFrom_mono (ih h.2) (by omega)

/-- A list of lower entries, then one that is well formed from their bound on. -/
theorem wfFrom_filter_lt_append {len lo b : Nat} {m n : Memory α} (h : wfFrom len lo m = true)
    (hn : wfFrom len b n = true) (hlo : lo ≤ b) :
    wfFrom len lo (m.filter (fun e => decide (e.1 < b)) ++ n) = true := by
  induction m generalizing lo with
  | nil => exact wfFrom_mono hn hlo
  | cons e m ih =>
    obtain ⟨k, v⟩ := e
    simp only [wfFrom, Bool.and_eq_true, decide_eq_true_eq] at h
    by_cases hk : k < b
    · rw [List.filter_cons_of_pos (by simpa using hk), List.cons_append]
      simp only [wfFrom, Bool.and_eq_true, decide_eq_true_eq]
      exact ⟨h.1, ih h.2 (by omega)⟩
    · rw [List.filter_cons_of_neg (by simpa using hk)]
      clear ih
      have h' := wfFrom_mono h.2 (show k + 1 ≤ k + 1 by omega)
      have hall : m.filter (fun e => decide (e.1 < b)) = [] := by
        clear h
        have hb : b ≤ k + 1 := by omega
        generalize k + 1 = c at h' hb
        induction m generalizing c with
        | nil => rfl
        | cons e m ih =>
          obtain ⟨j, u⟩ := e
          simp only [wfFrom, Bool.and_eq_true, decide_eq_true_eq] at h'
          rw [List.filter_cons_of_neg (by simp; omega)]
          exact ih _ h'.2 (by omega)
      rw [hall]
      exact wfFrom_mono hn hlo

theorem wfFrom_enumFrom_append {len base : Nat} {vs : List α} {n : Memory α}
    (hlen : base + vs.length ≤ len) (hn : wfFrom len (base + vs.length) n = true) :
    wfFrom len base (enumFrom base vs ++ n) = true := by
  induction vs generalizing base with
  | nil => simpa [enumFrom] using hn
  | cons v vs ih =>
    simp only [List.length_cons] at hlen hn
    simp only [enumFrom, List.cons_append, wfFrom, Bool.and_eq_true, decide_eq_true_eq]
    refine ⟨⟨le_refl _, by omega⟩, ih (by omega) ?_⟩
    rwa [show base + 1 + vs.length = base + (vs.length + 1) by omega]

theorem read_of_wfFrom_lt {len lo : Nat} {m : Memory α} (h : wfFrom len lo m = true) (a : Nat)
    (ha : a < lo) : read m a = none := by
  induction m generalizing lo with
  | nil => rfl
  | cons e m ih =>
    obtain ⟨k, v⟩ := e
    simp only [wfFrom, Bool.and_eq_true, decide_eq_true_eq] at h
    rw [read, if_neg (by omega)]
    exact ih h.2 (by omega)

/-- Every memory operation keeps the canonical form: `writeRun` inside the memory's length. -/
theorem wf_writeRun {len : Nat} {m : Memory α} (h : wf len m = true) (base : Nat) (vs : List α)
    (hb : base + vs.length ≤ len) : wf len (writeRun m base vs) = true := by
  unfold writeRun
  rw [List.append_assoc]
  refine wfFrom_filter_lt_append h (wfFrom_enumFrom_append hb ?_) (Nat.zero_le _)
  exact wfFrom_mono (wfFrom_filter_ge _ h) (by omega)

theorem wf_write {len : Nat} {m : Memory α} (h : wf len m = true) (i : Nat) (v : α) (hi : i < len) :
    wf len (write m i v) = true := wf_writeRun h i [v] (by simpa using hi)

theorem wf_nil (len : Nat) : wf len ([] : Memory α) = true := rfl

theorem read_write (m : Memory α) (i : Nat) (v : α) (a : Nat) :
    read (write m i v) a = if a = i then some v else read m a := by
  rw [write, read_writeRun]
  by_cases h : a = i
  · subst h; simp
  · rw [if_neg (by simp; omega), if_neg h]

/-- On a memory in canonical form, `readRun` answers the values of the run, if all are there. -/
theorem readRun_ok {len lo : Nat} {m : Memory α} (h : wfFrom len lo m = true) (i n : Nat)
    (vs : List α) :
    readRun m i n = .ok vs ↔
      vs.length = n ∧ ∀ k (hk : k < vs.length), read m (i + k) = some vs[k] := by
  induction m generalizing lo i n vs with
  | nil =>
    cases n with
    | zero =>
      constructor
      · intro e; simp only [readRun, Except.ok.injEq] at e; subst e; simp
      · rintro ⟨e, -⟩; rw [List.length_eq_zero_iff] at e; simp [readRun, e]
    | succ n =>
      constructor
      · intro e; simp [readRun] at e
      · rintro ⟨e, f⟩; have := f 0 (by omega); simp [read] at this
  | cons e m ih =>
    obtain ⟨k, v⟩ := e
    have h0 := h
    simp only [wfFrom, Bool.and_eq_true, decide_eq_true_eq] at h
    cases n with
    | zero =>
      constructor
      · intro e; simp only [readRun, Except.ok.injEq] at e; subst e; simp
      · rintro ⟨e, -⟩; rw [List.length_eq_zero_iff] at e; simp [readRun, e]
    | succ n =>
      rw [readRun]
      by_cases hk : k < i
      · rw [if_pos hk, ih h.2]
        refine and_congr_right fun _ => forall_congr' fun j => forall_congr' fun hj => ?_
        rw [read, if_neg (by omega)]
      · rw [if_neg hk]
        by_cases hki : k = i
        · subst hki
          rw [if_pos rfl]
          have step : ∀ (j : Nat), read ((k, v) :: m) (k + (j + 1)) = read m (k + 1 + j) := by
            intro j; rw [read, if_neg (by omega)]; congr 1; omega
          cases hr : readRun m (k + 1) n with
          | ok us =>
            have hus := (ih h.2 (k + 1) n us).1 hr
            constructor
            · intro e; cases e
              refine ⟨by simp [hus.1], fun j hj => ?_⟩
              cases j with
              | zero => simp [read]
              | succ j => rw [step]; simpa using hus.2 j (by simpa using hj)
            · rintro ⟨e1, e2⟩
              cases vs with
              | nil => simp at e1
              | cons w ws =>
                have hv := e2 0 (by simp)
                simp [read] at hv
                have hws : readRun m (k + 1) n = .ok ws := by
                  rw [ih h.2]
                  refine ⟨by simpa using e1, fun j hj => ?_⟩
                  have := e2 (j + 1) (by simpa using hj)
                  rw [step] at this; simpa using this
                rw [hr] at hws; cases hws; simp [hv]
          | error j =>
            constructor
            · intro e; cases e
            · rintro ⟨e1, e2⟩
              cases vs with
              | nil => simp at e1
              | cons w ws =>
                have hws : readRun m (k + 1) n = .ok ws := by
                  rw [ih h.2]
                  refine ⟨by simpa using e1, fun j hj => ?_⟩
                  have := e2 (j + 1) (by simpa using hj)
                  rw [step] at this; simpa using this
                rw [hr] at hws; cases hws
        · rw [if_neg hki]
          constructor
          · intro e; cases e
          · rintro ⟨e1, e2⟩
            have := e2 0 (by omega)
            rw [Nat.add_zero, read, if_neg hki, read_of_wfFrom_lt h.2 i (by omega)] at this
            cases this

end Sys2Proof.Machine.Memory
end

