-- ==== Sys2Proof/Laws/State.lean ====
section
/-! SUPPORT. Each field of the state after each of the model's state updates: one lemma per field
per update, so that no proof unfolds a record update. -/

namespace Sys2Proof.Machine

/-! ### accept -/

@[simp] theorem accept_cmd (s : State) (w : Word) : (accept s w).cmd = w := rfl
@[simp] theorem accept_busy (s : State) (w : Word) : (accept s w).busy = true := rfl
@[simp] theorem accept_isDone (s : State) (w : Word) : (accept s w).isDone = false := rfl
@[simp] theorem accept_pstate (s : State) (w : Word) : (accept s w).pstate = s.pstate := rfl
@[simp] theorem accept_err (s : State) (w : Word) : (accept s w).err = .none := rfl
@[simp] theorem accept_trunc (s : State) (w : Word) : (accept s w).trunc = false := rfl
@[simp] theorem accept_fmt (s : State) (w : Word) : (accept s w).fmt = s.fmt := rfl
@[simp] theorem accept_srate (s : State) (w : Word) : (accept s w).srate = s.srate := rfl
@[simp] theorem accept_srcLen (s : State) (w : Word) : (accept s w).srcLen = s.srcLen := rfl
@[simp] theorem accept_auxLen (s : State) (w : Word) : (accept s w).auxLen = s.auxLen := rfl
@[simp] theorem accept_dstLen (s : State) (w : Word) : (accept s w).dstLen = s.dstLen := rfl
@[simp] theorem accept_smpLen (s : State) (w : Word) : (accept s w).smpLen = s.smpLen := rfl
@[simp] theorem accept_gainf (s : State) (w : Word) : (accept s w).gainf = s.gainf := rfl
@[simp] theorem accept_adThresh (s : State) (w : Word) : (accept s w).adThresh = s.adThresh := rfl
@[simp] theorem accept_adRatio (s : State) (w : Word) : (accept s w).adRatio = s.adRatio := rfl
@[simp] theorem accept_adMakeup (s : State) (w : Word) : (accept s w).adMakeup = s.adMakeup := rfl
@[simp] theorem accept_nrReduct (s : State) (w : Word) : (accept s w).nrReduct = s.nrReduct := rfl
@[simp] theorem accept_nrFloor (s : State) (w : Word) : (accept s w).nrFloor = s.nrFloor := rfl
@[simp] theorem accept_nrSmooth (s : State) (w : Word) : (accept s w).nrSmooth = s.nrSmooth := rfl
@[simp] theorem accept_ctrl (s : State) (w : Word) : (accept s w).ctrl = s.ctrl := rfl
@[simp] theorem accept_rangeStart (s : State) (w : Word) : (accept s w).rangeStart = s.rangeStart := rfl
@[simp] theorem accept_rangeEnd (s : State) (w : Word) : (accept s w).rangeEnd = s.rangeEnd := rfl
@[simp] theorem accept_src (s : State) (w : Word) : (accept s w).src = s.src := rfl
@[simp] theorem accept_aux (s : State) (w : Word) : (accept s w).aux = s.aux := rfl
@[simp] theorem accept_dst (s : State) (w : Word) : (accept s w).dst = s.dst := rfl
@[simp] theorem accept_smp (s : State) (w : Word) : (accept s w).smp = s.smp := rfl
@[simp] theorem accept_xr (s : State) (w : Word) : (accept s w).xr = s.xr := rfl
@[simp] theorem accept_xi (s : State) (w : Word) : (accept s w).xi = s.xi := rfl
@[simp] theorem accept_mag (s : State) (w : Word) : (accept s w).mag = s.mag := rfl
@[simp] theorem accept_ph (s : State) (w : Word) : (accept s w).ph = s.ph := rfl
@[simp] theorem accept_profile (s : State) (w : Word) : (accept s w).profile = s.profile := rfl
@[simp] theorem accept_prevMag (s : State) (w : Word) : (accept s w).prevMag = s.prevMag := rfl
@[simp] theorem accept_prevPh (s : State) (w : Word) : (accept s w).prevPh = s.prevPh := rfl
@[simp] theorem accept_la (s : State) (w : Word) : (accept s w).la = s.la := rfl
@[simp] theorem accept_cap (s : State) (w : Word) : (accept s w).cap = s.cap := rfl
@[simp] theorem accept_script (s : State) (w : Word) : (accept s w).script = s.script := rfl
@[simp] theorem accept_answer (s : State) (w : Word) : (accept s w).answer = s.answer := rfl
@[simp] theorem accept_draws (s : State) (w : Word) : (accept s w).draws = s.draws := rfl

/-! ### complete -/

@[simp] theorem complete_cmd (s : State) (e : ErrCode) (t : Bool) : (complete s e t).cmd = 0 := rfl
@[simp] theorem complete_busy (s : State) (e : ErrCode) (t : Bool) : (complete s e t).busy = false := rfl
@[simp] theorem complete_isDone (s : State) (e : ErrCode) (t : Bool) : (complete s e t).isDone = true := rfl
@[simp] theorem complete_pstate (s : State) (e : ErrCode) (t : Bool) : (complete s e t).pstate = s.pstate := rfl
@[simp] theorem complete_err (s : State) (e : ErrCode) (t : Bool) : (complete s e t).err = e := rfl
@[simp] theorem complete_trunc (s : State) (e : ErrCode) (t : Bool) : (complete s e t).trunc = t := rfl
@[simp] theorem complete_fmt (s : State) (e : ErrCode) (t : Bool) : (complete s e t).fmt = s.fmt := rfl
@[simp] theorem complete_srate (s : State) (e : ErrCode) (t : Bool) : (complete s e t).srate = s.srate := rfl
@[simp] theorem complete_srcLen (s : State) (e : ErrCode) (t : Bool) : (complete s e t).srcLen = s.srcLen := rfl
@[simp] theorem complete_auxLen (s : State) (e : ErrCode) (t : Bool) : (complete s e t).auxLen = s.auxLen := rfl
@[simp] theorem complete_dstLen (s : State) (e : ErrCode) (t : Bool) : (complete s e t).dstLen = s.dstLen := rfl
@[simp] theorem complete_smpLen (s : State) (e : ErrCode) (t : Bool) : (complete s e t).smpLen = s.smpLen := rfl
@[simp] theorem complete_gainf (s : State) (e : ErrCode) (t : Bool) : (complete s e t).gainf = s.gainf := rfl
@[simp] theorem complete_adThresh (s : State) (e : ErrCode) (t : Bool) : (complete s e t).adThresh = s.adThresh := rfl
@[simp] theorem complete_adRatio (s : State) (e : ErrCode) (t : Bool) : (complete s e t).adRatio = s.adRatio := rfl
@[simp] theorem complete_adMakeup (s : State) (e : ErrCode) (t : Bool) : (complete s e t).adMakeup = s.adMakeup := rfl
@[simp] theorem complete_nrReduct (s : State) (e : ErrCode) (t : Bool) : (complete s e t).nrReduct = s.nrReduct := rfl
@[simp] theorem complete_nrFloor (s : State) (e : ErrCode) (t : Bool) : (complete s e t).nrFloor = s.nrFloor := rfl
@[simp] theorem complete_nrSmooth (s : State) (e : ErrCode) (t : Bool) : (complete s e t).nrSmooth = s.nrSmooth := rfl
@[simp] theorem complete_ctrl (s : State) (e : ErrCode) (t : Bool) : (complete s e t).ctrl = s.ctrl := rfl
@[simp] theorem complete_rangeStart (s : State) (e : ErrCode) (t : Bool) : (complete s e t).rangeStart = s.rangeStart := rfl
@[simp] theorem complete_rangeEnd (s : State) (e : ErrCode) (t : Bool) : (complete s e t).rangeEnd = s.rangeEnd := rfl
@[simp] theorem complete_src (s : State) (e : ErrCode) (t : Bool) : (complete s e t).src = s.src := rfl
@[simp] theorem complete_aux (s : State) (e : ErrCode) (t : Bool) : (complete s e t).aux = s.aux := rfl
@[simp] theorem complete_dst (s : State) (e : ErrCode) (t : Bool) : (complete s e t).dst = s.dst := rfl
@[simp] theorem complete_smp (s : State) (e : ErrCode) (t : Bool) : (complete s e t).smp = s.smp := rfl
@[simp] theorem complete_xr (s : State) (e : ErrCode) (t : Bool) : (complete s e t).xr = s.xr := rfl
@[simp] theorem complete_xi (s : State) (e : ErrCode) (t : Bool) : (complete s e t).xi = s.xi := rfl
@[simp] theorem complete_mag (s : State) (e : ErrCode) (t : Bool) : (complete s e t).mag = s.mag := rfl
@[simp] theorem complete_ph (s : State) (e : ErrCode) (t : Bool) : (complete s e t).ph = s.ph := rfl
@[simp] theorem complete_profile (s : State) (e : ErrCode) (t : Bool) : (complete s e t).profile = s.profile := rfl
@[simp] theorem complete_prevMag (s : State) (e : ErrCode) (t : Bool) : (complete s e t).prevMag = s.prevMag := rfl
@[simp] theorem complete_prevPh (s : State) (e : ErrCode) (t : Bool) : (complete s e t).prevPh = s.prevPh := rfl
@[simp] theorem complete_la (s : State) (e : ErrCode) (t : Bool) : (complete s e t).la = s.la := rfl
@[simp] theorem complete_cap (s : State) (e : ErrCode) (t : Bool) : (complete s e t).cap = s.cap := rfl
@[simp] theorem complete_script (s : State) (e : ErrCode) (t : Bool) : (complete s e t).script = s.script := rfl
@[simp] theorem complete_answer (s : State) (e : ErrCode) (t : Bool) : (complete s e t).answer = s.answer := rfl
@[simp] theorem complete_draws (s : State) (e : ErrCode) (t : Bool) : (complete s e t).draws = s.draws := rfl

/-! ### loadSource -/

@[simp] theorem loadSource_cmd (s : State) (v : Word) : (loadSource s v).cmd = s.cmd := rfl
@[simp] theorem loadSource_busy (s : State) (v : Word) : (loadSource s v).busy = s.busy := rfl
@[simp] theorem loadSource_isDone (s : State) (v : Word) : (loadSource s v).isDone = s.isDone := rfl
@[simp] theorem loadSource_pstate (s : State) (v : Word) : (loadSource s v).pstate = .unset := rfl
@[simp] theorem loadSource_err (s : State) (v : Word) : (loadSource s v).err = s.err := rfl
@[simp] theorem loadSource_trunc (s : State) (v : Word) : (loadSource s v).trunc = s.trunc := rfl
@[simp] theorem loadSource_fmt (s : State) (v : Word) : (loadSource s v).fmt = s.fmt := rfl
@[simp] theorem loadSource_srate (s : State) (v : Word) : (loadSource s v).srate = s.srate := rfl
@[simp] theorem loadSource_srcLen (s : State) (v : Word) : (loadSource s v).srcLen = v := rfl
@[simp] theorem loadSource_auxLen (s : State) (v : Word) : (loadSource s v).auxLen = s.auxLen := rfl
@[simp] theorem loadSource_dstLen (s : State) (v : Word) : (loadSource s v).dstLen = s.dstLen := rfl
@[simp] theorem loadSource_smpLen (s : State) (v : Word) : (loadSource s v).smpLen = s.smpLen := rfl
@[simp] theorem loadSource_gainf (s : State) (v : Word) : (loadSource s v).gainf = s.gainf := rfl
@[simp] theorem loadSource_adThresh (s : State) (v : Word) : (loadSource s v).adThresh = s.adThresh := rfl
@[simp] theorem loadSource_adRatio (s : State) (v : Word) : (loadSource s v).adRatio = s.adRatio := rfl
@[simp] theorem loadSource_adMakeup (s : State) (v : Word) : (loadSource s v).adMakeup = s.adMakeup := rfl
@[simp] theorem loadSource_nrReduct (s : State) (v : Word) : (loadSource s v).nrReduct = s.nrReduct := rfl
@[simp] theorem loadSource_nrFloor (s : State) (v : Word) : (loadSource s v).nrFloor = s.nrFloor := rfl
@[simp] theorem loadSource_nrSmooth (s : State) (v : Word) : (loadSource s v).nrSmooth = s.nrSmooth := rfl
@[simp] theorem loadSource_ctrl (s : State) (v : Word) : (loadSource s v).ctrl = s.ctrl := rfl
@[simp] theorem loadSource_rangeStart (s : State) (v : Word) : (loadSource s v).rangeStart = s.rangeStart := rfl
@[simp] theorem loadSource_rangeEnd (s : State) (v : Word) : (loadSource s v).rangeEnd = s.rangeEnd := rfl
@[simp] theorem loadSource_src (s : State) (v : Word) : (loadSource s v).src = s.src := rfl
@[simp] theorem loadSource_aux (s : State) (v : Word) : (loadSource s v).aux = s.aux := rfl
@[simp] theorem loadSource_dst (s : State) (v : Word) : (loadSource s v).dst = s.dst := rfl
@[simp] theorem loadSource_smp (s : State) (v : Word) : (loadSource s v).smp = s.smp := rfl
@[simp] theorem loadSource_xr (s : State) (v : Word) : (loadSource s v).xr = s.xr := rfl
@[simp] theorem loadSource_xi (s : State) (v : Word) : (loadSource s v).xi = s.xi := rfl
@[simp] theorem loadSource_mag (s : State) (v : Word) : (loadSource s v).mag = s.mag := rfl
@[simp] theorem loadSource_ph (s : State) (v : Word) : (loadSource s v).ph = s.ph := rfl
@[simp] theorem loadSource_profile (s : State) (v : Word) : (loadSource s v).profile = s.profile := rfl
@[simp] theorem loadSource_prevMag (s : State) (v : Word) : (loadSource s v).prevMag = s.prevMag := rfl
@[simp] theorem loadSource_prevPh (s : State) (v : Word) : (loadSource s v).prevPh = s.prevPh := rfl
@[simp] theorem loadSource_la (s : State) (v : Word) : (loadSource s v).la = s.la := rfl
@[simp] theorem loadSource_cap (s : State) (v : Word) : (loadSource s v).cap = s.cap := rfl
@[simp] theorem loadSource_script (s : State) (v : Word) : (loadSource s v).script = s.script := rfl
@[simp] theorem loadSource_answer (s : State) (v : Word) : (loadSource s v).answer = s.answer := rfl
@[simp] theorem loadSource_draws (s : State) (v : Word) : (loadSource s v).draws = s.draws := rfl

/-! ### storeDst -/

@[simp] theorem storeDst_cmd (s : State) (b : List Byte) : (storeDst s b).cmd = s.cmd := rfl
@[simp] theorem storeDst_busy (s : State) (b : List Byte) : (storeDst s b).busy = s.busy := rfl
@[simp] theorem storeDst_isDone (s : State) (b : List Byte) : (storeDst s b).isDone = s.isDone := rfl
@[simp] theorem storeDst_pstate (s : State) (b : List Byte) : (storeDst s b).pstate = s.pstate := rfl
@[simp] theorem storeDst_err (s : State) (b : List Byte) : (storeDst s b).err = s.err := rfl
@[simp] theorem storeDst_trunc (s : State) (b : List Byte) : (storeDst s b).trunc = s.trunc := rfl
@[simp] theorem storeDst_fmt (s : State) (b : List Byte) : (storeDst s b).fmt = s.fmt := rfl
@[simp] theorem storeDst_srate (s : State) (b : List Byte) : (storeDst s b).srate = s.srate := rfl
@[simp] theorem storeDst_srcLen (s : State) (b : List Byte) : (storeDst s b).srcLen = s.srcLen := rfl
@[simp] theorem storeDst_auxLen (s : State) (b : List Byte) : (storeDst s b).auxLen = s.auxLen := rfl
@[simp] theorem storeDst_dstLen (s : State) (b : List Byte) : (storeDst s b).dstLen = BitVec.ofNat 32 b.length := rfl
@[simp] theorem storeDst_smpLen (s : State) (b : List Byte) : (storeDst s b).smpLen = s.smpLen := rfl
@[simp] theorem storeDst_gainf (s : State) (b : List Byte) : (storeDst s b).gainf = s.gainf := rfl
@[simp] theorem storeDst_adThresh (s : State) (b : List Byte) : (storeDst s b).adThresh = s.adThresh := rfl
@[simp] theorem storeDst_adRatio (s : State) (b : List Byte) : (storeDst s b).adRatio = s.adRatio := rfl
@[simp] theorem storeDst_adMakeup (s : State) (b : List Byte) : (storeDst s b).adMakeup = s.adMakeup := rfl
@[simp] theorem storeDst_nrReduct (s : State) (b : List Byte) : (storeDst s b).nrReduct = s.nrReduct := rfl
@[simp] theorem storeDst_nrFloor (s : State) (b : List Byte) : (storeDst s b).nrFloor = s.nrFloor := rfl
@[simp] theorem storeDst_nrSmooth (s : State) (b : List Byte) : (storeDst s b).nrSmooth = s.nrSmooth := rfl
@[simp] theorem storeDst_ctrl (s : State) (b : List Byte) : (storeDst s b).ctrl = s.ctrl := rfl
@[simp] theorem storeDst_rangeStart (s : State) (b : List Byte) : (storeDst s b).rangeStart = s.rangeStart := rfl
@[simp] theorem storeDst_rangeEnd (s : State) (b : List Byte) : (storeDst s b).rangeEnd = s.rangeEnd := rfl
@[simp] theorem storeDst_src (s : State) (b : List Byte) : (storeDst s b).src = s.src := rfl
@[simp] theorem storeDst_aux (s : State) (b : List Byte) : (storeDst s b).aux = s.aux := rfl
@[simp] theorem storeDst_dst (s : State) (b : List Byte) : (storeDst s b).dst = Memory.writeRun s.dst 0 b := rfl
@[simp] theorem storeDst_smp (s : State) (b : List Byte) : (storeDst s b).smp = s.smp := rfl
@[simp] theorem storeDst_xr (s : State) (b : List Byte) : (storeDst s b).xr = s.xr := rfl
@[simp] theorem storeDst_xi (s : State) (b : List Byte) : (storeDst s b).xi = s.xi := rfl
@[simp] theorem storeDst_mag (s : State) (b : List Byte) : (storeDst s b).mag = s.mag := rfl
@[simp] theorem storeDst_ph (s : State) (b : List Byte) : (storeDst s b).ph = s.ph := rfl
@[simp] theorem storeDst_profile (s : State) (b : List Byte) : (storeDst s b).profile = s.profile := rfl
@[simp] theorem storeDst_prevMag (s : State) (b : List Byte) : (storeDst s b).prevMag = s.prevMag := rfl
@[simp] theorem storeDst_prevPh (s : State) (b : List Byte) : (storeDst s b).prevPh = s.prevPh := rfl
@[simp] theorem storeDst_la (s : State) (b : List Byte) : (storeDst s b).la = s.la := rfl
@[simp] theorem storeDst_cap (s : State) (b : List Byte) : (storeDst s b).cap = s.cap := rfl
@[simp] theorem storeDst_script (s : State) (b : List Byte) : (storeDst s b).script = s.script := rfl
@[simp] theorem storeDst_answer (s : State) (b : List Byte) : (storeDst s b).answer = s.answer := rfl
@[simp] theorem storeDst_draws (s : State) (b : List Byte) : (storeDst s b).draws = s.draws := rfl

/-! ### clobberTransform -/

@[simp] theorem clobberTransform_cmd (s : State) : (clobberTransform s).cmd = s.cmd := rfl
@[simp] theorem clobberTransform_busy (s : State) : (clobberTransform s).busy = s.busy := rfl
@[simp] theorem clobberTransform_isDone (s : State) : (clobberTransform s).isDone = s.isDone := rfl
@[simp] theorem clobberTransform_pstate (s : State) : (clobberTransform s).pstate = s.pstate := rfl
@[simp] theorem clobberTransform_err (s : State) : (clobberTransform s).err = s.err := rfl
@[simp] theorem clobberTransform_trunc (s : State) : (clobberTransform s).trunc = s.trunc := rfl
@[simp] theorem clobberTransform_fmt (s : State) : (clobberTransform s).fmt = s.fmt := rfl
@[simp] theorem clobberTransform_srate (s : State) : (clobberTransform s).srate = s.srate := rfl
@[simp] theorem clobberTransform_srcLen (s : State) : (clobberTransform s).srcLen = s.srcLen := rfl
@[simp] theorem clobberTransform_auxLen (s : State) : (clobberTransform s).auxLen = s.auxLen := rfl
@[simp] theorem clobberTransform_dstLen (s : State) : (clobberTransform s).dstLen = s.dstLen := rfl
@[simp] theorem clobberTransform_smpLen (s : State) : (clobberTransform s).smpLen = s.smpLen := rfl
@[simp] theorem clobberTransform_gainf (s : State) : (clobberTransform s).gainf = s.gainf := rfl
@[simp] theorem clobberTransform_adThresh (s : State) : (clobberTransform s).adThresh = s.adThresh := rfl
@[simp] theorem clobberTransform_adRatio (s : State) : (clobberTransform s).adRatio = s.adRatio := rfl
@[simp] theorem clobberTransform_adMakeup (s : State) : (clobberTransform s).adMakeup = s.adMakeup := rfl
@[simp] theorem clobberTransform_nrReduct (s : State) : (clobberTransform s).nrReduct = s.nrReduct := rfl
@[simp] theorem clobberTransform_nrFloor (s : State) : (clobberTransform s).nrFloor = s.nrFloor := rfl
@[simp] theorem clobberTransform_nrSmooth (s : State) : (clobberTransform s).nrSmooth = s.nrSmooth := rfl
@[simp] theorem clobberTransform_ctrl (s : State) : (clobberTransform s).ctrl = s.ctrl := rfl
@[simp] theorem clobberTransform_rangeStart (s : State) : (clobberTransform s).rangeStart = s.rangeStart := rfl
@[simp] theorem clobberTransform_rangeEnd (s : State) : (clobberTransform s).rangeEnd = s.rangeEnd := rfl
@[simp] theorem clobberTransform_src (s : State) : (clobberTransform s).src = s.src := rfl
@[simp] theorem clobberTransform_aux (s : State) : (clobberTransform s).aux = s.aux := rfl
@[simp] theorem clobberTransform_dst (s : State) : (clobberTransform s).dst = s.dst := rfl
@[simp] theorem clobberTransform_smp (s : State) : (clobberTransform s).smp = s.smp := rfl
@[simp] theorem clobberTransform_xr (s : State) : (clobberTransform s).xr = [] := rfl
@[simp] theorem clobberTransform_xi (s : State) : (clobberTransform s).xi = [] := rfl
@[simp] theorem clobberTransform_mag (s : State) : (clobberTransform s).mag = s.mag := rfl
@[simp] theorem clobberTransform_ph (s : State) : (clobberTransform s).ph = s.ph := rfl
@[simp] theorem clobberTransform_profile (s : State) : (clobberTransform s).profile = s.profile := rfl
@[simp] theorem clobberTransform_prevMag (s : State) : (clobberTransform s).prevMag = s.prevMag := rfl
@[simp] theorem clobberTransform_prevPh (s : State) : (clobberTransform s).prevPh = s.prevPh := rfl
@[simp] theorem clobberTransform_la (s : State) : (clobberTransform s).la = s.la := rfl
@[simp] theorem clobberTransform_cap (s : State) : (clobberTransform s).cap = s.cap := rfl
@[simp] theorem clobberTransform_script (s : State) : (clobberTransform s).script = s.script := rfl
@[simp] theorem clobberTransform_answer (s : State) : (clobberTransform s).answer = s.answer := rfl
@[simp] theorem clobberTransform_draws (s : State) : (clobberTransform s).draws = s.draws := rfl

/-! ### setProfile -/

@[simp] theorem setProfile_cmd (s : State) (x : List Rat) (o : List Nat) (p : PState) : (setProfile s x o p).cmd = s.cmd := rfl
@[simp] theorem setProfile_busy (s : State) (x : List Rat) (o : List Nat) (p : PState) : (setProfile s x o p).busy = s.busy := rfl
@[simp] theorem setProfile_isDone (s : State) (x : List Rat) (o : List Nat) (p : PState) : (setProfile s x o p).isDone = s.isDone := rfl
@[simp] theorem setProfile_pstate (s : State) (x : List Rat) (o : List Nat) (p : PState) : (setProfile s x o p).pstate = p := rfl
@[simp] theorem setProfile_err (s : State) (x : List Rat) (o : List Nat) (p : PState) : (setProfile s x o p).err = s.err := rfl
@[simp] theorem setProfile_trunc (s : State) (x : List Rat) (o : List Nat) (p : PState) : (setProfile s x o p).trunc = s.trunc := rfl
@[simp] theorem setProfile_fmt (s : State) (x : List Rat) (o : List Nat) (p : PState) : (setProfile s x o p).fmt = s.fmt := rfl
@[simp] theorem setProfile_srate (s : State) (x : List Rat) (o : List Nat) (p : PState) : (setProfile s x o p).srate = s.srate := rfl
@[simp] theorem setProfile_srcLen (s : State) (x : List Rat) (o : List Nat) (p : PState) : (setProfile s x o p).srcLen = s.srcLen := rfl
@[simp] theorem setProfile_auxLen (s : State) (x : List Rat) (o : List Nat) (p : PState) : (setProfile s x o p).auxLen = s.auxLen := rfl
@[simp] theorem setProfile_dstLen (s : State) (x : List Rat) (o : List Nat) (p : PState) : (setProfile s x o p).dstLen = s.dstLen := rfl
@[simp] theorem setProfile_smpLen (s : State) (x : List Rat) (o : List Nat) (p : PState) : (setProfile s x o p).smpLen = s.smpLen := rfl
@[simp] theorem setProfile_gainf (s : State) (x : List Rat) (o : List Nat) (p : PState) : (setProfile s x o p).gainf = s.gainf := rfl
@[simp] theorem setProfile_adThresh (s : State) (x : List Rat) (o : List Nat) (p : PState) : (setProfile s x o p).adThresh = s.adThresh := rfl
@[simp] theorem setProfile_adRatio (s : State) (x : List Rat) (o : List Nat) (p : PState) : (setProfile s x o p).adRatio = s.adRatio := rfl
@[simp] theorem setProfile_adMakeup (s : State) (x : List Rat) (o : List Nat) (p : PState) : (setProfile s x o p).adMakeup = s.adMakeup := rfl
@[simp] theorem setProfile_nrReduct (s : State) (x : List Rat) (o : List Nat) (p : PState) : (setProfile s x o p).nrReduct = s.nrReduct := rfl
@[simp] theorem setProfile_nrFloor (s : State) (x : List Rat) (o : List Nat) (p : PState) : (setProfile s x o p).nrFloor = s.nrFloor := rfl
@[simp] theorem setProfile_nrSmooth (s : State) (x : List Rat) (o : List Nat) (p : PState) : (setProfile s x o p).nrSmooth = s.nrSmooth := rfl
@[simp] theorem setProfile_ctrl (s : State) (x : List Rat) (o : List Nat) (p : PState) : (setProfile s x o p).ctrl = s.ctrl := rfl
@[simp] theorem setProfile_rangeStart (s : State) (x : List Rat) (o : List Nat) (p : PState) : (setProfile s x o p).rangeStart = s.rangeStart := rfl
@[simp] theorem setProfile_rangeEnd (s : State) (x : List Rat) (o : List Nat) (p : PState) : (setProfile s x o p).rangeEnd = s.rangeEnd := rfl
@[simp] theorem setProfile_src (s : State) (x : List Rat) (o : List Nat) (p : PState) : (setProfile s x o p).src = s.src := rfl
@[simp] theorem setProfile_aux (s : State) (x : List Rat) (o : List Nat) (p : PState) : (setProfile s x o p).aux = s.aux := rfl
@[simp] theorem setProfile_dst (s : State) (x : List Rat) (o : List Nat) (p : PState) : (setProfile s x o p).dst = s.dst := rfl
@[simp] theorem setProfile_smp (s : State) (x : List Rat) (o : List Nat) (p : PState) : (setProfile s x o p).smp = s.smp := rfl
@[simp] theorem setProfile_xr (s : State) (x : List Rat) (o : List Nat) (p : PState) : (setProfile s x o p).xr = s.xr := rfl
@[simp] theorem setProfile_xi (s : State) (x : List Rat) (o : List Nat) (p : PState) : (setProfile s x o p).xi = s.xi := rfl
@[simp] theorem setProfile_mag (s : State) (x : List Rat) (o : List Nat) (p : PState) : (setProfile s x o p).mag = s.mag := rfl
@[simp] theorem setProfile_ph (s : State) (x : List Rat) (o : List Nat) (p : PState) : (setProfile s x o p).ph = s.ph := rfl
@[simp] theorem setProfile_profile (s : State) (x : List Rat) (o : List Nat) (p : PState) : (setProfile s x o p).profile = Memory.writeRun s.profile 0 (profileStored x o) := rfl
@[simp] theorem setProfile_prevMag (s : State) (x : List Rat) (o : List Nat) (p : PState) : (setProfile s x o p).prevMag = s.prevMag := rfl
@[simp] theorem setProfile_prevPh (s : State) (x : List Rat) (o : List Nat) (p : PState) : (setProfile s x o p).prevPh = s.prevPh := rfl
@[simp] theorem setProfile_la (s : State) (x : List Rat) (o : List Nat) (p : PState) : (setProfile s x o p).la = s.la := rfl
@[simp] theorem setProfile_cap (s : State) (x : List Rat) (o : List Nat) (p : PState) : (setProfile s x o p).cap = s.cap := rfl
@[simp] theorem setProfile_script (s : State) (x : List Rat) (o : List Nat) (p : PState) : (setProfile s x o p).script = s.script := rfl
@[simp] theorem setProfile_answer (s : State) (x : List Rat) (o : List Nat) (p : PState) : (setProfile s x o p).answer = s.answer := rfl
@[simp] theorem setProfile_draws (s : State) (x : List Rat) (o : List Nat) (p : PState) : (setProfile s x o p).draws = s.draws := rfl

/-! ### storeLa -/

@[simp] theorem storeLa_cmd (s : State) (n : Nat) (x : List Encl) : (storeLa s n x).cmd = s.cmd := rfl
@[simp] theorem storeLa_busy (s : State) (n : Nat) (x : List Encl) : (storeLa s n x).busy = s.busy := rfl
@[simp] theorem storeLa_isDone (s : State) (n : Nat) (x : List Encl) : (storeLa s n x).isDone = s.isDone := rfl
@[simp] theorem storeLa_pstate (s : State) (n : Nat) (x : List Encl) : (storeLa s n x).pstate = s.pstate := rfl
@[simp] theorem storeLa_err (s : State) (n : Nat) (x : List Encl) : (storeLa s n x).err = s.err := rfl
@[simp] theorem storeLa_trunc (s : State) (n : Nat) (x : List Encl) : (storeLa s n x).trunc = s.trunc := rfl
@[simp] theorem storeLa_fmt (s : State) (n : Nat) (x : List Encl) : (storeLa s n x).fmt = s.fmt := rfl
@[simp] theorem storeLa_srate (s : State) (n : Nat) (x : List Encl) : (storeLa s n x).srate = s.srate := rfl
@[simp] theorem storeLa_srcLen (s : State) (n : Nat) (x : List Encl) : (storeLa s n x).srcLen = s.srcLen := rfl
@[simp] theorem storeLa_auxLen (s : State) (n : Nat) (x : List Encl) : (storeLa s n x).auxLen = s.auxLen := rfl
@[simp] theorem storeLa_dstLen (s : State) (n : Nat) (x : List Encl) : (storeLa s n x).dstLen = s.dstLen := rfl
@[simp] theorem storeLa_smpLen (s : State) (n : Nat) (x : List Encl) : (storeLa s n x).smpLen = s.smpLen := rfl
@[simp] theorem storeLa_gainf (s : State) (n : Nat) (x : List Encl) : (storeLa s n x).gainf = s.gainf := rfl
@[simp] theorem storeLa_adThresh (s : State) (n : Nat) (x : List Encl) : (storeLa s n x).adThresh = s.adThresh := rfl
@[simp] theorem storeLa_adRatio (s : State) (n : Nat) (x : List Encl) : (storeLa s n x).adRatio = s.adRatio := rfl
@[simp] theorem storeLa_adMakeup (s : State) (n : Nat) (x : List Encl) : (storeLa s n x).adMakeup = s.adMakeup := rfl
@[simp] theorem storeLa_nrReduct (s : State) (n : Nat) (x : List Encl) : (storeLa s n x).nrReduct = s.nrReduct := rfl
@[simp] theorem storeLa_nrFloor (s : State) (n : Nat) (x : List Encl) : (storeLa s n x).nrFloor = s.nrFloor := rfl
@[simp] theorem storeLa_nrSmooth (s : State) (n : Nat) (x : List Encl) : (storeLa s n x).nrSmooth = s.nrSmooth := rfl
@[simp] theorem storeLa_ctrl (s : State) (n : Nat) (x : List Encl) : (storeLa s n x).ctrl = s.ctrl := rfl
@[simp] theorem storeLa_rangeStart (s : State) (n : Nat) (x : List Encl) : (storeLa s n x).rangeStart = s.rangeStart := rfl
@[simp] theorem storeLa_rangeEnd (s : State) (n : Nat) (x : List Encl) : (storeLa s n x).rangeEnd = s.rangeEnd := rfl
@[simp] theorem storeLa_src (s : State) (n : Nat) (x : List Encl) : (storeLa s n x).src = s.src := rfl
@[simp] theorem storeLa_aux (s : State) (n : Nat) (x : List Encl) : (storeLa s n x).aux = s.aux := rfl
@[simp] theorem storeLa_dst (s : State) (n : Nat) (x : List Encl) : (storeLa s n x).dst = s.dst := rfl
@[simp] theorem storeLa_smp (s : State) (n : Nat) (x : List Encl) : (storeLa s n x).smp = s.smp := rfl
@[simp] theorem storeLa_xr (s : State) (n : Nat) (x : List Encl) : (storeLa s n x).xr = s.xr := rfl
@[simp] theorem storeLa_xi (s : State) (n : Nat) (x : List Encl) : (storeLa s n x).xi = s.xi := rfl
@[simp] theorem storeLa_mag (s : State) (n : Nat) (x : List Encl) : (storeLa s n x).mag = s.mag := rfl
@[simp] theorem storeLa_ph (s : State) (n : Nat) (x : List Encl) : (storeLa s n x).ph = s.ph := rfl
@[simp] theorem storeLa_profile (s : State) (n : Nat) (x : List Encl) : (storeLa s n x).profile = s.profile := rfl
@[simp] theorem storeLa_prevMag (s : State) (n : Nat) (x : List Encl) : (storeLa s n x).prevMag = s.prevMag := rfl
@[simp] theorem storeLa_prevPh (s : State) (n : Nat) (x : List Encl) : (storeLa s n x).prevPh = s.prevPh := rfl
@[simp] theorem storeLa_la (s : State) (n : Nat) (x : List Encl) : (storeLa s n x).la = Memory.writeRun s.la 0 (lookAheadBuffer (Numerics.enclosing Config.precision) n x) := rfl
@[simp] theorem storeLa_cap (s : State) (n : Nat) (x : List Encl) : (storeLa s n x).cap = s.cap := rfl
@[simp] theorem storeLa_script (s : State) (n : Nat) (x : List Encl) : (storeLa s n x).script = s.script := rfl
@[simp] theorem storeLa_answer (s : State) (n : Nat) (x : List Encl) : (storeLa s n x).answer = s.answer := rfl
@[simp] theorem storeLa_draws (s : State) (n : Nat) (x : List Encl) : (storeLa s n x).draws = s.draws := rfl

/-! ### Names of the ends of a command -/

theorem complete_none (s : State) (t : Bool) : complete s .none t = completed s t := rfl
theorem raiseErr_eq (s : State) (e : ErrCode) : raiseErr s e = erred s e := rfl

end Sys2Proof.Machine
end

