-- ==== Sys2Proof/Laws/Ops.lean ====
section
/-! SUPPORT. What the shared operations of a command can do: the ends of a rule, the checks, the
operand reads, and the stores. Proofs about a command cite these instead of unfolding them. -/

namespace Sys2Proof.Machine

/-! ### How a command ends -/

/-- Everything `finish` can do when it answers a next state. -/
theorem finish_next {s t : State} {r : Except Stop Effect} :
    finish s r = .next t ↔
      (∃ e, r = .ok e ∧ t = complete e.state .none e.trunc) ∨
        (∃ c, r = .error (.err c) ∧ t = raiseErr s c) := by
  cases r with
  | ok e => simp [finish, eq_comm]
  | error e => cases e <;> simp [finish, eq_comm]

@[simp] theorem finish_ok (s : State) (e : Effect) :
    finish s (.ok e) = .next (complete e.state .none e.trunc) := rfl
@[simp] theorem finish_err (s : State) (c : ErrCode) :
    finish s (.error (.err c)) = .next (raiseErr s c) := rfl
@[simp] theorem finish_refuse (s : State) (r : Refusal) :
    finish s (.error (.refuse r)) = .refused r := rfl

@[simp] theorem finish_ne_fault (s : State) (r : Except Stop Effect) (f : Fault) :
    finish s r ≠ .fault f := f.rec

/-! ### Sequencing of rules -/

/-- Peels one operand or check off a rule. -/
theorem bind_ok {α β : Type} {x : Except Stop α} {f : α → Except Stop β} {b : β} :
    (x >>= f) = .ok b ↔ ∃ a, x = .ok a ∧ f a = .ok b := by
  cases x with
  | ok a => simp [bind, Except.bind]
  | error e => simp [bind, Except.bind]

/-- Where a rule stops. -/
theorem bind_error {α β : Type} {x : Except Stop α} {f : α → Except Stop β} {e : Stop} :
    (x >>= f) = .error e ↔ x = .error e ∨ ∃ a, x = .ok a ∧ f a = .error e := by
  cases x with
  | ok a => simp [bind, Except.bind]
  | error d => simp [bind, Except.bind]

@[simp] theorem ok_bind {α β : Type} (a : α) (f : α → Except Stop β) :
    ((.ok a : Except Stop α) >>= f) = f a := rfl
@[simp] theorem error_bind {α β : Type} (e : Stop) (f : α → Except Stop β) :
    ((.error e : Except Stop α) >>= f) = .error e := rfl
@[simp] theorem pure_ok {α : Type} (a : α) : (pure a : Except Stop α) = .ok a := rfl

@[simp] theorem raiseIf_ok (c : Bool) (e : ErrCode) (u : Unit) :
    raiseIf c e = .ok u ↔ c = false := by cases c <;> simp [raiseIf]
@[simp] theorem raiseIf_error (c : Bool) (e : ErrCode) (d : Stop) :
    raiseIf c e = .error d ↔ c = true ∧ d = .err e := by cases c <;> simp [raiseIf, eq_comm]
@[simp] theorem refuseIf_ok (c : Bool) (r : Refusal) (u : Unit) :
    refuseIf c r = .ok u ↔ c = false := by cases c <;> simp [refuseIf]
@[simp] theorem refuseIf_error (c : Bool) (r : Refusal) (d : Stop) :
    refuseIf c r = .error d ↔ c = true ∧ d = .refuse r := by cases c <;> simp [refuseIf, eq_comm]

/-! ### Checks -/

/-- R102: exactly when `fmt_check` passes, and with which format. -/
theorem fmtCheck_ok {s : State} {f : Format} : fmtCheck s = .ok f ↔ FormatIs s f := by
  unfold fmtCheck FormatIs
  cases hd : Depth.ofBits s.fmtBits with
  | none => simp
  | some d =>
    simp only [Option.some.injEq]
    split
    · rename_i h
      simp only [badChannels, badSigned, Config.signedPolicy, Bool.or_eq_true, decide_eq_true_eq,
        bne_iff_ne] at h
      constructor
      · intro e; cases e
      · rintro ⟨rfl, -, -, h1, h2, h3⟩
        rcases h with (h | h) | h
        · omega
        · omega
        · exact absurd h3 h
    · rename_i h
      simp only [badChannels, badSigned, Config.signedPolicy, Bool.or_eq_true, decide_eq_true_eq,
        bne_iff_ne, not_or, not_not] at h
      constructor
      · intro e
        cases e
        exact ⟨rfl, rfl, rfl, by omega, by omega, h.2⟩
      · rintro ⟨rfl, h1, h2, -⟩
        cases f; simp only at h1 h2; subst h1 h2; rfl

/-- The check of NRPROC and ADPROC passes exactly for 1 <= CH <= CH_MAX. -/
theorem chCheck_ok {s : State} {n : Nat} :
    chCheck s = .ok n ↔ n = s.fmtCh ∧ 1 ≤ s.fmtCh ∧ s.fmtCh ≤ s.cap.ch := by
  unfold chCheck badChannels
  split
  · rename_i h
    simp only [Bool.or_eq_true, decide_eq_true_eq] at h
    constructor
    · intro e; cases e
    · omega
  · rename_i h
    simp only [Bool.or_eq_true, decide_eq_true_eq, not_or] at h
    simp only [Except.ok.injEq]
    omega

/-- The frame of a checked format is at least one byte. -/
theorem FormatIs.frameBytes_pos {s : State} {f : Format} (h : FormatIs s f) : 0 < f.frameBytes := by
  obtain ⟨-, -, hc, h1, -, -⟩ := h
  have hb : 0 < f.depth.bytes := by cases f.depth <;> simp [Depth.bytes]
  exact Nat.mul_pos hb (by omega)

theorem lognCheck_ok {n : BitVec 5} {k : Nat} :
    lognCheck n = .ok k ↔ n.toNat ≤ 11 ∧ k = n.toNat := by
  unfold lognCheck lognOk Config.lognMax
  split
  · rename_i h; simp only [decide_eq_true_eq] at h; simp [h, eq_comm]
  · rename_i h; simp only [decide_eq_true_eq] at h; simp [h]

/-! ### Operands -/

theorem readAll_ok {α : Type} {sp : Space} {m : Memory α} {i n : Nat} {vs : List α} :
    readAll sp m i n = .ok vs ↔ Memory.readRun m i n = .ok vs := by
  unfold readAll; cases Memory.readRun m i n <;> simp

/-- A read of a run succeeds exactly when every element has a value. -/
theorem readAll_holds {α : Type} {sp : Space} {m : Memory α} {len i n : Nat} {vs : List α}
    (h : Memory.wf len m = true) :
    readAll sp m i n = .ok vs ↔ vs.length = n ∧ Holds m i vs := by
  rw [readAll_ok, Memory.readRun_ok h]; rfl

theorem finiteFrom_ok {sp : Space} {i : Nat} {ws : List Word} {qs : List Rat} :
    finiteFrom sp i ws = .ok qs ↔ ws.map f32 = qs.map some := by
  induction ws generalizing i qs with
  | nil => cases qs <;> simp [finiteFrom]
  | cons w ws ih =>
    rw [finiteFrom]
    cases hw : f32 w with
    | none => cases qs <;> simp [hw]
    | some q =>
      cases hr : finiteFrom sp (i + 1) ws with
      | error e =>
        cases qs with
        | nil => simp
        | cons r rs =>
          simp only [List.map_cons, hw, List.cons.injEq, reduceCtorEq, false_iff, not_and]
          intro _ h
          rw [← ih (i := i + 1)] at h
          rw [hr] at h; cases h
      | ok rs =>
        have := (ih (i := i + 1) (qs := rs)).1 hr
        cases qs with
        | nil => simp
        | cons r rs' =>
          simp only [List.map_cons, hw, this, List.cons.injEq, Option.some.injEq, Except.ok.injEq]
          refine and_congr_right fun _ => ?_
          constructor
          · rintro rfl; rfl
          · exact fun h => List.map_injective_iff.2 (Option.some_injective _) h

/-- A read of float operands succeeds exactly when every element is there and finite. -/
theorem readFloats_holds {sp : Space} {m : Memory Word} {len i n : Nat} {qs : List Rat}
    (h : Memory.wf len m = true) :
    readFloats sp m i n = .ok qs ↔ qs.length = n ∧ HoldsFloats m i qs := by
  unfold readFloats
  constructor
  · intro e
    cases hr : readAll sp m i n with
    | error d => rw [hr] at e; cases e
    | ok ws =>
      rw [hr] at e
      have h1 := finiteFrom_ok.1 e
      have hl : ws.length = qs.length := by simpa using congrArg List.length h1
      obtain ⟨h2, h3⟩ := (readAll_holds h).1 hr
      refine ⟨by omega, fun k hk => ⟨ws[k], h3 k (by omega), ?_⟩⟩
      have := congrArg (fun l => l[k]?) h1
      simpa [List.getElem?_eq_getElem, hk, hl ▸ hk] using this
  · rintro ⟨h1, h2⟩
    choose w hw using h2
    have hr : readAll sp m i n = .ok (List.ofFn fun k : Fin qs.length => w k k.2) := by
      rw [readAll_holds h]
      refine ⟨by simpa using h1, fun k hk => ?_⟩
      simp only [List.length_ofFn] at hk
      simpa using (hw k hk).1
    rw [hr]
    refine finiteFrom_ok.2 (List.ext_getElem (by simp) fun k h1 h2 => ?_)
    simp only [List.length_map, List.length_ofFn] at h1
    simpa using (hw k h1).2

/-- Channel reads succeed exactly when SMP holds finite samples for every channel. -/
theorem readChannels_holds {cap len f c n : Nat} {m : Memory Word} {xs : List (List Rat)}
    (h : Memory.wf len m = true) :
    readChannels cap m f c n = .ok xs ↔ xs.length = n ∧
      ∀ k (hk : k < xs.length), xs[k].length = f ∧ HoldsFloats m ((c + k) * cap) xs[k] := by
  induction n generalizing c xs with
  | zero =>
    simp only [readChannels, Except.ok.injEq]
    constructor
    · rintro rfl; simp
    · rintro ⟨e, -⟩; rw [List.length_eq_zero_iff] at e; exact e.symm
  | succ n ih =>
    rw [readChannels]
    constructor
    · intro e
      cases hx : readFloats .smp m (c * cap) f with
      | error d => rw [hx] at e; cases e
      | ok x =>
        rw [hx] at e
        cases hxs : readChannels cap m f (c + 1) n with
        | error d => rw [hxs] at e; cases e
        | ok ys =>
          rw [hxs] at e; cases e
          obtain ⟨h1, h2⟩ := ih.1 hxs
          refine ⟨by simp [h1], fun k hk => ?_⟩
          cases k with
          | zero => simpa using (readFloats_holds h).1 hx
          | succ k =>
            have := h2 k (by simpa using hk)
            rw [show c + 1 + k = c + (k + 1) by omega] at this
            simpa using this
    · rintro ⟨h1, h2⟩
      cases xs with
      | nil => simp at h1
      | cons x ys =>
        have hx : readFloats .smp m (c * cap) f = .ok x := by
          rw [readFloats_holds h]
          have := h2 0 (by simp)
          simp only [Nat.add_zero] at this
          exact this
        have hys : readChannels cap m f (c + 1) n = .ok ys := by
          rw [ih]
          refine ⟨by simpa using h1, fun k hk => ?_⟩
          have := h2 (k + 1) (by simpa using hk)
          rw [show c + (k + 1) = c + 1 + k by omega] at this
          simpa using this
        rw [hx, hys]

/-! ### Stores -/

theorem mapM_rounded_length {es : List Encl} {ws : List Word} (h : es.mapM Encl.rounded = some ws) :
    ws.length = es.length := by
  induction es generalizing ws with
  | nil => simp at h; simp [← h]
  | cons e es ih =>
    simp only [List.mapM_cons, Option.bind_eq_bind, Option.bind_eq_some_iff, Option.pure_def,
      Option.some.injEq] at h
    obtain ⟨w, -, us, hu, rfl⟩ := h
    simp [ih hu]

/-- Everything `refine` can do: the words of an evaluation that decides all of them, or, after n that do
not, what `last` makes of the next precision. -/
theorem refine_cases (run : Nat → List Encl) (last : Nat → List Word) (n p : Nat) :
    (∃ j, j < n ∧ (run (p * 4 ^ j)).mapM Encl.rounded = some (refine run last n p)) ∨
      (∀ j, j < n → (run (p * 4 ^ j)).mapM Encl.rounded = none) ∧
        refine run last n p = last (p * 4 ^ n) := by
  induction n generalizing p with
  | zero => right; simp [refine]
  | succ n ih =>
    have hp : ∀ j, 4 * p * 4 ^ j = p * 4 ^ (j + 1) := fun j => by ring
    rw [refine]
    cases h : (run p).mapM Encl.rounded with
    | some ws => exact .inl ⟨0, by omega, by simpa using h⟩
    | none =>
      rcases ih (4 * p) with ⟨j, hj, he⟩ | ⟨hn, he⟩
      · exact .inl ⟨j + 1, by omega, by rw [← hp]; exact he⟩
      · refine .inr ⟨fun j hj => ?_, by rw [← hp]; exact he⟩
        cases j with
        | zero => simpa using h
        | succ j => rw [← hp]; exact hn j (by omega)

/-- Everything a float store can do. -/
theorem storeFloats_cases (run : Nat → List Encl) (levels : Unit → Nat) :
    (∃ p, (run p).mapM Encl.rounded = some (storeFloats run levels)) ∨
      ∃ p, storeFloats run levels = (run p).map Encl.settled := by
  unfold storeFloats
  rcases refine_cases run _ Config.earlyRounds Config.precision with ⟨j, -, h⟩ | ⟨-, h⟩
  · exact .inl ⟨_, h⟩
  · rw [h]
    rcases refine_cases run _ (levels ()) (Config.precision * 4 ^ Config.earlyRounds) with
      ⟨j, -, h⟩ | ⟨-, h⟩
    · exact .inl ⟨_, h⟩
    · exact .inr ⟨_, h⟩

/-- A float store has one word per element. -/
theorem storeFloats_length (run : Nat → List Encl) (levels : Unit → Nat) (n : Nat)
    (h : ∀ p, (run p).length = n) : (storeFloats run levels).length = n := by
  rcases storeFloats_cases run levels with ⟨p, hp⟩ | ⟨p, hp⟩
  · rw [mapM_rounded_length hp, h]
  · rw [hp, List.length_map, h]

theorem storeReals_length (f : (A : Numerics) → List A.R) (n : Nat) (h : ∀ A, (f A).length = n) :
    (storeReals f).length = n := storeFloats_length _ _ n fun _ => h _

/-- Where the first evaluation decides every element, the store is its rounding. -/
theorem storeFloats_decided {run : Nat → List Encl} {levels : Unit → Nat} {ws : List Word}
    (h : (run Config.precision).mapM Encl.rounded = some ws) : storeFloats run levels = ws := by
  unfold storeFloats; rw [Config.earlyRounds, refine, h]

/-- An element outside the channels' runs keeps its value. -/
theorem read_writeChannels_out {cap : Nat} (xs : List (List Word)) (m : Memory Word) (c a : Nat)
    (h : ∀ k (hk : k < xs.length), a < (c + k) * cap ∨ (c + k) * cap + xs[k].length ≤ a) :
    Memory.read (writeChannels cap m c xs) a = Memory.read m a := by
  induction xs generalizing m c with
  | nil => rfl
  | cons x xs ih =>
    rw [writeChannels, ih]
    · have := h 0 (by simp)
      simp only [Nat.add_zero] at this
      exact Memory.read_writeRun_out _ _ _ _ this
    · intro k hk
      have := h (k + 1) (by simpa using hk)
      rw [show c + (k + 1) = c + 1 + k by omega] at this
      simpa using this

/-- Channel stores keep the canonical form of SMP. -/
theorem wf_writeChannels {cap ch : Nat} (xs : List (List Word)) (m : Memory Word) (c : Nat)
    (h : Memory.wf (ch * cap) m = true) (hc : c + xs.length ≤ ch)
    (hl : ∀ x ∈ xs, x.length ≤ cap) : Memory.wf (ch * cap) (writeChannels cap m c xs) = true := by
  induction xs generalizing m c with
  | nil => exact h
  | cons x xs ih =>
    simp only [List.length_cons] at hc
    rw [writeChannels]
    refine ih _ _ (Memory.wf_writeRun h _ _ ?_) (by omega)
      (fun y hy => hl y (List.mem_cons_of_mem _ hy))
    calc c * cap + x.length ≤ c * cap + cap := by have := hl x (by simp); omega
      _ = (c + 1) * cap := by ring
      _ ≤ ch * cap := Nat.mul_le_mul_right _ (by omega)

end Sys2Proof.Machine
end

