-- ==== Sys2Proof/Laws/PerInstr.lean ====
section
/-! SUPPORT. Statements about every command, constructor by constructor. -/

namespace Sys2Proof.Laws.EncodedFields

/-- R80: the command word carries the opcode in bits 7:0, logn in bits 12:8, and 0 above. -/
def Statement (i : Instr) : Prop :=
  opField (encode i) = i.opcode ∧ lognField (encode i) = i.logn ∧
    (encode i).extractLsb' 13 19 = 0

theorem decode : Statement .decode := by unfold Statement; decide
theorem encode : Statement .encode := by unfold Statement; decide
theorem gain : Statement .gain := by unfold Statement; decide
theorem fft (logn : BitVec 5) : Statement (.fft logn) := by
  revert logn; unfold Statement; decide
theorem ifft (logn : BitVec 5) : Statement (.ifft logn) := by
  revert logn; unfold Statement; decide
theorem magph (logn : BitVec 5) : Statement (.magph logn) := by
  revert logn; unfold Statement; decide
theorem nrlearn : Statement .nrlearn := by unfold Statement; decide
theorem nrlearnr : Statement .nrlearnr := by unfold Statement; decide
theorem nrreset : Statement .nrreset := by unfold Statement; decide
theorem nrproc : Statement .nrproc := by unfold Statement; decide
theorem adproc : Statement .adproc := by unfold Statement; decide
theorem process : Statement .process := by unfold Statement; decide

end Sys2Proof.Laws.EncodedFields
end

