-- ==== Sys2Proof/Laws/Rules.lean ====
section
/-! SUPPORT. What each command's rule answers when it raises nothing: its checks as conditions on
the state, and the state it leaves. With `finish_next` these say everything a command can do. -/

namespace Sys2Proof.Machine

theorem decodeRule_ok {s : State} {e : Effect} : decodeRule s = .ok e ↔
    ∃ f bytes, FormatIs s f ∧ s.srcLen.toNat ≤ s.cap.src ∧
      s.srcLen.toNat / f.frameBytes ≤ s.cap.smp ∧
      readAll .src s.src 0 (s.srcLen.toNat / f.frameBytes * f.frameBytes) = .ok bytes ∧
      e = { state := { s with
              smp := writeChannels s.cap.smp s.smp 0
                ((decodeFrames f (s.srcLen.toNat / f.frameBytes) bytes).map (·.map rnd32))
              smpLen := BitVec.ofNat 32 (s.srcLen.toNat / f.frameBytes) }
            trunc := truncated s.srcLen.toNat f.frameBytes } := by
  unfold decodeRule
  simp only [bind_ok, fmtCheck_ok, raiseIf_ok, decide_eq_false_iff_not, not_lt, pure_ok,
    Except.ok.injEq]
  constructor
  · rintro ⟨f, hf, u, h1, v, h2, b, h3, h4⟩; exact ⟨f, b, hf, h1, h2, h3, h4.symm⟩
  · rintro ⟨f, b, hf, h1, h2, h3, h4⟩; exact ⟨f, hf, (), h1, (), h2, b, h3, h4.symm⟩

theorem encodeRule_ok {s : State} {e : Effect} : encodeRule s = .ok e ↔
    ∃ f chs bytes, FormatIs s f ∧ s.smpLen.toNat ≤ s.cap.smp ∧
      s.smpLen.toNat * f.frameBytes ≤ s.cap.dst ∧
      readPatterns s.cap.smp s.smp s.smpLen.toNat 0 f.ch = .ok chs ∧
      encodeFrames s.cap.smp f s.smpLen.toNat chs = .ok bytes ∧
      e = { state := { s with
              dst := Memory.writeRun s.dst 0 bytes
              dstLen := BitVec.ofNat 32 (s.smpLen.toNat * f.frameBytes) }
            trunc := false } := by
  unfold encodeRule
  simp only [bind_ok, fmtCheck_ok, raiseIf_ok, Bool.or_eq_false_iff, decide_eq_false_iff_not, not_lt,
    pure_ok, Except.ok.injEq]
  constructor
  · rintro ⟨f, hf, u, ⟨h1, h2⟩, c, h3, b, h4, h5⟩; exact ⟨f, c, b, hf, h1, h2, h3, h4, h5.symm⟩
  · rintro ⟨f, c, b, hf, h1, h2, h3, h4, h5⟩; exact ⟨f, hf, (), ⟨h1, h2⟩, c, h3, b, h4, h5.symm⟩

theorem param_ok {i : Nat} {w : Word} {q : Rat} : param i w = .ok q ↔ f32 w = some q := by
  unfold param; cases f32 w <;> simp

theorem gainRule_ok {s : State} {e : Effect} : gainRule s = .ok e ↔
    ∃ f g r, FormatIs s f ∧ s.srcLen.toNat ≤ s.cap.src ∧ s.srcLen.toNat ≤ s.cap.dst ∧
      f32 s.gainf = some g ∧ gainStage s f g s.srcLen.toNat = .ok r ∧
      e = { state := storeDst s r.bytes, trunc := r.trunc } := by
  unfold gainRule gainFactor
  simp only [bind_ok, fmtCheck_ok, raiseIf_ok, Bool.or_eq_false_iff, decide_eq_false_iff_not, not_lt,
    param_ok, pure_ok, Except.ok.injEq]
  constructor
  · rintro ⟨f, hf, u, ⟨h1, h2⟩, g, h3, r, h4, h5⟩; exact ⟨f, g, r, hf, h1, h2, h3, h4, h5.symm⟩
  · rintro ⟨f, g, r, hf, h1, h2, h3, h4, h5⟩; exact ⟨f, hf, (), ⟨h1, h2⟩, g, h3, r, h4, h5.symm⟩

theorem transformRule_ok {v : Nat → List Rat → List Rat → Cyc.Parts} {logn : BitVec 5} {s : State}
    {e : Effect} : transformRule v logn s = .ok e ↔
    ∃ re im, logn.toNat ≤ 11 ∧ readFloats .xr s.xr 0 (2 ^ logn.toNat) = .ok re ∧
      readFloats .xi s.xi 0 (2 ^ logn.toNat) = .ok im ∧
      e = { state := { s with
              xr := Memory.writeRun s.xr 0 ((v logn.toNat re im).stored (v logn.toNat re im).re)
              xi := Memory.writeRun s.xi 0 ((v logn.toNat re im).stored (v logn.toNat re im).im) }
            trunc := false } := by
  unfold transformRule
  simp only [bind_ok, lognCheck_ok, pure_ok, Except.ok.injEq]
  constructor
  · rintro ⟨n, ⟨h1, rfl⟩, re, h2, im, h3, h4⟩; exact ⟨re, im, h1, h2, h3, h4.symm⟩
  · rintro ⟨re, im, h1, h2, h3, h4⟩; exact ⟨_, ⟨h1, rfl⟩, re, h2, im, h3, h4.symm⟩

theorem magphRule_ok {logn : BitVec 5} {s : State} {e : Effect} : magphRule logn s = .ok e ↔
    ∃ re im, logn.toNat ≤ 11 ∧ readFloats .xr s.xr 0 (2 ^ logn.toNat) = .ok re ∧
      readFloats .xi s.xi 0 (2 ^ logn.toNat) = .ok im ∧
      e = { state := { s with
              mag := Memory.writeRun s.mag 0 (storeReals (magnitudes · re im))
              ph := Memory.writeRun s.ph 0 (storeReals (phases · re im)) }
            trunc := false } := by
  unfold magphRule
  simp only [bind_ok, lognCheck_ok, pure_ok, Except.ok.injEq]
  constructor
  · rintro ⟨n, ⟨h1, rfl⟩, re, h2, im, h3, h4⟩; exact ⟨re, im, h1, h2, h3, h4.symm⟩
  · rintro ⟨re, im, h1, h2, h3, h4⟩; exact ⟨_, ⟨h1, rfl⟩, re, h2, im, h3, h4.symm⟩

theorem learnRule_ok {s : State} {sp : Space} {m : Memory Byte} {f : Format} {a n len : Nat}
    {e : Effect} : learnRule s sp m f a n len = .ok e ↔
    ∃ x, hopFrames n ≠ 0 ∧ learnSignal sp m f a n = .ok x ∧
      e = { state := clobberTransform (setProfile s x (learnStarts n) .learned)
            trunc := truncated len f.frameBytes } := by
  unfold learnRule
  simp only [bind_ok, raiseIf_ok, decide_eq_false_iff_not, pure_ok, Except.ok.injEq]
  constructor
  · rintro ⟨u, h1, x, h2, h3⟩; exact ⟨x, h1, h2, h3.symm⟩
  · rintro ⟨x, h1, h2, h3⟩; exact ⟨(), h1, x, h2, h3.symm⟩

theorem nrlearnRule_ok {s : State} {e : Effect} : nrlearnRule s = .ok e ↔
    ∃ f x, FormatIs s f ∧ s.auxLen.toNat ≤ s.cap.aux ∧
      hopFrames (s.auxLen.toNat / f.frameBytes) ≠ 0 ∧
      learnSignal .aux s.aux f 0 (s.auxLen.toNat / f.frameBytes) = .ok x ∧
      e = { state := clobberTransform
              (setProfile s x (learnStarts (s.auxLen.toNat / f.frameBytes)) .learned)
            trunc := truncated s.auxLen.toNat f.frameBytes } := by
  unfold nrlearnRule
  simp only [bind_ok, fmtCheck_ok, raiseIf_ok, decide_eq_false_iff_not, not_lt, learnRule_ok]
  constructor
  · rintro ⟨f, hf, u, h1, x, h2, h3, h4⟩; exact ⟨f, x, hf, h1, h2, h3, h4⟩
  · rintro ⟨f, x, hf, h1, h2, h3, h4⟩; exact ⟨f, hf, (), h1, x, h2, h3, h4⟩

theorem nrlearnrRule_ok {s : State} {e : Effect} : nrlearnrRule s = .ok e ↔
    ∃ f x, FormatIs s f ∧ s.srcLen.toNat ≤ s.cap.src ∧
      s.rangeStart.toNat < s.rangeEnd.toNat ∧
      s.rangeEnd.toNat ≤ s.srcLen.toNat / f.frameBytes ∧
      hopFrames (s.rangeEnd.toNat - s.rangeStart.toNat) ≠ 0 ∧
      learnSignal .src s.src f s.rangeStart.toNat
        (s.rangeEnd.toNat - s.rangeStart.toNat) = .ok x ∧
      e = { state := clobberTransform
              (setProfile s x (learnStarts (s.rangeEnd.toNat - s.rangeStart.toNat)) .learned)
            trunc := truncated s.srcLen.toNat f.frameBytes } := by
  unfold nrlearnrRule
  simp only [bind_ok, fmtCheck_ok, raiseIf_ok, Bool.or_eq_false_iff, decide_eq_false_iff_not, not_lt,
    not_le, learnRule_ok]
  constructor
  · rintro ⟨f, hf, u, h1, v, ⟨h2, h3⟩, x, h4, h5, h6⟩; exact ⟨f, x, hf, h1, h2, h3, h4, h5, h6⟩
  · rintro ⟨f, x, hf, h1, h2, h3, h4, h5, h6⟩; exact ⟨f, hf, (), h1, (), ⟨h2, h3⟩, x, h4, h5, h6⟩

/-- R36: exactly when the noise reduction parameters are taken. -/
theorem nrParams_ok {s : State} {p : NrParams} : nrParams s = .ok p ↔
    f32 s.nrReduct = some p.red ∧ f32 s.nrFloor = some p.nf ∧ f32 s.nrSmooth = some p.sm ∧
      0 ≤ p.red ∧ 0 < p.nf ∧ 0 ≤ p.sm ∧ p.sm ≤ 1 := by
  unfold nrParams
  simp only [bind_ok, param_ok, refuseIf_ok, Bool.or_eq_false_iff, decide_eq_false_iff_not, not_lt,
    not_le, pure_ok, Except.ok.injEq]
  constructor
  · rintro ⟨r, h1, n, h2, m, h3, u, h4, v, h5, w, ⟨h6, h7⟩, rfl⟩; exact ⟨h1, h2, h3, h4, h5, h6, h7⟩
  · rintro ⟨h1, h2, h3, h4, h5, h6, h7⟩
    exact ⟨_, h1, _, h2, _, h3, (), h4, (), h5, (), ⟨h6, h7⟩, rfl⟩

/-- R35: exactly when the anti-distortion parameters are taken. -/
theorem adParams_ok {s : State} {p : AdParams} : adParams s = .ok p ↔
    f32 s.adThresh = some p.thr ∧ f32 s.adRatio = some p.ratio ∧ f32 s.adMakeup = some p.makeup ∧
      0 < p.thr ∧ p.thr ≤ 1 ∧ 1 ≤ p.ratio ∧ 0 < p.makeup := by
  unfold adParams
  simp only [bind_ok, param_ok, refuseIf_ok, Bool.or_eq_false_iff, decide_eq_false_iff_not, not_lt,
    not_le, pure_ok, Except.ok.injEq]
  constructor
  · rintro ⟨r, h1, n, h2, m, h3, u, ⟨h4, h5⟩, v, h6, w, h7, rfl⟩; exact ⟨h1, h2, h3, h4, h5, h6, h7⟩
  · rintro ⟨h1, h2, h3, h4, h5, h6, h7⟩
    exact ⟨_, h1, _, h2, _, h3, (), ⟨h4, h5⟩, (), h6, (), h7, rfl⟩

theorem lookAhead_ok {s : State} {n : Nat} : lookAhead s = .ok n ↔
    ∃ q, f32 s.srate = some q ∧ 0 < q ∧ n = lookAheadOf q := by
  unfold lookAhead
  simp only [bind_ok, param_ok, refuseIf_ok, decide_eq_false_iff_not, not_le, pure_ok,
    Except.ok.injEq]
  constructor
  · rintro ⟨q, h1, u, h2, h3⟩; exact ⟨q, h1, h2, h3.symm⟩
  · rintro ⟨q, h1, h2, h3⟩; exact ⟨q, h1, (), h2, h3.symm⟩

theorem nrprocRule_ok {s : State} {e : Effect} : nrprocRule s = .ok e ↔
    ∃ par xs profile, 1 ≤ s.fmtCh ∧ s.fmtCh ≤ s.cap.ch ∧ s.smpLen.toNat ≤ s.cap.smp ∧
      nrParams s = .ok par ∧
      readChannels s.cap.smp s.smp s.smpLen.toNat 0 s.fmtCh = .ok xs ∧
      readProfile (autoEstimated s (xs.getD 0 [])) s.smpLen.toNat = .ok profile ∧
      e = { state := clobberTransform
              { storeHiddenNr (autoEstimated s (xs.getD 0 []))
                  (nrRun Config.precision ⟨par, profile⟩ (xs.getLastD [])) with
                smp := writeChannels s.cap.smp s.smp 0
                  (xs.map (nrStored ⟨par, profile⟩)) }
            trunc := false } := by
  unfold nrprocRule
  simp only [bind_ok, chCheck_ok, raiseIf_ok, decide_eq_false_iff_not, not_lt, pure_ok,
    Except.ok.injEq]
  constructor
  · rintro ⟨c, ⟨rfl, h0, h1⟩, u, h2, par, h3, xs, h4, pr, h5, h6⟩
    exact ⟨par, xs, pr, h0, h1, h2, h3, h4, h5, h6.symm⟩
  · rintro ⟨par, xs, pr, h0, h1, h2, h3, h4, h5, h6⟩
    exact ⟨_, ⟨rfl, h0, h1⟩, (), h2, par, h3, xs, h4, pr, h5, h6.symm⟩

theorem adprocRule_ok {s : State} {e : Effect} : adprocRule s = .ok e ↔
    ∃ las par xs, 1 ≤ s.fmtCh ∧ s.fmtCh ≤ s.cap.ch ∧ s.smpLen.toNat ≤ s.cap.smp ∧
      lookAhead s = .ok las ∧ las ≤ s.cap.la ∧ adParams s = .ok par ∧
      readChannels s.cap.smp s.smp s.smpLen.toNat 0 s.fmtCh = .ok xs ∧
      e = { state := { storeLa s las ((xs.getLastD []).map Encl.exact) with
                smp := writeChannels s.cap.smp s.smp 0 (xs.map (adStored las par s.softClip)) }
            trunc := false } := by
  unfold adprocRule
  simp only [bind_ok, chCheck_ok, raiseIf_ok, decide_eq_false_iff_not, not_lt, pure_ok,
    Except.ok.injEq]
  constructor
  · rintro ⟨c, ⟨rfl, h0, h1⟩, u, h2, las, h3, v, h4, par, h5, xs, h6, h7⟩
    exact ⟨las, par, xs, h0, h1, h2, h3, h4, h5, h6, h7.symm⟩
  · rintro ⟨las, par, xs, h0, h1, h2, h3, h4, h5, h6, h7⟩
    exact ⟨_, ⟨rfl, h0, h1⟩, (), h2, las, h3, (), h4, par, h5, xs, h6, h7.symm⟩

/-- R190, the operands and checks of PROCESS in front of its stores. -/
theorem processRule_ok {s : State} {e : Effect} : processRule s = .ok e ↔
    ∃ f ad g nr r, FormatIs s f ∧ s.srcLen.toNat ≤ s.cap.src ∧ s.srcLen.toNat ≤ s.cap.dst ∧
      ((s.nrEn || s.adEn) = true → s.srcLen.toNat / f.frameBytes ≤ s.cap.smp) ∧
      processAd s = .ok ad ∧ f32 s.gainf = some g ∧ processNr s = .ok nr ∧
      gainStage s f g s.srcLen.toNat = .ok r ∧
      if (s.nrEn || s.adEn) = true then
        ∃ s', floatStages s f (s.srcLen.toNat / f.frameBytes) nr ad r.bytes = .ok s' ∧
          e = { state := s', trunc := truncated s.srcLen.toNat f.frameBytes }
      else e = { state := storeDst s r.bytes, trunc := r.trunc } := by
  unfold processRule gainFactor
  simp only [bind_ok, fmtCheck_ok, raiseIf_ok, Bool.or_eq_false_iff, Bool.and_eq_false_iff,
    decide_eq_false_iff_not, not_lt, param_ok]
  constructor
  · rintro ⟨f, hf, u, ⟨h1, h2⟩, v, h3, ad, h4, g, h5, nr, h6, r, h7, h8⟩
    refine ⟨f, ad, g, nr, r, hf, h1, h2, ?_, h4, h5, h6, h7, ?_⟩
    · intro h; cases hn : s.nrEn <;> cases ha : s.adEn <;> simp_all
    · split
      · rename_i h
        rw [if_pos h] at h8
        obtain ⟨s', h9, h10⟩ := bind_ok.1 h8
        exact ⟨s', h9, by simpa [eq_comm] using h10⟩
      · rename_i h
        rw [if_neg h] at h8
        simpa [eq_comm] using h8
  · rintro ⟨f, ad, g, nr, r, hf, h1, h2, h3, h4, h5, h6, h7, h8⟩
    refine ⟨f, hf, (), ⟨h1, h2⟩, (), ?_, ad, h4, g, h5, nr, h6, r, h7, ?_⟩
    · cases hn : s.nrEn <;> cases ha : s.adEn <;> simp_all
    · split
      · rename_i h
        rw [if_pos h] at h8
        obtain ⟨s', h9, h10⟩ := h8
        exact bind_ok.2 ⟨s', h9, by simp [h10]⟩
      · rename_i h
        rw [if_neg h] at h8
        simp [h8]

end Sys2Proof.Machine
end

