-- ==== Sys2Proof/Laws/Streams.lean ====
section
/-! SUPPORT. Lengths of the lists between buffers, channels and stages, where stored channels are read
back, and what the shared stream operations answer. -/

namespace Sys2Proof.Machine

/-! ### Lengths -/

@[simp] theorem chunks_length {α : Type} (size n : Nat) (l : List α) : (chunks size n l).length = n := by
  induction n generalizing l with
  | zero => rfl
  | succ n ih => simp [chunks, ih]

theorem getElem?_chunks {α : Type} (size n k : Nat) (l : List α) (h : k < n) :
    (chunks size n l)[k]? = some ((l.drop (k * size)).take size) := by
  induction n generalizing l k with
  | zero => omega
  | succ n ih =>
    cases k with
    | zero => simp [chunks]
    | succ k =>
      rw [chunks, List.getElem?_cons_succ, ih _ _ (by omega), List.drop_drop]
      congr 3
      ring

@[simp] theorem channelOf_length (ch f c : Nat) (l : List Int) : (channelOf ch f c l).length = f := by
  simp [channelOf]

@[simp] theorem unpackAll_length (f : Format) (k : Nat) (b : List Byte) : (unpackAll f k b).length = k := by
  simp [unpackAll]

@[simp] theorem pack_length (d : Depth) (be : Bool) (v : Int) : (pack d be v).length = d.bytes := by
  cases d <;> cases be <;> rfl

@[simp] theorem packAll_length (f : Format) (vs : List Int) :
    (packAll f vs).length = vs.length * f.depth.bytes := by
  induction vs with
  | nil => simp [packAll]
  | cons v vs ih =>
    rw [packAll, List.flatMap_cons, List.length_append, ← packAll, ih, pack_length, List.length_cons]
    ring

@[simp] theorem decodeFrames_length (f : Format) (n : Nat) (b : List Byte) :
    (decodeFrames f n b).length = f.ch := by simp [decodeFrames]

theorem length_of_mem_decodeFrames {f : Format} {n : Nat} {b : List Byte} {x : List Rat}
    (h : x ∈ decodeFrames f n b) : x.length = n := by
  simp only [decodeFrames, List.mem_map] at h
  obtain ⟨c, -, rfl⟩ := h
  simp

theorem interleave_length_le {α : Type} (n : Nat) (chs : List (List α)) :
    (interleave n chs).length ≤ n * chs.length := by
  induction n generalizing chs with
  | zero => simp [interleave]
  | succ n ih =>
    have h1 := List.length_filterMap_le List.head? chs
    have h2 := ih (chs.map List.tail)
    rw [List.length_map] at h2
    rw [interleave, List.length_append, Nat.succ_mul]
    omega

theorem interleave_length {α : Type} (n : Nat) (chs : List (List α)) (h : ∀ x ∈ chs, x.length = n) :
    (interleave n chs).length = n * chs.length := by
  induction n generalizing chs with
  | zero => simp [interleave]
  | succ n ih =>
    have h1 : (chs.filterMap List.head?).length = chs.length := by
      clear ih
      induction chs with
      | nil => rfl
      | cons x xs ihx =>
        have hx := h x (by simp)
        cases x with
        | nil => simp at hx
        | cons a as => simpa using ihx (fun y hy => h y (by simp [hy]))
    rw [interleave, List.length_append, ih, List.length_map, h1, Nat.succ_mul, Nat.add_comm]
    intro x hx
    obtain ⟨y, hy, rfl⟩ := List.mem_map.1 hx
    simp [h y hy]

theorem quantiseFrom_length {d : Depth} {i : Nat} {ws : List Word} {vs : List Int}
    (h : quantiseFrom d i ws = .ok vs) : vs.length = ws.length := by
  induction ws generalizing i vs with
  | nil => cases h; rfl
  | cons w ws ih =>
    rw [quantiseFrom] at h
    cases hq : quantise d (f32x w) with
    | none => simp [hq] at h
    | some v =>
      cases hr : quantiseFrom d (i + 1) ws with
      | error e => simp [hq, hr] at h
      | ok us =>
        simp only [hq, hr, Except.ok.injEq] at h
        subst h
        simp [ih hr]

theorem quantiseChannels_length {cap : Nat} {d : Depth} {c : Nat} {xs : List (List Word)}
    {vs : List (List Int)} (h : quantiseChannels cap d c xs = .ok vs) : vs.length = xs.length := by
  induction xs generalizing c vs with
  | nil => cases h; rfl
  | cons x xs ih =>
    rw [quantiseChannels] at h
    cases hq : quantiseFrom d (c * cap) x with
    | error e => simp [hq] at h
    | ok v =>
      cases hr : quantiseChannels cap d (c + 1) xs with
      | error e => simp [hq, hr] at h
      | ok us =>
        simp only [hq, hr, Except.ok.injEq] at h
        subst h
        simp [ih hr]

/-- ENCODE's loops give at most the bytes of n frames. -/
theorem encodeFrames_length_le {cap : Nat} {f : Format} {n : Nat} {chs : List (List Word)}
    {b : List Byte} (h : encodeFrames cap f n chs = .ok b) :
    b.length ≤ n * chs.length * f.depth.bytes := by
  unfold encodeFrames at h
  cases hq : quantiseChannels cap f.depth 0 chs with
  | error e => simp [hq] at h
  | ok vs =>
    simp only [hq, Except.ok.injEq] at h
    subst h
    rw [packAll_length]
    refine Nat.mul_le_mul_right _ ((interleave_length_le n vs).trans ?_)
    rw [quantiseChannels_length hq]

/-- The gain stage gives at most the bytes of SRC. -/
theorem gainStage_length_le {s : State} {f : Format} {g : Rat} {len : Nat} {r : GainResult}
    (h : gainStage s f g len = .ok r) (hw : ∃ n, Memory.wf n s.src = true) :
    r.bytes.length ≤ len := by
  obtain ⟨n, hw⟩ := hw
  unfold gainStage at h
  split at h
  · cases hr : readAll .src s.src 0 len with
    | error e => simp [hr] at h
    | ok b =>
      simp only [hr, Except.ok.injEq] at h
      subst h
      exact ((readAll_holds hw).1 hr).1.le
  · simp only at h
    cases hr : readAll .src s.src 0 (len / f.frameBytes * f.ch * f.depth.bytes) with
    | error e => simp [hr] at h
    | ok b =>
      simp only [hr, Except.ok.injEq] at h
      subst h
      simp only [packAll_length, List.length_map, unpackAll_length]
      rw [Nat.mul_assoc, Nat.mul_comm f.ch]
      exact Nat.div_mul_le_self len f.frameBytes

@[simp] theorem addAt_length (A : Numerics) (o : Nat) (ys ts : List A.R) :
    (addAt A o ys ts).length = ys.length := by
  induction ys generalizing o ts with
  | nil => cases o <;> rfl
  | cons y ys ih =>
    cases o with
    | zero =>
      cases ts with
      | nil => rfl
      | cons t ts => simp [addAt, ih]
    | succ o => simp [addAt, ih]

@[simp] theorem nrStart_length (A : Numerics) (x : List A.R) : (nrStart A x).length = x.length := by
  simp [nrStart, Config.nrTail]

/-- R175: the output of `nr_channel` has the input's length. -/
@[simp] theorem nrChannel_length (A : Numerics) (u : NrSetup) (x : List A.R) :
    (nrChannel A u x).out.length = x.length := by
  have key : ∀ (os : List Nat) (k : NrTrack A),
      (os.foldl (nrFrame A (nrTables A) u x) k).out.length = k.out.length := by
    intro os
    induction os with
    | nil => intro k; rfl
    | cons o os ih => intro k; rw [List.foldl_cons, ih]; simp [nrFrame]
  rw [nrChannel, key, nrStart_length]

@[simp] theorem adSamples_length (A : Numerics) (las : Nat) (par : AdParams) (soft : Bool)
    (x la : List A.R) : (adSamples A las par soft x la).length = x.length := by
  induction x generalizing la with
  | nil => rfl
  | cons v vs ih => simp [adSamples, ih]

/-- R183: the output of `ad_channel` has the input's length. -/
@[simp] theorem adChannel_length (A : Numerics) (las : Nat) (par : AdParams) (soft : Bool)
    (x : List A.R) : (adChannel A las par soft x).length = x.length := adSamples_length ..

@[simp] theorem chain_out_length (A : Numerics) (st : Stages) (x : List A.R) :
    (chain A st x).out.length = x.length := by
  unfold chain
  cases st.nr <;> cases st.ad <;> simp

@[simp] theorem chain_mid_length (A : Numerics) (st : Stages) (x : List A.R) :
    (chain A st x).mid.length = x.length := by
  unfold chain
  cases st.nr <;> simp

/-- R155: one entry for each bin. -/
@[simp] theorem profileEntries_length (A : Numerics) (x : List A.R) (starts : List Nat) :
    (profileEntries A x starts).length = 1025 := by
  simp [profileEntries, Config.nBins]

/-! ### Lengths of stored runs -/

theorem storeParts_length (t : Cyc.Parts) (ds : List (List Int)) : (t.stored ds).length = ds.length :=
  storeFloats_length _ _ _ fun p => by simp [Cyc.Parts.enclosed]

theorem fftParts_length (n : Nat) (re im : List Rat) :
    (fftParts n re im).re.length = 2 ^ n ∧ (fftParts n re im).im.length = 2 ^ n := by
  simp [fftParts]

theorem ifftParts_length (n : Nat) (re im : List Rat) :
    (ifftParts n re im).re.length = 2 ^ n ∧ (ifftParts n re im).im.length = 2 ^ n := by
  simp [ifftParts]

theorem magnitudes_length (A : Numerics) (re im : List Rat) :
    (magnitudes A re im).length = min re.length im.length := by simp [magnitudes]

theorem phases_length (A : Numerics) (re im : List Rat) :
    (phases A re im).length = min re.length im.length := by simp [phases]

@[simp] theorem profileStored_length (x : List Rat) (starts : List Nat) :
    (profileStored x starts).length = 1025 :=
  storeReals_length _ _ fun A => profileEntries_length A ..

@[simp] theorem nrStored_length (u : NrSetup) (x : List Rat) : (nrStored u x).length = x.length :=
  storeReals_length _ _ fun A => by simp

@[simp] theorem adStored_length (las : Nat) (par : AdParams) (soft : Bool) (x : List Rat) :
    (adStored las par soft x).length = x.length := storeReals_length _ _ fun A => by simp

@[simp] theorem chainStored_length (st : Stages) (x : List Rat) :
    (chainStored st x).length = x.length := storeReals_length _ _ fun A => by simp

theorem nrRun_length (p : Nat) (u : NrSetup) (x : List Rat) : (nrRun p u x).out.length = x.length := by
  rw [nrRun, nrChannel_length, List.length_map]

theorem chainRun_length (p : Nat) (st : Stages) (x : List Rat) :
    (chainRun p st x).out.length = x.length ∧ (chainRun p st x).mid.length = x.length := by
  rw [chainRun, chain_out_length, chain_mid_length, List.length_map]; exact ⟨rfl, rfl⟩

/-- Every channel's words have the channel's length. -/
theorem length_of_mem_map {f : List Rat → List Word} {l : Nat} {xs : List (List Rat)}
    (hf : ∀ x, (f x).length = x.length) (h : ∀ x ∈ xs, x.length = l) : ∀ w ∈ xs.map f, w.length = l := by
  intro w hw
  obtain ⟨x, hx, rfl⟩ := List.mem_map.1 hw
  rw [hf, h x hx]

/-- What a stored channel reads as: channel k of `xs`, frame j (R42). -/
theorem read_writeChannels_in {cap l : Nat} (xs : List (List Word)) (m : Memory Word) (c k j : Nat)
    (hl : ∀ x ∈ xs, x.length = l) (hc : l ≤ cap) (hk : k < xs.length) (hj : j < l) :
    Memory.read (writeChannels cap m c xs) ((c + k) * cap + j) = (xs.getD k [])[j]? := by
  induction xs generalizing m c k with
  | nil => simp at hk
  | cons x xs ih =>
    have hx : x.length = l := hl x (by simp)
    have hl' : ∀ y ∈ xs, y.length = l := fun y hy => hl y (by simp [hy])
    rw [writeChannels]
    cases k with
    | zero =>
      rw [read_writeChannels_out]
      · rw [Nat.add_zero, Memory.read_writeRun, if_pos ⟨by omega, by omega⟩]
        simp
      · intro i hi
        refine .inl ?_
        have : (c + 1 + i) * cap = (c + 0) * cap + cap + i * cap := by ring
        have : 0 ≤ i * cap := Nat.zero_le _
        omega
    | succ k =>
      have hk' : k < xs.length := by simpa using hk
      have := ih (Memory.writeRun m (c * cap) x) (c + 1) k hl' hk'
      rw [show c + (k + 1) = c + 1 + k by omega, this]
      simp

/-- Stored words are never NaN, so every one has an encoding. -/
theorem isStorable_rnd32 (q : Rat) : isStorable (rnd32 q) = true := by
  have hm : magPattern q.num.natAbs q.den ≤ 0x7F800000 := by
    unfold magPattern; exact Nat.min_le_right _ _
  unfold rnd32 isStorable
  simp only
  generalize magPattern q.num.natAbs q.den = m at hm
  split
  · rename_i h
    rw [Bool.and_eq_true, decide_eq_true_eq, BitVec.toNat_ofNat, bne_iff_ne]
    refine ⟨by omega, fun hc => ?_⟩
    have := congrArg BitVec.toNat hc
    simp at this
    omega
  · rw [Bool.and_eq_true, decide_eq_true_eq, BitVec.toNat_ofNat, bne_iff_ne]
    refine ⟨by omega, fun hc => ?_⟩
    have := congrArg BitVec.toNat hc
    simp at this
    omega

theorem isStorable_settled (e : Encl) : isStorable e.settled = true := by
  unfold Encl.settled
  split
  · exact isStorable_rnd32 _
  · unfold Encl.evenOf
    split <;> exact isStorable_rnd32 _
  · decide
  · decide

theorem isStorable_rounded {e : Encl} {w : Word} (h : e.rounded = some w) : isStorable w = true := by
  unfold Encl.rounded at h
  split at h
  · cases h; exact isStorable_rnd32 _
  · unfold Encl.agreed at h
    split at h <;> cases h
    exact isStorable_rnd32 _
  · cases h
  · cases h

theorem isStorable_mapM {es : List Encl} {ws : List Word} (h : es.mapM Encl.rounded = some ws) :
    ∀ w ∈ ws, isStorable w = true := by
  induction es generalizing ws with
  | nil => simp at h; simp [h]
  | cons e es ih =>
    simp only [List.mapM_cons, Option.bind_eq_bind, Option.bind_eq_some_iff, Option.pure_def,
      Option.some.injEq] at h
    obtain ⟨w, hw, us, hu, rfl⟩ := h
    intro v hv
    rcases List.mem_cons.1 hv with rfl | hv
    · exact isStorable_rounded hw
    · exact ih hu v hv

/-- Every word a float command stores is a binary32 pattern of a number or an infinity. -/
theorem isStorable_storeFloats (run : Nat → List Encl) (levels : Unit → Nat) :
    ∀ w ∈ storeFloats run levels, isStorable w = true := by
  rcases storeFloats_cases run levels with ⟨p, hp⟩ | ⟨p, hp⟩
  · exact isStorable_mapM hp
  · rw [hp]
    intro w hw
    obtain ⟨e, -, rfl⟩ := List.mem_map.1 hw
    exact isStorable_settled e

/-! ### Shared stream operations -/

/-- R160, R163: the samples a learn command reads. -/
theorem learnSignal_holds {sp : Space} {m : Memory Byte} {len a n : Nat} {f : Format} {x : List Rat}
    (h : Memory.wf len m = true) : learnSignal sp m f a n = .ok x ↔ x.length = n ∧
      ∀ k (hk : k < x.length), ∃ b, b.length = f.depth.bytes ∧
        Holds m ((a + k) * f.ch * f.depth.bytes) b ∧
          x[k] = toFloat f.depth (unpack f.depth f.be b) := by
  induction n generalizing a x with
  | zero =>
    simp only [learnSignal, Except.ok.injEq]
    constructor
    · rintro rfl; exact ⟨rfl, fun k hk => absurd hk (by simp)⟩
    · rintro ⟨hx, -⟩; exact (List.eq_nil_of_length_eq_zero hx).symm
  | succ n ih =>
    rw [learnSignal, Config.learnChannel, Nat.add_zero]
    constructor
    · intro e
      cases hr : readAll sp m (a * f.ch * f.depth.bytes) f.depth.bytes with
      | error d => simp [hr] at e
      | ok b =>
        cases hs : learnSignal sp m f (a + 1) n with
        | error d => simp [hr, hs] at e
        | ok xs =>
          simp only [hr, hs, Except.ok.injEq] at e
          subst e
          obtain ⟨hl, hh⟩ := ih.1 hs
          obtain ⟨hb, hm⟩ := (readAll_holds h).1 hr
          refine ⟨by simp [hl], fun k hk => ?_⟩
          cases k with
          | zero => exact ⟨b, hb, by simpa using hm, rfl⟩
          | succ k =>
            obtain ⟨b', h1, h2, h3⟩ := hh k (by simpa using hk)
            exact ⟨b', h1, by rwa [show a + (k + 1) = a + 1 + k by omega], by simpa using h3⟩
    · rintro ⟨hl, hh⟩
      cases x with
      | nil => simp at hl
      | cons q xs =>
        obtain ⟨b, h1, h2, h3⟩ := hh 0 (by simp)
        have hr : readAll sp m (a * f.ch * f.depth.bytes) f.depth.bytes = .ok b :=
          (readAll_holds h).2 ⟨h1, by simpa using h2⟩
        have hs : learnSignal sp m f (a + 1) n = .ok xs := by
          refine ih.2 ⟨by simpa using hl, fun k hk => ?_⟩
          obtain ⟨b', g1, g2, g3⟩ := hh (k + 1) (by simpa using hk)
          exact ⟨b', g1, by rwa [show a + 1 + k = a + (k + 1) by omega], by simpa using g3⟩
        simp only [List.getElem_cons_zero] at h3
        simp only [hr, hs, h3]

/-- R190: what the float branch of PROCESS answers. -/
theorem floatStages_ok {s s' : State} {f : Format} {n : Nat} {nr : Option NrParams}
    {ad : Option (Nat × AdParams × Bool)} {b : List Byte} :
    floatStages s f n nr ad b = .ok s' ↔
    ∃ s1 setup out,
      s1 = (if nr.isSome then autoEstimated s ((decodeFrames f n b).getD 0 []) else s) ∧
      (match nr with
        | some par => ∃ pr, readProfile s1 n = .ok pr ∧ setup = some (NrSetup.mk par pr)
        | none => setup = none) ∧
      encodeFrames s.cap.smp f n ((decodeFrames f n b).map (chainStored ⟨setup, ad⟩)) = .ok out ∧
      s' = storeDst
        (if nr.isSome then clobberTransform
            { storeHidden s1 ⟨setup, ad⟩ (chainRun Config.precision ⟨setup, ad⟩
                ((decodeFrames f n b).getLastD [])) with
              smp := writeChannels s.cap.smp s.smp 0
                ((decodeFrames f n b).map (chainStored ⟨setup, ad⟩))
              smpLen := BitVec.ofNat 32 n }
          else
            { storeHidden s1 ⟨setup, ad⟩ (chainRun Config.precision ⟨setup, ad⟩
                ((decodeFrames f n b).getLastD [])) with
              smp := writeChannels s.cap.smp s.smp 0
                ((decodeFrames f n b).map (chainStored ⟨setup, ad⟩))
              smpLen := BitVec.ofNat 32 n }) out := by
  unfold floatStages
  cases nr with
  | none =>
    simp only [Option.isSome_none, Bool.false_eq_true, if_false, bind_ok, pure_ok, Except.ok.injEq,
      exists_eq_left']
    constructor
    · rintro ⟨out, h1, h2⟩; exact ⟨s, none, out, rfl, rfl, h1, h2.symm⟩
    · rintro ⟨s1, setup, out, rfl, rfl, h1, h2⟩; exact ⟨out, h1, h2.symm⟩
  | some par =>
    simp only [Option.isSome_some, if_true, bind_ok, pure_ok, Except.ok.injEq]
    constructor
    · rintro ⟨pr, h0, a, rfl, out, h1, h2⟩; exact ⟨_, _, out, rfl, ⟨pr, h0, rfl⟩, h1, h2.symm⟩
    · rintro ⟨s1, setup, out, rfl, ⟨pr, h0, rfl⟩, h1, h2⟩; exact ⟨pr, h0, _, rfl, out, h1, h2.symm⟩

end Sys2Proof.Machine
end

