-- ==== Sys2Proof/Tests/Slice0.lean ====
section
/-! SUPPORT. Tests: well-formedness, decoding, one-step results with the expected values of
`95_test_vectors.md` and of the rules' own examples, and a witness for the hypotheses of every
statement. -/

namespace Sys2Proof.Tests

-- One kernel evaluation at a time: each waiting one would hold a thread and its stack.
set_option Elab.async false

open Sys2Proof.Machine

/-! ### Helpers -/

/-- A small machine: 8192 bytes a buffer, two channels of 4096 frames, look-ahead at most 8. -/
def bare : State := State.powerOn { src := 8192, aux := 8192, dst := 8192, ch := 2, smp := 4096, la := 8 }

def bytes (l : List Nat) : List Host.Cell := Memory.enumFrom 0 (l.map (BitVec.ofNat 8))
def floats (l : List Nat) : Memory Word := Memory.enumFrom 0 (l.map (BitVec.ofNat 32))

/-- `bare` with a format word and SRC loaded. -/
def loaded (fmt : Word) (l : List Nat) : State :=
  { bare with fmt := fmt, src := bytes l, srcLen := BitVec.ofNat 32 l.length }

/-- Whether the outcome is a next state with the property. -/
def nextIs (o : Host.Outcome State Fault Refusal) (p : State → Bool) : Bool :=
  match o with
  | .next t => p t
  | .fault _ => false
  | .refused _ => false

theorem of_nextIs {o : Host.Outcome State Fault Refusal} {p : State → Bool} (h : nextIs o p = true) :
    ∃ t, o = .next t ∧ p t = true := by
  cases o with
  | next t => exact ⟨t, rfl, h⟩
  | fault f => exact f.rec
  | refused r => cases h

def clean (t : State) : Bool := decide (t.err = .none)

/-! ### Well-formedness and decoding -/

/-- R81: logn above LOGN_MAX. -/
theorem test_illformed_fft : Instr.wf (.fft 12) = false := by decide
theorem test_illformed_ifft : Instr.wf (.ifft 12) = false := by decide
theorem test_illformed_magph : Instr.wf (.magph 31) = false := by decide
theorem test_wf_at_bound : Instr.wf (.fft 11) = true ∧ Instr.wf .process = true := by decide

/-- Words written out from the opcode map of R83 and the formats of R80 (V30-1 to V30-6). -/
theorem test_decode_words :
    decode 0x00000001#32 = .ok .decode ∧ decode 0x00000002#32 = .ok .encode ∧
    decode 0x00000003#32 = .ok .gain ∧ decode 0x00000304#32 = .ok (.fft 3) ∧
    decode 0x00000B05#32 = .ok (.ifft 11) ∧ decode 0x00000B06#32 = .ok (.magph 11) ∧
    decode 0x00000007#32 = .ok .nrlearn ∧ decode 0x00000008#32 = .ok .nrlearnr ∧
    decode 0x00000009#32 = .ok .nrreset ∧ decode 0x0000000A#32 = .ok .nrproc ∧
    decode 0x0000000B#32 = .ok .adproc ∧ decode 0x0000000C#32 = .ok .process ∧
    decode 0x00000004#32 = .ok (.fft 0) := by decide

/-- V30-7 to V30-14. -/
theorem test_illegal_words :
    decode 0x00000000#32 = .error .unknownOpcode ∧ decode 0x0000000D#32 = .error .unknownOpcode ∧
    decode 0x000000FF#32 = .error .unknownOpcode ∧ decode 0x00000C04#32 = .error .lognTooLarge ∧
    decode 0x00001F06#32 = .error .lognTooLarge ∧ decode 0x00000101#32 = .error .nonzeroField ∧
    decode 0x00002304#32 = .error .nonzeroField ∧ decode 0x80000009#32 = .error .nonzeroField := by
  decide

/-- The host's two entry points: after `withFetchWord` the next step runs the command. -/
theorem test_fetch_nrreset : decodeTableWord 32 9 = some .nrreset ∧
    nextIs (step (State.reset.withFetchWord 32 9)) (fun t => t.isDone && !t.busy) = true := by
  decide +kernel

/-- V30-7: STATUS = 0x042. -/
theorem test_illegal_status :
    nextIs (step { bare with script := [.write .reg 0 0] }) (fun t => t.statusWord == 0x042#32) = true := by
  decide +kernel

/-! ### One command each -/

/-- V40-6: stereo, one byte ignored. -/
theorem test_decode_stereo :
    nextIs (exec .decode (loaded 0x20210#32 [1, 0, 2, 0, 3, 0, 4, 0, 9])) (fun t =>
      t.smp == [(0, 0x38000000#32), (1, 0x38C00000#32), (4096, 0x38800000#32), (4097, 0x39000000#32)] &&
        t.smpLen == 2 && t.statusWord == 0x102#32) = true := by decide +kernel

/-- V40-5: 24-bit big-endian. -/
theorem test_decode_24_be :
    nextIs (exec .decode (loaded 0x10318#32 [0x80, 0, 0, 0x12, 0x34, 0x56])) (fun t =>
      t.smp == [(0, 0xBF800000#32), (1, 0x3E11A2B0#32)]) = true := by decide +kernel

/-- V40-26, V40-24, V40-21: ties away, then the offset; the clamp. -/
theorem test_encode_8 :
    nextIs (exec .encode { bare with
        fmt := 0x10008#32, smpLen := 3, smp := floats [0xBB800000, 0x3EFE0000, 0x3F800000] }) (fun t =>
      t.dst == bytes [0x7F, 0xC0, 0xFF] && t.dstLen == 3 && t.statusWord == 0x002#32) = true := by
  decide +kernel

/-- V40-34, V40-30, V40-19. -/
theorem test_encode_24 :
    nextIs (exec .encode { bare with
        fmt := 0x10218#32, smpLen := 3, smp := floats [0x3DCCCCCD, 0xBF800000, 0xFF800000] }) (fun t =>
      t.dst == bytes [0xCD, 0xCC, 0x0C, 0, 0, 0x80, 0, 0, 0x80]) = true := by decide +kernel

/-- V41-6: 1.001 is off the fast path. -/
theorem test_gain_off_fast_path :
    nextIs (exec .gain { loaded 0x10210#32 [1, 2, 3] with gainf := 0x3F8020C5#32 }) (fun t =>
      t.dst == bytes [2, 2] && t.dstLen == 2 && t.statusWord == 0x102#32) = true := by decide +kernel

/-- V41-14: the exact product. -/
theorem test_gain_exact_product :
    nextIs (exec .gain { loaded 0x10218#32 [0xC1, 0xCF, 0x6A] with gainf := 0x3F8CCCCD#32 }) (fun t =>
      t.dst == bytes [0x21, 0x7E, 0x75]) = true := by decide +kernel

/-- V42-4: r and -r are inexact, the zeros exact. -/
theorem test_fft_shifted_impulse :
    nextIs (exec (.fft 3) { bare with
        xr := floats [0, 0x3F800000, 0, 0, 0, 0, 0, 0], xi := floats [0, 0, 0, 0, 0, 0, 0, 0] }) (fun t =>
      t.xr == floats [0x3F800000, 0x3F3504F3, 0, 0xBF3504F3, 0xBF800000, 0xBF3504F3, 0, 0x3F3504F3] &&
      t.xi == floats [0, 0xBF3504F3, 0xBF800000, 0xBF3504F3, 0, 0x3F3504F3, 0x3F800000, 0x3F3504F3]) =
        true := by decide +kernel

/-- V42-3. -/
theorem test_ifft_four :
    nextIs (exec (.ifft 2) { bare with
        xr := floats [0x41200000, 0xC0000000, 0xC0000000, 0xC0000000]
        xi := floats [0, 0x40000000, 0, 0xC0000000] }) (fun t =>
      t.xr == floats [0x3F800000, 0x40000000, 0x40400000, 0x40800000] && t.xi == floats [0, 0, 0, 0]) =
        true := by decide +kernel

/-- R133's pseudocode on N = 1: `bits32(rnd32(0))` for the negative zero (log 9). -/
theorem test_fft_negative_zero :
    nextIs (exec (.fft 0) { bare with xr := floats [0x80000000], xi := floats [0x3F800000] }) (fun t =>
      t.xr == floats [0] && t.xi == floats [0x3F800000]) = true := by decide +kernel

/-- R10, ties to even: 2^24 + 1 and 2^24 + 3 lie halfway between binary32 values. -/
theorem test_tie_to_even :
    (Encl.span 1 33554433 33554435).rounded = none ∧
      (Encl.span 1 33554433 33554435).settled = 0x4B800000#32 ∧
      (Encl.span 1 33554437 33554439).settled = 0x4B800002#32 := by decide +kernel

/-- V42-11. -/
theorem test_magph_four :
    nextIs (exec (.magph 2) { bare with
        xr := floats [0x41200000, 0xC0000000, 0xC0000000, 0xC0000000]
        xi := floats [0, 0x40000000, 0, 0xC0000000] }) (fun t =>
      t.mag == floats [0x41200000, 0x403504F3, 0x40000000, 0x403504F3] &&
        t.ph == floats [0, 0x4016CBE4, 0x40490FDB, 0xC016CBE4]) = true := by decide +kernel

/-- V42-14: negative zero is the real 0. -/
theorem test_magph_negative_zero :
    nextIs (exec (.magph 0) { bare with xr := floats [0x80000000], xi := floats [0] }) (fun t =>
      t.mag == floats [0] && t.ph == floats [0]) = true := by decide +kernel

/-- V43-7: 2047 samples are too few, whatever they are. -/
theorem test_nrlearn_short :
    nextIs (exec .nrlearn { bare with fmt := 0x10210#32, auxLen := 4094 }) (fun t =>
      t.statusWord == 0x032#32) = true := by decide +kernel

/-- V43-9: RANGE 0..4097 of 4096 frames. -/
theorem test_nrlearnr_out_of_bounds :
    nextIs (exec .nrlearnr { bare with fmt := 0x10210#32, srcLen := 8192, rangeEnd := 4097 }) (fun t =>
      t.statusWord == 0x032#32) = true := by decide +kernel

/-- V43-8. -/
theorem test_nrreset :
    nextIs (exec .nrreset { bare with pstate := .learned }) (fun t => t.statusWord == 0x002#32) = true := by
  decide +kernel

/-- V43-4, with three samples. -/
def shortNr : State :=
  { bare with fmt := 0x10210#32, smpLen := 3, smp := floats [0x3F000000, 0x3F000000, 0x3F000000]
              nrReduct := 0x3DCCCCCD#32, nrFloor := 0x3C23D70A#32, nrSmooth := 0x3F000000#32 }

theorem test_nrproc_short :
    nextIs (exec .nrproc shortNr) (fun t =>
      t.smp == floats [0, 0, 0] && t.statusWord == 0x006#32 && t.profile.length == 1025 &&
        t.profile.all (fun e => e.2 == 0x358637BD#32)) = true := by decide +kernel

/-- V44-1. -/
def softAd : State :=
  { bare with fmt := 0x10210#32, smpLen := 2, smp := floats [0x3F800000, 0x3F800000]
              srate := 0x447A0000#32, adThresh := 0x3F000000#32, adRatio := 0x40800000#32
              adMakeup := 0x3F800000#32, ctrl := 4 }

theorem test_adproc_soft :
    nextIs (exec .adproc softAd) (fun t => t.smp == floats [0x3EEAC406, 0x3EEAC406]) = true := by
  decide +kernel

/-- V44-6. -/
theorem test_adproc_negative :
    nextIs (exec .adproc { softAd with
        smp := floats [0x3F666666, 0xBF666666], srate := 0x43C80000#32, adRatio := 0x40000000#32
        ctrl := 0 }) (fun t => t.smp == floats [0x3F1C71C7, 0xBF1C71C7]) = true := by decide +kernel

/-- P1. -/
theorem test_process_gain_only :
    nextIs (exec .process { loaded 0x10210#32 [0xE8, 0x03, 0x18, 0xFC] with gainf := 0x40000000#32 })
      (fun t => t.dst == bytes [0xD0, 0x07, 0x30, 0xF8] && t.dstLen == 4) = true := by decide +kernel

/-- PROCESS with anti-distortion alone: 0x8000 is -1.0, peak 1.0, gain 0.5625 (V44-1), -18432. -/
def adProcess : State :=
  { loaded 0x10210#32 [0, 0x80, 0, 0x80] with
    gainf := 0x3F800000#32, srate := 0x447A0000#32, adThresh := 0x3F000000#32
    adRatio := 0x40800000#32, adMakeup := 0x3F800000#32, ctrl := 2 }

theorem test_process_ad :
    nextIs (exec .process adProcess) (fun t =>
      t.dst == bytes [0, 0xB8, 0, 0xB8] && t.smp == floats [0xBF100000, 0xBF100000]) = true := by
  decide +kernel


/-! ### Witnesses: concrete states and operands that meet the hypotheses of each statement -/

theorem decode_of_word {w : Word} {i : Instr} (h : decode w = .ok i) : ∃ j, decode w = .ok j := ⟨i, h⟩

/-- A state that holds a run from index 0 and nothing else holds what was written. -/
theorem holds_writeRun {α : Type} (vs : List α) (k : Nat) (h : k < vs.length) :
    Memory.read (Memory.writeRun ([] : Memory α) 0 vs) k = some vs[k] := by
  have := Memory.read_writeRun_in ([] : Memory α) 0 vs k h
  rwa [Nat.zero_add] at this

/-- DecodeOfEncodeIsIdentity, LegalWordsAreTheTwelveEncodings. -/
theorem witness_encoding : Instr.wf (.ifft 11) = true ∧ decode 0x00000B05#32 = .ok (.ifft 11) := by
  decide

/-- StepRunsTheDecodedCommand: both scripts. -/
theorem witness_step :
    (accept bare 9).busy = true ∧ decode (accept bare 9).cmd = .ok .nrreset ∧ (accept bare 9).script = [] ∧
      (bare.withFetchWord 32 9).script = .wait :: [] := by decide

/-- AcceptedCommandIsLatchedRunAndCompleted, with a next state of the command. -/
theorem witness_accepted :
    ({ bare with script := [.write .reg 0 9] } : State).busy = false ∧
      decode 9#32 = .ok .nrreset ∧ ∃ u, exec .nrreset (accept bare 9) = .next u :=
  ⟨rfl, by decide, _, rfl⟩

/-- IllegalWordCompletesAtOnce. -/
theorem witness_illegal : bare.busy = false ∧ ∀ i, decode 0x00000C04#32 ≠ .ok i := by
  refine ⟨rfl, fun i h => ?_⟩
  rw [show decode 0x00000C04#32 = .error .lognTooLarge by decide] at h
  cases h

/-- IdleEngineKeepsStateAndWaitEnds: the empty script, a write, a read, and `wait` idle and busy. -/
theorem witness_idle_and_wait :
    bare.busy = false ∧ bare.script = [] ∧
      (let s : State := { bare with script := [.write .src 0 7, .read .src 0, .wait] }
       s.busy = false ∧ s.script = .write .src 0 7 :: [.read .src 0, .wait] ∧
         ({ s with script := s.script.tail } : State).script = .read .src 0 :: [.wait] ∧
         ({ s with script := s.script.tail.tail } : State).script = .wait :: []) ∧
      (accept bare 9).busy = true ∧
      (bare.withFetchWord 32 9).script = .wait :: [] := by decide

/-- BusyMachineRefusesTheHost: a write, a read, and a read of STATUS. -/
theorem witness_busy :
    (accept bare 9).busy = true ∧ HostOp.write .src 0 0 = .write .src 0 0 ∧
      ¬((Space.reg = .reg) ∧ (0 : Nat) = 1) ∧ HostOp.read .reg 1 = .read .reg 1 := by decide

/-- SourceLengthWriteUnsetsProfile, FrameOfFloatStages: NRRESET. -/
theorem witness_next : ∃ t, exec .nrreset bare = .next t := ⟨_, rfl⟩

/-- ReservedRegistersAndBitsReadZero, HostRegisterWritesAndReads, HostWriteIsReadBack: the bounds.
HostReadsAnswerWhatIsHeld: a value, and none. -/
theorem witness_indices :
    (18 ≤ 18 ∧ 18 < 32) ∧ (18 ≤ 31 ∧ 31 < 32) ∧ spaceLen bare.cap .xr ≤ 2048 ∧
      (Space.smp ∈ [Space.src, .aux, .smp, .xr, .xi] ∧ 8191 < spaceLen bare.cap .smp ∧ 0 ≠ 8191) ∧
      (Space.src ∈ [Space.src, .aux, .smp, .xr, .xi] ∧ 8191 < spaceLen bare.cap .src) ∧
      (8191 < bare.cap.src ∧ 8191 < bare.cap.aux ∧ 8191 < bare.cap.ch * bare.cap.smp ∧ 2047 < 2048) ∧
      (loaded 0x10210#32 [7]).peek .src 0 = some 7 ∧ (loaded 0x10210#32 [7]).peek .src 1 = none ∧
      bare.peek .profile 0 = none := by decide

/-- ErroringCommandChangesOnlyStatus, UnsupportedBitDepthIsReported (both clauses). -/
theorem witness_bit_depth :
    (Instr.decode ∈ [Instr.decode, .encode, .gain, .nrlearn, .nrlearnr, .process] ∧
      bare.fmtBits ≠ 8 ∧ bare.fmtBits ≠ 16 ∧ bare.fmtBits ≠ 24) ∧
    ∃ t, exec .decode bare = .next t ∧ t.err = .unsupportedBitDepth := by
  refine ⟨by decide, ?_⟩
  have ⟨t, h, e⟩ := of_nextIs (o := exec .decode bare)
    (p := fun t => decide (t.err = .unsupportedBitDepth)) (by decide +kernel)
  exact ⟨t, h, of_decide_eq_true e⟩

/-- UnsupportedFormatIsReported: each disjunct, NRPROC, and the converse. -/
theorem witness_format :
    (Depth.ofBits (loaded 0x00210#32 []).fmtBits = some .d16 ∧ (loaded 0x00210#32 []).fmtCh = 0) ∧
    (Depth.ofBits (loaded 0x30210#32 []).fmtBits = some .d16 ∧
      (loaded 0x30210#32 []).cap.ch < (loaded 0x30210#32 []).fmtCh) ∧
    (Depth.ofBits (loaded 0x10010#32 []).fmtBits = some .d16 ∧
      (loaded 0x10010#32 []).fmtSigned ≠ Depth.d16.signed) ∧
    (Instr.nrproc ∈ [Instr.nrproc, .adproc] ∧ bare.fmtCh = 0) ∧
    ∃ t, exec .nrproc bare = .next t ∧ t.err = .unsupportedFormat := by
  refine ⟨by decide, by decide, by decide, by decide, ?_⟩
  have ⟨t, h, e⟩ := of_nextIs (o := exec .nrproc bare)
    (p := fun t => decide (t.err = .unsupportedFormat)) (by decide +kernel)
  exact ⟨t, h, of_decide_eq_true e⟩

/-- CommandsAreRefusedOnlyForCause: an unwritten element, an infinite one, an infinite factor, and a
threshold 0; the infinite PROFILE entry is in `witness_infinite_profile`. -/
theorem witness_refusals :
    bare.memWf = true ∧ exec (.fft 0) bare = .refused (.unwritten .xr 0) ∧
      exec (.ifft 0) { bare with xr := floats [0x7F800000] } = .refused (.nonFiniteElement .xr 0) ∧
      exec .gain { loaded 0x10210#32 [] with gainf := 0x7F800000#32 } =
        .refused (.nonFiniteParameter 8) ∧
      exec .adproc { softAd with adThresh := 0 } = .refused (.parameterOutOfRange 9) := by
  have h : ∀ {o : Host.Outcome State Fault Refusal} {r : Refusal},
      (match o with | .refused q => decide (q = r) | .next _ => false | .fault _ => false) = true →
        o = .refused r := by
    intro o r h
    cases o with
    | next t => cases h
    | fault f => cases h
    | refused q => rw [of_decide_eq_true h]
  exact ⟨by decide +kernel, h (by decide +kernel), h (by decide +kernel), h (by decide +kernel),
    h (by decide +kernel)⟩

/-- 16-bit signed little-endian mono. -/
def mono16 : Format := { depth := .d16, be := false, ch := 1 }

theorem mono16_is {s : State} (h : s.fmt = 0x10210#32) (hc : 1 ≤ s.cap.ch) : FormatIs s mono16 := by
  unfold FormatIs State.fmtBits State.fmtBe State.fmtCh State.fmtSigned
  rw [h]
  exact ⟨by decide, by decide, by decide, by decide, by simpa using hc, by decide⟩

/-- CapacityExceededIsReported: one state over every bound at its boundary, and the look-ahead. -/
theorem witness_capacity :
    let s : State := { bare with fmt := 0x10210#32, srcLen := 8193, auxLen := 8193, smpLen := 4097
                                 cap := { bare.cap with smp := 4095 }, srate := 0x44E10000#32, ctrl := 3 }
    FormatIs s mono16 ∧ s.cap.src < s.srcLen.toNat ∧ s.cap.aux < s.auxLen.toNat ∧
      s.cap.dst < s.srcLen.toNat ∧ s.cap.smp < s.srcLen.toNat / mono16.frameBytes ∧
      (s.nrEn || s.adEn) = true ∧ s.cap.smp < s.smpLen.toNat ∧
      s.cap.dst < s.smpLen.toNat * mono16.frameBytes ∧
      f32 s.srate = some 1800 ∧ s.cap.la < lookAheadOf 1800 ∧ s.adEn = true := by
  intro s
  exact ⟨mono16_is rfl (by decide), by decide +kernel⟩

/-- InvalidSelectionIsReported: empty, out of bounds by one, one sample short; NRLEARN one short. -/
theorem witness_selection :
    let s : State := { bare with fmt := 0x10210#32, srcLen := 8192, auxLen := 4095 }
    FormatIs s mono16 ∧ s.srcLen.toNat ≤ s.cap.src ∧ s.rangeEnd.toNat ≤ s.rangeStart.toNat ∧
      ({ s with rangeEnd := 4097 } : State).srcLen.toNat / mono16.frameBytes < 4097 ∧ 2047 - 0 < 2048 ∧
      s.auxLen.toNat ≤ s.cap.aux ∧ s.auxLen.toNat / mono16.frameBytes < 2048 := by
  intro s
  exact ⟨mono16_is rfl (by decide), by decide +kernel⟩

/-- PackAndUnpackAreInverse, DecodedSamplesAreExact: the ends of the range; a byte list. -/
theorem witness_integers :
    (Depth.d24.lo ≤ -8388608 ∧ (-8388608 : Int) ≤ Depth.d24.hi) ∧
      (Depth.d24.lo ≤ 8388607 ∧ (8388607 : Int) ≤ Depth.d24.hi) ∧
      ([0#8, 0#8, 0x80#8] : List Byte).length = Depth.d24.bytes := by decide

/-- RoundIntIsNearestTiesAway: a tie. -/
theorem witness_tie :
    |mkRat 1 2 - (roundInt Config.roundTies (mkRat 1 2) : Rat)| = |mkRat 1 2 - ((0 : Int) : Rat)| := by
  rw [show roundInt Config.roundTies (mkRat 1 2) = 1 by decide +kernel, Rat.mkRat_eq_div]
  norm_num

/-- QuantiserRoundsAndClamps, GainSaturatesAndNeverWraps: ties of both signs, in range (R12's
`round_int(63.5) = 64`, `round_int(-63.5) = -64`). -/
theorem witness_range_ties :
    (Depth.d8.lo : Rat) ≤ ((127 : Int) : Rat) * (1 / 2) ∧
      ((127 : Int) : Rat) * (1 / 2) ≤ (Depth.d8.hi : Rat) ∧
      |((127 : Int) : Rat) * (1 / 2) - ((64 : Int) : Rat)| =
        |((127 : Int) : Rat) * (1 / 2) - ((63 : Int) : Rat)| ∧
      scaleInt .d8 (mkRat 1 2) 127 = 64 ∧ scaleInt .d8 (mkRat 1 2) (-127) = -64 ∧
      toInt .d8 (mkRat 127 256) = 64 ∧ toInt .d8 (mkRat (-127) 256) = -64 := by
  refine ⟨?_, ?_, ?_, by decide +kernel, by decide +kernel, by decide +kernel, by decide +kernel⟩ <;>
    norm_num [Depth.lo, Depth.hi, Depth.scale]

/-- QuantiserRoundsAndClamps, GainSaturatesAndNeverWraps: in range at both ends, and beyond. -/
theorem witness_range :
    ((Depth.d8.lo : Rat) ≤ -1 * (Depth.d8.scale : Rat) ∧ -1 * (Depth.d8.scale : Rat) ≤ (Depth.d8.hi : Rat)) ∧
      (Depth.d8.hi : Rat) ≤ 1 * (Depth.d8.scale : Rat) ∧ -1 * (Depth.d8.scale : Rat) ≤ (Depth.d8.lo : Rat) ∧
      ((Depth.d8.lo : Rat) ≤ ((127 : Int) : Rat) * 1 ∧ ((127 : Int) : Rat) * 1 ≤ (Depth.d8.hi : Rat)) ∧
      (Depth.d8.hi : Rat) ≤ ((127 : Int) : Rat) * 1 ∧ ((-128 : Int) : Rat) * 1 ≤ (Depth.d8.lo : Rat) := by
  simp only [Depth.lo, Depth.hi, Depth.scale]
  norm_num

theorem holds_of_readAll {α : Type} {sp : Space} {m : Memory α} {len : Nat} {vs : List α}
    (h : Memory.wf len m = true) (r : readAll sp m 0 vs.length = .ok vs) : Holds m 0 vs :=
  ((readAll_holds h).1 r).2

theorem holdsFloats_of {sp : Space} {m : Memory Word} {len i : Nat} {qs : List Rat}
    (h : Memory.wf len m = true) (r : readFloats sp m i qs.length = .ok qs) : HoldsFloats m i qs :=
  ((readFloats_holds h).1 r).2

/-- DecodeCommandResult, GainCommandScalesSamples (factor 2), GainFastPathCopiesEveryByte (factor 1):
V41-6's bytes, one of them trailing. -/
theorem witness_buffer (g : Word) (hg : g = 0x40000000#32 ∨ g = 0x3F800000#32) :
    let s : State := { loaded 0x10210#32 [1, 2, 3] with gainf := g }
    s.memWf = true ∧ FormatIs s mono16 ∧ s.srcLen.toNat ≤ s.cap.src ∧ s.srcLen.toNat ≤ s.cap.dst ∧
      s.srcLen.toNat / mono16.frameBytes ≤ s.cap.smp ∧
      ([1, 2] : List Byte).length = s.srcLen.toNat / mono16.frameBytes * mono16.frameBytes ∧
      Holds s.src 0 [1#8, 2#8] ∧ ([1, 2, 3] : List Byte).length = s.srcLen.toNat ∧
      Holds s.src 0 [1#8, 2#8, 3#8] := by
  intro s
  have h : Memory.wf 8192 (bytes [1, 2, 3]) = true := by decide +kernel
  have h2 : Holds (bytes [1, 2, 3]) 0 [1#8, 2#8] :=
    holds_of_readAll (sp := .src) h (by decide +kernel)
  have h3 : Holds (bytes [1, 2, 3]) 0 [1#8, 2#8, 3#8] :=
    holds_of_readAll (sp := .src) h (by decide +kernel)
  rcases hg with rfl | rfl
  all_goals
    exact ⟨by decide +kernel, mono16_is rfl (by decide), by decide, by decide, by decide, by decide, h2,
      by decide, h3⟩

theorem witness_factors :
    f32 0x40000000#32 = some 2 ∧ (1 : Rat) / 1000 ≤ |2 - 1| ∧ f32 0x3F800000#32 = some 1 ∧
      |(1 : Rat) - 1| < 1 / 1000 := by
  refine ⟨by decide +kernel, by norm_num, by decide +kernel, by norm_num⟩

/-- EncodeCommandResult: one sample 0.5 (V40-12). -/
theorem witness_encode :
    let s : State := { bare with fmt := 0x10210#32, smpLen := 1, smp := floats [0x3F000000] }
    s.memWf = true ∧ FormatIs s mono16 ∧ s.smpLen.toNat ≤ s.cap.smp ∧
      s.smpLen.toNat * mono16.frameBytes ≤ s.cap.dst ∧
      ∀ c k, c < mono16.ch → k < s.smpLen.toNat →
        Memory.read s.smp (c * s.cap.smp + k) = some 0x3F000000#32 ∧
          quantise mono16.depth (f32x 0x3F000000#32) = some 16384 := by
  intro s
  refine ⟨by decide +kernel, mono16_is rfl (by decide), by decide, by decide, fun c k hc hk => ?_⟩
  obtain rfl : c = 0 := by simpa [mono16] using hc
  obtain rfl : k = 0 := by
    have : s.smpLen.toNat = 1 := by decide
    omega
  exact ⟨by decide, by decide +kernel⟩

/-- DecodeThenEncodeRestoresBytes, and the frames: commands that complete without error. -/
theorem witness_completes :
    (bare.cap.wf = true ∧ (loaded 0x10210#32 [1, 2, 3]).memWf = true ∧
      FormatIs (loaded 0x10210#32 [1, 2, 3]) mono16) ∧
    (∃ t, exec .decode (loaded 0x10210#32 [1, 2, 3]) = .next t ∧ clean t = true) ∧
    (∃ t, exec .gain (loaded 0x10210#32 [1, 2, 3]) = .next t ∧ clean t = true) ∧
    (∃ t, exec .encode { bare with fmt := 0x10210#32, smpLen := 1, smp := floats [0x3F000000] } = .next t ∧
      clean t = true) ∧
    (∃ t, exec .nrproc shortNr = .next t ∧ clean t = true) ∧
    (∃ t, exec .adproc softAd = .next t ∧ clean t = true) ∧
    (∃ t, exec .process adProcess = .next t ∧ clean t = true) :=
  ⟨⟨by decide, by decide +kernel, mono16_is rfl (by decide)⟩, of_nextIs (by decide +kernel),
    of_nextIs (by decide +kernel), of_nextIs (by decide +kernel), of_nextIs (by decide +kernel),
    of_nextIs (by decide +kernel), of_nextIs (by decide +kernel)⟩

/-- Rnd32IsNearestTiesEven: in range with a tie (half the least binary32 value), and both overflows. -/
theorem witness_rounding :
    |(1 / 2 ^ 150 : Rat)| < 2 ^ 128 - 2 ^ 103 ∧ f32 0x00000000#32 = some 0 ∧
      f32 0x00000001#32 = some (mkRat 1 (2 ^ 149)) ∧
      |(1 / 2 ^ 150 : Rat) - 0| = |(1 / 2 ^ 150 : Rat) - mkRat 1 (2 ^ 149)| ∧
      (2 ^ 128 - 2 ^ 103 : Rat) ≤ 2 ^ 128 - 2 ^ 103 ∧ -(2 ^ 128 : Rat) ≤ -(2 ^ 128 - 2 ^ 103) := by
  refine ⟨by norm_num [abs_lt], by decide +kernel, by decide +kernel, ?_, le_refl _, by norm_num⟩
  rw [Rat.mkRat_eq_div]; norm_num

/-- The statements about enclosures. -/
theorem witness_enclosures :
    (Encl.exact 0).holds 0 ∧ (Encl.exact 0).rounded = some 0 ∧ (Encl.span 3 (-8) 8).holds 1 ∧
      (Encl.lin [(0, 1)] 0 1 1).holds 1 ∧ (-8 : Int) ≤ 8 ∧ 0 < 1 := by
  refine ⟨by simp [Encl.holds], by decide +kernel, by simp [Encl.holds, Ivl.holds]; norm_num, ?_, by decide,
    by decide⟩
  simp [Encl.holds, Ivl.holds, CosSum.value]

/-- StoredRoundingAgreesWithTheReference: a run that decides, one that never does, and ends that differ
with an even one. -/
theorem witness_store :
    ((fun _ : Nat => [Encl.exact 0]) 320).length = [(0 : ℝ)].length ∧
      (∃ n, n < 4 + 0 ∧ ∀ e ∈ (fun _ : Nat => [Encl.exact 0]) (320 * 4 ^ n), e.rounded ≠ none) ∧
      (∀ n, n < 4 + 0 → ∃ e ∈ (fun _ : Nat => [Encl.any]) (320 * 4 ^ n), e.rounded = none) ∧
      Encl.any.holds 0 ∧ Encl.rndEnd 0 0 ≠ Encl.rndEnd 0 1 ∧ (Encl.rndEnd 0 0).getLsbD 0 = false := by
  refine ⟨rfl, ⟨0, by decide, ?_⟩, fun n _ => ⟨.any, by simp, rfl⟩, trivial, by decide +kernel,
    by decide +kernel⟩
  intro e he
  rw [List.mem_singleton.1 he]
  exact fun h => by cases h

/-- TransformCommandsComplete, MagphCommandResult, TransformValuesHoldTheDft, ButterfliesAreTheDft:
length 2, and the greatest exponent. -/
theorem witness_transform :
    let s : State := { bare with xr := floats [0x3F800000, 0x40000000], xi := floats [0, 0x3F800000] }
    s.memWf = true ∧ (1 : BitVec 5).toNat ≤ 11 ∧ (11 : BitVec 5).toNat ≤ 11 ∧
      ([1, 2] : List Rat).length = 2 ^ (1 : BitVec 5).toNat ∧ HoldsFloats s.xr 0 [1, 2] ∧
      HoldsFloats s.xi 0 [0, 1] ∧ [0x3F800000#32, 0x40000000#32].map f32 = [(1 : Rat), 2].map some ∧
      [0#32, 0x3F800000#32].map f32 = [(0 : Rat), 1].map some ∧
      ∀ e ∈ (fftParts 1 [1, 2] [0, 1]).enclosed (fftParts 1 [1, 2] [0, 1]).re (320 * 4 ^ 0),
        e.rounded ≠ none := by
  intro s
  exact ⟨by decide +kernel, by decide, by decide, by decide,
    holdsFloats_of (sp := .xr) (len := 2048) (by decide +kernel) (by decide +kernel),
    holdsFloats_of (sp := .xi) (len := 2048) (by decide +kernel) (by decide +kernel), by decide +kernel,
    by decide +kernel, by decide +kernel⟩

/-- Frames of the spectral commands. -/
theorem witness_spectral_completes :
    (∃ t, exec (.fft 1) { bare with xr := floats [0, 0], xi := floats [0, 0] } = .next t ∧ clean t = true) ∧
    (∃ t, exec (.ifft 1) { bare with xr := floats [0, 0], xi := floats [0, 0] } = .next t ∧
      clean t = true) ∧
    ∃ t, exec (.magph 1) { bare with xr := floats [0, 0], xi := floats [0, 0] } = .next t ∧
      clean t = true :=
  ⟨of_nextIs (by decide +kernel), of_nextIs (by decide +kernel), of_nextIs (by decide +kernel)⟩

/-- A byte memory of n zeros. -/
def zeroBytes (n : Nat) : List Host.Cell := Memory.writeRun [] 0 (List.replicate n 0)

/-- A mono 16-bit buffer of 2048 zero samples in AUX and SRC, selected whole. -/
def learnable : State :=
  { bare with fmt := 0x10210#32, auxLen := 4096, srcLen := 4096, rangeEnd := 2048
              aux := zeroBytes 4096, src := zeroBytes 4096 }

theorem zeroBytes_wf {n len : Nat} (h : n ≤ len) : Memory.wf len (zeroBytes n) = true :=
  Memory.wf_writeRun (Memory.wf_nil _) 0 _ (by rw [List.length_replicate]; omega)

theorem learnable_memWf : learnable.memWf = true := by
  have h : Memory.wf 8192 (zeroBytes 4096) = true := zeroBytes_wf (by decide)
  simp only [State.memWf, Bool.and_eq_true]
  refine ⟨⟨⟨⟨⟨⟨⟨⟨⟨⟨⟨h, h⟩, ?_⟩, ?_⟩, ?_⟩, ?_⟩, ?_⟩, ?_⟩, ?_⟩, ?_⟩, ?_⟩, ?_⟩ <;> exact Memory.wf_nil _

theorem zeroBytes_holds {n a m : Nat} (h : a + m ≤ n) : Holds (zeroBytes n) a (List.replicate m 0) := by
  intro j hj
  rw [List.length_replicate] at hj
  rw [zeroBytes, holds_writeRun _ _ (by rw [List.length_replicate]; omega), List.getElem_replicate,
    List.getElem_replicate]

theorem zeroBytes_samples {n m a : Nat} (h : (a + m) * 2 ≤ n) (k : Nat)
    (hk : k < (List.replicate m (0 : Rat)).length) :
    ∃ b : List Byte, b.length = mono16.depth.bytes ∧
      Holds (zeroBytes n) ((a + k) * mono16.ch * mono16.depth.bytes) b ∧
        (List.replicate m (0 : Rat))[k] = toFloat mono16.depth (unpack mono16.depth mono16.be b) := by
  rw [List.length_replicate] at hk
  refine ⟨[0, 0], rfl, ?_, ?_⟩
  · exact zeroBytes_holds (m := 2) (by simp only [mono16, Depth.bytes]; omega)
  · rw [List.getElem_replicate]; decide +kernel

/-- LearnCommandsResult. -/
theorem witness_learn (x : List Rat) (hx : x = List.replicate 2048 0) :
    learnable.memWf = true ∧ FormatIs learnable mono16 ∧
      learnable.auxLen.toNat ≤ learnable.cap.aux ∧ learnable.srcLen.toNat ≤ learnable.cap.src ∧
      x.length = learnable.auxLen.toNat / mono16.frameBytes ∧
      learnable.rangeEnd.toNat ≤ learnable.srcLen.toNat / mono16.frameBytes ∧
      learnable.rangeStart.toNat + x.length = learnable.rangeEnd.toNat ∧ 2048 ≤ x.length ∧
      (∀ k (h : k < x.length), ∃ b : List Byte,
        b.length = mono16.depth.bytes ∧ Holds learnable.aux (k * mono16.ch * mono16.depth.bytes) b ∧
          x[k] = toFloat mono16.depth (unpack mono16.depth mono16.be b)) ∧
      ∀ k (h : k < x.length), ∃ b : List Byte,
        b.length = mono16.depth.bytes ∧
          Holds learnable.src ((learnable.rangeStart.toNat + k) * mono16.ch * mono16.depth.bytes) b ∧
          x[k] = toFloat mono16.depth (unpack mono16.depth mono16.be b) := by
  have hl : x.length = 2048 := by rw [hx, List.length_replicate]
  refine ⟨learnable_memWf, mono16_is rfl (by decide), by decide, by decide, hl.trans (by decide), by decide,
    by rw [hl]; decide, hl.ge, fun k h => ?_, fun k h => ?_⟩ <;> subst hx
  · have := zeroBytes_samples (n := 4096) (m := 2048) (a := 0) (by decide) k h
    rw [Nat.zero_add] at this
    exact this
  · exact zeroBytes_samples (n := 4096) (m := 2048) (a := 0) (by decide) k h

theorem zeroBytes_learnSignal {n m : Nat} (a : Nat) (h : (a + m) * 2 ≤ n) :
    ∃ x, learnSignal .aux (zeroBytes n) mono16 a m = .ok x := by
  induction m generalizing a with
  | zero => exact ⟨[], rfl⟩
  | succ m ih =>
    obtain ⟨x, hx⟩ := ih (a + 1) (by omega)
    have hr : readAll .aux (zeroBytes n) ((a * mono16.ch + Config.learnChannel) * mono16.depth.bytes)
        mono16.depth.bytes = .ok (List.replicate 2 0) :=
      (readAll_holds (zeroBytes_wf (Nat.le_refl n))).2 ⟨rfl, zeroBytes_holds (by
        simp only [mono16, Depth.bytes, Config.learnChannel]; omega)⟩
    refine ⟨toFloat mono16.depth (unpack mono16.depth mono16.be (List.replicate 2 0)) :: x, ?_⟩
    rw [learnSignal, hr]
    simp only [hx]

theorem completes_of_rule {s : State} {e : Effect} (h : nrlearnRule s = .ok e) :
    ∃ t, exec .nrlearn s = .next t ∧ t.err = .none :=
  ⟨_, finish_next.2 (.inl ⟨e, h, rfl⟩), rfl⟩

/-- ProfileStateMachine, FrameOfFloatStages: a learn command that completes without error. -/
theorem witness_learn_completes : ∃ t, exec .nrlearn learnable = .next t ∧ t.err = .none := by
  obtain ⟨x, hx⟩ := zeroBytes_learnSignal (n := 4096) (m := 2048) 0 (by decide)
  have hl : learnable.auxLen.toNat / mono16.frameBytes = 2048 := by decide
  exact completes_of_rule (nrlearnRule_ok.2 ⟨mono16, x, mono16_is rfl (by decide), by decide,
    by rw [hl]; decide, by rw [hl]; exact hx, rfl⟩)

/-- NrprocResult (no frame), ShortSignalIsSilenced: three samples 0.5. -/
def shortNrPar : NrParams := ⟨mkRat 13421773 134217728, mkRat 10737418 1073741824, mkRat 1 2⟩

theorem witness_nrproc_short :
    shortNr.memWf = true ∧ 1 ≤ shortNr.fmtCh ∧ shortNr.fmtCh ≤ shortNr.cap.ch ∧
      shortNr.smpLen.toNat ≤ shortNr.cap.smp ∧ shortNr.smpLen.toNat < 2048 ∧ NrParamsAre shortNr shortNrPar ∧
      [List.replicate 3 (mkRat 1 2)].length = shortNr.fmtCh ∧
      HoldsChannels shortNr shortNr.smpLen.toNat [List.replicate 3 (mkRat 1 2)] ∧
      ∀ m, ProfileIs { shortNr with profile := m } shortNr.smpLen.toNat [] := by
  refine ⟨by decide +kernel, by decide, by decide, by decide, by decide, ?_, by decide, ?_, ?_⟩
  · unfold NrParamsAre; decide +kernel
  · intro c hc
    obtain rfl : c = 0 := Nat.lt_one_iff.1 hc
    exact ⟨rfl, holdsFloats_of (qs := List.replicate 3 (mkRat 1 2)) (sp := .smp) (len := 8192) (i := 0)
      (by decide +kernel) (by decide +kernel)⟩
  · intro m; unfold ProfileIs; rw [if_pos (by decide)]

/-- NrprocResult (one frame): 2048 samples 1.0 and a learned profile of 1.0. -/
def longNr : State :=
  { shortNr with pstate := .learned, smpLen := 2048
                 smp := Memory.writeRun [] 0 (List.replicate 2048 0x3F800000#32)
                 profile := Memory.writeRun [] 0 (List.replicate 1025 0x3F800000#32) }

theorem holds_ones (n : Nat) :
    HoldsFloats (Memory.writeRun ([] : Memory Word) 0 (List.replicate n 0x3F800000#32)) 0
      (List.replicate n 1) := by
  intro k hk
  rw [List.length_replicate] at hk
  refine ⟨0x3F800000#32, ?_, ?_⟩
  · rw [Nat.zero_add, holds_writeRun _ _ (by rwa [List.length_replicate]), List.getElem_replicate]
  · rw [List.getElem_replicate]; decide +kernel

theorem witness_nrproc_frame :
    longNr.memWf = true ∧ 1 ≤ longNr.fmtCh ∧ longNr.fmtCh ≤ longNr.cap.ch ∧
      longNr.smpLen.toNat ≤ longNr.cap.smp ∧ NrParamsAre longNr shortNrPar ∧
      [List.replicate 2048 (1 : Rat)].length = longNr.fmtCh ∧
      HoldsChannels longNr longNr.smpLen.toNat [List.replicate 2048 1] ∧ longNr.pstate ≠ .unset ∧
      ProfileIs { longNr with profile := longNr.profile } longNr.smpLen.toNat (List.replicate 1025 1) := by
  refine ⟨?_, by decide, by decide, by decide, ?_, by decide, ?_, by decide, ?_⟩
  · have h1 : Memory.wf 8192 (Memory.writeRun ([] : Memory Word) 0 (List.replicate 2048 0x3F800000#32)) = true :=
      Memory.wf_writeRun (Memory.wf_nil _) 0 _ (by rw [List.length_replicate]; decide)
    have h2 : Memory.wf 1025 (Memory.writeRun ([] : Memory Word) 0 (List.replicate 1025 0x3F800000#32)) = true :=
      Memory.wf_writeRun (Memory.wf_nil _) 0 _ (by rw [List.length_replicate])
    simp only [State.memWf, Bool.and_eq_true]
    refine ⟨⟨⟨⟨⟨⟨⟨⟨⟨⟨⟨?_, ?_⟩, ?_⟩, h1⟩, ?_⟩, ?_⟩, ?_⟩, ?_⟩, h2⟩, ?_⟩, ?_⟩, ?_⟩ <;>
      exact Memory.wf_nil _
  · unfold NrParamsAre; decide +kernel
  · intro c hc
    obtain rfl : c = 0 := Nat.lt_one_iff.1 hc
    refine ⟨List.length_replicate, ?_⟩
    rw [Nat.zero_mul]
    exact holds_ones 2048
  · unfold ProfileIs
    rw [if_neg (by decide)]
    exact ⟨List.length_replicate, holds_ones 1025⟩

/-- CommandsAreRefusedOnlyForCause: an infinite entry of a learned profile. -/
theorem witness_infinite_profile :
    ({ longNr with profile := floats [0x7F800000] } : State).pstate ≠ .unset ∧
      Memory.read (floats [0x7F800000]) 0 = some 0x7F800000#32 ∧ f32 0x7F800000#32 = none ∧
      finiteFrom .profile 0 [0x7F800000#32] = .error (.refuse (.nonFiniteElement .profile 0)) := by
  refine ⟨by decide, by decide, by decide +kernel, ?_⟩
  rw [finiteFrom, show f32 0x7F800000#32 = none by decide +kernel]

/-- SuppressionGainIsAtMostOne, with the clause for reductionFactor 0; CompressorAndClipperProperties,
both sides of the threshold; LookAheadIsTruncated, below 200 Hz; NoiseReductionFormula. -/
theorem witness_parameters :
    (0 : Rat) ≤ (NrParams.mk 0 1 1).red ∧ 0 < (NrParams.mk 0 1 1).nf ∧ (0 : Rat) ≤ 1 ∧
      (NrParams.mk 0 1 1).red = 0 ∧ (1 : ℝ) ≤ ((AdParams.mk 1 1 1).thr : ℝ) ∧
      ((AdParams.mk 1 1 1).thr : ℝ) < 2 ∧ 0 < (AdParams.mk 1 1 1).thr ∧ 1 ≤ (AdParams.mk 1 1 1).ratio ∧
      (0 : Rat) < 199 ∧ (199 : Rat) < 200 ∧ |(1 : ℝ)| ≤ 1 ∧ (0 : ℝ) < 1 ∧ [(2 : ℝ)][0]? = some 2 ∧
      (2048 < (List.replicate 2049 (0 : Rat)).length ∧ (if 2049 < 2048 then 0
        else (2049 - 2048) / 512 * 512 + 2048) ≤ 2048) := by
  refine ⟨by norm_num, by norm_num, by norm_num, rfl, by norm_num, by norm_num, by norm_num, by norm_num,
    by norm_num, by norm_num, by norm_num, by norm_num, rfl, ?_⟩
  exact ⟨by rw [List.length_replicate]; decide, by decide⟩

/-- AdprocResult. -/
theorem witness_adproc :
    softAd.memWf = true ∧ 1 ≤ softAd.fmtCh ∧ softAd.fmtCh ≤ softAd.cap.ch ∧
      softAd.smpLen.toNat ≤ softAd.cap.smp ∧ AdParamsAre softAd 1000 ⟨mkRat 1 2, 4, 1⟩ ∧
      [[(1 : Rat), 1]].length = softAd.fmtCh ∧ HoldsChannels softAd softAd.smpLen.toNat [[1, 1]] := by
  refine ⟨by decide +kernel, by decide, by decide, by decide, by unfold AdParamsAre; decide +kernel,
    by decide, ?_⟩
  intro c hc
  obtain rfl : c = 0 := Nat.lt_one_iff.1 hc
  exact ⟨rfl, holdsFloats_of (qs := [1, 1]) (sp := .smp) (len := 8192) (i := 0) (by decide +kernel)
    (by decide +kernel)⟩

/-- ProcessWithFloatStages: anti-distortion alone (CTRL 2), noise reduction alone (1), both (3). -/
def nrAdProcess (ctrl : Word) : State :=
  { adProcess with ctrl := ctrl, nrReduct := 0x3DCCCCCD#32, nrFloor := 0x3C23D70A#32
                   nrSmooth := 0x3F000000#32 }

theorem witness_process (ctrl : Word) (h : ctrl = 1 ∨ ctrl = 2 ∨ ctrl = 3) :
    let s := nrAdProcess ctrl
    s.memWf = true ∧ s.cap.wf = true ∧ FormatIs s mono16 ∧ (s.nrEn || s.adEn) = true ∧
      s.srcLen.toNat ≤ s.cap.src ∧ s.srcLen.toNat ≤ s.cap.dst ∧
      s.srcLen.toNat / mono16.frameBytes ≤ s.cap.smp ∧ (s.nrEn = true → NrParamsAre s shortNrPar) ∧
      (s.adEn = true → AdParamsAre s 1000 ⟨mkRat 1 2, 4, 1⟩) ∧ f32 s.gainf = some 1 ∧
      gainStage s mono16 1 s.srcLen.toNat = .ok ⟨[0, 0x80, 0, 0x80], false⟩ ∧
      ∀ s1, ProfileIs s1 (s.srcLen.toNat / mono16.frameBytes) [] := by
  intro s
  refine ⟨?_, ?_, mono16_is rfl (by show 1 ≤ 2; decide), ?_, ?_, ?_, ?_, fun _ => ?_, fun _ => ?_, ?_, ?_, fun s1 => ?_⟩
  rotate_right
  · unfold ProfileIs; rw [if_pos (by rcases h with rfl | rfl | rfl <;> decide)]
  all_goals rcases h with rfl | rfl | rfl
  all_goals first
    | decide +kernel
    | (unfold NrParamsAre; decide +kernel)
    | (unfold AdParamsAre; decide +kernel)

/-- ProcessWithoutStagesIsGain. -/
theorem witness_no_stages : bare.nrEn = false ∧ bare.adEn = false := by decide

/-- StepKeepsTheInvariant, on a step that runs a command and on one of the host's. -/
theorem witness_invariant :
    bare.Inv ∧ (∃ t, step { bare with script := [.write .reg 0 9] } = .next t) ∧
      ∃ t, step (accept bare 9) = .next t := by
  exact ⟨⟨by decide, by decide, by decide, by decide +kernel⟩, ⟨_, rfl⟩, ⟨_, rfl⟩⟩

end Sys2Proof.Tests
end

/-! Integer rounding (R12): `round_int`, and the clamped rounding of the quantiser and the gain stage. -/

namespace Sys2Proof.Machine

/-! ### `round_int` -/

/-- The magnitude of `round_int` is the floor of the operand's magnitude plus a half, and its sign is the
operand's. -/
theorem roundInt_away_eq (q : ℚ) :
    roundInt .away q = if q < 0 then -⌊|q| + 1 / 2⌋ else ⌊|q| + 1 / 2⌋ := by
  have hd : (0 : ℚ) < q.den := by exact_mod_cast q.den_pos
  have hq : |q| = (q.num.natAbs : ℚ) / q.den := by
    rw [Nat.cast_natAbs, Int.cast_abs]
    nth_rw 1 [← Rat.num_div_den q]
    rw [abs_div, abs_of_pos hd]
  have hs : |q| + 1 / 2 = ((2 * q.num.natAbs + q.den : ℕ) : ℚ) / ((2 * q.den : ℕ) : ℚ) := by
    rw [hq]; push_cast; field_simp
  rw [hs, Rat.floor_natCast_div_natCast]
  simp only [roundInt, Rat.num_neg]
  push_cast
  rfl

/-- `round_int` in magnitude: within a half of the operand's, above it on a tie. -/
theorem roundInt_away_spec (q : ℚ) :
    |q - roundInt .away q| = |(|q| - |(roundInt .away q : ℚ)|)| ∧
      |(roundInt .away q : ℚ)| ≤ |q| + 1 / 2 ∧ |q| - 1 / 2 < |(roundInt .away q : ℚ)| := by
  rw [roundInt_away_eq]
  have h1 := Int.floor_le (|q| + 1 / 2)
  have h2 := Int.lt_floor_add_one (|q| + 1 / 2)
  have h0 : (0 : ℚ) ≤ (⌊|q| + 1 / 2⌋ : ℤ) := by exact_mod_cast Int.floor_nonneg.2 (by positivity)
  generalize ⌊|q| + 1 / 2⌋ = m at *
  split
  · rename_i hq
    rw [abs_of_neg hq] at *
    push_cast
    rw [abs_neg, abs_of_nonneg h0, ← abs_neg]
    exact ⟨by ring_nf, h1, by linarith⟩
  · rename_i hq
    rw [abs_of_nonneg (not_lt.1 hq)] at *
    rw [abs_of_nonneg h0]
    exact ⟨rfl, h1, by linarith⟩

theorem abs_sub_roundInt_le (q : ℚ) : |q - roundInt .away q| ≤ 1 / 2 := by
  obtain ⟨h, h1, h2⟩ := roundInt_away_spec q
  rw [h, abs_le]
  exact ⟨by linarith, by linarith⟩

/-- Two different integers cannot both be nearer than a half. -/
theorem one_le_abs_sub_add {K : Type*} [Field K] [LinearOrder K] [IsStrictOrderedRing K] {q : K}
    {y z : ℤ} (h : y ≠ z) : 1 ≤ |q - y| + |q - z| := by
  have h1 : (1 : K) ≤ |(y : K) - z| := by exact_mod_cast Int.one_le_abs (sub_ne_zero.2 h)
  calc (1 : K) ≤ |(y : K) - z| := h1
    _ = |(q - z) - (q - y)| := by congr 1; ring
    _ ≤ |q - y| + |q - z| := by rw [add_comm]; exact abs_sub _ _

theorem roundInt_nearest (q : ℚ) (z : ℤ) : |q - roundInt .away q| ≤ |q - z| := by
  by_cases h : roundInt .away q = z
  · rw [h]
  · have := one_le_abs_sub_add (q := q) h
    have := abs_sub_roundInt_le q
    linarith

/-- Of two nearest integers `round_int` is the one farther from zero. -/
theorem abs_le_abs_roundInt (q : ℚ) (z : ℤ) (h : |q - roundInt .away q| = |q - z|) :
    |z| ≤ |roundInt .away q| := by
  by_cases he : roundInt .away q = z
  · rw [he]
  · have h1 := one_le_abs_sub_add (q := q) he
    obtain ⟨h2, -, h4⟩ := roundInt_away_spec q
    have h5 := abs_sub_roundInt_le q
    have hr : |(roundInt .away q : ℚ)| = |q| + 1 / 2 := by
      rcases abs_cases (|q| - |(roundInt .away q : ℚ)|) with ⟨h6, -⟩ | ⟨h6, -⟩ <;> linarith
    have hz : |(z : ℚ)| ≤ |q| + |q - z| := by
      have := abs_sub q (q - z)
      simpa using this
    have : |(z : ℚ)| ≤ |(roundInt .away q : ℚ)| := by linarith
    exact_mod_cast this

/-- Settles O25: a tie leaves the magnitude a half below its rounding. -/
theorem roundIntIsNearestTiesAway : Obligations.RoundIntIsNearestTiesAway :=
  fun q z => ⟨roundInt_nearest q z, abs_le_abs_roundInt q z⟩

/-! ### Saturation -/

/-- `c` is the rounding of x saturated to the range from lo to hi: in range, a nearest integer of x where x
is in range, the one farther from zero on a tie, and the end of the range that x is at or beyond. -/
def RoundsAndSaturates (lo hi : ℤ) (x : ℚ) (c : ℤ) : Prop :=
  lo ≤ c ∧ c ≤ hi ∧
    ((lo : ℚ) ≤ x → x ≤ (hi : ℚ) →
      |x - (c : ℚ)| ≤ 1 / 2 ∧ ∀ z : ℤ, |x - (c : ℚ)| ≤ |x - (z : ℚ)| ∧
        (|x - (c : ℚ)| = |x - (z : ℚ)| → |z| ≤ |c|)) ∧
    ((hi : ℚ) ≤ x → c = hi) ∧ (x ≤ (lo : ℚ) → c = lo)

theorem le_roundInt {x : ℚ} {z : ℤ} (h : (z : ℚ) ≤ x) : z ≤ roundInt .away x := by
  by_contra hlt
  have h1 : (roundInt .away x : ℚ) < z := by exact_mod_cast not_le.1 hlt
  have h2 := roundInt_nearest x z
  rw [abs_of_nonneg (by linarith), abs_of_nonneg (by linarith)] at h2
  linarith

theorem roundInt_le {x : ℚ} {z : ℤ} (h : x ≤ (z : ℚ)) : roundInt .away x ≤ z := by
  by_contra hlt
  have h1 : (z : ℚ) < roundInt .away x := by exact_mod_cast not_le.1 hlt
  have h2 := roundInt_nearest x z
  rw [abs_of_nonpos (by linarith), abs_of_nonpos (by linarith)] at h2
  linarith

theorem clampInt_mem {lo hi : ℤ} (h : lo ≤ hi) (v : ℤ) :
    lo ≤ clampInt v lo hi ∧ clampInt v lo hi ≤ hi := by
  unfold clampInt; split_ifs <;> omega

theorem clampInt_of_mem {v lo hi : ℤ} (h1 : lo ≤ v) (h2 : v ≤ hi) : clampInt v lo hi = v := by
  unfold clampInt; split_ifs <;> omega

theorem clampInt_of_ge {v lo hi : ℤ} (h : lo ≤ hi) (hv : hi ≤ v) : clampInt v lo hi = hi := by
  unfold clampInt; split_ifs <;> omega

theorem clampInt_of_le {v lo hi : ℤ} (h : lo ≤ hi) (hv : v ≤ lo) : clampInt v lo hi = lo := by
  unfold clampInt; split_ifs <;> omega

theorem roundsAndSaturates_clampInt {lo hi : ℤ} (h : lo ≤ hi) (x : ℚ) :
    RoundsAndSaturates lo hi x (clampInt (roundInt .away x) lo hi) := by
  refine ⟨(clampInt_mem h _).1, (clampInt_mem h _).2, fun h1 h2 => ?_,
    fun h1 => clampInt_of_ge h (le_roundInt h1), fun h1 => clampInt_of_le h (roundInt_le h1)⟩
  rw [clampInt_of_mem (le_roundInt h1) (roundInt_le h2)]
  exact ⟨abs_sub_roundInt_le x, fun z => ⟨roundInt_nearest x z, abs_le_abs_roundInt x z⟩⟩

theorem Depth.lo_le_hi (d : Depth) : d.lo ≤ d.hi := by cases d <;> decide

/-- Settles O26: `to_int` is a saturated rounding of the scaled value, and `quantise` is it case by case. -/
theorem quantiserRoundsAndClamps : Obligations.QuantiserRoundsAndClamps := by
  intro d
  refine ⟨fun s => roundsAndSaturates_clampInt d.lo_le_hi (s * (d.scale : ℚ)), fun w => ?_,
    by decide +kernel, by decide +kernel, by decide +kernel⟩
  cases f32x w <;> rfl

/-- Settles O32: `scale_int` is a saturated rounding of the exact product. -/
theorem gainSaturatesAndNeverWraps : Obligations.GainSaturatesAndNeverWraps :=
  fun d g v => roundsAndSaturates_clampInt d.lo_le_hi ((v : ℚ) * g)

/-- Settles O59: the components are evaluated at the concrete reset state. -/
theorem invariantAtReset : Obligations.InvariantAtReset :=
  ⟨by decide, by decide, by decide, by decide +kernel⟩

end Sys2Proof.Machine

/-! Rounding to binary32 (R10): the reference rounding of a real in units of 2^-149, its monotonicity, and
that it is the nearest finite pattern, ties to even. -/

namespace Sys2Proof.Machine

/-! ### The nearest natural number, ties to even -/

theorem abs_sub_nearestEven_le {x : ℝ} (hx : 0 ≤ x) : |x - nearestEven x| ≤ 1 / 2 := by
  have h1 := Nat.floor_le hx
  have h2 := Nat.lt_floor_add_one x
  unfold nearestEven
  split_ifs with h3 h4
  · rw [abs_le]; constructor <;> linarith
  · push_cast; rw [abs_le]; constructor <;> linarith
  · have h5 : x - ⌊x⌋₊ = 1 / 2 := le_antisymm (not_lt.1 h4) (not_lt.1 h3)
    rcases Nat.mod_two_eq_zero_or_one ⌊x⌋₊ with h | h <;> rw [h] <;> push_cast <;>
      rw [abs_le] <;> constructor <;> linarith

theorem one_le_abs_sub_nearestEven_add {x : ℝ} {j : ℕ} (h : j ≠ nearestEven x) :
    1 ≤ |x - nearestEven x| + |x - j| := by
  have := one_le_abs_sub_add (q := x) (y := (nearestEven x : ℤ)) (z := (j : ℤ))
    (by exact_mod_cast h.symm)
  simpa using this

theorem nearestEven_nearest {x : ℝ} (hx : 0 ≤ x) (j : ℕ) : |x - nearestEven x| ≤ |x - j| := by
  by_cases h : j = nearestEven x
  · rw [h]
  · have := one_le_abs_sub_nearestEven_add h
    have := abs_sub_nearestEven_le hx
    linarith

theorem nearestEven_even_of_tie {x : ℝ} (hx : 0 ≤ x) {j : ℕ} (h : |x - nearestEven x| = |x - j|)
    (hj : j ≠ nearestEven x) : nearestEven x % 2 = 0 := by
  have h1 := one_le_abs_sub_nearestEven_add hj
  have h2 := abs_sub_nearestEven_le hx
  have ht : |x - nearestEven x| = 1 / 2 := by linarith
  have h3 := Nat.floor_le hx
  have h4 := Nat.lt_floor_add_one x
  clear h h1 h2 hj
  unfold nearestEven at ht ⊢
  split_ifs with h5 h6
  · rw [if_pos h5, abs_of_nonneg (by linarith)] at ht; linarith
  · rw [if_neg h5, if_pos h6] at ht
    push_cast at ht
    rw [abs_of_nonpos (by linarith)] at ht
    linarith
  · omega

theorem nearestEven_mono {x y : ℝ} (hx : 0 ≤ x) (h : x ≤ y) : nearestEven x ≤ nearestEven y := by
  by_contra hlt
  have h1 := (abs_le.1 (abs_sub_nearestEven_le hx)).1
  have h2 := (abs_le.1 (abs_sub_nearestEven_le (hx.trans h))).2
  have h3 : (nearestEven y : ℝ) + 1 ≤ nearestEven x := by exact_mod_cast not_le.1 hlt
  have h4 : x = y := le_antisymm h (by linarith)
  rw [h4] at hlt
  exact hlt le_rfl

theorem nearestEven_natCast (n : ℕ) : nearestEven (n : ℝ) = n := by simp [nearestEven]

/-- The model's integer division with ties to even rounds the quotient. -/
theorem divEven_eq (a : ℕ) {b : ℕ} (hb : 0 < b) : divEven a b = nearestEven ((a : ℝ) / b) := by
  have hb' : (0 : ℝ) < b := by exact_mod_cast hb
  have hf : ⌊(a : ℝ) / b⌋₊ = a / b := Nat.floor_div_eq_div a b
  have hr : (a : ℝ) / b - (a / b : ℕ) = ((a % b : ℕ) : ℝ) / b := by
    have : (a : ℝ) = (b : ℝ) * (a / b : ℕ) + (a % b : ℕ) := by exact_mod_cast (Nat.div_add_mod a b).symm
    field_simp
    linarith
  unfold divEven nearestEven
  rw [hf, hr]
  have h1 : ((a % b : ℕ) : ℝ) / b < 1 / 2 ↔ 2 * (a % b) < b := by
    rw [div_lt_div_iff₀ hb' two_pos]; norm_cast; rw [mul_comm, one_mul]
  have h2 : 1 / 2 < ((a % b : ℕ) : ℝ) / b ↔ b < 2 * (a % b) := by
    rw [div_lt_div_iff₀ two_pos hb']; norm_cast; rw [mul_comm 2, one_mul]
  simp only [h1, h2]

/-! ### The pattern of a magnitude in units of 2^-149 -/

/-- The exponent of the spacing of binary32 values at x units. -/
noncomputable def spacingExp (x : ℝ) : ℕ := ⌊x⌋₊.log2 - 23

/-- The significand of x units, in that spacing. -/
noncomputable def significand (x : ℝ) : ℕ := nearestEven (x / 2 ^ spacingExp x)

theorem magPatternReal_eq (t : ℝ) : magPatternReal t =
    min (spacingExp (t * 2 ^ 149) * 2 ^ 23 + significand (t * 2 ^ 149)) 0x7F800000 := rfl

theorem lt_two_pow_spacingExp (x : ℝ) : x < 2 ^ (spacingExp x + 24) := by
  have h1 : ⌊x⌋₊ < 2 ^ (⌊x⌋₊.log2 + 1) := Nat.lt_log2_self
  have h2 : 2 ^ (⌊x⌋₊.log2 + 1) ≤ 2 ^ (spacingExp x + 24) :=
    Nat.pow_le_pow_right two_pos (by unfold spacingExp; omega)
  have := (Nat.floor_lt' (by positivity)).1 (h1.trans_le h2)
  exact_mod_cast this

theorem two_pow_spacingExp_le {x : ℝ} (hx : 0 ≤ x) (h : 0 < spacingExp x) :
    2 ^ (spacingExp x + 23) ≤ x := by
  have h0 : ⌊x⌋₊ ≠ 0 := by
    rintro e; simp [spacingExp, e] at h
  have h1 : 2 ^ (spacingExp x + 23) ≤ ⌊x⌋₊ := by
    have : spacingExp x + 23 = ⌊x⌋₊.log2 := by unfold spacingExp at *; omega
    rw [this]; exact Nat.log2_self_le h0
  exact_mod_cast (Nat.le_floor_iff hx).1 h1

theorem spacingExp_mono {x y : ℝ} (h : x ≤ y) : spacingExp x ≤ spacingExp y := by
  have : ⌊x⌋₊.log2 ≤ ⌊y⌋₊.log2 := by
    rw [Nat.log2_eq_log_two, Nat.log2_eq_log_two]; exact Nat.log_mono_right (Nat.floor_mono h)
  unfold spacingExp; omega

theorem significand_le {x : ℝ} (hx : 0 ≤ x) : significand x ≤ 2 ^ 24 := by
  have h : x / 2 ^ spacingExp x ≤ ((2 ^ 24 : ℕ) : ℝ) := by
    rw [div_le_iff₀ (by positivity), Nat.cast_pow, Nat.cast_ofNat, ← pow_add, add_comm]
    exact (lt_two_pow_spacingExp x).le
  exact (nearestEven_mono (by positivity) h).trans_eq (nearestEven_natCast _)

theorem le_significand {x : ℝ} (hx : 0 ≤ x) (h : 0 < spacingExp x) : 2 ^ 23 ≤ significand x := by
  have h : ((2 ^ 23 : ℕ) : ℝ) ≤ x / 2 ^ spacingExp x := by
    rw [le_div_iff₀ (by positivity), Nat.cast_pow, Nat.cast_ofNat, ← pow_add, add_comm]
    exact two_pow_spacingExp_le hx h
  exact (nearestEven_natCast _).symm.trans_le (nearestEven_mono (by positivity) h)

/-- Rounding is monotone: within a binade as `nearestEven` is, and a lower binade's patterns end where the
next one's begin. -/
theorem pattern_mono {x y : ℝ} (hx : 0 ≤ x) (h : x ≤ y) :
    spacingExp x * 2 ^ 23 + significand x ≤ spacingExp y * 2 ^ 23 + significand y := by
  rcases (spacingExp_mono h).eq_or_lt with he | hl
  · have : significand x ≤ significand y := by
      unfold significand
      rw [he]
      exact nearestEven_mono (by positivity) (by gcongr)
    omega
  · have h1 := significand_le hx
    have h2 := le_significand (hx.trans h) (by omega)
    omega

theorem magPatternReal_mono {s t : ℝ} (hs : 0 ≤ s) (h : s ≤ t) :
    magPatternReal s ≤ magPatternReal t := by
  rw [magPatternReal_eq, magPatternReal_eq]
  exact min_le_min_right _ (pattern_mono (by positivity) (by gcongr))

theorem magPatternReal_le (t : ℝ) : magPatternReal t ≤ 0x7F800000 := by
  rw [magPatternReal_eq]; exact Nat.min_le_right _ _

/-! ### The signed rounding -/

/-- The pattern of a real's magnitude with the real's sign. -/
noncomputable def roundKey (r : ℝ) : ℤ := if r < 0 then -(magPatternReal |r| : ℤ) else magPatternReal |r|

/-- The word with the sign and the magnitude bits of k. -/
def wordOfKey (k : ℤ) : Word := BitVec.ofNat 32 (if k < 0 then 2 ^ 31 + k.natAbs else k.natAbs)

theorem roundKey_natAbs (r : ℝ) : (roundKey r).natAbs = magPatternReal |r| := by
  unfold roundKey
  split_ifs
  · rw [Int.natAbs_neg, Int.natAbs_natCast]
  · rw [Int.natAbs_natCast]

theorem roundKey_neg_iff (r : ℝ) : roundKey r < 0 ↔ r < 0 ∧ magPatternReal |r| ≠ 0 := by
  unfold roundKey
  split_ifs with h
  · rw [neg_lt_zero, Int.natCast_pos, Nat.pos_iff_ne_zero, and_iff_right h]
  · exact iff_of_false (by omega) fun hc => h hc.1

theorem rndReal_eq_wordOfKey (r : ℝ) : rndReal r = wordOfKey (roundKey r) := by
  simp only [rndReal, wordOfKey, roundKey_neg_iff, roundKey_natAbs]

theorem roundKey_mono {r s : ℝ} (h : r ≤ s) : roundKey r ≤ roundKey s := by
  unfold roundKey
  split_ifs with h1 h2 h2
  · rw [abs_of_neg h1, abs_of_neg h2]
    have := magPatternReal_mono (neg_nonneg.2 h2.le) (neg_le_neg h)
    omega
  · omega
  · exact absurd (h.trans_lt h2) h1
  · rw [abs_of_nonneg (not_lt.1 h1), abs_of_nonneg (not_lt.1 h2)]
    exact_mod_cast magPatternReal_mono (not_lt.1 h1) h

theorem wordOfKey_injOn {j k : ℤ} (hj : j.natAbs < 2 ^ 31) (hk : k.natAbs < 2 ^ 31)
    (h : wordOfKey j = wordOfKey k) : j = k := by
  have := congrArg BitVec.toNat h
  simp only [wordOfKey, BitVec.toNat_ofNat] at this
  split_ifs at this <;> omega

theorem roundKey_eq_of_rndReal_eq {r s : ℝ} (h : rndReal r = rndReal s) : roundKey r = roundKey s := by
  rw [rndReal_eq_wordOfKey, rndReal_eq_wordOfKey] at h
  have hr := magPatternReal_le |r|
  have hs := magPatternReal_le |s|
  exact wordOfKey_injOn (by rw [roundKey_natAbs]; omega) (by rw [roundKey_natAbs]; omega) h

/-- Two reals with one rounding give it to every real between them. -/
theorem rndReal_eq_of_between {a r b : ℝ} (h1 : a ≤ r) (h2 : r ≤ b) (h : rndReal a = rndReal b) :
    rndReal r = rndReal a := by
  have hab := roundKey_eq_of_rndReal_eq h
  have h3 := roundKey_mono h1
  have h4 := roundKey_mono h2
  rw [rndReal_eq_wordOfKey, rndReal_eq_wordOfKey]
  congr 1
  omega

/-! ### Rationals -/

theorem magPattern_eq (n : ℕ) {d : ℕ} (hd : 0 < d) : magPattern n d = magPatternReal ((n : ℝ) / d) := by
  have hx : (n : ℝ) / d * 2 ^ 149 = ((n * 2 ^ 149 : ℕ) : ℝ) / d := by push_cast; ring
  have hf : ⌊(n : ℝ) / d * 2 ^ 149⌋₊ = n * 2 ^ 149 / d := by rw [hx]; exact Nat.floor_div_eq_div _ d
  unfold magPattern magPatternReal
  simp only [hf, divEven_eq _ (Nat.mul_pos hd (Nat.two_pow_pos _))]
  congr 3
  rw [hx]
  push_cast
  rw [div_div]

/-- `rnd32` is the restriction of the reference rounding to the rationals. -/
theorem rnd32_eq_rndReal (q : ℚ) : rnd32 q = rndReal (q : ℝ) := by
  have hq : |(q : ℝ)| = (q.num.natAbs : ℝ) / q.den := by
    rw [Nat.cast_natAbs, Int.cast_abs]
    conv_lhs => rw [Rat.cast_def]
    rw [abs_div, Nat.abs_cast]
  have hs : (q : ℝ) < 0 ↔ q.num < 0 := by rw [Rat.cast_lt_zero, Rat.num_neg]
  simp only [rnd32, rndReal, magPattern_eq _ q.den_pos, hq, hs]

/-- The rounding of an end of an interval is the reference rounding of the real it stands for. -/
theorem rndEnd_eq_rndReal (p : ℕ) (k : ℤ) : Encl.rndEnd p k = rndReal ((k : ℝ) / 2 ^ p) := by
  rw [Encl.rndEnd, rnd32_eq_rndReal, Rat.mkRat_eq_div]
  push_cast
  rfl

end Sys2Proof.Machine

/-! `rnd32` gives the nearest finite binary32 pattern, ties to the even significand, and overflows at the
bound of log 10 (R10). -/

namespace Sys2Proof.Machine

/-! ### Nearest in units -/

theorem abs_sub_mul_two_pow (x : ℝ) (j u : ℕ) : |x - j * 2 ^ u| = |x / 2 ^ u - j| * 2 ^ u := by
  have h : (0 : ℝ) < 2 ^ u := by positivity
  rw [← abs_of_pos h, ← abs_mul, abs_of_pos h]
  congr 1
  field_simp

/-- x units rounded to their spacing. -/
noncomputable def roundedUnits (x : ℝ) : ℝ := significand x * 2 ^ spacingExp x

/-- Of the multiples of its spacing x rounds to the nearest, on a tie with an even significand. -/
theorem roundedUnits_nearest_multiple {x : ℝ} (hx : 0 ≤ x) (j : ℕ) :
    |x - roundedUnits x| ≤ |x - j * 2 ^ spacingExp x| ∧
      (|x - roundedUnits x| = |x - j * 2 ^ spacingExp x| →
        (j * 2 ^ spacingExp x : ℝ) ≠ roundedUnits x → significand x % 2 = 0) := by
  have hp : (0 : ℝ) < 2 ^ spacingExp x := by positivity
  have hd : 0 ≤ x / 2 ^ spacingExp x := by positivity
  rw [roundedUnits, abs_sub_mul_two_pow, abs_sub_mul_two_pow]
  refine ⟨mul_le_mul_of_nonneg_right (nearestEven_nearest hd j) hp.le, fun h hne => ?_⟩
  exact nearestEven_even_of_tie hd (mul_right_cancel₀ hp.ne' h) fun e => hne (by rw [e]; rfl)

/-- No value with a significand below 2^24 is nearer to x than its rounding: the values below x's binade
are farther than the binade's least. -/
theorem roundedUnits_nearest {x : ℝ} (hx : 0 ≤ x) {m e : ℕ} (hm : m < 2 ^ 24) :
    |x - roundedUnits x| ≤ |x - m * 2 ^ e| ∧
      (|x - roundedUnits x| = |x - m * 2 ^ e| → (m * 2 ^ e : ℝ) ≠ roundedUnits x →
        significand x % 2 = 0) := by
  rcases Nat.lt_or_ge e (spacingExp x) with he | he
  · have h1 : (m * 2 ^ e : ℝ) < 2 ^ (spacingExp x + 23) := by
      have : m * 2 ^ e < 2 ^ (spacingExp x + 23) := calc
        m * 2 ^ e < 2 ^ 24 * 2 ^ e := Nat.mul_lt_mul_of_pos_right hm (Nat.two_pow_pos e)
        _ = 2 ^ (e + 24) := by rw [← pow_add, Nat.add_comm]
        _ ≤ 2 ^ (spacingExp x + 23) := Nat.pow_le_pow_right two_pos (by omega)
      exact_mod_cast this
    have h2 := two_pow_spacingExp_le hx (by omega)
    have h3 := (roundedUnits_nearest_multiple hx (2 ^ 23)).1
    rw [Nat.cast_pow, Nat.cast_ofNat, ← pow_add, add_comm 23, abs_of_nonneg (sub_nonneg.2 h2)] at h3
    rw [abs_of_nonneg (a := x - m * 2 ^ e) (by linarith)]
    exact ⟨by linarith, fun h => by linarith⟩
  · have h : (m * 2 ^ e : ℝ) = ((m * 2 ^ (e - spacingExp x) : ℕ) : ℝ) * 2 ^ spacingExp x := by
      push_cast
      rw [mul_assoc, ← pow_add, Nat.sub_add_cancel he]
    rw [h]
    exact roundedUnits_nearest_multiple hx _

/-- The rounding with its sign. -/
noncomputable def signedUnits (x : ℝ) : ℝ := if x < 0 then -roundedUnits |x| else roundedUnits |x|

theorem roundedUnits_nearest_signed {x : ℝ} (hx : 0 ≤ x) {m e : ℕ} (hm : m < 2 ^ 24) {y : ℝ}
    (hy : y = m * 2 ^ e ∨ y = -(m * 2 ^ e)) :
    |x - roundedUnits x| ≤ |x - y| ∧
      (|x - roundedUnits x| = |x - y| → y ≠ roundedUnits x → significand x % 2 = 0) := by
  rcases hy with rfl | rfl
  · exact roundedUnits_nearest hx hm
  · rcases (show (0 : ℝ) ≤ m * 2 ^ e by positivity).eq_or_lt with h0 | h0
    · have := roundedUnits_nearest hx (e := e) hm
      rw [← h0] at this ⊢
      rwa [neg_zero]
    · have h1 := (roundedUnits_nearest hx (m := 0) (e := 0) (by norm_num)).1
      rw [Nat.cast_zero, zero_mul, sub_zero, abs_of_nonneg hx] at h1
      rw [sub_neg_eq_add, abs_of_nonneg (a := x + m * 2 ^ e) (by linarith)]
      exact ⟨by linarith, fun h => by linarith⟩

theorem signedUnits_nearest (x : ℝ) {m e : ℕ} (hm : m < 2 ^ 24) {y : ℝ}
    (hy : y = m * 2 ^ e ∨ y = -(m * 2 ^ e)) :
    |x - signedUnits x| ≤ |x - y| ∧
      (|x - signedUnits x| = |x - y| → y ≠ signedUnits x → significand |x| % 2 = 0) := by
  unfold signedUnits
  split_ifs with hx
  · have hn : ∀ a b : ℝ, |-a - b| = |a - -b| := fun a b => by rw [← abs_neg]; congr 1; ring
    have hy' : -y = m * 2 ^ e ∨ -y = -(m * 2 ^ e) := by
      rcases hy with rfl | rfl
      · exact .inr rfl
      · exact .inl (neg_neg _)
    have h := roundedUnits_nearest_signed (abs_nonneg x) hm hy'
    rw [abs_of_neg hx, hn, hn, neg_neg] at h
    rw [abs_of_neg hx]
    exact ⟨h.1, fun he hne => h.2 he fun hc => hne (by rw [← hc, neg_neg])⟩
  · have h := roundedUnits_nearest_signed (abs_nonneg x) hm hy
    rwa [abs_of_nonneg (not_lt.1 hx)] at h ⊢

/-! ### Overflow: the bound is `(2^24 - 1/2) * 2^253` units -/

theorem nearestEven_lt_two_pow {y : ℝ} (hy : 0 ≤ y) (h : y < 2 ^ 24 - 1 / 2) : nearestEven y < 2 ^ 24 := by
  have h1 := (abs_le.1 (abs_sub_nearestEven_le hy)).1
  have h2 : (nearestEven y : ℝ) < 2 ^ 24 := by linarith
  exact_mod_cast h2

/-- The bound itself is a tie, which goes to the even `2^24`. -/
theorem two_pow_le_nearestEven {y : ℝ} (hy : 0 ≤ y) (h : 2 ^ 24 - 1 / 2 ≤ y) : 2 ^ 24 ≤ nearestEven y := by
  have h1 := (abs_le.1 (abs_sub_nearestEven_le hy)).2
  by_contra hc
  have h2 : (nearestEven y : ℝ) + 1 ≤ 2 ^ 24 := by exact_mod_cast not_le.1 hc
  have h3 : (nearestEven y : ℝ) + 1 = 2 ^ 24 := by linarith
  have h4 : nearestEven y + 1 = 2 ^ 24 := by exact_mod_cast h3
  have h5 : y = 2 ^ 24 - 1 / 2 := by linarith
  have h6 : (nearestEven y : ℝ) = 2 ^ 24 - 1 := by linarith
  have h7 := nearestEven_even_of_tie hy (j := 2 ^ 24) (by rw [h6, h5]; norm_num) (by omega)
  omega

theorem pattern_lt_of_lt {x : ℝ} (hx : 0 ≤ x) (h : x < (2 ^ 24 - 1 / 2) * 2 ^ 253) :
    spacingExp x * 2 ^ 23 + significand x < 0x7F800000 := by
  have h1 := significand_le hx
  have hp : (0 : ℝ) < 2 ^ 253 := by positivity
  have h2 : spacingExp x < 254 := by
    by_contra hc
    have h3 := two_pow_spacingExp_le hx (by omega)
    have h4 : (2 : ℝ) ^ (24 + 253) ≤ 2 ^ (spacingExp x + 23) := pow_le_pow_right₀ one_le_two (by omega)
    rw [pow_add] at h4
    have h5 : ((2 : ℝ) ^ 24 - 1 / 2) * 2 ^ 253 ≤ 2 ^ 24 * 2 ^ 253 :=
      mul_le_mul_of_nonneg_right (by norm_num) hp.le
    exact absurd (h4.trans h3) (not_le.2 (h.trans_le h5))
  rcases Nat.lt_or_ge (spacingExp x) 253 with h3 | h3
  · omega
  · have h4 : spacingExp x = 253 := by omega
    have h5 : significand x < 2 ^ 24 := by
      unfold significand
      rw [h4]
      exact nearestEven_lt_two_pow (by positivity) ((div_lt_iff₀ hp).2 h)
    omega

theorem le_pattern_of_le {x : ℝ} (h : (2 ^ 24 - 1 / 2) * 2 ^ 253 ≤ x) :
    0x7F800000 ≤ spacingExp x * 2 ^ 23 + significand x := by
  have hp : (0 : ℝ) < 2 ^ 253 := by positivity
  have h1 : 23 + 253 < spacingExp x + 24 := by
    refine (pow_lt_pow_iff_right₀ (one_lt_two (α := ℝ))).1 (lt_of_lt_of_le ?_
      (h.trans (lt_two_pow_spacingExp x).le))
    rw [pow_add]
    exact mul_lt_mul_of_pos_right (by norm_num) hp
  have hx : 0 ≤ x := le_trans (by norm_num) h
  have h2 := le_significand hx (by omega)
  rcases Nat.lt_or_ge 253 (spacingExp x) with h3 | h3
  · omega
  · have h4 : spacingExp x = 253 := by omega
    have h5 : 2 ^ 24 ≤ significand x := by
      unfold significand
      rw [h4]
      exact two_pow_le_nearestEven (by positivity) ((le_div_iff₀ hp).2 h)
    omega

/-- The bound of log 10 in units. -/
theorem overflowBound_units : ((2 : ℝ) ^ 128 - 2 ^ 103) * 2 ^ 149 = (2 ^ 24 - 1 / 2) * 2 ^ 253 := by norm_num

/-! ### The values of patterns -/

/-- The magnitude in units of the pattern with exponent and fraction bits k. -/
def patternUnits (k : ℕ) : ℕ :=
  if k / 2 ^ 23 = 0 then k % 2 ^ 23 else (2 ^ 23 + k % 2 ^ 23) * 2 ^ (k / 2 ^ 23 - 1)

/-- A carry out of the significand moves into the exponent field. -/
theorem patternUnits_eq {u m : ℕ} (h1 : m ≤ 2 ^ 24) (h2 : 0 < u → 2 ^ 23 ≤ m) :
    patternUnits (u * 2 ^ 23 + m) = m * 2 ^ u := by
  unfold patternUnits
  rcases Nat.lt_or_ge m (2 ^ 23) with hm | hm
  · obtain rfl : u = 0 := by omega
    rw [if_pos (by omega), pow_zero]; omega
  · rw [if_neg (by omega)]
    rcases h1.eq_or_lt with rfl | h1
    · rw [show u * 2 ^ 23 + 2 ^ 24 = (u + 2) * 2 ^ 23 by ring, Nat.mul_mod_left,
        Nat.mul_div_cancel _ (by norm_num), show u + 2 - 1 = u + 1 by omega]
      ring
    · rw [show (u * 2 ^ 23 + m) / 2 ^ 23 - 1 = u by omega,
        show 2 ^ 23 + (u * 2 ^ 23 + m) % 2 ^ 23 = m by omega]

theorem patternUnits_rounded {x : ℝ} (hx : 0 ≤ x) :
    (patternUnits (spacingExp x * 2 ^ 23 + significand x) : ℝ) = roundedUnits x := by
  rw [patternUnits_eq (significand_le hx) (le_significand hx)]
  push_cast
  rfl

theorem wordOfKey_toNat {k : ℤ} (h : k.natAbs < 2 ^ 31) :
    (wordOfKey k).toNat = if k < 0 then 2 ^ 31 + k.natAbs else k.natAbs := by
  rw [wordOfKey, BitVec.toNat_ofNat]
  split_ifs <;> omega

theorem expField_eq (w : Word) : expField w = w.toNat / 2 ^ 23 % 2 ^ 8 := by
  rw [expField, BitVec.extractLsb'_toNat, Nat.shiftRight_eq_div_pow]

theorem fracField_eq (w : Word) : fracField w = w.toNat % 2 ^ 23 := by
  rw [fracField, BitVec.extractLsb'_toNat, Nat.shiftRight_zero]

theorem signBit_eq (w : Word) : signBit w = decide (2 ^ 31 ≤ w.toNat) := by
  rw [signBit, BitVec.getLsbD, Nat.testBit_eq_decide_div_mod_eq, decide_eq_decide]
  have := w.isLt
  omega

theorem units_wordOfKey {k : ℤ} (h : k.natAbs < 2 ^ 31) :
    units (wordOfKey k) = if k < 0 then -(patternUnits k.natAbs : ℤ) else patternUnits k.natAbs := by
  have hm : magUnits (wordOfKey k) = patternUnits k.natAbs := by
    have he : (wordOfKey k).toNat / 2 ^ 23 % 2 ^ 8 = k.natAbs / 2 ^ 23 := by
      rw [wordOfKey_toNat h]; split_ifs <;> omega
    have hf : (wordOfKey k).toNat % 2 ^ 23 = k.natAbs % 2 ^ 23 := by
      rw [wordOfKey_toNat h]; split_ifs <;> omega
    rw [magUnits, expField_eq, fracField_eq, he, hf, patternUnits]
  have hs : signBit (wordOfKey k) = decide (k < 0) := by
    rw [signBit_eq, wordOfKey_toNat h, decide_eq_decide]; split_ifs <;> omega
  simp only [units, hm, hs, decide_eq_true_eq]

theorem f32_wordOfKey {k : ℤ} (h : k.natAbs < 0x7F800000) :
    f32 (wordOfKey k) = some (mkRat (units (wordOfKey k)) (2 ^ 149)) := by
  have he : expField (wordOfKey k) ≠ 255 := by
    rw [expField_eq, wordOfKey_toNat (by omega)]; split_ifs <;> omega
  rw [f32, isFinite, if_pos (decide_eq_true he)]

theorem f32_eq_some {w : Word} {u : ℚ} (h : f32 w = some u) : u = mkRat (units w) (2 ^ 149) := by
  unfold f32 at h
  split at h
  · exact (Option.some.inj h).symm
  · cases h

/-- A pattern's value in units is a significand below 2^24 times a power of two, with a sign. -/
theorem units_eq_significand (w : Word) :
    ∃ m e : ℕ, m < 2 ^ 24 ∧ ((units w : ℝ) = m * 2 ^ e ∨ (units w : ℝ) = -(m * 2 ^ e)) := by
  have hf : fracField w < 2 ^ 23 := by rw [fracField_eq]; exact Nat.mod_lt _ (by norm_num)
  have hm : ∃ m e : ℕ, m < 2 ^ 24 ∧ magUnits w = m * 2 ^ e := by
    unfold magUnits
    split_ifs
    · exact ⟨fracField w, 0, by omega, by simp⟩
    · exact ⟨2 ^ 23 + fracField w, expField w - 1, by omega, rfl⟩
  obtain ⟨m, e, h1, h2⟩ := hm
  refine ⟨m, e, h1, ?_⟩
  unfold units
  rw [h2]
  split_ifs
  · right; push_cast; rfl
  · left; push_cast; rfl

/-! ### `rnd32` -/

theorem abs_sub_mkRat (q : ℚ) (a : ℤ) : |q - mkRat a (2 ^ 149)| = |q * 2 ^ 149 - a| / 2 ^ 149 := by
  have h : (0 : ℚ) < 2 ^ 149 := by positivity
  rw [Rat.mkRat_eq_div, ← abs_of_pos h, ← abs_div, abs_of_pos h, Nat.cast_pow, Nat.cast_ofNat,
    sub_div, mul_div_cancel_right₀ q h.ne']

/-- Below the bound the pattern of q is its significand's, in units of the value. -/
theorem roundKey_natAbs_of_lt {r : ℝ} (h : |r| < 2 ^ 128 - 2 ^ 103) :
    (roundKey r).natAbs = spacingExp |r * 2 ^ 149| * 2 ^ 23 + significand |r * 2 ^ 149| ∧
      (roundKey r).natAbs < 0x7F800000 := by
  have hx : |r * 2 ^ 149| = |r| * 2 ^ 149 := by rw [abs_mul, abs_of_pos (by positivity : (0 : ℝ) < 2 ^ 149)]
  have hlt : |r| * 2 ^ 149 < (2 ^ 24 - 1 / 2) * 2 ^ 253 := by
    rw [← overflowBound_units]
    exact mul_lt_mul_of_pos_right h (by positivity)
  have hp := pattern_lt_of_lt (by positivity) hlt
  rw [roundKey_natAbs, magPatternReal_eq, hx, min_eq_left hp.le]
  exact ⟨rfl, hp⟩

theorem units_rndReal {r : ℝ} (h : |r| < 2 ^ 128 - 2 ^ 103) :
    (units (rndReal r) : ℝ) = signedUnits (r * 2 ^ 149) := by
  obtain ⟨h1, h2⟩ := roundKey_natAbs_of_lt h
  have hu := patternUnits_rounded (abs_nonneg (r * 2 ^ 149))
  have hneg : r * 2 ^ 149 < 0 ↔ r < 0 := 
    ⟨fun h => neg_of_mul_neg_left h (by positivity), fun h => mul_neg_of_neg_of_pos h (by positivity)⟩
  rw [rndReal_eq_wordOfKey, units_wordOfKey (by omega), signedUnits, h1, ← hu]
  simp only [roundKey_neg_iff, hneg, ← roundKey_natAbs, h1]
  generalize spacingExp |r * 2 ^ 149| * 2 ^ 23 + significand |r * 2 ^ 149| = k
  by_cases hr : r < 0
  · by_cases hk : k = 0
    · subst hk; simp [hr, patternUnits]
    · simp [hr, hk]
  · simp [hr]

theorem getLsbD_zero_rndReal {r : ℝ} (h : |r| < 2 ^ 128 - 2 ^ 103)
    (he : significand |r * 2 ^ 149| % 2 = 0) : (rndReal r).getLsbD 0 = false := by
  obtain ⟨h1, h2⟩ := roundKey_natAbs_of_lt h
  rw [rndReal_eq_wordOfKey, BitVec.getLsbD, Nat.testBit_eq_decide_div_mod_eq, decide_eq_false_iff_not,
    wordOfKey_toNat (by omega)]
  split_ifs <;> omega

/-- From the bound on the rounding is the infinity of the sign. -/
theorem magPatternReal_of_le {t : ℝ} (h : 2 ^ 128 - 2 ^ 103 ≤ t) : magPatternReal t = 0x7F800000 := by
  have : (2 ^ 24 - 1 / 2) * 2 ^ 253 ≤ t * 2 ^ 149 := by
    rw [← overflowBound_units]
    exact mul_le_mul_of_nonneg_right h (by positivity)
  rw [magPatternReal_eq, min_eq_right (le_pattern_of_le this)]

theorem rnd32_finite {q : ℚ} (h : |q| < 2 ^ 128 - 2 ^ 103) :
    f32 (rnd32 q) = some (mkRat (units (rnd32 q)) (2 ^ 149)) := by
  have h' : |(q : ℝ)| < 2 ^ 128 - 2 ^ 103 := by exact_mod_cast h
  rw [rnd32_eq_rndReal, rndReal_eq_wordOfKey]
  exact f32_wordOfKey (roundKey_natAbs_of_lt h').2

theorem rnd32_nearest {q : ℚ} (h : |q| < 2 ^ 128 - 2 ^ 103) (w : Word) :
    |q - mkRat (units (rnd32 q)) (2 ^ 149)| ≤ |q - mkRat (units w) (2 ^ 149)| ∧
      (|q - mkRat (units (rnd32 q)) (2 ^ 149)| = |q - mkRat (units w) (2 ^ 149)| →
        units w ≠ units (rnd32 q) → (rnd32 q).getLsbD 0 = false) := by
  have h' : |(q : ℝ)| < 2 ^ 128 - 2 ^ 103 := by exact_mod_cast h
  obtain ⟨m, e, hm, hy⟩ := units_eq_significand w
  obtain ⟨h1, h2⟩ := signedUnits_nearest ((q : ℝ) * 2 ^ 149) hm hy
  rw [← units_rndReal h', ← rnd32_eq_rndReal] at h1 h2
  rw [abs_sub_mkRat, abs_sub_mkRat, div_le_div_iff_of_pos_right (by positivity),
    div_left_inj' (by positivity)]
  refine ⟨by exact_mod_cast h1, fun heq hne => ?_⟩
  rw [rnd32_eq_rndReal]
  exact getLsbD_zero_rndReal h' (h2 (by exact_mod_cast heq) (by exact_mod_cast hne))

/-- Settles O33: the nearest multiple of the spacing is the nearest finite pattern. -/
theorem rnd32IsNearestTiesEven : Obligations.Rnd32IsNearestTiesEven := by
  intro q
  refine ⟨fun h => ⟨_, rnd32_finite h, fun w u hu => ?_⟩, fun h => ?_, fun h => ?_⟩
  · obtain rfl := f32_eq_some hu
    obtain ⟨h1, h2⟩ := rnd32_nearest h w
    exact ⟨h1, fun heq hne => h2 heq fun hc => hne (by rw [hc])⟩
  · have hr : (2 ^ 128 - 2 ^ 103 : ℝ) ≤ q := by exact_mod_cast h
    have hk : roundKey (q : ℝ) = 0x7F800000 := by
      rw [roundKey, if_neg (by linarith), abs_of_nonneg (by linarith), magPatternReal_of_le hr]
      rfl
    rw [rnd32_eq_rndReal, rndReal_eq_wordOfKey, hk]
    decide
  · have hr : (2 ^ 128 - 2 ^ 103 : ℝ) ≤ -q := by
      have : ((q : ℚ) : ℝ) ≤ ((-(2 ^ 128 - 2 ^ 103) : ℚ) : ℝ) := by exact_mod_cast h
      push_cast at this
      linarith
    have hk : roundKey (q : ℝ) = -0x7F800000 := by
      rw [roundKey, if_pos (by linarith), abs_of_nonpos (by linarith), magPatternReal_of_le hr]
      rfl
    rw [rnd32_eq_rndReal, rndReal_eq_wordOfKey, hk]
    decide

end Sys2Proof.Machine

/-! The test that decides whether a combination of the window's cosines is rational (log 7): a value it
gives is the combination's value, since the two relations it clears with are the vanishing sums over the
23rd and over the 89th roots of unity. -/

namespace Sys2Proof.Machine.CosSum

open Finset

/-- `exp (2 pi i / 2047)`. -/
noncomputable def root : ℂ := Complex.exp (2 * Real.pi * Complex.I / (2047 : ℕ))

theorem root_isPrimitive : IsPrimitiveRoot root 2047 := Complex.isPrimitiveRoot_exp 2047 (by norm_num)

theorem root_pow_mod (n : ℕ) : root ^ (n % 2047) = root ^ n :=
  (pow_eq_pow_mod n root_isPrimitive.pow_eq_one).symm

theorem root_pow_eq (k : ℕ) : root ^ k = Complex.exp ((2 * Real.pi * k / 2047 : ℝ) * Complex.I) := by
  rw [root, ← Complex.exp_nat_mul]
  congr 1
  push_cast
  ring

/-- `z^k + z^-k = 2 cos (2 pi k / 2047)`. -/
theorem root_pow_add_conj (k : ℕ) :
    root ^ (k % 2047) + root ^ ((2047 - k % 2047) % 2047) =
      ((2 * Real.cos (2 * Real.pi * k / 2047) : ℝ) : ℂ) := by
  have hk : k % 2047 ≤ 2047 := (Nat.mod_lt _ (by norm_num)).le
  have h0 : root ^ (k % 2047) ≠ 0 := pow_ne_zero _ (Complex.exp_ne_zero _)
  have hinv : root ^ ((2047 - k % 2047) % 2047) = (root ^ k)⁻¹ := by
    rw [root_pow_mod, ← root_pow_mod k]
    refine eq_inv_of_mul_eq_one_left ?_
    rw [← pow_add, Nat.sub_add_cancel hk, root_isPrimitive.pow_eq_one]
  rw [hinv, root_pow_mod, root_pow_eq, ← Complex.exp_neg, ← neg_mul, ← Complex.ofReal_neg,
    Complex.exp_mul_I, Complex.exp_mul_I, ← Complex.ofReal_cos, ← Complex.ofReal_cos,
    ← Complex.ofReal_sin, ← Complex.ofReal_sin, Real.cos_neg, Real.sin_neg]
  push_cast
  ring

/-! ### The value of a combination -/

theorem value_append (c d : CosSum) : value (c ++ d) = c.value + d.value := by
  simp [value]

theorem value_scale (q : ℚ) (c : CosSum) : (c.scale q).value = q * c.value := by
  induction c with
  | nil => simp [value, scale]
  | cons u c ih =>
    simp only [value, scale, List.map_cons, List.sum_cons, List.map_map] at ih ⊢
    rw [ih]
    push_cast
    ring

/-! ### The sum of an array's coefficients times the powers of the root -/

/-- The number with coefficient `a[n]` at `z^n`. -/
noncomputable def rootSum (a : Array ℚ) : ℂ := ∑ n ∈ range 2047, (a.getD n 0 : ℂ) * root ^ n

theorem getD_modify (a : Array ℚ) (k n : ℕ) (q : ℚ) (hk : k < a.size) :
    (a.modify k (· + q)).getD n 0 = a.getD n 0 + if n = k then q else 0 := by
  by_cases hn : n < a.size
  · have hn' : n < (a.modify k (· + q)).size := by simpa using hn
    rw [Array.getD_eq_getD_getElem?, Array.getD_eq_getD_getElem?, Array.getElem?_eq_getElem hn,
      Array.getElem?_eq_getElem hn', Array.getElem_modify]
    by_cases h : k = n
    · simp [h]
    · simp [h, Ne.symm h]
  · have hne : n ≠ k := by omega
    simp [Array.getD_eq_getD_getElem?, hn, hne]

theorem rootSum_modify (a : Array ℚ) (k : ℕ) (q : ℚ) (hk : k < 2047) (ha : a.size = 2047) :
    rootSum (a.modify k (· + q)) = rootSum a + q * root ^ k := by
  have hs : ∀ n, ((a.modify k (· + q)).getD n 0 : ℂ) * root ^ n =
      (a.getD n 0 : ℂ) * root ^ n + if n = k then (q : ℂ) * root ^ k else 0 := by
    intro n
    rw [getD_modify a k n q (by omega)]
    split_ifs with h
    · subst h; push_cast; ring
    · push_cast; ring
  rw [rootSum, sum_congr rfl fun n _ => hs n, sum_add_distrib, sum_ite_eq' _ k, if_pos (mem_range.2 hk)]
  rfl

/-- One term of the combination, added at its two powers. -/
def addTerm (a : Array ℚ) (t : ℕ × ℚ) : Array ℚ :=
  (a.modify (t.1 % 2047) (· + t.2)).modify ((2047 - t.1 % 2047) % 2047) (· + t.2)

theorem size_addTerm (a : Array ℚ) (t : ℕ × ℚ) : (addTerm a t).size = a.size := by simp [addTerm]

theorem rootSum_addTerm (a : Array ℚ) (t : ℕ × ℚ) (ha : a.size = 2047) :
    rootSum (addTerm a t) =
      rootSum a + ((2 * ((t.2 : ℝ) * Real.cos (2 * Real.pi * t.1 / 2047)) : ℝ) : ℂ) := by
  have hlt : ∀ n, n % 2047 < 2047 := fun n => Nat.mod_lt _ (by norm_num)
  rw [addTerm, rootSum_modify _ _ _ (hlt _) (by simpa using ha), rootSum_modify _ _ _ (hlt _) ha, add_assoc,
    ← mul_add, root_pow_add_conj]
  push_cast
  ring

theorem rootSum_foldl_addTerm (c : CosSum) (a : Array ℚ) (ha : a.size = 2047) :
    rootSum (c.foldl addTerm a) = rootSum a + ((2 * c.value : ℝ) : ℂ) := by
  induction c generalizing a with
  | nil => simp [value]
  | cons t c ih =>
    have hv : value (t :: c) = (t.2 : ℝ) * Real.cos (2 * Real.pi * t.1 / 2047) + value c := by
      simp [value]
    rw [List.foldl_cons, ih _ ((size_addTerm a t).trans ha), rootSum_addTerm a t ha, hv]
    push_cast
    ring

theorem rootSum_doubled (c : CosSum) : rootSum (doubled c) = ((2 * c.value : ℝ) : ℂ) := by
  have h0 : rootSum (Array.replicate 2047 0) = 0 := by
    refine sum_eq_zero fun n hn => ?_
    rw [Array.getD_eq_getD_getElem?, Array.getElem?_replicate, if_pos (mem_range.1 hn)]
    simp
  have h := rootSum_foldl_addTerm c (Array.replicate 2047 0) (by simp)
  rw [h0, zero_add] at h
  exact h

/-! ### The grid -/

/-- Every exponent is `89 i + 23 j` for exactly one i < 23 and j < 89, modulo 2047. -/
theorem sum_range_eq_grid (f : ℕ → ℂ) :
    ∑ n ∈ range 2047, f n = ∑ i ∈ range 23, ∑ j ∈ range 89, f ((89 * i + 23 * j) % 2047) := by
  rw [← sum_product']
  refine sum_nbij' (fun n => (15 * n % 23, 31 * n % 89)) (fun e => (89 * e.1 + 23 * e.2) % 2047)
    ?_ ?_ ?_ ?_ ?_
  · intro n _
    simp only [mem_product, mem_range]
    omega
  · intro e _
    simp only [mem_range]
    omega
  · intro n hn
    simp only [mem_range] at hn
    show (89 * (15 * n % 23) + 23 * (31 * n % 89)) % 2047 = n
    omega
  · rintro ⟨i, j⟩ h
    simp only [mem_product, mem_range] at h
    refine Prod.ext ?_ ?_
    · show 15 * ((89 * i + 23 * j) % 2047) % 23 = i
      omega
    · show 31 * ((89 * i + 23 * j) % 2047) % 89 = j
      omega
  · intro n hn
    simp only [mem_range] at hn
    congr 1
    show n = (89 * (15 * n % 23) + 23 * (31 * n % 89)) % 2047
    omega

/-- `z^(89 i + 23 j)` as a product. -/
noncomputable def gridRoot (i j : ℕ) : ℂ := (root ^ 89) ^ i * (root ^ 23) ^ j

theorem rootSum_eq_grid (a : Array ℚ) :
    rootSum a = ∑ i ∈ range 23, ∑ j ∈ range 89, (atGrid a i j : ℂ) * gridRoot i j := by
  rw [rootSum, sum_range_eq_grid]
  refine sum_congr rfl fun i _ => sum_congr rfl fun j _ => ?_
  rw [root_pow_mod, gridRoot, ← pow_mul, ← pow_mul, ← pow_add]
  rfl

/-- The sum over the 23rd roots of unity vanishes. -/
theorem sum_gridRoot_left (j : ℕ) : ∑ i ∈ range 23, gridRoot i j = 0 := by
  have h : IsPrimitiveRoot (root ^ 89) 23 :=
    root_isPrimitive.pow (by norm_num) (by norm_num)
  simp only [gridRoot, ← sum_mul, h.geom_sum_eq_zero (by norm_num), zero_mul]

/-- The sum over the 89th roots of unity vanishes. -/
theorem sum_gridRoot_right (i : ℕ) : ∑ j ∈ range 89, gridRoot i j = 0 := by
  have h : IsPrimitiveRoot (root ^ 23) 89 :=
    root_isPrimitive.pow (by norm_num) (by norm_num)
  simp only [gridRoot, ← mul_sum, h.geom_sum_eq_zero (by norm_num), mul_zero]

/-- A coefficient that depends on j alone contributes nothing. -/
theorem sum_grid_of_left (f : ℕ → ℂ) :
    ∑ i ∈ range 23, ∑ j ∈ range 89, f j * gridRoot i j = 0 := by
  rw [sum_comm]
  exact sum_eq_zero fun j _ => by rw [← mul_sum, sum_gridRoot_left, mul_zero]

/-- A coefficient that depends on i alone contributes nothing. -/
theorem sum_grid_of_right (f : ℕ → ℂ) :
    ∑ i ∈ range 23, ∑ j ∈ range 89, f i * gridRoot i j = 0 :=
  sum_eq_zero fun i _ => by rw [← mul_sum, sum_gridRoot_right, mul_zero]

/-- Clearing row 22 and column 88 keeps the number. -/
theorem rootSum_eq_reduced (a : Array ℚ) :
    rootSum a = ∑ i ∈ range 23, ∑ j ∈ range 89, (reduced a i j : ℂ) * gridRoot i j := by
  have h : ∀ i j, (reduced a i j : ℂ) * gridRoot i j = (atGrid a i j : ℂ) * gridRoot i j -
      (atGrid a 22 j - atGrid a 22 88 : ℂ) * gridRoot i j - (atGrid a i 88 : ℂ) * gridRoot i j := by
    intro i j
    rw [reduced]
    push_cast
    ring
  simp only [h, sum_sub_distrib, sum_grid_of_left (fun j => (atGrid a 22 j - atGrid a 22 88 : ℂ)),
    sum_grid_of_right (fun i => (atGrid a i 88 : ℂ)), sub_zero]
  exact rootSum_eq_grid a

theorem reduced_last_row (a : Array ℚ) (j : ℕ) : reduced a 22 j = 0 := by rw [reduced]; ring
theorem reduced_last_column (a : Array ℚ) (i : ℕ) : reduced a i 88 = 0 := by rw [reduced]; ring

/-- Where every cleared coefficient but that of 1 is 0, the number is that coefficient. -/
theorem rootSum_of_reduced {a : Array ℚ} {q : ℚ}
    (h : ∀ i < 22, ∀ j < 88, reduced a i j = if i = 0 ∧ j = 0 then q else 0) : rootSum a = q := by
  have hall : ∀ i ∈ range 23, ∀ j ∈ range 89, reduced a i j = if i = 0 ∧ j = 0 then q else 0 := by
    intro i hi j hj
    simp only [mem_range] at hi hj
    rcases Nat.lt_or_ge i 22 with h1 | h1
    · rcases Nat.lt_or_ge j 88 with h2 | h2
      · exact h i h1 j h2
      · obtain rfl : j = 88 := by omega
        rw [reduced_last_column, if_neg (by omega)]
    · obtain rfl : i = 22 := by omega
      rw [reduced_last_row, if_neg (by omega)]
  rw [rootSum_eq_reduced, sum_eq_single_of_mem 0 (by simp), sum_eq_single_of_mem 0 (by simp)]
  · rw [hall 0 (by simp) 0 (by simp)]
    simp [gridRoot]
  · intro j hj hne
    rw [hall 0 (by simp) j hj, if_neg (by omega)]
    simp
  · intro i hi hne
    refine sum_eq_zero fun j hj => ?_
    rw [hall i hi j hj, if_neg (by omega)]
    simp

/-- A rational value the test gives is the value of the combination. -/
theorem value_of_rational? {c : CosSum} {q : ℚ} (h : c.rational? = some q) : c.value = q := by
  unfold rational? at h
  simp only [Option.ite_none_right_eq_some, List.all_eq_true, List.mem_range, beq_iff_eq,
    Option.some.injEq] at h
  obtain ⟨h1, rfl⟩ := h
  have h2 := rootSum_of_reduced h1
  rw [rootSum_doubled] at h2
  have h3 : 2 * c.value = ((reduced (doubled c) 0 0 : ℚ) : ℝ) := by exact_mod_cast h2
  push_cast
  linarith

end Sys2Proof.Machine.CosSum

/-! Interval arithmetic and the arithmetic of the enclosures hold the exact results (log 7). -/

namespace Sys2Proof.Machine

/-! ### Integer division and square root -/

theorem intDiv_le_div (a : ℤ) {b : ℤ} (hb : 0 < b) : ((a / b : ℤ) : ℝ) ≤ a / b := by
  rw [le_div_iff₀ (by exact_mod_cast hb)]
  exact_mod_cast Int.ediv_mul_le a hb.ne'

theorem div_le_ceilDiv (a : ℤ) {b : ℕ} (hb : 0 < b) : (a : ℝ) / b ≤ ceilDiv a b := by
  have h := intDiv_le_div (-a) (b := (b : ℤ)) (by exact_mod_cast hb)
  push_cast at h
  rw [neg_div] at h
  unfold ceilDiv
  push_cast
  linarith

theorem isqrtLoop_eq_sqrt (fuel n : ℕ) (h : n < 4 ^ fuel) : isqrtLoop fuel n = Nat.sqrt n := by
  induction fuel generalizing n with
  | zero => obtain rfl : n = 0 := by simpa using h
            rfl
  | succ fuel ih =>
    rw [isqrtLoop, ih (n / 4) (by rw [pow_succ] at h; omega)]
    have h1 := Nat.sqrt_le (n / 4)
    have h2 := Nat.lt_succ_sqrt (n / 4)
    generalize Nat.sqrt (n / 4) = k at h1 h2 ⊢
    have h3 : 4 * (k * k) ≤ n := by omega
    have h4 : n < 4 * ((k + 1) * (k + 1)) := by simp only [Nat.succ_eq_add_one] at h2; omega
    refine Nat.eq_sqrt.2 ?_
    split_ifs with h5
    · exact ⟨h5, by linarith⟩
    · exact ⟨by linarith, not_le.1 h5⟩

theorem isqrt_eq_sqrt (n : ℕ) : isqrt n = Nat.sqrt n := by
  refine isqrtLoop_eq_sqrt _ _ ?_
  calc n < 2 ^ (n.log2 + 1) := Nat.lt_log2_self
    _ ≤ 2 ^ (2 * (n.log2 / 2 + 1)) := Nat.pow_le_pow_right two_pos (by omega)
    _ = 4 ^ (n.log2 / 2 + 1) := by rw [pow_mul]; norm_num

/-! ### Intervals -/

theorem mul_le_max_mul {a b x : ℝ} (h1 : a ≤ x) (h2 : x ≤ b) (y : ℝ) : x * y ≤ max (a * y) (b * y) := by
  rcases le_total 0 y with h | h
  · exact le_max_of_le_right (mul_le_mul_of_nonneg_right h2 h)
  · exact le_max_of_le_left (mul_le_mul_of_nonpos_right h1 h)

theorem min_mul_le_mul {a b x : ℝ} (h1 : a ≤ x) (h2 : x ≤ b) (y : ℝ) : min (a * y) (b * y) ≤ x * y := by
  rcases le_total 0 y with h | h
  · exact min_le_of_left_le (mul_le_mul_of_nonneg_right h1 h)
  · exact min_le_of_right_le (mul_le_mul_of_nonpos_right h2 h)

/-- A product of two bounded reals lies between the least and the greatest product of the bounds. -/
theorem mul_mem_of_bounds {a b c d x y : ℝ} (h1 : a ≤ x) (h2 : x ≤ b) (h3 : c ≤ y) (h4 : y ≤ d) :
    min (min (a * c) (a * d)) (min (b * c) (b * d)) ≤ x * y ∧
      x * y ≤ max (max (a * c) (a * d)) (max (b * c) (b * d)) := by
  have hl : ∀ t : ℝ, min (t * c) (t * d) ≤ t * y := fun t => by
    simpa only [mul_comm t] using min_mul_le_mul h3 h4 t
  have hu : ∀ t : ℝ, t * y ≤ max (t * c) (t * d) := fun t => by
    simpa only [mul_comm t] using mul_le_max_mul h3 h4 t
  exact ⟨(min_le_min (hl a) (hl b)).trans (min_mul_le_mul h1 h2 y),
    (mul_le_max_mul h1 h2 y).trans (max_le_max (hu a) (hu b))⟩

namespace Ivl

variable {p : ℕ} {a b : Ivl} {r s : ℝ}

theorem holds_ofRat (p : ℕ) (q : ℚ) : (ofRat p q).holds p q := by
  have hq : (q : ℝ) * 2 ^ p = ((q.num * 2 ^ p : ℤ) : ℝ) / (q.den : ℕ) := by
    conv_lhs => rw [Rat.cast_def]
    push_cast
    ring
  unfold Ivl.holds ofRat
  rw [hq]
  refine ⟨?_, div_le_ceilDiv _ q.den_pos⟩
  have := intDiv_le_div (q.num * 2 ^ p) (b := (q.den : ℤ)) (by exact_mod_cast q.den_pos)
  rwa [Int.cast_natCast] at this

theorem holds_ofInt (p : ℕ) (k : ℤ) : (ofInt p k).holds p k := by
  unfold Ivl.holds ofInt; push_cast; exact ⟨le_rfl, le_rfl⟩

theorem holds_unit {p : ℕ} (h0 : 0 ≤ r) (h1 : r ≤ 1) : (unit p).holds p r := by
  have hp : (0 : ℝ) < 2 ^ p := by positivity
  unfold Ivl.holds unit
  push_cast
  exact ⟨by positivity, by nlinarith⟩

theorem holds_add (ha : a.holds p r) (hb : b.holds p s) : (a.add b).holds p (r + s) := by
  unfold Ivl.holds add at *
  push_cast
  rw [add_mul]
  exact ⟨add_le_add ha.1 hb.1, add_le_add ha.2 hb.2⟩

theorem holds_neg (ha : a.holds p r) : a.neg.holds p (-r) := by
  unfold Ivl.holds neg at *
  push_cast
  rw [neg_mul]
  exact ⟨neg_le_neg ha.2, neg_le_neg ha.1⟩

theorem holds_sub (ha : a.holds p r) (hb : b.holds p s) : (a.sub b).holds p (r - s) := by
  unfold Ivl.holds sub at *
  push_cast
  rw [sub_mul]
  exact ⟨sub_le_sub ha.1 hb.2, sub_le_sub ha.2 hb.1⟩

theorem holds_mul (ha : a.holds p r) (hb : b.holds p s) : (mul p a b).holds p (r * s) := by
  have hp : (0 : ℝ) < 2 ^ p := by positivity
  obtain ⟨h1, h2⟩ := mul_mem_of_bounds ha.1 ha.2 hb.1 hb.2
  have he : r * s * 2 ^ p = r * 2 ^ p * (s * 2 ^ p) / 2 ^ p := by field_simp
  unfold Ivl.holds mul
  rw [he]
  constructor
  · refine (intDiv_le_div _ (by positivity)).trans ?_
    unfold min4
    push_cast
    exact div_le_div_of_nonneg_right h1 hp.le
  · refine le_trans ?_ (div_le_ceilDiv _ (Nat.two_pow_pos p))
    unfold max4
    push_cast
    exact div_le_div_of_nonneg_right h2 hp.le

/-- The reciprocal of a positive divisor lies between those of its bounds. -/
theorem holds_divPos (ha : a.holds p r) (hb : b.holds p s) (hpos : 0 < b.lo) :
    (divPos p a b).holds p (r / s) := by
  have hp : (0 : ℝ) < 2 ^ p := by positivity
  have hlo : (0 : ℝ) < b.lo := by exact_mod_cast hpos
  have hs : 0 < s * 2 ^ p := hlo.trans_le hb.1
  have hhi : (0 : ℝ) < b.hi := hs.trans_le hb.2
  have hhi' : 0 < b.hi := by exact_mod_cast hhi
  have h1 : (b.hi : ℝ)⁻¹ ≤ (s * 2 ^ p)⁻¹ := inv_anti₀ hs hb.2
  have h2 : (s * 2 ^ p)⁻¹ ≤ (b.lo : ℝ)⁻¹ := inv_anti₀ hlo hb.1
  have he : r / s * 2 ^ p = (s * 2 ^ p)⁻¹ * (r * 2 ^ p * 2 ^ p) := by
    have : s ≠ 0 := fun h => by simp [h] at hs
    field_simp
  have hinv : 0 < (s * 2 ^ p)⁻¹ := inv_pos.2 hs
  unfold Ivl.holds divPos
  rw [he]
  constructor
  · have h3 := min_mul_le_mul h1 h2 ((a.lo : ℝ) * 2 ^ p)
    have h4 : (s * 2 ^ p)⁻¹ * ((a.lo : ℝ) * 2 ^ p) ≤ (s * 2 ^ p)⁻¹ * (r * 2 ^ p * 2 ^ p) := by
      gcongr; exact ha.1
    refine le_trans ?_ (h3.trans h4)
    have h5 := intDiv_le_div (a.lo * 2 ^ p) hpos
    have h6 := intDiv_le_div (a.lo * 2 ^ p) hhi'
    push_cast at h5 h6 ⊢
    rw [div_eq_inv_mul] at h5 h6
    rw [min_comm]
    exact min_le_min h6 h5
  · have h3 := mul_le_max_mul h1 h2 ((a.hi : ℝ) * 2 ^ p)
    have h4 : (s * 2 ^ p)⁻¹ * (r * 2 ^ p * 2 ^ p) ≤ (s * 2 ^ p)⁻¹ * ((a.hi : ℝ) * 2 ^ p) := by
      gcongr; exact ha.2
    refine (h4.trans h3).trans ?_
    have hc : ∀ k : ℤ, 0 < k → ((k.toNat : ℕ) : ℝ) = k := fun k hk => by
      exact_mod_cast Int.toNat_of_nonneg hk.le
    have h5 := div_le_ceilDiv (a.hi * 2 ^ p) (b := b.lo.toNat) (by omega)
    have h6 := div_le_ceilDiv (a.hi * 2 ^ p) (b := b.hi.toNat) (by omega)
    rw [hc _ hpos] at h5
    rw [hc _ hhi'] at h6
    push_cast at h5 h6 ⊢
    rw [div_eq_inv_mul] at h5 h6
    rw [max_comm]
    exact max_le_max h5 h6

theorem holds_div? (ha : a.holds p r) (hb : b.holds p s) {c : Ivl} (h : div? p a b = some c) :
    c.holds p (r / s) := by
  unfold div? at h
  split_ifs at h with h1 h2
  · cases h; exact holds_divPos ha hb h1
  · cases h
    rw [← neg_div_neg_eq]
    exact holds_divPos (holds_neg ha) (holds_neg hb) (by simpa [neg] using h2)

theorem holds_divNat (ha : a.holds p r) {n : ℕ} (hn : 0 < n) : (divNat a n).holds p (r / n) := by
  have hn' : (0 : ℝ) < n := by exact_mod_cast hn
  unfold Ivl.holds divNat
  rw [div_mul_eq_mul_div]
  constructor
  · refine (intDiv_le_div _ (by exact_mod_cast hn)).trans ?_
    rw [Int.cast_natCast]
    exact div_le_div_of_nonneg_right ha.1 hn'.le
  · exact (div_le_div_of_nonneg_right ha.2 hn'.le).trans (div_le_ceilDiv _ hn)

theorem holds_scale (ha : a.holds p r) (k : ℤ) : (a.scale k).holds p (r * k) := by
  unfold Ivl.holds scale at *
  rw [mul_right_comm]
  split_ifs with hk
  · have : (0 : ℝ) ≤ k := by exact_mod_cast hk
    push_cast
    exact ⟨mul_le_mul_of_nonneg_right ha.1 this, mul_le_mul_of_nonneg_right ha.2 this⟩
  · have : (k : ℝ) ≤ 0 := by exact_mod_cast (not_le.1 hk).le
    push_cast
    exact ⟨mul_le_mul_of_nonpos_right ha.2 this, mul_le_mul_of_nonpos_right ha.1 this⟩

theorem holds_maxI (ha : a.holds p r) (hb : b.holds p s) : (a.maxI b).holds p (max r s) := by
  unfold Ivl.holds maxI at *
  rw [max_mul_of_nonneg _ _ (by positivity)]
  push_cast
  exact ⟨max_le_max ha.1 hb.1, max_le_max ha.2 hb.2⟩

theorem holds_minI (ha : a.holds p r) (hb : b.holds p s) : (a.minI b).holds p (min r s) := by
  unfold Ivl.holds minI at *
  rw [min_mul_of_nonneg _ _ (by positivity)]
  push_cast
  exact ⟨min_le_min ha.1 hb.1, min_le_min ha.2 hb.2⟩

/-- The sign of a real is that of an end which has it. -/
theorem nonneg_of_holds (ha : a.holds p r) (h : 0 ≤ a.lo) : 0 ≤ r := by
  have : (0 : ℝ) ≤ a.lo := by exact_mod_cast h
  exact nonneg_of_mul_nonneg_left (this.trans ha.1) (by positivity)

theorem pos_of_holds (ha : a.holds p r) (h : 0 < a.lo) : 0 < r := by
  have : (0 : ℝ) < a.lo := by exact_mod_cast h
  exact pos_of_mul_pos_left (this.trans_le ha.1) (by positivity)

theorem nonpos_of_holds (ha : a.holds p r) (h : a.hi ≤ 0) : r ≤ 0 := by
  have := nonneg_of_holds (holds_neg ha) (by simpa [neg] using h)
  linarith

theorem holds_abs (ha : a.holds p r) : a.abs.holds p |r| := by
  unfold abs
  split_ifs with h1 h2
  · rwa [abs_of_nonneg (nonneg_of_holds ha h1)]
  · rw [abs_of_nonpos (nonpos_of_holds ha h2)]
    exact holds_neg ha
  · have hp : |r| * 2 ^ p = |r * 2 ^ p| := by rw [abs_mul, abs_of_pos (by positivity : (0 : ℝ) < 2 ^ p)]
    unfold Ivl.holds
    rw [hp]
    push_cast
    refine ⟨abs_nonneg _, abs_le'.2 ⟨le_max_of_le_right ha.2, le_max_of_le_left ?_⟩⟩
    exact neg_le_neg ha.1

theorem holds_hull_left (ha : a.holds p r) (b : Ivl) : (a.hull b).holds p r := by
  unfold Ivl.holds hull
  push_cast
  exact ⟨min_le_of_left_le ha.1, le_max_of_le_left ha.2⟩

theorem holds_hull_right (a : Ivl) (hb : b.holds p s) : (a.hull b).holds p s := by
  unfold Ivl.holds hull
  push_cast
  exact ⟨min_le_of_right_le hb.1, le_max_of_le_right hb.2⟩

theorem lt_of_hi_lt_lo (ha : a.holds p r) (hb : b.holds p s) (h : b.hi < a.lo) : s < r := by
  have h' : (b.hi : ℝ) < a.lo := by exact_mod_cast h
  exact lt_of_mul_lt_mul_right (hb.2.trans_lt (h'.trans_le ha.1)) (by positivity)

theorem le_of_hi_le_lo (ha : a.holds p r) (hb : b.holds p s) (h : a.hi ≤ b.lo) : r ≤ s := by
  have h' : (a.hi : ℝ) ≤ b.lo := by exact_mod_cast h
  exact le_of_mul_le_mul_right (ha.2.trans (h'.trans hb.1)) (by positivity)

theorem holds_sqrt (ha : a.holds p r) : (sqrt p a).holds p (Real.sqrt r) := by
  have he : Real.sqrt r * 2 ^ p = Real.sqrt (r * 2 ^ p * 2 ^ p) := by
    rw [mul_assoc, Real.sqrt_mul' _ (by positivity), Real.sqrt_mul_self (by positivity)]
  unfold Ivl.holds sqrt
  rw [he, isqrt_eq_sqrt, isqrt_eq_sqrt]
  constructor
  · rw [Int.cast_natCast]
    refine Real.nat_sqrt_le_real_sqrt.trans ?_
    rcases lt_or_ge a.lo 0 with h | h
    · rw [Int.toNat_of_nonpos h.le]; simp
    · refine Real.sqrt_le_sqrt ?_
      have h1 : ((a.lo.toNat : ℕ) : ℝ) = a.lo := by exact_mod_cast Int.toNat_of_nonneg h
      push_cast
      rw [h1]
      gcongr
      exact ha.1
  · push_cast
    refine le_trans (Real.sqrt_le_sqrt ?_) Real.real_sqrt_lt_nat_sqrt_succ.le
    have h1 : (a.hi : ℝ) ≤ ((a.hi.toNat : ℕ) : ℝ) := by exact_mod_cast Int.self_le_toNat a.hi
    push_cast
    gcongr
    exact ha.2.trans h1

end Ivl

/-! ### Enclosures as intervals -/

namespace Encl

variable {p : ℕ} {x y t e : Encl} {a b c d r s : ℝ}

theorem holds_plain (h : x.holds r) : x.plain.holds r := by
  cases x with
  | lin c p lo hi =>
    obtain ⟨hc, hi⟩ := h
    cases hq : c.rational? with
    | none => simpa only [plain, hq, holds] using hi
    | some q => simpa only [plain, hq, holds] using hc.trans (CosSum.value_of_rational? hq)
  | exact q => exact h
  | span p lo hi => exact h
  | any => trivial

theorem holds_rescale {p p' : ℕ} {lo hi : ℤ} (h : Ivl.holds p' ⟨lo, hi⟩ r) :
    (rescale p p' lo hi).holds p r := by
  obtain ⟨h1, h2⟩ := h
  unfold rescale
  split_ifs with hp
  · have hr : r * 2 ^ p = r * 2 ^ p' * 2 ^ (p - p') := by
      rw [mul_assoc, ← pow_add, Nat.add_sub_cancel' hp]
    unfold Ivl.holds
    rw [hr]
    push_cast
    exact ⟨mul_le_mul_of_nonneg_right h1 (by positivity), mul_le_mul_of_nonneg_right h2 (by positivity)⟩
  · have hr : r * 2 ^ p = r * 2 ^ p' / 2 ^ (p' - p) := by
      rw [eq_div_iff (by positivity), mul_assoc, ← pow_add, Nat.add_sub_cancel' (by omega)]
    unfold Ivl.holds
    rw [hr]
    constructor
    · refine (intDiv_le_div _ (by positivity)).trans ?_
      push_cast
      exact div_le_div_of_nonneg_right h1 (by positivity)
    · refine le_trans ?_ (div_le_ceilDiv _ (Nat.two_pow_pos _))
      push_cast
      exact div_le_div_of_nonneg_right h2 (by positivity)

theorem holds_toIvl (h : x.holds r) {i : Ivl} (hi : x.toIvl p = some i) : i.holds p r := by
  cases x with
  | exact q => cases hi; cases h; exact Ivl.holds_ofRat p q
  | lin c p' lo hi' => cases hi; exact holds_rescale h.2
  | span p' lo hi' => cases hi; exact holds_rescale h
  | any => cases hi

theorem holds_ofIvl {o : Option Ivl} (h : ∀ i, o = some i → i.holds p r) : (ofIvl p o).holds r := by
  cases o with
  | none => trivial
  | some i => exact h i rfl

theorem holds_onIvl {f : Ivl → Ivl} (hf : ∀ i, i.holds p r → (f i).holds p s) (hx : x.holds r) :
    (onIvl p f x).holds s := by
  refine holds_ofIvl fun i hi => ?_
  obtain ⟨j, hj, rfl⟩ := Option.map_eq_some_iff.1 hi
  exact hf j (holds_toIvl hx hj)

theorem holds_onIvls {f : Ivl → Ivl → Option Ivl}
    (hf : ∀ i j k, i.holds p a → j.holds p b → f i j = some k → k.holds p s)
    (hx : x.holds a) (hy : y.holds b) : (onIvls p f x y).holds s := by
  unfold onIvls
  split
  · rename_i i j hi hj
    exact holds_ofIvl fun k hk => hf i j k (holds_toIvl hx hi) (holds_toIvl hy hj) hk
  · trivial

/-- The same for an operation that always answers. -/
theorem holds_onIvls_some {f : Ivl → Ivl → Ivl}
    (hf : ∀ i j, i.holds p a → j.holds p b → (f i j).holds p s)
    (hx : x.holds a) (hy : y.holds b) : (onIvls p (fun i j => some (f i j)) x y).holds s :=
  holds_onIvls (fun i j k hi hj hk => by cases hk; exact hf i j hi hj) hx hy

/-! ### Combinations of cosines -/

theorem value_of_cosSum? (h : x.holds r) {c : CosSum} (hc : x.cosSum? = some c) : r = c.value := by
  cases x with
  | exact q => cases hc; cases h; simp [CosSum.value]
  | lin c' p' lo hi => cases hc; exact h.1
  | span p' lo hi => cases hc
  | any => cases hc

theorem value_of_scaleOf (q : ℚ) (h : x.holds r) {c : CosSum} (hc : x.scaleOf q = some c) :
    q * r = c.value := by
  obtain ⟨c', hc', rfl⟩ := Option.map_eq_some_iff.1 hc
  rw [CosSum.value_scale, value_of_cosSum? h hc']

theorem value_of_sumOf {o o' : Option CosSum} (h : ∀ c, o = some c → r = c.value)
    (h' : ∀ c, o' = some c → s = c.value) {c : CosSum} (hc : sumOf o o' = some c) : r + s = c.value := by
  cases o with
  | none => cases hc
  | some c1 =>
    cases o' with
    | none => cases hc
    | some c2 => cases hc; rw [CosSum.value_append, ← h c1 rfl, ← h' c2 rfl]

theorem holds_withSum {o : Option CosSum} (ho : ∀ c, o = some c → r = c.value) (h : e.holds r) :
    (withSum o e).holds r := by
  cases o with
  | none => exact h
  | some c =>
    cases e with
    | span p lo hi => exact ⟨ho c rfl, h⟩
    | exact q => exact h
    | lin c' p' lo hi => exact h
    | any => trivial

/-! ### Ring operations -/

/-- `add` of operands that are not both exact. -/
theorem holds_addSum (hx : x.holds a) (hy : y.holds b) :
    (withSum (sumOf x.cosSum? y.cosSum?) (onIvls p (fun i j => some (i.add j)) x y)).holds (a + b) :=
  holds_withSum
    (fun _ hc => value_of_sumOf (fun _ h => value_of_cosSum? hx h) (fun _ h => value_of_cosSum? hy h) hc)
    (holds_onIvls_some (fun _ _ => Ivl.holds_add) hx hy)

theorem holds_add (hx : x.holds a) (hy : y.holds b) : (add p x y).holds (a + b) := by
  unfold add
  split
  · cases hx; cases hy
    exact (Rat.cast_add _ _).symm
  · exact holds_addSum hx hy

theorem holds_subSum (hx : x.holds a) (hy : y.holds b) :
    (withSum (sumOf x.cosSum? (y.scaleOf (-1))) (onIvls p (fun i j => some (i.sub j)) x y)).holds
      (a - b) := by
  refine holds_withSum (fun c hc => ?_) (holds_onIvls_some (fun _ _ => Ivl.holds_sub) hx hy)
  rw [sub_eq_add_neg]
  refine value_of_sumOf (fun _ h => value_of_cosSum? hx h) (fun _ h => ?_) hc
  rw [← value_of_scaleOf (-1) hy h]
  push_cast
  ring

theorem holds_sub (hx : x.holds a) (hy : y.holds b) : (sub p x y).holds (a - b) := by
  unfold sub
  split
  · cases hx; cases hy
    exact (Rat.cast_sub _ _).symm
  · exact holds_subSum hx hy

theorem holds_neg (hx : x.holds a) : (neg p x).holds (-a) := by
  unfold neg
  split
  · cases hx
    exact (Rat.cast_neg _).symm
  · refine holds_withSum (fun c hc => ?_) (holds_onIvl (fun _ => Ivl.holds_neg) hx)
    rw [← value_of_scaleOf (-1) hx hc]
    push_cast
    ring

theorem eq_zero_of_isZero (hx : x.holds a) (h : x.isZero = true) : a = 0 := by
  cases x with
  | exact q =>
    cases hx
    have : q = 0 := by simpa [isZero, Rat.num_eq_zero] using h
    rw [this, Rat.cast_zero]
  | lin c p lo hi => cases h
  | span p lo hi => cases h
  | any => cases h

theorem holds_mulIvls (hx : x.holds a) (hy : y.holds b) : (mulIvls p x y).holds (a * b) :=
  holds_onIvls_some (fun _ _ => Ivl.holds_mul) hx hy

theorem holds_mulPlain (hx : x.holds a) (hy : y.holds b) : (mulPlain p x y).holds (a * b) := by
  unfold mulPlain
  split
  · cases hx; cases hy
    exact (Rat.cast_mul _ _).symm
  · exact holds_mulIvls hx hy

theorem holds_mul (hx : x.holds a) (hy : y.holds b) : (mul p x y).holds (a * b) := by
  unfold mul
  split_ifs with hz
  · have h0 : a * b = 0 := by
      rcases Bool.or_eq_true_iff.1 hz with h | h
      · rw [eq_zero_of_isZero hx h, zero_mul]
      · rw [eq_zero_of_isZero hy h, mul_zero]
    simp [h0, holds]
  · split
    · cases hx; cases hy
      exact (Rat.cast_mul _ _).symm
    · refine holds_withSum (fun c hc => ?_) (holds_mulIvls hx hy)
      rw [← value_of_scaleOf _ hy hc, show a = _ from hx]
    · refine holds_withSum (fun c hc => ?_) (holds_mulIvls hx hy)
      rw [← value_of_scaleOf _ hx hc, show b = _ from hy, mul_comm]
    · exact holds_mulPlain (holds_plain hx) (holds_plain hy)
    · exact holds_mulIvls hx hy

theorem holds_exact_div (q q' : ℚ) : (if q'.num = 0 then any else exact (q / q')).holds ((q : ℝ) / q') := by
  split_ifs
  · trivial
  · exact (Rat.cast_div _ _).symm

theorem holds_divPlain (hx : x.holds a) (hy : y.holds b) : (divPlain p x y).holds (a / b) := by
  unfold divPlain
  split
  · cases hx; cases hy
    exact holds_exact_div _ _
  · exact holds_onIvls (fun i j k hi hj hk => Ivl.holds_div? hi hj hk) hx hy

theorem holds_div (hx : x.holds a) (hy : y.holds b) : (div p x y).holds (a / b) := by
  unfold div
  split
  · split_ifs
    · trivial
    · cases hy
      rw [div_eq_mul_one_div]
      exact holds_mul hx (by simp [holds])
  · exact holds_divPlain (holds_plain hx) (holds_plain hy)

/-! ### Order operations -/

theorem holds_abs (hx : x.holds a) : (Encl.abs p x).holds |a| := by
  unfold Encl.abs
  have h := holds_plain hx
  split
  · rename_i q hq
    rw [hq] at h
    cases h
    simp only [Rat.num_neg, holds]
    split_ifs with hneg
    · rw [abs_of_neg (by exact_mod_cast hneg), Rat.cast_neg]
    · rw [abs_of_nonneg (by exact_mod_cast not_lt.1 hneg)]
  · exact holds_onIvl (fun _ => Ivl.holds_abs) h

theorem holds_max (hx : x.holds a) (hy : y.holds b) : (Encl.max p x y).holds (Max.max a b) := by
  unfold Encl.max
  have h1 := holds_plain hx
  have h2 := holds_plain hy
  split
  · rename_i q q' hq hq'
    rw [hq] at h1; rw [hq'] at h2
    cases h1; cases h2
    rw [← Rat.cast_max, max_def_lt]
    rfl
  · exact holds_onIvls_some (fun _ _ => Ivl.holds_maxI) h1 h2

theorem holds_min (hx : x.holds a) (hy : y.holds b) : (Encl.min p x y).holds (Min.min a b) := by
  unfold Encl.min
  have h1 := holds_plain hx
  have h2 := holds_plain hy
  split
  · rename_i q q' hq hq'
    rw [hq] at h1; rw [hq'] at h2
    cases h1; cases h2
    rw [← Rat.cast_min, min_comm, min_def_lt]
    rfl
  · exact holds_onIvls_some (fun _ _ => Ivl.holds_minI) h1 h2

/-- An exact root is the nonnegative one. -/
theorem ratSqrt_spec {q r : ℚ} (h : ratSqrt q = some r) : 0 ≤ r ∧ r * r = q := by
  unfold ratSqrt at h
  simp only [Option.ite_none_right_eq_some, Option.some.injEq] at h
  obtain ⟨⟨h0, hn, hd⟩, rfl⟩ := h
  have hnum : ((isqrt q.num.toNat : ℕ) : ℚ) * (isqrt q.num.toNat : ℕ) = q.num := by
    have : ((q.num.toNat : ℕ) : ℤ) = q.num := Int.toNat_of_nonneg h0
    rw [← this]
    exact_mod_cast hn
  have hden : ((isqrt q.den : ℕ) : ℚ) * (isqrt q.den : ℕ) = q.den := by exact_mod_cast hd
  rw [Rat.mkRat_eq_div, Int.cast_natCast]
  refine ⟨by positivity, ?_⟩
  rw [div_mul_div_comm, hnum, hden, Rat.num_div_den]

theorem sqrt_of_ratSqrt {q r : ℚ} (h : ratSqrt q = some r) : Real.sqrt q = r := by
  obtain ⟨h0, rfl⟩ := ratSqrt_spec h
  rw [Rat.cast_mul, Real.sqrt_mul_self (by exact_mod_cast h0)]

theorem holds_sqrt (hx : x.holds a) : (Encl.sqrt p x).holds (Real.sqrt a) := by
  unfold Encl.sqrt
  have h := holds_plain hx
  split
  · rename_i q hq
    rw [hq] at h
    split
    · rename_i r hr
      cases h
      exact sqrt_of_ratSqrt hr
    · exact holds_onIvl (fun _ => Ivl.holds_sqrt) h
  · exact holds_onIvl (fun _ => Ivl.holds_sqrt) h

theorem holds_hull_left (hx : x.holds a) (y : Encl) : (hull p x y).holds a := by
  unfold hull onIvls
  split
  · rename_i i j hi hj
    exact holds_ofIvl fun k hk => by cases hk; exact Ivl.holds_hull_left (holds_toIvl hx hi) j
  · trivial

theorem holds_hull_right (x : Encl) (hy : y.holds b) : (hull p x y).holds b := by
  unfold hull onIvls
  split
  · rename_i i j hi hj
    exact holds_ofIvl fun k hk => by cases hk; exact Ivl.holds_hull_right i (holds_toIvl hy hj)
  · trivial

/-- Keeping both branches is right whichever is taken. -/
theorem holds_hull_ite {P : Prop} [Decidable P] (ht : t.holds c) (he : e.holds d) :
    (hull p t e).holds (if P then c else d) := by
  split_ifs
  · exact holds_hull_left ht e
  · exact holds_hull_right t he

open Classical in
theorem holds_ifGt (hx : x.holds a) (hy : y.holds b) (ht : t.holds c) (he : e.holds d) :
    (ifGt p x y t e).holds (if b < a then c else d) := by
  unfold ifGt
  have h1 := holds_plain hx
  have h2 := holds_plain hy
  split
  · rename_i q q' hq hq'
    rw [hq] at h1; rw [hq'] at h2
    cases h1; cases h2
    simp only [Rat.cast_lt]
    split_ifs
    · exact ht
    · exact he
  · split
    · rename_i i j hi hj
      have h3 := holds_toIvl h1 hi
      have h4 := holds_toIvl h2 hj
      split_ifs with h5 h6 h7 h8
      · exact ht
      · exact absurd (Ivl.lt_of_hi_lt_lo h3 h4 h5) h6
      · exact absurd (Ivl.le_of_hi_le_lo h3 h4 h7) (not_le.2 h8)
      · exact he
      · exact holds_hull_left ht e
      · exact holds_hull_right t he
    · exact holds_hull_ite ht he

end Encl

/-- Settles O35: each operation is sound on exact rationals, on combinations of cosines and on intervals. -/
theorem enclosureArithmeticIsSound : Obligations.EnclosureArithmeticIsSound :=
  fun _ _ _ _ _ _ _ _ _ hx hy ht he =>
    ⟨Encl.holds_add hx hy, Encl.holds_sub hx hy, Encl.holds_mul hx hy, Encl.holds_div hx hy,
      Encl.holds_neg hx, Encl.holds_abs hx, Encl.holds_max hx hy, Encl.holds_min hx hy,
      Encl.holds_sqrt hx, Encl.holds_ifGt hx hy ht he⟩

/-! ### The stored rounding -/

/-- A pattern that an enclosure decides is the reference rounding of every real it holds. -/
theorem rndReal_of_rounded {e : Encl} {r : ℝ} {w : Word} (h : e.holds r) (hw : e.rounded = some w) :
    w = rndReal r ∧ e.settled = w := by
  have hp := Encl.holds_plain h
  unfold Encl.rounded Encl.settled at *
  split at hw
  · rename_i q hq
    rw [hq] at hp
    cases hp; cases hw
    exact ⟨rnd32_eq_rndReal q, rfl⟩
  · rename_i p lo hi hq
    rw [hq] at hp
    unfold Encl.agreed at hw
    split_ifs at hw with he
    cases hw
    have hpos : (0 : ℝ) < 2 ^ p := by positivity
    refine ⟨?_, by simp only [Encl.evenOf, ← he, ite_self]⟩
    rw [rndEnd_eq_rndReal, rndEnd_eq_rndReal] at he
    rw [rndEnd_eq_rndReal]
    exact (rndReal_eq_of_between ((div_le_iff₀ hpos).2 hp.1) ((le_div_iff₀ hpos).2 hp.2) he).symm
  · cases hw
  · cases hw

theorem mapM_rounded_eq_none_iff (es : List Encl) :
    es.mapM Encl.rounded = none ↔ ∃ e ∈ es, e.rounded = none := by
  induction es with
  | nil => simp
  | cons e es ih =>
    cases he : e.rounded with
    | none => simp [he]
    | some w =>
      have htail : (e :: es).mapM Encl.rounded = none ↔ es.mapM Encl.rounded = none := by
        cases hm : es.mapM Encl.rounded <;> simp [he, hm]
      rw [htail, ih]
      simp [he]

/-- An evaluation that decides every element gives the reference roundings of the reals it encloses. -/
theorem eq_map_rndReal_of_mapM {es : List Encl} {rs : List ℝ} (h : List.Forall₂ Encl.holds es rs)
    {ws : List Word} (hw : es.mapM Encl.rounded = some ws) : ws = rs.map rndReal := by
  induction h generalizing ws with
  | nil => simpa using hw.symm
  | cons he _ ih =>
    simp only [List.mapM_cons, Option.bind_eq_bind, Option.bind_eq_some_iff, Option.pure_def,
      Option.some.injEq] at hw
    obtain ⟨w, hw, us, hu, rfl⟩ := hw
    rw [List.map_cons, (rndReal_of_rounded he hw).1, ih hu]

/-- Of the allowed evaluations the first that decides every element gives the store, and where none does
the store is what settles the next. -/
theorem storeFloats_first (run : ℕ → List Encl) (levels : Unit → ℕ) :
    (∃ n, n < 4 + levels () ∧ (run (320 * 4 ^ n)).mapM Encl.rounded = some (storeFloats run levels)) ∨
      (∀ n, n < 4 + levels () → (run (320 * 4 ^ n)).mapM Encl.rounded = none) ∧
        storeFloats run levels = (run (320 * 4 ^ (4 + levels ()))).map Encl.settled := by
  unfold storeFloats
  have hp : ∀ j, 320 * 4 ^ 4 * 4 ^ j = 320 * 4 ^ (4 + j) := fun j => by rw [mul_assoc, ← pow_add]
  rcases refine_cases run _ Config.earlyRounds Config.precision with ⟨j, hj, h⟩ | ⟨hn, h⟩
  · exact .inl ⟨j, Nat.lt_add_right _ hj, h⟩
  · rw [h]
    rcases refine_cases run (fun p => (run p).map Encl.settled) (levels ())
      (Config.precision * 4 ^ Config.earlyRounds) with ⟨j, hj, h'⟩ | ⟨hn', h'⟩
    · exact .inl ⟨4 + j, by omega, by rw [← hp]; exact h'⟩
    · refine .inr ⟨fun n hlt => ?_, by rw [h', ← hp]; rfl⟩
      rcases Nat.lt_or_ge n 4 with h4 | h4
      · exact hn n h4
      · obtain ⟨j, rfl⟩ := Nat.exists_eq_add_of_le h4
        rw [← hp]
        exact hn' j (by omega)

theorem storeFloats_of_decided {run : ℕ → List Encl} {levels : Unit → ℕ} {rs : List ℝ}
    (hrun : ∀ p, List.Forall₂ Encl.holds (run p) rs) {n : ℕ} (hn : n < 4 + levels ())
    (hd : ∀ e ∈ run (320 * 4 ^ n), e.rounded ≠ none) : storeFloats run levels = rs.map rndReal := by
  rcases storeFloats_first run levels with ⟨j, -, h⟩ | ⟨h, -⟩
  · exact eq_map_rndReal_of_mapM (hrun _) h
  · obtain ⟨e, he, hnone⟩ := (mapM_rounded_eq_none_iff _).1 (h n hn)
    exact absurd hnone (hd e he)

theorem storeFloats_of_open {run : ℕ → List Encl} {levels : Unit → ℕ}
    (ho : ∀ n, n < 4 + levels () → ∃ e ∈ run (320 * 4 ^ n), e.rounded = none) :
    storeFloats run levels = (run (320 * 4 ^ (4 + levels ()))).map Encl.settled := by
  rcases storeFloats_first run levels with ⟨j, hj, h⟩ | ⟨-, h⟩
  · rw [(mapM_rounded_eq_none_iff _).2 (ho j hj)] at h
    cases h
  · exact h

theorem evenOf_eq_or (a b : Word) : Encl.evenOf a b = a ∨ Encl.evenOf a b = b := by
  unfold Encl.evenOf
  split_ifs
  · exact .inr rfl
  · exact .inl rfl

theorem evenOf_even {a b : Word} (h : a.getLsbD 0 = false ∨ b.getLsbD 0 = false) :
    (Encl.evenOf a b).getLsbD 0 = false := by
  unfold Encl.evenOf
  split_ifs with hc
  · exact hc.2
  · rcases h with ha | hb
    · exact ha
    · exact Bool.eq_false_iff.2 fun ha => hc ⟨ha, hb⟩

theorem forall₂_holds_of_getElem {es : List Encl} {rs : List ℝ} (hl : es.length = rs.length)
    (h : ∀ k (hk : k < rs.length), ∃ e, es[k]? = some e ∧ e.holds rs[k]) :
    List.Forall₂ Encl.holds es rs := by
  refine List.forall₂_iff_get.2 ⟨hl, fun k h1 h2 => ?_⟩
  obtain ⟨e, he, hr⟩ := h k h2
  rw [List.getElem?_eq_getElem h1] at he
  cases he
  exact hr

/-- Settles O34: the first deciding evaluation, and the settled pattern where there is none. -/
theorem storedRoundingAgreesWithTheReference : Obligations.StoredRoundingAgreesWithTheReference := by
  refine ⟨fun e r w => rndReal_of_rounded, fun run levels rs hrun => ⟨?_, storeFloats_of_open⟩,
    fun p lo hi _ => ?_⟩
  · rintro ⟨n, hn, hd⟩
    exact storeFloats_of_decided (fun p => forall₂_holds_of_getElem (hrun p).1 (hrun p).2) hn hd
  · rw [← rndEnd_eq_rndReal, ← rndEnd_eq_rndReal]
    exact ⟨evenOf_eq_or _ _, fun _ => evenOf_even⟩

end Sys2Proof.Machine

/-! The series of the trigonometric and hyperbolic functions on intervals (log 7): each Horner loop holds the
sum of an alternating series whose tails lie between 0 and their first term. -/

namespace Sys2Proof.Machine

/-! ### Alternating series -/

/-- The alternating sum of a sequence. -/
noncomputable def altSum (a : ℕ → ℝ) : ℝ := ∑' k, (-1) ^ k * a k

theorem summable_alternating {a : ℕ → ℝ} (h0 : ∀ k, 0 ≤ a k) (hs : Summable a) :
    Summable fun k => (-1) ^ k * a k := by
  refine Summable.of_norm ?_
  simpa [abs_of_nonneg (h0 _)] using hs

theorem altSum_mem {a : ℕ → ℝ} (h0 : ∀ k, 0 ≤ a k) (hs : Summable a) (ha : Antitone a) :
    0 ≤ altSum a ∧ altSum a ≤ a 0 := by
  have h := (summable_alternating h0 hs).hasSum.tendsto_sum_nat
  exact ⟨by simpa [altSum] using ha.alternating_series_le_tendsto h 0,
    by simpa [altSum] using ha.tendsto_le_alternating_series h 0⟩

/-- The Horner step: the terms after the first are the next tail's times z. -/
theorem altSum_eq_sub {a b : ℕ → ℝ} {z : ℝ} (h0 : ∀ k, 0 ≤ a k) (hs : Summable a)
    (hab : ∀ k, a (k + 1) = z * b k) : altSum a = a 0 - z * altSum b := by
  rw [altSum, (summable_alternating h0 hs).tsum_eq_zero_add, altSum, ← tsum_mul_left, sub_eq_add_neg,
    ← tsum_neg]
  congr 1
  · simp
  · exact tsum_congr fun k => by rw [hab, pow_succ]; ring

/-- The terms `z^k m! / (m + s k)!` that follow the factor `1/m!` of a series in `1/(m + s k)!`. -/
noncomputable def factorialTail (s : ℕ) (z : ℝ) (m k : ℕ) : ℝ :=
  z ^ k * ((m.factorial : ℝ) / ((m + s * k).factorial : ℝ))

section
variable {s : ℕ} {z : ℝ}

theorem factorialTail_zero (s : ℕ) (z : ℝ) (m : ℕ) : factorialTail s z m 0 = 1 := by
  have : (m.factorial : ℝ) ≠ 0 := by exact_mod_cast m.factorial_ne_zero
  simp [factorialTail, this]

theorem factorialTail_succ (s : ℕ) (z : ℝ) (m k : ℕ) :
    factorialTail s z m (k + 1) =
      z * ((m.factorial : ℝ) / ((m + s).factorial : ℝ)) * factorialTail s z (m + s) k := by
  have h : ((m + s).factorial : ℝ) ≠ 0 := by exact_mod_cast (m + s).factorial_ne_zero
  rw [factorialTail, factorialTail, show m + s * (k + 1) = m + s + s * k by ring, pow_succ']
  field_simp

theorem factorialTail_nonneg (hz : 0 ≤ z) (m k : ℕ) : 0 ≤ factorialTail s z m k := by
  unfold factorialTail; positivity

theorem factorialTail_antitone (hz : 0 ≤ z) (hz1 : z ≤ 1) (m : ℕ) : Antitone (factorialTail s z m) := by
  refine antitone_nat_of_succ_le fun k => ?_
  unfold factorialTail
  have h : ((m + s * k).factorial : ℝ) ≤ ((m + s * (k + 1)).factorial : ℝ) := by
    exact_mod_cast Nat.factorial_le (by rw [Nat.mul_succ]; omega)
  have h' : (0 : ℝ) < ((m + s * k).factorial : ℝ) := by exact_mod_cast Nat.factorial_pos _
  have hp : z ^ (k + 1) ≤ z ^ k := pow_le_pow_of_le_one hz hz1 (Nat.le_succ k)
  gcongr

theorem factorialTail_summable (hs : 0 < s) (hz : 0 ≤ z) (m : ℕ) : Summable (factorialTail s z m) := by
  refine Summable.of_nonneg_of_le (factorialTail_nonneg hz m) (fun k => ?_)
    ((Real.summable_pow_div_factorial z).mul_left (m.factorial : ℝ))
  have h : (k.factorial : ℝ) ≤ ((m + s * k).factorial : ℝ) := by
    exact_mod_cast Nat.factorial_le (by nlinarith)
  have h' : (0 : ℝ) < (k.factorial : ℝ) := by exact_mod_cast k.factorial_pos
  calc factorialTail s z m k ≤ z ^ k * ((m.factorial : ℝ) / (k.factorial : ℝ)) := by
        unfold factorialTail; gcongr
    _ = m.factorial * (z ^ k / k.factorial) := by ring

theorem altSum_factorialTail_mem (hs : 0 < s) (hz : 0 ≤ z) (hz1 : z ≤ 1) (m : ℕ) :
    0 ≤ altSum (factorialTail s z m) ∧ altSum (factorialTail s z m) ≤ 1 := by
  have h := altSum_mem (factorialTail_nonneg hz m) (factorialTail_summable hs hz m)
    (factorialTail_antitone hz hz1 m)
  rwa [factorialTail_zero] at h

theorem altSum_factorialTail (hs : 0 < s) (hz : 0 ≤ z) (m : ℕ) :
    altSum (factorialTail s z m) =
      1 - z * altSum (factorialTail s z (m + s)) / ((m + s).factorial / m.factorial : ℝ) := by
  rw [altSum_eq_sub (factorialTail_nonneg hz m) (factorialTail_summable hs hz m)
    (factorialTail_succ s z m), factorialTail_zero, div_div_eq_mul_div]
  ring

end

theorem factorial_add_two_div (m : ℕ) :
    ((m + 2).factorial / m.factorial : ℝ) = ((m + 1) * (m + 2) : ℕ) := by
  have h : (m.factorial : ℝ) ≠ 0 := by exact_mod_cast m.factorial_ne_zero
  rw [div_eq_iff h, Nat.factorial_succ, Nat.factorial_succ]
  push_cast
  ring

theorem cos_eq_altSum (x : ℝ) : Real.cos x = altSum (factorialTail 2 (x ^ 2) 0) := by
  rw [← (Real.hasSum_cos x).tsum_eq, altSum]
  refine tsum_congr fun k => ?_
  rw [factorialTail, Nat.zero_add, Nat.factorial_zero, Nat.cast_one, ← pow_mul]
  ring

theorem sin_eq_altSum (x : ℝ) : Real.sin x = x * altSum (factorialTail 2 (x ^ 2) 1) := by
  rw [← (Real.hasSum_sin x).tsum_eq, altSum, ← tsum_mul_left]
  refine tsum_congr fun k => ?_
  rw [factorialTail, Nat.factorial_one, Nat.cast_one, ← pow_mul, Nat.add_comm 1, pow_succ]
  ring

theorem exp_neg_eq_altSum (r : ℝ) : Real.exp (-r) = altSum (factorialTail 1 r 0) := by
  rw [Real.exp_eq_exp_ℝ, ← (NormedSpace.expSeries_div_hasSum_exp (-r)).tsum_eq, altSum]
  refine tsum_congr fun k => ?_
  rw [factorialTail, Nat.zero_add, Nat.one_mul, Nat.factorial_zero, Nat.cast_one, neg_pow]
  ring

/-- The terms of the arc tangent series from `1/(2 n + 1)` on, divided by its power of z. -/
noncomputable def atanTail (z : ℝ) (n k : ℕ) : ℝ := z ^ k / (2 * (n + k) + 1 : ℕ)

section
variable {z : ℝ}

theorem atanTail_nonneg (hz : 0 ≤ z) (n k : ℕ) : 0 ≤ atanTail z n k := by unfold atanTail; positivity

theorem atanTail_antitone (hz : 0 ≤ z) (hz1 : z ≤ 1) (n : ℕ) : Antitone (atanTail z n) := by
  refine antitone_nat_of_succ_le fun k => ?_
  unfold atanTail
  have h : ((2 * (n + k) + 1 : ℕ) : ℝ) ≤ ((2 * (n + (k + 1)) + 1 : ℕ) : ℝ) := by
    exact_mod_cast (by omega : 2 * (n + k) + 1 ≤ 2 * (n + (k + 1)) + 1)
  have hp : z ^ (k + 1) ≤ z ^ k := pow_le_pow_of_le_one hz hz1 (Nat.le_succ k)
  exact div_le_div₀ (by positivity) hp (by positivity) h

theorem atanTail_summable (hz : 0 ≤ z) (hz1 : z < 1) (n : ℕ) : Summable (atanTail z n) := by
  refine Summable.of_nonneg_of_le (atanTail_nonneg hz n) (fun k => ?_) (summable_geometric_of_lt_one hz hz1)
  exact div_le_self (by positivity) (by exact_mod_cast Nat.le_add_left 1 _)

theorem altSum_atanTail_mem (hz : 0 ≤ z) (hz1 : z < 1) (n : ℕ) :
    0 ≤ altSum (atanTail z n) ∧ altSum (atanTail z n) ≤ 1 / (2 * n + 1 : ℕ) := by
  simpa [atanTail] using
    altSum_mem (atanTail_nonneg hz n) (atanTail_summable hz hz1 n) (atanTail_antitone hz hz1.le n)

theorem altSum_atanTail (hz : 0 ≤ z) (hz1 : z < 1) (n : ℕ) :
    altSum (atanTail z n) = 1 / (2 * n + 1 : ℕ) - z * altSum (atanTail z (n + 1)) := by
  rw [altSum_eq_sub (b := atanTail z (n + 1)) (z := z) (atanTail_nonneg hz n) (atanTail_summable hz hz1 n)]
  · simp [atanTail]
  · intro k
    rw [atanTail, atanTail, show n + (k + 1) = n + 1 + k by omega, pow_succ]
    ring

end

theorem arctan_eq_altSum {x : ℝ} (hx : |x| < 1) : Real.arctan x = x * altSum (atanTail (x ^ 2) 0) := by
  rw [← (Real.hasSum_arctan (by simpa using hx)).tsum_eq, altSum, ← tsum_mul_left]
  refine tsum_congr fun k => ?_
  rw [atanTail, Nat.zero_add, ← pow_mul, pow_succ]
  ring

/-! ### The loops -/

namespace Ivl

variable {p : ℕ} {h x : Ivl} {r z : ℝ}

theorem holds_one (p : ℕ) : (ofInt p 1).holds p 1 := by simpa using holds_ofInt p 1

theorem holds_sq (hx : x.holds p r) : (mul p x x).holds p (r ^ 2) := by
  rw [pow_two]; exact holds_mul hx hx

theorem holds_cosLoop (hx : x.holds p z) (hz : 0 ≤ z) (n : ℕ)
    (hh : h.holds p (altSum (factorialTail 2 z (2 * n)))) :
    (cosLoop p x n h).holds p (altSum (factorialTail 2 z 0)) := by
  induction n generalizing h with
  | zero => exact hh
  | succ i ih =>
    refine ih ?_
    rw [altSum_factorialTail two_pos hz, factorial_add_two_div]
    exact holds_sub (holds_one p) (holds_divNat (holds_mul hx hh) (by positivity))

theorem holds_sinLoop (hx : x.holds p z) (hz : 0 ≤ z) (n : ℕ)
    (hh : h.holds p (altSum (factorialTail 2 z (2 * n + 1)))) :
    (sinLoop p x n h).holds p (altSum (factorialTail 2 z 1)) := by
  induction n generalizing h with
  | zero => exact hh
  | succ i ih =>
    refine ih ?_
    rw [altSum_factorialTail two_pos hz, factorial_add_two_div]
    exact holds_sub (holds_one p) (holds_divNat (holds_mul hx hh) (by positivity))

theorem holds_expLoop (hx : x.holds p z) (hz : 0 ≤ z) (n : ℕ)
    (hh : h.holds p (altSum (factorialTail 1 z n))) :
    (expLoop p x n h).holds p (altSum (factorialTail 1 z 0)) := by
  induction n generalizing h with
  | zero => exact hh
  | succ i ih =>
    refine ih ?_
    have hf : ((i + 1).factorial / i.factorial : ℝ) = (i + 1 : ℕ) := by
      have : (i.factorial : ℝ) ≠ 0 := by exact_mod_cast i.factorial_ne_zero
      rw [Nat.factorial_succ]
      field_simp
      push_cast
      ring
    rw [altSum_factorialTail one_pos hz, hf]
    exact holds_sub (holds_one p) (holds_divNat (holds_mul hx hh) (by positivity))

theorem holds_atanLoop (hx : x.holds p z) (hz : 0 ≤ z) (hz1 : z < 1) (n : ℕ)
    (hh : h.holds p (altSum (atanTail z n))) :
    (atanLoop p x n h).holds p (altSum (atanTail z 0)) := by
  induction n generalizing h with
  | zero => exact hh
  | succ i ih =>
    refine ih ?_
    rw [altSum_atanTail hz hz1]
    exact holds_sub (holds_divNat (holds_one p) (by positivity)) (holds_mul hx hh)

/-! ### Cosine and sine -/

theorem holds_cosSmall (hx : x.holds p r) (h0 : 0 ≤ r) (h1 : r ≤ 1) :
    (cosSmall p x).holds p (Real.cos r) := by
  have hz : r ^ 2 ≤ 1 := pow_le_one₀ h0 h1
  obtain ⟨h2, h3⟩ := altSum_factorialTail_mem two_pos (sq_nonneg r) hz (2 * trigTerms p)
  rw [cos_eq_altSum]
  exact holds_cosLoop (holds_sq hx) (sq_nonneg r) _ (holds_unit h2 h3)

theorem holds_sinSmall (hx : x.holds p r) (h0 : 0 ≤ r) (h1 : r ≤ 1) :
    (sinSmall p x).holds p (Real.sin r) := by
  have hz : r ^ 2 ≤ 1 := pow_le_one₀ h0 h1
  obtain ⟨h2, h3⟩ := altSum_factorialTail_mem two_pos (sq_nonneg r) hz (2 * trigTerms p + 1)
  rw [sin_eq_altSum]
  exact holds_mul hx (holds_sinLoop (holds_sq hx) (sq_nonneg r) _ (holds_unit h2 h3))

theorem holds_turn (hx : x.holds p Real.pi) (a : ℕ) {b : ℕ} (hb : 0 < b) :
    (turn x a b).holds p (2 * Real.pi * a / b) := by
  have h := holds_divNat (holds_scale hx (2 * (a : ℤ))) hb
  push_cast at h
  rwa [show Real.pi * (2 * (a : ℝ)) = 2 * Real.pi * a by ring] at h

/-! ### Arc tangent and pi -/

theorem holds_atanSeries (hx : x.holds p r) (hr : |r| < 1) (n : ℕ) :
    (atanSeries p n x).holds p (Real.arctan r) := by
  have hz : r ^ 2 < 1 := (sq_lt_one_iff_abs_lt_one r).2 hr
  obtain ⟨h2, h3⟩ := altSum_atanTail_mem (sq_nonneg r) hz n
  have hp : (0 : ℝ) < 2 ^ p := by positivity
  rw [arctan_eq_altSum hr]
  refine holds_mul hx (holds_atanLoop (holds_sq hx) (sq_nonneg r) hz n ⟨by push_cast; positivity, ?_⟩)
  refine le_trans ?_ (div_le_ceilDiv (2 ^ p) (Nat.succ_pos (2 * n)))
  calc altSum (atanTail (r ^ 2) n) * 2 ^ p ≤ 1 / (2 * n + 1 : ℕ) * 2 ^ p := by gcongr
    _ = _ := by push_cast; ring

theorem holds_halfTan (hx : x.holds p r) :
    (halfTan p x).holds p (r / (1 + Real.sqrt (1 + r ^ 2))) := by
  have hs : (abs (mul p x x)).holds p (r ^ 2) := by
    have := holds_abs (holds_sq hx)
    rwa [abs_of_nonneg (sq_nonneg r)] at this
  refine holds_divPos hx (holds_add (holds_one p) (holds_sqrt (holds_add (holds_one p) hs))) ?_
  have h1 : (0 : ℤ) < 2 ^ p := by positivity
  simp only [add, ofInt, sqrt]
  omega

end Ivl

/-! ### Half angles -/

/-- The tangent of half an angle inside a half turn. -/
theorem arctan_sin_div_one_add_cos {t : ℝ} (h1 : -Real.pi < t) (h2 : t < Real.pi) :
    Real.arctan (Real.sin t / (1 + Real.cos t)) = t / 2 := by
  have hc : 0 < Real.cos (t / 2) := Real.cos_pos_of_mem_Ioo ⟨by linarith, by linarith⟩
  have hs : Real.sin t = 2 * Real.sin (t / 2) * Real.cos (t / 2) := by
    rw [← Real.sin_two_mul]; congr 1; ring
  have hd : 1 + Real.cos t = 2 * Real.cos (t / 2) ^ 2 := by
    have := Real.cos_two_mul (t / 2)
    rw [show 2 * (t / 2) = t by ring] at this
    linarith
  rw [hs, hd, show 2 * Real.sin (t / 2) * Real.cos (t / 2) / (2 * Real.cos (t / 2) ^ 2) =
    Real.sin (t / 2) / Real.cos (t / 2) by field_simp, ← Real.tan_eq_sin_div_cos]
  exact Real.arctan_tan (by linarith) (by linarith)

theorem arctan_half (r : ℝ) :
    Real.arctan (r / (1 + Real.sqrt (1 + r ^ 2))) = Real.arctan r / 2 := by
  have h := arctan_sin_div_one_add_cos
    (t := Real.arctan r) (by linarith [Real.neg_pi_div_two_lt_arctan r, Real.pi_pos])
    (by linarith [Real.arctan_lt_pi_div_two r, Real.pi_pos])
  have hw : 0 < Real.sqrt (1 + r ^ 2) := Real.sqrt_pos.2 (by positivity)
  rw [Real.sin_arctan, Real.cos_arctan] at h
  rw [← h]
  congr 1
  field_simp
  ring

theorem abs_halfTan_lt_one (r : ℝ) : |r / (1 + Real.sqrt (1 + r ^ 2))| < 1 := by
  have hw : 0 ≤ Real.sqrt (1 + r ^ 2) := Real.sqrt_nonneg _
  have hr : |r| ≤ Real.sqrt (1 + r ^ 2) := by
    rw [← Real.sqrt_sq_eq_abs]; exact Real.sqrt_le_sqrt (by linarith)
  rw [abs_div, abs_of_pos (a := 1 + Real.sqrt (1 + r ^ 2)) (by linarith), div_lt_one (by linarith)]
  linarith

namespace Ivl

variable {p : ℕ} {x y : Ivl} {r a b : ℝ}

theorem holds_atan (hx : x.holds p r) : (atan p x).holds p (Real.arctan r) := by
  have h3 := holds_halfTan (holds_halfTan (holds_halfTan hx))
  have h := holds_scale (holds_atanSeries h3 (abs_halfTan_lt_one _) (p / 6 + 4)) 8
  rw [arctan_half, arctan_half, arctan_half] at h
  push_cast at h
  rwa [show Real.arctan r / 2 / 2 / 2 * 8 = Real.arctan r by ring] at h

theorem holds_pi (p : ℕ) : (pi p).holds p Real.pi := by
  have hinv : ∀ n : ℕ, 1 < n → (atanSeries p (p / 4 + 4) (divNat (ofInt p 1) n)).holds p
      (Real.arctan (n : ℝ)⁻¹) := by
    intro n hn
    have hn' : (1 : ℝ) < n := by exact_mod_cast hn
    have h := holds_divNat (holds_one p) (n := n) (by omega)
    rw [one_div] at h
    exact holds_atanSeries h (by rw [abs_of_pos (by positivity)]; exact inv_lt_one_of_one_lt₀ hn') _
  have h := holds_sub (holds_scale (hinv 5 (by norm_num)) 16) (holds_scale (hinv 239 (by norm_num)) 4)
  have hm := Real.four_mul_arctan_inv_5_sub_arctan_inv_239
  push_cast at h
  rwa [show Real.arctan 5⁻¹ * 16 - Real.arctan 239⁻¹ * 4 = Real.pi by linarith] at h

/-! ### The angle of a point -/

theorem holds_hypot (hx : x.holds p a) (hy : y.holds p b) : (hypot p x y).holds p ‖(⟨a, b⟩ : ℂ)‖ := by
  have h := holds_sqrt (holds_add (holds_abs (holds_mul hx hx)) (holds_abs (holds_mul hy hy)))
  rwa [abs_of_nonneg (mul_self_nonneg a), abs_of_nonneg (mul_self_nonneg b), ← Complex.normSq_mk,
    ← Complex.norm_def] at h

theorem holds_anyAngle {t : ℝ} (h1 : -Real.pi < t) (h2 : t ≤ Real.pi) : (anyAngle p).holds p t := by
  have hp : (0 : ℝ) < 2 ^ p := by positivity
  have hpi := Real.pi_le_four
  unfold Ivl.holds anyAngle
  push_cast
  rw [← neg_mul]
  exact ⟨mul_le_mul_of_nonneg_right (by linarith) hp.le, mul_le_mul_of_nonneg_right (by linarith) hp.le⟩

theorem holds_anyAngle_arg (z : ℂ) : (anyAngle p).holds p z.arg :=
  holds_anyAngle (Complex.neg_pi_lt_arg z) (Complex.arg_le_pi z)

end Ivl

/-- The angle of a point off the negative x axis, by its half. -/
theorem two_arctan_eq_arg {z : ℂ} (h : 0 < ‖z‖ + z.re) : Real.arctan (z.im / (‖z‖ + z.re)) * 2 = z.arg := by
  have hz : z ≠ 0 := by rintro rfl; simp at h
  have hn : 0 < ‖z‖ := norm_pos_iff.2 hz
  have hne : z.arg ≠ Real.pi := by
    intro hpi
    have := Complex.norm_mul_cos_arg z
    rw [hpi, Real.cos_pi] at this
    linarith
  have ht := arctan_sin_div_one_add_cos (Complex.neg_pi_lt_arg z) (lt_of_le_of_ne (Complex.arg_le_pi z) hne)
  rw [Complex.sin_arg, Complex.cos_arg hz] at ht
  have he : z.im / ‖z‖ / (1 + z.re / ‖z‖) = z.im / (‖z‖ + z.re) := by field_simp
  rw [he] at ht
  linarith

/-- Reflection in the diagonal. -/
theorem arg_eq_pi_div_two_sub {a b : ℝ} (hb : 0 < b) :
    Complex.arg ⟨a, b⟩ = Real.pi / 2 - Complex.arg ⟨b, a⟩ := by
  set w : ℂ := ⟨b, a⟩ with hw
  have hn : 0 < ‖w‖ := norm_pos_iff.2 fun h => hb.ne' (congrArg Complex.re h)
  have hlt := abs_lt.1 (Complex.abs_arg_lt_pi_div_two_iff.2 (.inl hb : 0 < w.re ∨ w = 0))
  have hz : (⟨a, b⟩ : ℂ) = ‖w‖ * (Complex.cos ((Real.pi / 2 - w.arg : ℝ) : ℂ) +
      Complex.sin ((Real.pi / 2 - w.arg : ℝ) : ℂ) * Complex.I) := by
    rw [← Complex.ofReal_cos, ← Complex.ofReal_sin, Real.cos_pi_div_two_sub, Real.sin_pi_div_two_sub]
    refine Complex.ext ?_ ?_
    · rw [Complex.re_ofReal_mul, Complex.add_re, Complex.ofReal_re, Complex.re_ofReal_mul, Complex.I_re,
        mul_zero, add_zero]
      exact (Complex.norm_mul_sin_arg w).symm
    · rw [Complex.im_ofReal_mul, Complex.add_im, Complex.ofReal_im, Complex.im_ofReal_mul, Complex.I_im,
        mul_one, zero_add]
      exact (Complex.norm_mul_cos_arg w).symm
  rw [hz]
  exact Complex.arg_mul_cos_add_sin_mul_I hn ⟨by linarith, by linarith⟩

/-- The same below the x axis. -/
theorem arg_eq_sub_pi_div_two {a b : ℝ} (hb : b < 0) :
    Complex.arg ⟨a, b⟩ = Complex.arg ⟨-b, a⟩ - Real.pi / 2 := by
  have h := arg_eq_pi_div_two_sub (a := a) (neg_pos.2 hb)
  have hc : (⟨a, b⟩ : ℂ) = (starRingEnd ℂ) ⟨a, -b⟩ := by refine Complex.ext ?_ ?_ <;> simp
  have hne : Complex.arg ⟨a, -b⟩ ≠ Real.pi := fun hpi => by
    have := (Complex.arg_eq_pi_iff.1 hpi).2
    simp at this
    linarith
  rw [hc, Complex.arg_conj, if_neg hne, h, neg_sub]

namespace Ivl

variable {p : ℕ} {x y pi' : Ivl} {a b : ℝ}

theorem holds_halfAngle {c s i : Ivl} (hc : c.holds p a) (hs : s.holds p b)
    (h : halfAngle p s (hypot p c s) c = some i) : i.holds p (Complex.arg ⟨a, b⟩) := by
  unfold halfAngle at h
  split_ifs at h with hpos
  cases h
  have hsum := holds_add (holds_hypot hc hs) hc
  have hp := pos_of_holds hsum hpos
  have ha := holds_scale (holds_atan (holds_divPos hs hsum hpos)) 2
  have he := two_arctan_eq_arg (z := ⟨a, b⟩) hp
  push_cast at ha
  rwa [he] at ha

theorem hypot_comm (p : ℕ) (x y : Ivl) : hypot p x y = hypot p y x := by
  simp only [hypot, add, Int.add_comm]

theorem mul_neg_neg_self (p : ℕ) (y : Ivl) : mul p y.neg y.neg = mul p y y := by
  simp only [mul, neg, min4, max4, neg_mul_neg]
  ac_rfl

theorem hypot_neg (p : ℕ) (x y : Ivl) : hypot p x y.neg = hypot p x y := by
  rw [hypot, hypot, mul_neg_neg_self]

theorem holds_atan2 (hpi : pi'.holds p Real.pi) (hy : y.holds p b) (hx : x.holds p a) :
    (atan2 p pi' y x).holds p (Complex.arg ⟨a, b⟩) := by
  have hhalf := holds_divNat hpi (n := 2) two_pos
  rw [Nat.cast_ofNat] at hhalf
  unfold atan2
  simp only
  split_ifs with h1 h2 h3
  · cases h : halfAngle p y (hypot p x y) x with
    | none => exact holds_anyAngle_arg _
    | some i => exact holds_halfAngle hx hy h
  · cases h : halfAngle p x (hypot p x y) y with
    | none => exact holds_anyAngle_arg _
    | some i =>
      rw [arg_eq_pi_div_two_sub (pos_of_holds hy h2)]
      rw [hypot_comm] at h
      exact holds_sub hhalf (holds_halfAngle hy hx h)
  · cases h : halfAngle p x (hypot p x y) y.neg with
    | none => exact holds_anyAngle_arg _
    | some i =>
      have hneg : b < 0 := by
        have := pos_of_holds (holds_neg hy) (by simpa [neg] using h3)
        linarith
      rw [arg_eq_sub_pi_div_two hneg]
      rw [← hypot_neg, hypot_comm] at h
      exact holds_sub (holds_halfAngle (holds_neg hy) hx h) hhalf
  · exact holds_anyAngle_arg _

/-- A coordinate over the distance, clamped to the range of a cosine. -/
theorem holds_direction {t : ℝ} (hx : x.holds p a) (hy : y.holds p b)
    (ht : 0 < ‖(⟨a, b⟩ : ℂ)‖ → t = a / ‖(⟨a, b⟩ : ℂ)‖) (h1 : |t| ≤ 1) :
    (direction p x y).holds p t := by
  have hp : (0 : ℝ) < 2 ^ p := by positivity
  have hb : -(2 ^ p : ℝ) ≤ t * 2 ^ p ∧ t * 2 ^ p ≤ 2 ^ p := by
    obtain ⟨h2, h3⟩ := abs_le.1 h1
    constructor <;> nlinarith
  unfold direction
  simp only
  split_ifs with hr
  · have hh := holds_hypot hx hy
    have hd := holds_divPos hx hh hr
    rw [← ht (pos_of_holds hh hr)] at hd
    unfold Ivl.holds at hd ⊢
    push_cast
    exact ⟨max_le hd.1 hb.1, le_min hd.2 hb.2⟩
  · unfold Ivl.holds
    push_cast
    exact hb

end Ivl
end Sys2Proof.Machine

/-! The hyperbolic tangent on intervals, and the functions of the enclosures (log 7, log 12). -/

namespace Sys2Proof.Machine

/-! ### `exp (-t)` and `tanh` on intervals -/

/-- `tanh t` from `exp (-2 t)`. -/
theorem tanh_eq_exp_neg (t : ℝ) :
    Real.tanh t = (1 - Real.exp (-(t * 2))) / (1 + Real.exp (-(t * 2))) := by
  have h : Real.exp (-(t * 2)) = Real.exp (-t) / Real.exp t := by rw [← Real.exp_sub]; congr 1; ring
  have hp := Real.exp_pos t
  rw [Real.tanh_eq, h]
  field_simp

/-- Term by term, `sinh t` is at most `t cosh t`. -/
theorem tanh_le_self {t : ℝ} (ht : 0 ≤ t) : Real.tanh t ≤ t := by
  rw [Real.tanh_eq_sinh_div_cosh, div_le_iff₀ (Real.cosh_pos t)]
  refine hasSum_le (fun k => ?_) (Real.hasSum_sinh t) ((Real.hasSum_cosh t).mul_left t)
  have h : ((2 * k).factorial : ℝ) ≤ ((2 * k + 1).factorial : ℝ) := by
    exact_mod_cast Nat.factorial_le (Nat.le_succ _)
  have h' : (0 : ℝ) < ((2 * k).factorial : ℝ) := by exact_mod_cast Nat.factorial_pos _
  calc t ^ (2 * k + 1) / ((2 * k + 1).factorial : ℝ) ≤ t ^ (2 * k + 1) / ((2 * k).factorial : ℝ) := by
        gcongr
    _ = t * (t ^ (2 * k) / ((2 * k).factorial : ℝ)) := by ring

theorem tanh_nonneg {t : ℝ} (ht : 0 ≤ t) : 0 ≤ Real.tanh t := by
  rw [Real.tanh_eq_sinh_div_cosh]
  exact div_nonneg (Real.sinh_nonneg_iff.2 ht) (Real.cosh_pos t).le

namespace Ivl

variable {p : ℕ} {x : Ivl} {t : ℝ}

theorem holds_squares (k : ℕ) (hx : x.holds p t) : (squares p k x).holds p (t ^ 2 ^ k) := by
  induction k generalizing x t with
  | zero => simpa [squares] using hx
  | succ k ih =>
    rw [squares, pow_succ', pow_mul]
    exact ih (holds_sq hx)

theorem exp_neg_le_inv_two_pow {n : ℕ} (h : (n : ℝ) ≤ t) : Real.exp (-t) * 2 ^ n ≤ 1 := by
  have h2 : (2 : ℝ) ≤ Real.exp 1 := by linarith [Real.add_one_le_exp 1]
  have h3 : (2 : ℝ) ^ n ≤ Real.exp t := calc
    (2 : ℝ) ^ n ≤ Real.exp 1 ^ n := pow_le_pow_left₀ two_pos.le h2 n
    _ = Real.exp n := by rw [← Real.exp_nat_mul, mul_one]
    _ ≤ Real.exp t := Real.exp_le_exp.2 h
  rw [Real.exp_neg, inv_mul_le_iff₀ (Real.exp_pos t), mul_one]
  exact h3

/-- The reduction of the argument to at most 1. -/
theorem div_two_pow_le_one (hx : x.holds p t) :
    t / 2 ^ ((x.hi.toNat / 2 ^ p).log2 + 2) ≤ 1 := by
  have hp : (0 : ℝ) < 2 ^ p := by positivity
  have h1 : x.hi.toNat / 2 ^ p < 2 ^ ((x.hi.toNat / 2 ^ p).log2 + 1) := Nat.lt_log2_self
  have h2 : x.hi.toNat < 2 ^ ((x.hi.toNat / 2 ^ p).log2 + 1) * 2 ^ p :=
    (Nat.div_lt_iff_lt_mul (Nat.two_pow_pos p)).1 h1
  have h3 : (x.hi : ℝ) ≤ (x.hi.toNat : ℝ) := by exact_mod_cast Int.self_le_toNat x.hi
  have h4 : (x.hi.toNat : ℝ) < 2 ^ ((x.hi.toNat / 2 ^ p).log2 + 1) * 2 ^ p := by exact_mod_cast h2
  have h5 : t < 2 ^ ((x.hi.toNat / 2 ^ p).log2 + 1) :=
    lt_of_mul_lt_mul_right (hx.2.trans_lt (h3.trans_lt h4)) hp.le
  rw [div_le_one (by positivity)]
  exact h5.le.trans (pow_le_pow_right₀ one_le_two (Nat.le_succ _))

theorem holds_expNeg (hx : x.holds p t) (ht : 0 ≤ t) : (expNeg p x).holds p (Real.exp (-t)) := by
  unfold expNeg
  split_ifs with hlarge
  · have h1 : (((p : ℤ) + 8) * 2 ^ p : ℝ) ≤ x.lo := by exact_mod_cast hlarge
    have h2 : (p : ℝ) ≤ t := by
      have := le_of_mul_le_mul_right (h1.trans hx.1) (by positivity)
      push_cast at this
      linarith
    unfold Ivl.holds
    push_cast
    exact ⟨by positivity, exp_neg_le_inv_two_pow h2⟩
  · set k := (x.hi.toNat / 2 ^ p).log2 + 2
    have h1 := holds_divNat hx (Nat.two_pow_pos k)
    push_cast at h1
    have h0 : 0 ≤ t / 2 ^ k := by positivity
    obtain ⟨h2, h3⟩ := altSum_factorialTail_mem one_pos h0 (div_two_pow_le_one hx) (p / 4 + 8)
    have h4 := holds_squares k (holds_expLoop h1 h0 _ (holds_unit h2 h3))
    rw [← exp_neg_eq_altSum, ← Real.exp_nat_mul] at h4
    rwa [show ((2 ^ k : ℕ) : ℝ) * -(t / 2 ^ k) = -t by push_cast; field_simp] at h4

theorem holds_tanhPos (hx : x.holds p t) (ht : 0 ≤ t) : (tanhPos p x).holds p (Real.tanh t) := by
  have h2 := holds_scale hx 2
  push_cast at h2
  have hy := holds_expNeg h2 (by linarith)
  unfold tanhPos
  simp only
  cases hd : div? p ((ofInt p 1).sub (expNeg p (x.scale 2))) ((ofInt p 1).add (expNeg p (x.scale 2))) with
  | none => exact holds_unit (tanh_nonneg ht) (Real.tanh_lt_one t).le
  | some i =>
    rw [tanh_eq_exp_neg]
    exact holds_div? (holds_sub (holds_one p) hy) (holds_add (holds_one p) hy) hd

/-- Across 0, `tanh` is between 0 and its argument and inside [-1, 1]. -/
theorem holds_tanh (hx : x.holds p t) : (tanh p x).holds p (Real.tanh t) := by
  have hp : (0 : ℝ) < 2 ^ p := by positivity
  unfold tanh
  split_ifs with h1 h2
  · exact holds_tanhPos hx (nonneg_of_holds hx h1)
  · have h := holds_neg (holds_tanhPos (holds_neg hx) (neg_nonneg.2 (nonpos_of_holds hx h2)))
    rwa [Real.tanh_neg, neg_neg] at h
  · have hlo : (x.lo : ℝ) ≤ 0 := by exact_mod_cast (not_le.1 h1).le
    have hhi : (0 : ℝ) ≤ x.hi := by exact_mod_cast (not_le.1 h2).le
    have h3 := mul_le_mul_of_nonneg_right (Real.tanh_lt_one t).le hp.le
    have h4 := mul_le_mul_of_nonneg_right (Real.neg_one_lt_tanh t).le hp.le
    rw [one_mul] at h3
    rw [neg_one_mul] at h4
    unfold Ivl.holds
    push_cast
    rcases le_total 0 t with h0 | h0
    · have h5 := mul_le_mul_of_nonneg_right (tanh_le_self h0) hp.le
      have h6 : 0 ≤ Real.tanh t * 2 ^ p := mul_nonneg (tanh_nonneg h0) hp.le
      exact ⟨max_le (hlo.trans h6) h4, le_min (h5.trans hx.2) h3⟩
    · have h5 := mul_le_mul_of_nonneg_right (tanh_le_self (neg_nonneg.2 h0)) hp.le
      have h6 : 0 ≤ Real.tanh (-t) * 2 ^ p := mul_nonneg (tanh_nonneg (neg_nonneg.2 h0)) hp.le
      rw [Real.tanh_neg] at h5 h6
      exact ⟨max_le (by linarith [hx.1]) h4, le_min (by linarith) h3⟩

end Ivl

/-! ### Turns -/

namespace Encl

variable {p : ℕ} {pi' : Ivl} {x y : Encl} {a b : ℝ}

theorem holds_some_ofIvl {i : Ivl} {r : ℝ} (h : i.holds p r) : (ofIvl p (some i)).holds r :=
  holds_ofIvl fun _ hj => by cases hj; exact h

theorem turn_le_one {k m : ℕ} (hm : 0 < m) (h : 8 * k ≤ m) :
    0 ≤ 2 * Real.pi * k / m ∧ 2 * Real.pi * k / m ≤ 1 := by
  have hm' : (0 : ℝ) < m := by exact_mod_cast hm
  have h' : (8 : ℝ) * k ≤ m := by exact_mod_cast h
  have hk : (0 : ℝ) ≤ k := Nat.cast_nonneg k
  refine ⟨by positivity, ?_⟩
  rw [div_le_one hm']
  nlinarith [Real.pi_le_four]

theorem holds_cosQuarter (hpi : pi'.holds p Real.pi) {k m : ℕ} (hm : 0 < m) (hk : 4 * k ≤ m) :
    (cosQuarter p pi' k m).holds (Real.cos (2 * Real.pi * k / m)) := by
  have hm' : (m : ℝ) ≠ 0 := by exact_mod_cast hm.ne'
  unfold cosQuarter
  split_ifs with h1 h2 h3
  · simp [h1, holds]
  · have he : 2 * Real.pi * k / m = Real.pi / 2 := by
      have h2' : (m : ℝ) = 4 * k := by exact_mod_cast h2.symm
      rw [div_eq_iff hm', h2']
      ring
    simp [he, holds]
  · obtain ⟨h4, h5⟩ := turn_le_one hm h3
    exact holds_some_ofIvl (Ivl.holds_cosSmall (Ivl.holds_turn hpi k hm) h4 h5)
  · have he : 2 * Real.pi * ((m - 4 * k : ℕ) : ℝ) / (4 * m : ℕ) = Real.pi / 2 - 2 * Real.pi * k / m := by
      rw [Nat.cast_sub hk]
      push_cast
      field_simp
      ring
    obtain ⟨h4, h5⟩ := turn_le_one (k := m - 4 * k) (m := 4 * m) (by omega) (by omega)
    have h := Ivl.holds_sinSmall (Ivl.holds_turn hpi (m - 4 * k) (b := 4 * m) (by omega)) h4 h5
    rw [he, Real.sin_pi_div_two_sub] at h
    exact holds_some_ofIvl h

/-- Whole turns leave the cosine as it is. -/
theorem cos_turn_mod (k : ℕ) {m : ℕ} (hm : 0 < m) :
    Real.cos (2 * Real.pi * k / m) = Real.cos (2 * Real.pi * (k % m : ℕ) / m) := by
  have hm' : (m : ℝ) ≠ 0 := by exact_mod_cast hm.ne'
  have hk : (k : ℝ) = m * (k / m : ℕ) + (k % m : ℕ) := by exact_mod_cast (Nat.div_add_mod k m).symm
  have he : 2 * Real.pi * k / m = 2 * Real.pi * (k % m : ℕ) / m + (k / m : ℕ) * (2 * Real.pi) := by
    rw [hk]; field_simp; ring
  rw [he, Real.cos_add_nat_mul_two_pi]

/-- A turn and its complement have one cosine. -/
theorem cos_turn_compl {k m : ℕ} (hm : 0 < m) (hk : k ≤ m) :
    Real.cos (2 * Real.pi * (m - k : ℕ) / m) = Real.cos (2 * Real.pi * k / m) := by
  have hm' : (m : ℝ) ≠ 0 := by exact_mod_cast hm.ne'
  have he : 2 * Real.pi * ((m - k : ℕ) : ℝ) / m = 2 * Real.pi - 2 * Real.pi * k / m := by
    rw [Nat.cast_sub hk]; field_simp
  rw [he, Real.cos_two_pi_sub]

/-- Above a quarter turn the cosine is minus that of the rest to the half turn. -/
theorem cos_turn_half {k m : ℕ} (hm : 0 < m) (hk : 2 * k ≤ m) :
    Real.cos (2 * Real.pi * k / m) = -Real.cos (2 * Real.pi * (m - 2 * k : ℕ) / (2 * m : ℕ)) := by
  have hm' : (m : ℝ) ≠ 0 := by exact_mod_cast hm.ne'
  have he : 2 * Real.pi * ((m - 2 * k : ℕ) : ℝ) / (2 * m : ℕ) = Real.pi - 2 * Real.pi * k / m := by
    rw [Nat.cast_sub hk]; push_cast; field_simp
  rw [he, Real.cos_pi_sub, neg_neg]

/-- The turn folded into the first half turn. -/
theorem holds_cosFolded (hpi : pi'.holds p Real.pi) {k m : ℕ} (hm : 0 < m) (hk : 2 * k ≤ m) :
    (if 4 * k ≤ m then cosQuarter p pi' k m else (cosQuarter p pi' (m - 2 * k) (2 * m)).neg p).holds
      (Real.cos (2 * Real.pi * k / m)) := by
  split_ifs with h
  · exact holds_cosQuarter hpi hm h
  · rw [cos_turn_half hm hk]
    exact holds_neg (holds_cosQuarter hpi (by omega) (by omega))

theorem holds_cosTurn (hpi : pi'.holds p Real.pi) (k : ℕ) {m : ℕ} (hm : 0 < m) :
    (cosTurn p pi' k m).holds (Real.cos (2 * Real.pi * k / m)) := by
  have hr := Nat.mod_lt k hm
  rw [cos_turn_mod k hm]
  unfold cosTurn
  refine holds_withSum (fun c hc => ?_) ?_
  · split_ifs at hc with h
    cases hc
    simp [CosSum.value, h, Config.hannDenom]
  · split_ifs with h1 h2 h2
    · rw [← cos_turn_compl hm hr.le]
      have := holds_cosFolded hpi (k := m - k % m) hm (by omega)
      rwa [if_pos h2] at this
    · rw [← cos_turn_compl hm hr.le]
      have := holds_cosFolded hpi (k := m - k % m) hm (by omega)
      rwa [if_neg h2] at this
    · have := holds_cosFolded hpi (k := k % m) hm (by omega)
      rwa [if_pos h2] at this
    · have := holds_cosFolded hpi (k := k % m) hm (by omega)
      rwa [if_neg h2] at this

theorem holds_sinTurn (hpi : pi'.holds p Real.pi) (k : ℕ) {m : ℕ} (hm : 0 < m) :
    (sinTurn p pi' k m).holds (Real.sin (2 * Real.pi * k / m)) := by
  have hm' : (m : ℝ) ≠ 0 := by exact_mod_cast hm.ne'
  have hr := Nat.mod_lt k hm
  have he : 2 * Real.pi * ((5 * m - 4 * (k % m) : ℕ) : ℝ) / (4 * m : ℕ) =
      Real.pi / 2 - 2 * Real.pi * (k % m : ℕ) / m + 2 * Real.pi := by
    rw [Nat.cast_sub (by omega)]
    push_cast
    field_simp
    ring
  have hs : Real.sin (2 * Real.pi * k / m) = Real.sin (2 * Real.pi * (k % m : ℕ) / m) := by
    have hk : (k : ℝ) = m * (k / m : ℕ) + (k % m : ℕ) := by exact_mod_cast (Nat.div_add_mod k m).symm
    rw [show 2 * Real.pi * k / m = 2 * Real.pi * (k % m : ℕ) / m + (k / m : ℕ) * (2 * Real.pi) by
      rw [hk]; field_simp; ring, Real.sin_add_nat_mul_two_pi]
  have h := holds_cosTurn hpi (5 * m - 4 * (k % m)) (m := 4 * m) (by omega)
  rw [he, Real.cos_add_two_pi, Real.cos_pi_div_two_sub, ← hs] at h
  exact h

/-! ### Angles -/

theorem holds_atan2 (hpi : pi'.holds p Real.pi) (hy : y.holds b) (hx : x.holds a) :
    (atan2 p pi' y x).holds (Complex.arg ⟨a, b⟩) := by
  have h1 := holds_plain hy
  have h2 := holds_plain hx
  have hivl : ∀ {u v : Encl}, u.holds b → v.holds a →
      (onIvls p (fun i j => some (Ivl.atan2 p pi' i j)) u v).holds (Complex.arg ⟨a, b⟩) :=
    holds_onIvls_some fun _ _ => Ivl.holds_atan2 hpi
  unfold atan2
  split
  · rename_i q q' hq hq'
    rw [hq] at h1; rw [hq'] at h2
    split_ifs with hz hn
    · cases h1; cases h2
      have hr : (0 : ℝ) ≤ q' := by exact_mod_cast Rat.num_nonneg.1 hn
      rw [Rat.num_eq_zero.1 hz, Rat.cast_zero]
      exact (Complex.arg_ofReal_of_nonneg hr).trans Rat.cast_zero.symm
    · cases h1; cases h2
      have hr : (q' : ℝ) < 0 := by exact_mod_cast Rat.num_neg.1 (not_le.1 hn)
      rw [Rat.num_eq_zero.1 hz, Rat.cast_zero]
      rw [show Complex.arg ⟨(q' : ℝ), 0⟩ = Real.pi from Complex.arg_ofReal_of_neg hr]
      exact holds_some_ofIvl hpi
    · exact hivl h1 h2
  · exact hivl h1 h2

/-- A coordinate over the distance from the origin, `origin` at the origin. -/
theorem holds_directed {u v : Encl} {origin : ℚ} {t : ℝ} (hu : u.holds a) (hv : v.holds b)
    (ht : 0 < ‖(⟨a, b⟩ : ℂ)‖ → t = a / ‖(⟨a, b⟩ : ℂ)‖) (h0 : ‖(⟨a, b⟩ : ℂ)‖ = 0 → t = origin)
    (h1 : |t| ≤ 1) : (directed p origin u v).holds t := by
  have hu' := holds_plain hu
  have hv' := holds_plain hv
  have hivl : ∀ {u v : Encl}, u.holds a → v.holds b →
      (onIvls p (fun i j => some (Ivl.direction p i j)) u v).holds t :=
    holds_onIvls_some fun _ _ hi hj => Ivl.holds_direction hi hj ht h1
  unfold directed
  split
  · rename_i q q' hq hq'
    rw [hq] at hu'; rw [hq'] at hv'
    split
    · rename_i r hr
      cases hu'; cases hv'
      have hn : ‖(⟨(q : ℝ), (q' : ℝ)⟩ : ℂ)‖ = r := by
        rw [Complex.norm_def, Complex.normSq_mk, ← sqrt_of_ratSqrt hr]
        push_cast
        rfl
      rw [hn] at ht h0
      show t = _
      split_ifs with hz
      · exact h0 (by rw [Rat.num_eq_zero.1 hz, Rat.cast_zero])
      · have hpos : 0 < r := lt_of_le_of_ne (ratSqrt_spec hr).1 fun h => hz (by rw [← h]; rfl)
        rw [ht (by exact_mod_cast hpos), Rat.cast_div]
    · exact hivl hu' hv'
  · exact hivl hu' hv'

theorem holds_cosAtan2 (hy : y.holds b) (hx : x.holds a) :
    (cosAtan2 p y x).holds (Real.cos (Complex.arg ⟨a, b⟩)) := by
  refine holds_directed hx hy (fun h => Complex.cos_arg (norm_pos_iff.1 h)) (fun h => ?_)
    (Real.abs_cos_le_one _)
  rw [norm_eq_zero.1 h, Complex.arg_zero, Real.cos_zero, Rat.cast_one]

theorem norm_mk_comm (a b : ℝ) : ‖(⟨a, b⟩ : ℂ)‖ = ‖(⟨b, a⟩ : ℂ)‖ := by
  rw [Complex.norm_def, Complex.norm_def, Complex.normSq_mk, Complex.normSq_mk, add_comm]

theorem holds_sinAtan2 (hy : y.holds b) (hx : x.holds a) :
    (sinAtan2 p y x).holds (Real.sin (Complex.arg ⟨a, b⟩)) := by
  refine holds_directed hy hx (fun _ => ?_) (fun h => ?_) (Real.abs_sin_le_one _)
  · rw [norm_mk_comm]; exact Complex.sin_arg _
  · rw [norm_mk_comm, norm_eq_zero] at h
    rw [h, Complex.arg_zero, Real.sin_zero, Rat.cast_zero]

theorem holds_tanh (hx : x.holds a) : (tanh p x).holds (Real.tanh a) := by
  have h := holds_plain hx
  unfold tanh
  split_ifs with hz
  · rw [eq_zero_of_isZero h hz, Real.tanh_zero]
    exact Rat.cast_zero.symm
  · exact holds_onIvl (fun _ => Ivl.holds_tanh) h

end Encl

/-- Settles O36: the series on intervals, and the exact cases of the enclosures. -/
theorem enclosureFunctionsAreSound : Obligations.EnclosureFunctionsAreSound :=
  ⟨fun p k _ hm => ⟨Encl.holds_cosTurn (Ivl.holds_pi p) k hm, Encl.holds_sinTurn (Ivl.holds_pi p) k hm⟩,
    fun p _ _ _ _ hy hx =>
      ⟨Encl.holds_atan2 (Ivl.holds_pi p) hy hx, Encl.holds_cosAtan2 hy hx, Encl.holds_sinAtan2 hy hx⟩,
    fun _ _ _ => Encl.holds_tanh⟩

end Sys2Proof.Machine

/-! The float stages are written over any arithmetic, so a relation that the arithmetic's operations keep is
kept by the stages; the enclosures' relation to the reals they hold is one (log 7). -/

namespace Sys2Proof.Machine

/-! ### Related arithmetics -/

/-- Every operation of A and of B keeps the relation; turns are fractions with a positive denominator. -/
structure Numerics.Related (A B : Numerics) (R : A.R → B.R → Prop) : Prop where
  rat : ∀ q, R (A.rat q) (B.rat q)
  add : ∀ {a b c d}, R a b → R c d → R (A.add a c) (B.add b d)
  sub : ∀ {a b c d}, R a b → R c d → R (A.sub a c) (B.sub b d)
  mul : ∀ {a b c d}, R a b → R c d → R (A.mul a c) (B.mul b d)
  div : ∀ {a b c d}, R a b → R c d → R (A.div a c) (B.div b d)
  neg : ∀ {a b}, R a b → R (A.neg a) (B.neg b)
  abs : ∀ {a b}, R a b → R (A.abs a) (B.abs b)
  max : ∀ {a b c d}, R a b → R c d → R (A.max a c) (B.max b d)
  min : ∀ {a b c d}, R a b → R c d → R (A.min a c) (B.min b d)
  sqrt : ∀ {a b}, R a b → R (A.sqrt a) (B.sqrt b)
  cosTurn : ∀ k {m}, 0 < m → R (A.cosTurn k m) (B.cosTurn k m)
  sinTurn : ∀ k {m}, 0 < m → R (A.sinTurn k m) (B.sinTurn k m)
  atan2 : ∀ {a b c d}, R a b → R c d → R (A.atan2 a c) (B.atan2 b d)
  cosAtan2 : ∀ {a b c d}, R a b → R c d → R (A.cosAtan2 a c) (B.cosAtan2 b d)
  sinAtan2 : ∀ {a b c d}, R a b → R c d → R (A.sinAtan2 a c) (B.sinAtan2 b d)
  tanh : ∀ {a b}, R a b → R (A.tanh a) (B.tanh b)
  ifGt : ∀ {a b c d t u e f}, R a b → R c d → R t u → R e f → R (A.ifGt a c t e) (B.ifGt b d u f)

/-- The enclosures of every precision hold the reals of the reference. -/
theorem enclosing_related_real (p : ℕ) :
    Numerics.Related (Numerics.enclosing p) Numerics.real Encl.holds where
  rat _ := rfl
  add := Encl.holds_add
  sub := Encl.holds_sub
  mul := Encl.holds_mul
  div := Encl.holds_div
  neg := Encl.holds_neg
  abs := Encl.holds_abs
  max := Encl.holds_max
  min := Encl.holds_min
  sqrt := Encl.holds_sqrt
  cosTurn k _ hm := Encl.holds_cosTurn (Ivl.holds_pi p) k hm
  sinTurn k _ hm := Encl.holds_sinTurn (Ivl.holds_pi p) k hm
  atan2 := Encl.holds_atan2 (Ivl.holds_pi p)
  cosAtan2 := Encl.holds_cosAtan2
  sinAtan2 := Encl.holds_sinAtan2
  tanh := Encl.holds_tanh
  ifGt := Encl.holds_ifGt

/-! ### Related lists -/

section Lists

variable {α β γ α' β' γ' : Type} {R : α → α' → Prop} {S : β → β' → Prop} {T : γ → γ' → Prop}

theorem forall₂_zipWith {l : List α} {l' : List α'} {k : List β} {k' : List β'} {f : α → β → γ}
    {g : α' → β' → γ'} (h : List.Forall₂ R l l') (hk : List.Forall₂ S k k')
    (hf : ∀ {a a' b b'}, R a a' → S b b' → T (f a b) (g a' b')) :
    List.Forall₂ T (List.zipWith f l k) (List.zipWith g l' k') := by
  induction h generalizing k k' with
  | nil => simp
  | cons h1 _ ih =>
    cases hk with
    | nil => simp
    | cons h2 hk => exact .cons (hf h1 h2) (ih hk)

theorem forall₂_getD {l : List α} {l' : List α'} (h : List.Forall₂ R l l') {d : α} {d' : α'} (hd : R d d')
    (i : ℕ) : R (l.getD i d) (l'.getD i d') := by
  induction h generalizing i with
  | nil => simpa using hd
  | cons h1 _ ih =>
    cases i with
    | zero => simpa using h1
    | succ i => simpa using ih i

/-- Lists tabulated over the same indices. -/
theorem forall₂_map_same {ι : Type} {f : ι → α} {g : ι → α'} (l : List ι) (h : ∀ i ∈ l, R (f i) (g i)) :
    List.Forall₂ R (l.map f) (l.map g) := by
  rw [List.forall₂_map_left_iff, List.forall₂_map_right_iff, List.forall₂_same]
  exact h

theorem forall₂_replicate {a : α} {a' : α'} (h : R a a') (n : ℕ) :
    List.Forall₂ R (List.replicate n a) (List.replicate n a') := by
  induction n with
  | zero => exact .nil
  | succ n ih => exact .cons h ih

theorem forall₂_tail {l : List α} {l' : List α'} (h : List.Forall₂ R l l') :
    List.Forall₂ R l.tail l'.tail := by
  rw [← List.drop_one, ← List.drop_one]; exact List.forall₂_drop 1 h

theorem forall₂_chunks (size n : ℕ) {l : List α} {l' : List α'} (h : List.Forall₂ R l l') :
    List.Forall₂ (List.Forall₂ R) (chunks size n l) (chunks size n l') := by
  induction n generalizing l l' with
  | zero => exact .nil
  | succ n ih => exact .cons (List.forall₂_take size h) (ih (List.forall₂_drop size h))

/-- Elements of related lists at one index. -/
theorem exists_of_forall₂ {l : List α} {l' : List α'} (h : List.Forall₂ R l l') {k : ℕ} (hk : k < l.length) :
    ∃ r e, l'[k]? = some r ∧ l[k]? = some e ∧ R e r := by
  have hk' : k < l'.length := h.length_eq ▸ hk
  exact ⟨l'[k], l[k], List.getElem?_eq_getElem hk', List.getElem?_eq_getElem hk, h.get hk hk'⟩

end Lists

/-! ### The transform -/

section Transform

variable {W W' C C' : Type} {P : W → W' → Prop} {Q : C → C' → Prop} {o : FftOps W C} {o' : FftOps W' C'}

/-- The operations of a butterfly keep the relations. -/
structure FftOps.Related (o : FftOps W C) (o' : FftOps W' C') (P : W → W' → Prop) (Q : C → C' → Prop) :
    Prop where
  add : ∀ {a b c d}, Q a b → Q c d → Q (o.add a c) (o'.add b d)
  sub : ∀ {a b c d}, Q a b → Q c d → Q (o.sub a c) (o'.sub b d)
  mulW : ∀ {w v a b}, P w v → Q a b → Q (o.mulW w a) (o'.mulW v b)

variable (ho : FftOps.Related o o' P Q)
include ho

theorem butterflies_related {tw : List W} {tw' : List W'} (ht : List.Forall₂ P tw tw') {b : List C}
    {b' : List C'} (hb : List.Forall₂ Q b b') :
    List.Forall₂ Q (butterflies o tw b) (butterflies o' tw' b') := by
  unfold butterflies
  rw [← ht.length_eq]
  have hu := List.forall₂_take tw.length hb
  have hv := forall₂_zipWith ht (List.forall₂_drop tw.length hb) ho.mulW
  exact List.rel_append (forall₂_zipWith hu hv ho.add) (forall₂_zipWith hu hv ho.sub)

theorem stage_related {tw : List W} {tw' : List W'} (ht : List.Forall₂ P tw tw') {y : List C} {y' : List C'}
    (hy : List.Forall₂ Q y y') : List.Forall₂ Q (stage o y tw) (stage o' y' tw') := by
  unfold stage
  rw [← ht.length_eq, ← hy.length_eq]
  exact List.rel_flatMap (forall₂_chunks _ _ hy) fun _ _ hb => butterflies_related ho ht hb

theorem fft_related {zero : C} {zero' : C'} (hz : Q zero zero') {tws : List (List W)} {tws' : List (List W')}
    (ht : List.Forall₂ (List.Forall₂ P) tws tws') (logn : ℕ) {x : List C} {x' : List C'}
    (hx : List.Forall₂ Q x x') : List.Forall₂ Q (fft o zero tws logn x) (fft o' zero' tws' logn x') := by
  refine List.rel_foldl (R := List.Forall₂ P) (fun _ _ hy _ _ hw => stage_related ho hw hy) ?_ ht
  exact forall₂_map_same _ fun j _ => forall₂_getD hx hz _

end Transform

/-! ### Complex numbers -/

/-- Real and imaginary parts are related. -/
def CplxRel {A B : Numerics} (R : A.R → B.R → Prop) (c : Cplx A) (d : Cplx B) : Prop := R c.1 d.1 ∧ R c.2 d.2

/-- What the frames so far leave is related. -/
structure NrTrack.Related {A B : Numerics} (R : A.R → B.R → Prop) (k : NrTrack A) (l : NrTrack B) :
    Prop where
  out : List.Forall₂ R k.out l.out
  prevMag : Option.Rel (List.Forall₂ R) k.prevMag l.prevMag

section Stages

variable {A B : Numerics} {R : A.R → B.R → Prop} (h : Numerics.Related A B R)
include h

theorem conj_related {c : Cplx A} {d : Cplx B} (hc : CplxRel R c d) :
    CplxRel R (Cplx.conj c) (Cplx.conj d) :=
  ⟨hc.1, h.neg hc.2⟩

theorem ops_related : FftOps.Related (Cplx.ops A) (Cplx.ops B) (CplxRel R) (CplxRel R) where
  add ha hb := ⟨h.add ha.1 hb.1, h.add ha.2 hb.2⟩
  sub ha hb := ⟨h.sub ha.1 hb.1, h.sub ha.2 hb.2⟩
  mulW hw hc := ⟨h.sub (h.mul hw.1 hc.1) (h.mul hw.2 hc.2), h.add (h.mul hw.1 hc.2) (h.mul hw.2 hc.1)⟩

theorem zero_related : CplxRel R (Cplx.zero A) (Cplx.zero B) := ⟨h.rat 0, h.rat 0⟩

theorem twiddles_related (logn : ℕ) :
    List.Forall₂ (List.Forall₂ (CplxRel R)) (Cplx.twiddles A logn) (Cplx.twiddles B logn) :=
  forall₂_map_same _ fun _ _ => forall₂_map_same _ fun k _ =>
    ⟨h.cosTurn k (Nat.two_pow_pos _), h.neg (h.sinTurn k (Nat.two_pow_pos _))⟩

theorem ifft_related {tws : List (List (Cplx A))} {tws' : List (List (Cplx B))}
    (ht : List.Forall₂ (List.Forall₂ (CplxRel R)) tws tws') (logn : ℕ) {x : List (Cplx A)}
    {y : List (Cplx B)} (hx : List.Forall₂ (CplxRel R) x y) :
    List.Forall₂ (CplxRel R) (Cplx.ifft A tws logn x) (Cplx.ifft B tws' logn y) := by
  have hx' := List.rel_map (R := CplxRel R) (fun _ _ => conj_related h) hx
  refine List.rel_map (fun c d hc => ?_) (fft_related (ops_related h) (zero_related h) ht logn hx')
  have hcc := conj_related h hc
  exact ⟨h.div hcc.1 (h.rat _), h.div hcc.2 (h.rat _)⟩

theorem magnitude_related {c : Cplx A} {d : Cplx B} (hc : CplxRel R c d) :
    R (Cplx.magnitude A c) (Cplx.magnitude B d) :=
  h.sqrt (h.add (h.mul hc.1 hc.1) (h.mul hc.2 hc.2))

/-! ### Noise reduction -/

theorem hann_related (n : ℕ) : R (hann A n) (hann B n) := by
  have hd : 0 < Config.hannDenom := by norm_num [Config.hannDenom]
  exact h.mul (h.rat _) (h.sub (h.rat 1) (h.cosTurn n hd))

theorem window_related : List.Forall₂ R (nrTables A).window (nrTables B).window := by
  simp only [nrTables]
  exact forall₂_map_same _ fun n _ => hann_related h n

theorem tables_twiddles_related :
    List.Forall₂ (List.Forall₂ (CplxRel R)) (nrTables A).tws (nrTables B).tws := twiddles_related h _

theorem spectrum_related {x : List A.R} {y : List B.R} (hx : List.Forall₂ R x y) (o : ℕ) :
    List.Forall₂ (CplxRel R) (spectrum A (nrTables A) x o) (spectrum B (nrTables B) y o) := by
  refine List.forall₂_take _ (fft_related (ops_related h) (zero_related h) (tables_twiddles_related h) _ ?_)
  exact forall₂_zipWith (List.forall₂_drop o hx) (window_related h) fun ha hw => ⟨h.mul ha hw, h.rat 0⟩

theorem bin_related {l : List A.R} {l' : List B.R} (hl : List.Forall₂ R l l') (b : ℕ) :
    R (bin l b) (bin l' b) := forall₂_getD hl (h.rat 0) b

theorem magnitudeSums_related {x : List A.R} {y : List B.R} (hx : List.Forall₂ R x y) (os : List ℕ) :
    List.Forall₂ R (magnitudeSums A (nrTables A) x os) (magnitudeSums B (nrTables B) y os) := by
  induction os with
  | nil => exact forall₂_replicate (h.rat 0) _
  | cons o os ih =>
    have hm := List.rel_map (R := CplxRel R) (P := R) (fun _ _ => magnitude_related h)
      (spectrum_related h hx o)
    exact forall₂_zipWith hm ih h.add

/-- R155: related signals have related profiles. -/
theorem profileEntries_related {x : List A.R} {y : List B.R} (hx : List.Forall₂ R x y) (starts : List ℕ) :
    List.Forall₂ R (profileEntries A x starts) (profileEntries B y starts) := by
  unfold profileEntries
  refine forall₂_map_same _ fun b _ => h.max ?_ (h.rat _)
  split_ifs
  · exact h.rat 0
  · exact h.div (bin_related h (magnitudeSums_related h hx starts) b) (h.rat _)

theorem suppression_related (par : NrParams) (pb : ℚ) {m : A.R} {m' : B.R} (hm : R m m') :
    R (suppression A par pb m) (suppression B par pb m') :=
  h.max (h.rat 0) (h.sub (h.rat 1) (h.div (h.mul (h.rat _) (h.rat _)) (h.max hm (h.rat _))))

theorem scaledMagnitude_related (par : NrParams) (pb : ℚ) {prev : Option A.R} {prev' : Option B.R}
    (hp : Option.Rel R prev prev') {c : Cplx A} {d : Cplx B} (hc : CplxRel R c d) :
    R (scaledMagnitude A par pb prev c) (scaledMagnitude B par pb prev' d) := by
  have hm := magnitude_related h hc
  have hg := suppression_related h par pb hm
  cases hp with
  | none => exact h.mul hm hg
  | some hpm =>
    exact h.mul hm (h.add (h.mul (h.rat _) hg)
      (h.mul (h.rat _) (h.div hpm (h.max hm (h.rat _)))))

theorem rebuilt_related {m : A.R} {m' : B.R} (hm : R m m') {c : Cplx A} {d : Cplx B} (hc : CplxRel R c d) :
    CplxRel R (rebuilt A m c) (rebuilt B m' d) :=
  ⟨h.mul hm (h.cosAtan2 hc.2 hc.1), h.mul hm (h.sinAtan2 hc.2 hc.1)⟩

theorem mirrored_related {y : List (Cplx A)} {y' : List (Cplx B)} (hy : List.Forall₂ (CplxRel R) y y') :
    List.Forall₂ (CplxRel R) (mirrored y) (mirrored y') :=
  List.rel_append hy (List.rel_map (R := CplxRel R) (fun _ _ => conj_related h)
    (List.rel_reverse (List.forall₂_drop 1 (List.forall₂_take _ hy))))

theorem addAt_related (o : ℕ) {y : List A.R} {y' : List B.R} (hy : List.Forall₂ R y y') {t : List A.R}
    {t' : List B.R} (ht : List.Forall₂ R t t') : List.Forall₂ R (addAt A o y t) (addAt B o y' t') := by
  induction hy generalizing o t t' with
  | nil => cases o <;> exact .nil
  | cons h1 hy ih =>
    cases o with
    | zero =>
      cases ht with
      | nil => exact .cons h1 hy
      | cons h2 ht => exact .cons (h.add h1 h2) (ih 0 ht)
    | succ o => exact .cons h1 (ih o ht)

/-- R170, steps 3 to 5: the scaled magnitudes of a frame's bins. -/
theorem scaledMagnitudes_related (u : NrSetup) {prev : Option (List A.R)} {prev' : Option (List B.R)}
    (hp : Option.Rel (List.Forall₂ R) prev prev') {s : List (Cplx A)} {s' : List (Cplx B)}
    (hs : List.Forall₂ (CplxRel R) s s') :
    List.Forall₂ R
      (((List.range Config.nBins).zip s).map fun e =>
        scaledMagnitude A u.par (u.profile.getD e.1 0) (prev.map fun l => bin l e.1) e.2)
      (((List.range Config.nBins).zip s').map fun e =>
        scaledMagnitude B u.par (u.profile.getD e.1 0) (prev'.map fun l => bin l e.1) e.2) := by
  have hz : List.Forall₂ (fun (e : ℕ × Cplx A) (e' : ℕ × Cplx B) => e.1 = e'.1 ∧ CplxRel R e.2 e'.2)
      ((List.range Config.nBins).zip s) ((List.range Config.nBins).zip s') :=
    forall₂_zipWith ((List.forall₂_same (Rₐ := fun i j => i = j)).2 fun _ _ => rfl) hs
      fun hi hc => ⟨hi, hc⟩
  refine List.rel_map ?_ hz
  rintro ⟨i, c⟩ ⟨j, d⟩ ⟨hij, hc⟩
  obtain rfl : i = j := hij
  refine scaledMagnitude_related h _ _ ?_ hc
  cases hp with
  | none => exact .none
  | some hl => exact .some (bin_related h hl i)

theorem nrFrame_related (u : NrSetup) {x : List A.R} {y : List B.R} (hx : List.Forall₂ R x y)
    {k : NrTrack A} {l : NrTrack B} (hk : NrTrack.Related R k l) (o : ℕ) :
    NrTrack.Related R (nrFrame A (nrTables A) u x k o) (nrFrame B (nrTables B) u y l o) := by
  have hs := spectrum_related h hx o
  have hm := scaledMagnitudes_related h u hk.prevMag hs
  have hy := mirrored_related h (forall₂_zipWith hm hs fun hm hc => rebuilt_related h hm hc)
  refine ⟨addAt_related h o hk.out ?_, .some hm⟩
  exact forall₂_zipWith (ifft_related h (tables_twiddles_related h) _ hy) (window_related h)
    fun hc hw => h.mul (h.mul hc.1 hw) (h.rat _)

theorem nrStart_related {x : List A.R} {y : List B.R} (hx : List.Forall₂ R x y) :
    List.Forall₂ R (nrStart A x) (nrStart B y) := List.rel_map (fun _ _ _ => h.rat 0) hx

/-- R170: related signals leave noise reduction related. -/
theorem nrChannel_related (u : NrSetup) {x : List A.R} {y : List B.R} (hx : List.Forall₂ R x y) :
    NrTrack.Related R (nrChannel A u x) (nrChannel B u y) := by
  unfold nrChannel
  rw [hx.length_eq]
  exact List.rel_foldl (R := fun i j => i = j) (fun _ _ hk o _ ho => ho ▸ nrFrame_related h u hx hk o)
    ⟨nrStart_related h hx, .none⟩ ((List.forall₂_same (Rₐ := fun i j => i = j)).2 fun _ _ => rfl)

/-! ### Anti-distortion -/

theorem peakOf_related {l : List A.R} {l' : List B.R} (hl : List.Forall₂ R l l') :
    R (peakOf A l) (peakOf B l') := by
  cases hl with
  | nil => exact h.rat 0
  | cons hv hl => exact List.rel_foldl (R := R) (fun _ _ hm _ _ hu => h.max hm (h.abs hu)) (h.abs hv) hl

theorem adGain_related (par : AdParams) {v : A.R} {w : B.R} (hv : R v w) :
    R (adGain A par v) (adGain B par w) := by
  have hx := h.sub hv (h.rat par.thr)
  have hd := h.min (h.rat Config.ratioCap)
    (h.mul (h.rat par.ratio) (h.add (h.rat 1) (h.mul (h.rat 2) hx)))
  exact h.ifGt hv (h.rat _) (h.div (h.add (h.rat _) (h.div hx hd)) hv) (h.rat 1)

theorem clip_related (soft : Bool) {v : A.R} {w : B.R} (hv : R v w) : R (clip A soft v) (clip B soft w) := by
  unfold clip
  split_ifs
  · exact h.div (h.tanh (h.mul hv (h.rat _))) (h.rat _)
  · exact h.max (h.rat _) (h.min (h.rat _) hv)

theorem adSamples_related (las : ℕ) (par : AdParams) (soft : Bool) {x : List A.R} {y : List B.R}
    (hx : List.Forall₂ R x y) {l : List A.R} {l' : List B.R} (hl : List.Forall₂ R l l') :
    List.Forall₂ R (adSamples A las par soft x l) (adSamples B las par soft y l') := by
  induction hx generalizing l l' with
  | nil => exact .nil
  | cons hv _ ih =>
    refine .cons (clip_related h soft (h.mul (h.mul hv (adGain_related h par ?_)) (h.rat _)))
      (ih (forall₂_tail hl))
    exact peakOf_related h (List.forall₂_take _ hl)

/-- R183: related signals leave anti-distortion related. -/
theorem adChannel_related (las : ℕ) (par : AdParams) (soft : Bool) {x : List A.R} {y : List B.R}
    (hx : List.Forall₂ R x y) :
    List.Forall₂ R (adChannel A las par soft x) (adChannel B las par soft y) :=
  adSamples_related h las par soft hx (List.rel_append hx (forall₂_replicate (h.rat 0) las))

/-! ### The chain -/

theorem chain_mid_related (st : Stages) {x : List A.R} {y : List B.R} (hx : List.Forall₂ R x y) :
    List.Forall₂ R (chain A st x).mid (chain B st y).mid := by
  unfold chain
  cases st.nr with
  | none => exact hx
  | some u => exact (nrChannel_related h u hx).out

/-- R190: related signals leave every combination of the stages related. -/
theorem chain_out_related (st : Stages) {x : List A.R} {y : List B.R} (hx : List.Forall₂ R x y) :
    List.Forall₂ R (chain A st x).out (chain B st y).out := by
  have hm := chain_mid_related h st hx
  unfold chain at hm ⊢
  cases st.ad with
  | none => exact hm
  | some ad => exact adChannel_related h ad.1 ad.2.1 ad.2.2 hm

/-- Operands are rationals of both arithmetics. -/
theorem operands_related (x : List ℚ) : List.Forall₂ R (x.map A.rat) (x.map B.rat) :=
  forall₂_map_same x fun q _ => h.rat q

end Stages

/-- Settles O52: the stages keep the relation between an enclosure and the reals it holds. -/
theorem stagesRefineTheReference : Obligations.StagesRefineTheReference := by
  refine ⟨fun p st x => ⟨(chainRun_length p st x).1, fun k hk => ?_⟩, fun p x starts b hb => ?_⟩
  · have hr := enclosing_related_real p
    exact exists_of_forall₂ (chain_out_related hr st (operands_related hr x))
      ((chainRun_length p st x).1.symm ▸ hk)
  · have hr := enclosing_related_real p
    exact exists_of_forall₂ (profileEntries_related hr (operands_related hr x) starts)
      ((profileEntries_length _ _ _).symm ▸ hb)

end Sys2Proof.Machine

/-! Operand reads and stored lists: their lengths on any memory, and where a read stops. -/

namespace Sys2Proof.Machine

/-! ### Operand reads as sequences of reads -/

theorem readFloats_eq_bind (sp : Space) (m : Memory Word) (i n : ℕ) :
    readFloats sp m i n = (readAll sp m i n >>= finiteFrom sp i) := by
  unfold readFloats
  cases readAll sp m i n <;> rfl

theorem readChannels_succ (cap : ℕ) (m : Memory Word) (f c n : ℕ) :
    readChannels cap m f c (n + 1) = (do
      let x ← readFloats .smp m (c * cap) f
      let xs ← readChannels cap m f (c + 1) n
      .ok (x :: xs)) := by
  rw [readChannels]
  cases readFloats .smp m (c * cap) f with
  | error e => rfl
  | ok x => cases readChannels cap m f (c + 1) n <;> rfl

theorem readPatterns_succ (cap : ℕ) (m : Memory Word) (f c n : ℕ) :
    readPatterns cap m f c (n + 1) = (do
      let x ← readAll .smp m (c * cap) f
      let xs ← readPatterns cap m f (c + 1) n
      .ok (x :: xs)) := by
  rw [readPatterns]
  cases readAll .smp m (c * cap) f with
  | error e => rfl
  | ok x => cases readPatterns cap m f (c + 1) n <;> rfl

theorem learnSignal_succ (sp : Space) (m : Memory Byte) (f : Format) (a n : ℕ) :
    learnSignal sp m f a (n + 1) = (do
      let b ← readAll sp m ((a * f.ch + Config.learnChannel) * f.depth.bytes) f.depth.bytes
      let xs ← learnSignal sp m f (a + 1) n
      .ok (toFloat f.depth (unpack f.depth f.be b) :: xs)) := by
  rw [learnSignal]
  cases readAll sp m ((a * f.ch + Config.learnChannel) * f.depth.bytes) f.depth.bytes with
  | error e => rfl
  | ok b => cases learnSignal sp m f (a + 1) n <;> rfl

/-- R121, R123: the gain stage reads the bytes it works on, all of SRC on the fast path. -/
theorem gainStage_eq_bind (s : State) (f : Format) (g : ℚ) (len : ℕ) :
    gainStage s f g len =
      if isIdentityGain g then
        readAll .src s.src 0 len >>= fun bytes => .ok { bytes, trunc := false }
      else
        readAll .src s.src 0 (len / f.frameBytes * f.ch * f.depth.bytes) >>= fun bytes =>
          .ok { bytes := packAll f ((unpackAll f (len / f.frameBytes * f.ch) bytes).map
                  (scaleInt f.depth g))
                trunc := truncated len f.frameBytes } := by
  unfold gainStage
  split
  · cases readAll .src s.src 0 len <;> rfl
  · dsimp only
    cases readAll .src s.src 0 (len / f.frameBytes * f.ch * f.depth.bytes) <;> rfl

/-! ### Lengths of operands, on any memory -/

theorem Memory.readRun_length {α : Type} {m : Memory α} {i n : ℕ} {vs : List α}
    (h : Memory.readRun m i n = .ok vs) : vs.length = n := by
  induction m generalizing i n vs with
  | nil => cases n <;> cases h; rfl
  | cons e m ih =>
    obtain ⟨k, v⟩ := e
    cases n with
    | zero => cases h; rfl
    | succ n =>
      rw [Memory.readRun] at h
      split_ifs at h
      · exact ih h
      · cases hr : Memory.readRun m (i + 1) n with
        | error j => simp [hr] at h
        | ok us =>
          simp only [hr, Except.ok.injEq] at h
          simp [← h, ih hr]

theorem readAll_length {α : Type} {sp : Space} {m : Memory α} {i n : ℕ} {vs : List α}
    (h : readAll sp m i n = .ok vs) : vs.length = n :=
  Memory.readRun_length (readAll_ok.1 h)

theorem readFloats_length {sp : Space} {m : Memory Word} {i n : ℕ} {qs : List ℚ}
    (h : readFloats sp m i n = .ok qs) : qs.length = n := by
  rw [readFloats_eq_bind] at h
  obtain ⟨ws, hws, h⟩ := bind_ok.1 h
  have hl := congrArg List.length (finiteFrom_ok.1 h)
  rw [List.length_map, List.length_map] at hl
  rw [← hl, readAll_length hws]

theorem readChannels_length {cap f c n : ℕ} {m : Memory Word} {xs : List (List ℚ)}
    (h : readChannels cap m f c n = .ok xs) : xs.length = n ∧ ∀ x ∈ xs, x.length = f := by
  induction n generalizing c xs with
  | zero => cases h; simp
  | succ n ih =>
    rw [readChannels_succ] at h
    obtain ⟨x, hx, h⟩ := bind_ok.1 h
    obtain ⟨ys, hys, h⟩ := bind_ok.1 h
    cases h
    obtain ⟨hl, hf⟩ := ih hys
    exact ⟨by simp [hl], List.forall_mem_cons.2 ⟨readFloats_length hx, hf⟩⟩

/-- The patterns ENCODE reads: one list for each channel, channel k at element `(c + k) * cap`. -/
theorem readPatterns_ok {cap f c n : ℕ} {m : Memory Word} {xs : List (List Word)}
    (h : readPatterns cap m f c n = .ok xs) : xs.length = n ∧
      ∀ k x, xs[k]? = some x → Memory.readRun m ((c + k) * cap) f = .ok x := by
  induction n generalizing c xs with
  | zero => cases h; simp
  | succ n ih =>
    rw [readPatterns_succ] at h
    obtain ⟨x, hx, h⟩ := bind_ok.1 h
    obtain ⟨ys, hys, h⟩ := bind_ok.1 h
    cases h
    obtain ⟨hl, hr⟩ := ih hys
    refine ⟨by simp [hl], fun k y hk => ?_⟩
    cases k with
    | zero => cases hk; exact readAll_ok.1 hx
    | succ k => rw [← Nat.add_assoc, Nat.add_right_comm]; exact hr k y hk

/-- The gain stage gives at most the bytes of SRC, on any memory. -/
theorem gainStage_bytes_length_le {s : State} {f : Format} {g : ℚ} {len : ℕ} {r : GainResult}
    (h : gainStage s f g len = .ok r) : r.bytes.length ≤ len := by
  rw [gainStage_eq_bind] at h
  split at h
  · obtain ⟨bytes, hb, h⟩ := bind_ok.1 h
    cases h
    exact (readAll_length hb).le
  · obtain ⟨bytes, -, h⟩ := bind_ok.1 h
    cases h
    rw [packAll_length, List.length_map, unpackAll_length, Nat.mul_assoc, Nat.mul_comm f.ch]
    exact Nat.div_mul_le_self len f.frameBytes

/-- A last element is one of the list's, or the default. -/
theorem length_getLastD_le {α : Type} {xs : List (List α)} {n : ℕ} (h : ∀ x ∈ xs, x.length = n) :
    (xs.getLastD []).length ≤ n := by
  cases xs with
  | nil => exact Nat.zero_le n
  | cons x xs => exact (h _ (by rw [List.getLastD_cons]; exact List.getLastD_mem_cons ..)).le

theorem Depth.bytes_of_ofBits {n : ℕ} {d : Depth} (h : Depth.ofBits n = some d) :
    n / 8 = d.bytes := by
  unfold Depth.ofBits at h
  split_ifs at h with h8 h16 h24
  · cases h; rw [h8]; rfl
  · cases h; rw [h16]; rfl
  · cases h; rw [h24]; rfl

/-- R28, R101: the frame size from the fields of FMT. -/
theorem FormatIs.frameBytes_eq {s : State} {f : Format} (h : FormatIs s f) :
    f.frameBytes = s.fmtBits / 8 * s.fmtCh := by
  obtain ⟨hd, -, hc, -⟩ := h
  rw [Format.frameBytes, Depth.bytes_of_ofBits hd, hc]

theorem FormatIs.ch_eq {s : State} {f : Format} (h : FormatIs s f) : f.ch = s.fmtCh := by
  obtain ⟨-, -, hc, -⟩ := h
  exact hc

theorem FormatIs.ch_le {s : State} {f : Format} (h : FormatIs s f) : f.ch ≤ s.cap.ch := by
  obtain ⟨-, -, hc, -, hle, -⟩ := h
  exact hc ▸ hle

/-! ### Where a read stops -/

/-- In a canonical memory the stopping index of a read lies in the run and holds no value. -/
theorem Memory.readRun_error {α : Type} {len lo : ℕ} {m : Memory α}
    (hw : Memory.wfFrom len lo m = true) {i n j : ℕ} (h : Memory.readRun m i n = .error j) :
    i ≤ j ∧ j < i + n ∧ Memory.read m j = none := by
  induction m generalizing lo i n with
  | nil =>
    cases n with
    | zero => cases h
    | succ n => cases h; exact ⟨le_rfl, by omega, rfl⟩
  | cons e m ih =>
    obtain ⟨k, v⟩ := e
    simp only [Memory.wfFrom, Bool.and_eq_true, decide_eq_true_eq] at hw
    cases n with
    | zero => cases h
    | succ n =>
      rw [Memory.readRun] at h
      split_ifs at h with h1 h2
      · obtain ⟨h3, h4, h5⟩ := ih hw.2 h
        exact ⟨h3, h4, by rwa [Memory.read, if_neg (by omega)]⟩
      · cases hr : Memory.readRun m (i + 1) n with
        | ok us => simp [hr] at h
        | error l =>
          simp only [hr, Except.error.injEq] at h
          subst h
          obtain ⟨h3, h4, h5⟩ := ih hw.2 hr
          exact ⟨by omega, by omega, by rwa [Memory.read, if_neg (by omega)]⟩
      · cases h
        refine ⟨le_rfl, by omega, ?_⟩
        rw [Memory.read, if_neg h2]
        exact Memory.read_of_wfFrom_lt hw.2 _ (by omega)

theorem Memory.lt_of_read {α : Type} {len lo : ℕ} {m : Memory α}
    (hw : Memory.wfFrom len lo m = true) {k : ℕ} {v : α} (h : Memory.read m k = some v) : k < len := by
  induction m generalizing lo with
  | nil => cases h
  | cons e m ih =>
    obtain ⟨j, u⟩ := e
    simp only [Memory.wfFrom, Bool.and_eq_true, decide_eq_true_eq] at hw
    rw [Memory.read] at h
    split_ifs at h with hj
    · omega
    · exact ih hw.2 h

theorem readAll_error {α : Type} {sp : Space} {len : ℕ} {m : Memory α} (hw : Memory.wf len m = true)
    {i n : ℕ} {e : Stop} (h : readAll sp m i n = .error e) :
    ∃ k, e = .refuse (.unwritten sp k) ∧ k < i + n ∧ Memory.read m k = none := by
  unfold readAll at h
  cases hr : Memory.readRun m i n with
  | ok vs => simp [hr] at h
  | error j =>
    simp only [hr, Except.error.injEq] at h
    obtain ⟨-, h2, h3⟩ := Memory.readRun_error hw hr
    exact ⟨j, h.symm, h2, h3⟩

theorem finiteFrom_error {sp : Space} {i : ℕ} {ws : List Word} {e : Stop}
    (h : finiteFrom sp i ws = .error e) :
    ∃ k w, e = .refuse (.nonFiniteElement sp (i + k)) ∧ ws[k]? = some w ∧ f32 w = none := by
  induction ws generalizing i with
  | nil => cases h
  | cons w ws ih =>
    rw [finiteFrom] at h
    cases hw : f32 w with
    | none =>
      simp only [hw, Except.error.injEq] at h
      exact ⟨0, w, h.symm, rfl, hw⟩
    | some q =>
      cases hr : finiteFrom sp (i + 1) ws with
      | ok qs => simp [hw, hr] at h
      | error d =>
        simp only [hw, hr, Except.error.injEq] at h
        subst h
        obtain ⟨k, v, h1, h2, h3⟩ := ih hr
        exact ⟨k + 1, v, by rw [h1, Nat.add_right_comm, Nat.add_assoc], h2, h3⟩

/-- Why a read of float operands stops: an element without a value, or one that is not finite. -/
theorem readFloats_error {sp : Space} {len : ℕ} {m : Memory Word} (hw : Memory.wf len m = true)
    {i n : ℕ} {e : Stop} (h : readFloats sp m i n = .error e) :
    (∃ k, e = .refuse (.unwritten sp k) ∧ k < i + n ∧ Memory.read m k = none) ∨
      ∃ k w, e = .refuse (.nonFiniteElement sp k) ∧ k < i + n ∧
        Memory.read m k = some w ∧ f32 w = none := by
  rw [readFloats_eq_bind] at h
  rcases bind_error.1 h with h | ⟨ws, hws, h⟩
  · exact .inl (readAll_error hw h)
  · obtain ⟨k, w, h1, h2, h3⟩ := finiteFrom_error h
    obtain ⟨hk, rfl⟩ := List.getElem?_eq_some_iff.1 h2
    obtain ⟨hl, hh⟩ := (readAll_holds hw).1 hws
    exact .inr ⟨i + k, _, h1, by omega, hh k hk, h3⟩

end Sys2Proof.Machine

/-! What each command leaves unchanged (R49): its frame, and the elements outside the runs it writes. -/

namespace Sys2Proof.Machine

/-! ### Elements outside the runs a command writes -/

/-- R42: an element outside the first n frames of every channel keeps its value. -/
theorem read_writeChannels_outside {cap ch n a : ℕ} {xs : List (List Word)} (m : Memory Word)
    (hxs : xs.length = ch) (hl : ∀ x ∈ xs, x.length = n)
    (ha : ∀ c, c < ch → ¬(c * cap ≤ a ∧ a < c * cap + n)) :
    Memory.read (writeChannels cap m 0 xs) a = Memory.read m a := by
  refine read_writeChannels_out xs m 0 a fun k hk => ?_
  have hout := ha k (hxs ▸ hk)
  rw [hl _ (List.getElem_mem hk), Nat.zero_add]
  omega

/-- R121: the bytes from DST_LEN on keep their values. -/
theorem read_storeDst_of_le (s : State) {bytes : List Byte} (hb : bytes.length < 2 ^ 32) {a : ℕ}
    (ha : (storeDst s bytes).dstLen.toNat ≤ a) :
    Memory.read (storeDst s bytes).dst a = Memory.read s.dst a := by
  have hlen : (storeDst s bytes).dstLen.toNat = bytes.length := by
    simpa [storeDst] using Nat.mod_eq_of_lt hb
  exact Memory.read_writeRun_out _ _ _ _ (.inr (by omega))

/-! ### The codec and the gain stage -/

theorem decode_frame {s t : State} (h : exec .decode s = .next t) :
    t = { s with cmd := t.cmd, busy := t.busy, isDone := t.isDone, err := t.err, trunc := t.trunc,
                 smp := t.smp, smpLen := t.smpLen } := by
  rcases finish_next.1 h with ⟨e, he, rfl⟩ | ⟨c, -, rfl⟩
  · obtain ⟨f, bytes, -, -, -, -, rfl⟩ := decodeRule_ok.1 he
    rfl
  · rfl

/-- R107: DECODE keeps SMP outside the frames it stores. -/
theorem decode_keeps_smp {s t : State} (h : exec .decode s = .next t) {a : ℕ}
    (ha : ∀ c, c < s.fmtCh → ¬(c * s.cap.smp ≤ a ∧
      a < c * s.cap.smp + s.srcLen.toNat / (s.fmtBits / 8 * s.fmtCh))) :
    Memory.read t.smp a = Memory.read s.smp a := by
  rcases finish_next.1 h with ⟨e, he, rfl⟩ | ⟨c, -, rfl⟩
  · obtain ⟨f, bytes, hf, -, -, -, rfl⟩ := decodeRule_ok.1 he
    rw [← hf.frameBytes_eq] at ha
    refine read_writeChannels_outside s.smp ?_ (fun x hx => ?_) ha
    · rw [List.length_map, decodeFrames_length, hf.ch_eq]
    · obtain ⟨y, hy, rfl⟩ := List.mem_map.1 hx
      rw [List.length_map, length_of_mem_decodeFrames hy]
  · rfl

theorem encode_frame {s t : State} (h : exec .encode s = .next t) :
    t = { s with cmd := t.cmd, busy := t.busy, isDone := t.isDone, err := t.err, trunc := t.trunc,
                 dst := t.dst, dstLen := t.dstLen } := by
  rcases finish_next.1 h with ⟨e, he, rfl⟩ | ⟨c, -, rfl⟩
  · obtain ⟨f, chs, bytes, -, -, -, -, -, rfl⟩ := encodeRule_ok.1 he
    rfl
  · rfl

/-- R108: the bytes ENCODE stores are at most those of its frames. -/
theorem encodeRule_bytes_length_le {s : State} {f : Format} {chs : List (List Word)}
    {bytes : List Byte} {n : ℕ} (hc : readPatterns s.cap.smp s.smp n 0 f.ch = .ok chs)
    (hb : encodeFrames s.cap.smp f n chs = .ok bytes) : bytes.length ≤ n * f.frameBytes := by
  calc bytes.length ≤ n * chs.length * f.depth.bytes := encodeFrames_length_le hb
    _ = n * f.frameBytes := by rw [(readPatterns_ok hc).1, Format.frameBytes]; ring

/-- R108: ENCODE keeps DST from DST_LEN on. -/
theorem encode_keeps_dst {s t : State} (h : exec .encode s = .next t) (hcap : s.cap.dst < 2 ^ 32)
    (hok : t.err = .none) {a : ℕ} (ha : t.dstLen.toNat ≤ a) :
    Memory.read t.dst a = Memory.read s.dst a := by
  rcases finish_next.1 h with ⟨e, he, rfl⟩ | ⟨c, -, rfl⟩
  · obtain ⟨f, chs, bytes, -, -, hfit, hc, hb, rfl⟩ := encodeRule_ok.1 he
    have hlen := encodeRule_bytes_length_le hc hb
    have ha' : s.smpLen.toNat * f.frameBytes ≤ a := by
      have hm : s.smpLen.toNat * f.frameBytes % 2 ^ 32 ≤ a := by simpa using ha
      rwa [Nat.mod_eq_of_lt (by omega)] at hm
    exact Memory.read_writeRun_out _ _ _ _ (.inr (by omega))
  · rfl

theorem gain_frame {s t : State} (h : exec .gain s = .next t) :
    t = { s with cmd := t.cmd, busy := t.busy, isDone := t.isDone, err := t.err, trunc := t.trunc,
                 dst := t.dst, dstLen := t.dstLen } := by
  rcases finish_next.1 h with ⟨e, he, rfl⟩ | ⟨c, -, rfl⟩
  · obtain ⟨f, g, r, -, -, -, -, -, rfl⟩ := gainRule_ok.1 he
    rfl
  · rfl

/-- R121: GAIN keeps DST from DST_LEN on. -/
theorem gain_keeps_dst {s t : State} (h : exec .gain s = .next t) {a : ℕ}
    (ha : t.dstLen.toNat ≤ a) : Memory.read t.dst a = Memory.read s.dst a := by
  rcases finish_next.1 h with ⟨e, he, rfl⟩ | ⟨c, -, rfl⟩
  · obtain ⟨f, g, r, -, -, -, -, hr, rfl⟩ := gainRule_ok.1 he
    exact read_storeDst_of_le s ((gainStage_bytes_length_le hr).trans_lt s.srcLen.isLt) ha
  · rfl

/-- Settles O55: each rule's answer read off as a record update of the state it ran on. -/
theorem frameOfCodecAndGain : Obligations.FrameOfCodecAndGain := by
  refine ⟨fun s t h => ⟨decode_frame h, fun a => decode_keeps_smp h⟩, ?_⟩
  rintro i s t (rfl | rfl) h
  · exact ⟨encode_frame h, fun hcap hok a => encode_keeps_dst h hcap hok⟩
  · exact ⟨gain_frame h, fun _ _ a => gain_keeps_dst h⟩

/-! ### The spectral commands -/

/-- R133, R134: a transform writes XR and XI, and nothing from element 2^logn on. -/
theorem transform_frame {parts : ℕ → List ℚ → List ℚ → Cyc.Parts} {logn : BitVec 5} {s t : State}
    (hparts : ∀ n re im, (parts n re im).re.length = 2 ^ n ∧ (parts n re im).im.length = 2 ^ n)
    (h : finish s (transformRule parts logn s) = .next t) :
    t = { s with cmd := t.cmd, busy := t.busy, isDone := t.isDone, err := t.err, trunc := t.trunc,
                 xr := t.xr, xi := t.xi } ∧
      ∀ a, 2 ^ logn.toNat ≤ a → Memory.read t.xr a = Memory.read s.xr a ∧
        Memory.read t.xi a = Memory.read s.xi a := by
  rcases finish_next.1 h with ⟨e, he, rfl⟩ | ⟨c, -, rfl⟩
  · obtain ⟨re, im, -, -, -, rfl⟩ := transformRule_ok.1 he
    obtain ⟨hre, him⟩ := hparts logn.toNat re im
    refine ⟨rfl, fun a ha => ⟨?_, ?_⟩⟩
    · exact Memory.read_writeRun_out _ _ _ _ (.inr (by rw [storeParts_length, hre]; omega))
    · exact Memory.read_writeRun_out _ _ _ _ (.inr (by rw [storeParts_length, him]; omega))
  · exact ⟨rfl, fun a _ => ⟨rfl, rfl⟩⟩

/-- R135: MAGPH stores one magnitude and one phase for each operand. -/
theorem magph_stored_length {logn : BitVec 5} {s : State} {re im : List ℚ}
    (hre : readFloats .xr s.xr 0 (2 ^ logn.toNat) = .ok re)
    (him : readFloats .xi s.xi 0 (2 ^ logn.toNat) = .ok im) :
    (storeReals (magnitudes · re im)).length = 2 ^ logn.toNat ∧
      (storeReals (phases · re im)).length = 2 ^ logn.toNat := by
  have hmin : min re.length im.length = 2 ^ logn.toNat := by
    rw [readFloats_length hre, readFloats_length him, Nat.min_self]
  exact ⟨storeReals_length _ _ fun A => (magnitudes_length A re im).trans hmin,
    storeReals_length _ _ fun A => (phases_length A re im).trans hmin⟩

/-- R135: MAGPH writes MAG and PH, and nothing from element 2^logn on. -/
theorem magph_frame {logn : BitVec 5} {s t : State} (h : exec (.magph logn) s = .next t) :
    t = { s with cmd := t.cmd, busy := t.busy, isDone := t.isDone, err := t.err, trunc := t.trunc,
                 mag := t.mag, ph := t.ph } ∧
      ∀ a, 2 ^ logn.toNat ≤ a → Memory.read t.mag a = Memory.read s.mag a ∧
        Memory.read t.ph a = Memory.read s.ph a := by
  rcases finish_next.1 h with ⟨e, he, rfl⟩ | ⟨c, -, rfl⟩
  · obtain ⟨re, im, -, hre, him, rfl⟩ := magphRule_ok.1 he
    obtain ⟨hmag, hph⟩ := magph_stored_length hre him
    refine ⟨rfl, fun a ha => ⟨?_, ?_⟩⟩
    · exact Memory.read_writeRun_out _ _ _ _ (.inr (by rw [hmag]; omega))
    · exact Memory.read_writeRun_out _ _ _ _ (.inr (by rw [hph]; omega))
  · exact ⟨rfl, fun a _ => ⟨rfl, rfl⟩⟩

/-- Settles O56: the two transforms are one rule over their parts. -/
theorem frameOfSpectralCommands : Obligations.FrameOfSpectralCommands := by
  refine ⟨?_, fun logn s t => magph_frame⟩
  rintro i logn s t (rfl | rfl) h
  · exact transform_frame fftParts_length h
  · exact transform_frame ifftParts_length h

/-! ### What the float stages write -/

theorem autoEstimated_frame (s : State) (x : List ℚ) :
    ∃ profile pstate, autoEstimated s x = { s with profile := profile, pstate := pstate } := by
  unfold autoEstimated
  split
  · exact ⟨_, _, rfl⟩
  · exact ⟨_, _, rfl⟩

theorem storeHiddenNr_frame (s : State) (k : NrTrack (Numerics.enclosing Config.precision)) :
    ∃ prevMag prevPh, storeHiddenNr s k = { s with prevMag := prevMag, prevPh := prevPh } := by
  unfold storeHiddenNr
  split
  · exact ⟨_, _, rfl⟩
  · exact ⟨_, _, rfl⟩

/-- R45: PREVMAG and PREVPH change only with noise reduction, LA only with anti-distortion. -/
theorem storeHidden_frame (s : State) (st : Stages) (x : List ℚ) :
    ∃ prevMag prevPh la, storeHidden s st (chainRun Config.precision st x) =
        { s with prevMag := prevMag, prevPh := prevPh, la := la } ∧
      (st.nr = none → prevMag = s.prevMag ∧ prevPh = s.prevPh) ∧ (st.ad = none → la = s.la) := by
  obtain ⟨nr, ad⟩ := st
  cases nr with
  | none =>
    cases ad with
    | none => exact ⟨_, _, _, rfl, fun _ => ⟨rfl, rfl⟩, fun _ => rfl⟩
    | some ad => exact ⟨_, _, _, rfl, fun _ => ⟨rfl, rfl⟩, nofun⟩
  | some u =>
    obtain ⟨prevMag, prevPh, hk⟩ := storeHiddenNr_frame s
      (nrChannel (Numerics.enclosing Config.precision) u
        (x.map (Numerics.enclosing Config.precision).rat))
    cases ad with
    | none => exact ⟨prevMag, prevPh, s.la, hk, nofun, fun _ => rfl⟩
    | some ad =>
      refine ⟨prevMag, prevPh, (storeLa s ad.1 (chainRun Config.precision ⟨some u, some ad⟩ x).mid).la,
        ?_, nofun, nofun⟩
      change storeLa (storeHiddenNr s _) _ _ = _
      rw [hk]
      rfl

/-! ### Noise reduction and anti-distortion -/

theorem nrlearn_frame {s t : State} (h : exec .nrlearn s = .next t) :
    t = { s with cmd := t.cmd, busy := t.busy, isDone := t.isDone, err := t.err, trunc := t.trunc,
                 profile := t.profile, pstate := t.pstate, xr := t.xr, xi := t.xi } := by
  rcases finish_next.1 h with ⟨e, he, rfl⟩ | ⟨c, -, rfl⟩
  · obtain ⟨f, x, -, -, -, -, rfl⟩ := nrlearnRule_ok.1 he
    rfl
  · rfl

theorem nrlearnr_frame {s t : State} (h : exec .nrlearnr s = .next t) :
    t = { s with cmd := t.cmd, busy := t.busy, isDone := t.isDone, err := t.err, trunc := t.trunc,
                 profile := t.profile, pstate := t.pstate, xr := t.xr, xi := t.xi } := by
  rcases finish_next.1 h with ⟨e, he, rfl⟩ | ⟨c, -, rfl⟩
  · obtain ⟨f, x, -, -, -, -, -, -, rfl⟩ := nrlearnrRule_ok.1 he
    rfl
  · rfl

theorem nrreset_frame {s t : State} (h : exec .nrreset s = .next t) :
    t = { s with cmd := t.cmd, busy := t.busy, isDone := t.isDone, err := t.err, trunc := t.trunc,
                 pstate := t.pstate } := by
  cases h
  rfl

theorem nrproc_frame {s t : State} (h : exec .nrproc s = .next t) :
    t = { s with cmd := t.cmd, busy := t.busy, isDone := t.isDone, err := t.err, trunc := t.trunc,
                 smp := t.smp, profile := t.profile, pstate := t.pstate, prevMag := t.prevMag,
                 prevPh := t.prevPh, xr := t.xr, xi := t.xi } := by
  rcases finish_next.1 h with ⟨e, he, rfl⟩ | ⟨c, -, rfl⟩
  · obtain ⟨par, xs, profile, -, -, -, -, -, -, rfl⟩ := nrprocRule_ok.1 he
    obtain ⟨prevMag, prevPh, hk⟩ := storeHiddenNr_frame (autoEstimated s (xs.getD 0 []))
      (nrRun Config.precision ⟨par, profile⟩ (xs.getLastD []))
    obtain ⟨p, ps, hp⟩ := autoEstimated_frame s (xs.getD 0 [])
    rw [hk, hp]
    rfl
  · rfl

theorem adproc_frame {s t : State} (h : exec .adproc s = .next t) :
    t = { s with cmd := t.cmd, busy := t.busy, isDone := t.isDone, err := t.err, trunc := t.trunc,
                 smp := t.smp, la := t.la } := by
  rcases finish_next.1 h with ⟨e, he, rfl⟩ | ⟨c, -, rfl⟩
  · obtain ⟨las, par, xs, -, -, -, -, -, -, -, rfl⟩ := adprocRule_ok.1 he
    rfl
  · rfl

/-- R168, R180: words stored for the channels read keep SMP outside their frames. -/
theorem read_stored_channels {s : State} {xs : List (List ℚ)} {g : List ℚ → List Word} {l a : ℕ}
    (hxs : readChannels s.cap.smp s.smp l 0 s.fmtCh = .ok xs) (hg : ∀ x, (g x).length = x.length)
    (ha : ∀ c, c < s.fmtCh → ¬(c * s.cap.smp ≤ a ∧ a < c * s.cap.smp + l)) :
    Memory.read (writeChannels s.cap.smp s.smp 0 (xs.map g)) a = Memory.read s.smp a := by
  obtain ⟨hn, hl⟩ := readChannels_length hxs
  exact read_writeChannels_outside s.smp (by rw [List.length_map, hn]) (length_of_mem_map hg hl) ha

theorem nrproc_keeps_smp {s t : State} (h : exec .nrproc s = .next t) {a : ℕ}
    (ha : ∀ c, c < s.fmtCh → ¬(c * s.cap.smp ≤ a ∧ a < c * s.cap.smp + s.smpLen.toNat)) :
    Memory.read t.smp a = Memory.read s.smp a := by
  rcases finish_next.1 h with ⟨e, he, rfl⟩ | ⟨c, -, rfl⟩
  · obtain ⟨par, xs, profile, -, -, -, -, hxs, -, rfl⟩ := nrprocRule_ok.1 he
    exact read_stored_channels hxs (nrStored_length _) ha
  · rfl

theorem adproc_keeps_smp {s t : State} (h : exec .adproc s = .next t) {a : ℕ}
    (ha : ∀ c, c < s.fmtCh → ¬(c * s.cap.smp ≤ a ∧ a < c * s.cap.smp + s.smpLen.toNat)) :
    Memory.read t.smp a = Memory.read s.smp a := by
  rcases finish_next.1 h with ⟨e, he, rfl⟩ | ⟨c, -, rfl⟩
  · obtain ⟨las, par, xs, -, -, -, -, -, -, hxs, rfl⟩ := adprocRule_ok.1 he
    exact read_stored_channels hxs (adStored_length _ _ _) ha
  · rfl

/-- Settles O57: each rule's answer read off as a record update of the state it ran on. -/
theorem frameOfFloatStages : Obligations.FrameOfFloatStages := by
  refine ⟨?_, fun s t => nrreset_frame, fun s t => nrproc_frame, fun s t => adproc_frame, ?_⟩
  · rintro i s t (rfl | rfl) h
    · exact nrlearn_frame h
    · exact nrlearnr_frame h
  · rintro i s t (rfl | rfl) h a
    · exact nrproc_keeps_smp h
    · exact adproc_keeps_smp h

end Sys2Proof.Machine

/-! What PROCESS leaves unchanged, by its enables (R49, R190). -/

namespace Sys2Proof.Machine

/-- R190: the bytes the float branch encodes are at most those of its frames. -/
theorem floatStages_bytes_length_le {cap : ℕ} {f : Format} {n : ℕ} {st : Stages} {b out : List Byte}
    (h : encodeFrames cap f n ((decodeFrames f n b).map (chainStored st)) = .ok out) :
    out.length ≤ n * f.frameBytes := by
  calc out.length ≤ n * ((decodeFrames f n b).map (chainStored st)).length * f.depth.bytes :=
        encodeFrames_length_le h
    _ = n * f.frameBytes := by rw [List.length_map, decodeFrames_length, Format.frameBytes]; ring

/-- R190, R49: what the float branch writes, and what it keeps where a stage is disabled. -/
theorem floatStages_frame {s s' : State} {f : Format} {n : ℕ} {nr : Option NrParams}
    {ad : Option (ℕ × AdParams × Bool)} {b : List Byte}
    (h : floatStages s f n nr ad b = .ok s') :
    (∃ out words, out.length ≤ n * f.frameBytes ∧ words.length = f.ch ∧
      (∀ x ∈ words, x.length = n) ∧
      s' = storeDst { s with
        smp := writeChannels s.cap.smp s.smp 0 words, smpLen := BitVec.ofNat 32 n
        profile := s'.profile, pstate := s'.pstate, prevMag := s'.prevMag, prevPh := s'.prevPh
        xr := s'.xr, xi := s'.xi, la := s'.la } out) ∧
    (nr = none → s'.profile = s.profile ∧ s'.pstate = s.pstate ∧ s'.prevMag = s.prevMag ∧
      s'.prevPh = s.prevPh ∧ s'.xr = s.xr ∧ s'.xi = s.xi) ∧
    (ad = none → s'.la = s.la) := by
  obtain ⟨s1, setup, out, hs1, hsetup, hout, rfl⟩ := floatStages_ok.1 h
  obtain ⟨prevMag, prevPh, la, hk, hnr, had⟩ :=
    storeHidden_frame s1 ⟨setup, ad⟩ ((decodeFrames f n b).getLastD [])
  rw [hk]
  have hle := floatStages_bytes_length_le hout
  have hwords : ∀ w ∈ (decodeFrames f n b).map (chainStored ⟨setup, ad⟩), w.length = n :=
    length_of_mem_map (chainStored_length _) fun x => length_of_mem_decodeFrames
  cases nr with
  | none =>
    obtain rfl : s1 = s := hs1
    obtain ⟨hmag, hph⟩ := hnr hsetup
    exact ⟨⟨out, _, hle, by simp, hwords, rfl⟩, fun _ => ⟨rfl, rfl, hmag, hph, rfl, rfl⟩, had⟩
  | some par =>
    obtain ⟨p, ps, hp⟩ := autoEstimated_frame s ((decodeFrames f n b).getD 0 [])
    obtain rfl : s1 = { s with profile := p, pstate := ps } := hs1.trans hp
    exact ⟨⟨out, _, hle, by simp, hwords, rfl⟩, nofun, had⟩

/-- R190: with NR_EN = 0 no noise reduction stage is set up. -/
theorem processNr_disabled {s : State} {nr : Option NrParams} (h : processNr s = .ok nr)
    (hn : s.nrEn = false) : nr = none := by
  rw [processNr, hn] at h
  cases h
  rfl

/-- R190: with AD_EN = 0 no anti-distortion stage is set up. -/
theorem processAd_disabled {s : State} {ad : Option (ℕ × AdParams × Bool)}
    (h : processAd s = .ok ad) (ha : s.adEn = false) : ad = none := by
  rw [processAd, ha] at h
  cases h
  rfl

/-- Everything PROCESS can answer: the float branch, the gained bytes alone, or an error. -/
theorem process_cases {s t : State} (h : exec .process s = .next t) :
    (∃ f s' nr ad r e, FormatIs s f ∧ s.srcLen.toNat ≤ s.cap.src ∧ s.srcLen.toNat ≤ s.cap.dst ∧
        s.srcLen.toNat / f.frameBytes ≤ s.cap.smp ∧ (s.nrEn || s.adEn) = true ∧
        processAd s = .ok ad ∧ processNr s = .ok nr ∧
        floatStages s f (s.srcLen.toNat / f.frameBytes) nr ad r = .ok s' ∧
        t = complete s' .none e) ∨
      (∃ bytes e, bytes.length ≤ s.srcLen.toNat ∧ s.srcLen.toNat ≤ s.cap.dst ∧
        (s.nrEn || s.adEn) = false ∧ t = complete (storeDst s bytes) .none e) ∨
      ∃ c, t = raiseErr s c := by
  rcases finish_next.1 h with ⟨e, he, rfl⟩ | ⟨c, -, rfl⟩
  · obtain ⟨f, ad, g, nr, r, hf, hsrc, hdst, hsmp, had, -, hnr, hr, hbranch⟩ := processRule_ok.1 he
    split at hbranch
    · next hen =>
      obtain ⟨s', hs', rfl⟩ := hbranch
      exact .inl ⟨f, s', nr, ad, _, _, hf, hsrc, hdst, hsmp hen, hen, had, hnr, hs', rfl⟩
    · next hen =>
      subst hbranch
      exact .inr (.inl ⟨_, _, gainStage_bytes_length_le hr, hdst, by simpa using hen, rfl⟩)
  · exact .inr (.inr ⟨c, rfl⟩)

theorem process_frame {s t : State} (h : exec .process s = .next t) :
    t = { s with cmd := t.cmd, busy := t.busy, isDone := t.isDone, err := t.err, trunc := t.trunc,
                 dst := t.dst, dstLen := t.dstLen, smp := t.smp, smpLen := t.smpLen,
                 profile := t.profile, pstate := t.pstate, prevMag := t.prevMag,
                 prevPh := t.prevPh, xr := t.xr, xi := t.xi, la := t.la } := by
  rcases process_cases h with
    ⟨f, s', nr, ad, r, e, -, -, -, -, -, -, -, hs', rfl⟩ | ⟨bytes, e, -, -, -, rfl⟩ | ⟨c, rfl⟩
  · obtain ⟨⟨out, words, -, -, -, hs'⟩, -, -⟩ := floatStages_frame hs'
    rw [hs']
    rfl
  · rfl
  · rfl

/-- R190: without a float stage PROCESS keeps SMP and SMP_LEN. -/
theorem process_keeps_smp_of_disabled {s t : State} (h : exec .process s = .next t)
    (hn : s.nrEn = false) (ha : s.adEn = false) : t.smp = s.smp ∧ t.smpLen = s.smpLen := by
  rcases process_cases h with
    ⟨f, s', nr, ad, r, e, -, -, -, -, hen, -, -, hs', rfl⟩ | ⟨bytes, e, -, -, -, rfl⟩ | ⟨c, rfl⟩
  · simp [hn, ha] at hen
  · exact ⟨rfl, rfl⟩
  · exact ⟨rfl, rfl⟩

/-- R190: without noise reduction PROCESS keeps the profile, the frame history and the transform. -/
theorem process_keeps_noise_state {s t : State} (h : exec .process s = .next t)
    (hn : s.nrEn = false) : t.profile = s.profile ∧ t.pstate = s.pstate ∧ t.prevMag = s.prevMag ∧
      t.prevPh = s.prevPh ∧ t.xr = s.xr ∧ t.xi = s.xi := by
  rcases process_cases h with
    ⟨f, s', nr, ad, r, e, -, -, -, -, -, -, hnr, hs', rfl⟩ | ⟨bytes, e, -, -, -, rfl⟩ | ⟨c, rfl⟩
  · obtain ⟨-, hkeep, -⟩ := floatStages_frame hs'
    exact hkeep (processNr_disabled hnr hn)
  · exact ⟨rfl, rfl, rfl, rfl, rfl, rfl⟩
  · exact ⟨rfl, rfl, rfl, rfl, rfl, rfl⟩

/-- R190: without anti-distortion PROCESS keeps LA. -/
theorem process_keeps_la {s t : State} (h : exec .process s = .next t) (ha : s.adEn = false) :
    t.la = s.la := by
  rcases process_cases h with
    ⟨f, s', nr, ad, r, e, -, -, -, -, -, had, -, hs', rfl⟩ | ⟨bytes, e, -, -, -, rfl⟩ | ⟨c, rfl⟩
  · obtain ⟨-, -, hkeep⟩ := floatStages_frame hs'
    exact hkeep (processAd_disabled had ha)
  · rfl
  · rfl

/-- R190: PROCESS keeps DST from DST_LEN on. -/
theorem process_keeps_dst {s t : State} (h : exec .process s = .next t) {a : ℕ}
    (ha : t.dstLen.toNat ≤ a) : Memory.read t.dst a = Memory.read s.dst a := by
  rcases process_cases h with
    ⟨f, s', nr, ad, r, e, -, -, -, -, -, -, -, hs', rfl⟩ | ⟨bytes, e, hb, -, -, rfl⟩ | ⟨c, rfl⟩
  · obtain ⟨⟨out, words, hout, -, -, hs'⟩, -, -⟩ := floatStages_frame hs'
    have hlen : out.length < 2 ^ 32 :=
      (hout.trans (Nat.div_mul_le_self ..)).trans_lt s.srcLen.isLt
    rw [complete_dstLen, hs'] at ha
    rw [complete_dst, hs']
    exact read_storeDst_of_le _ hlen ha
  · exact read_storeDst_of_le s (hb.trans_lt s.srcLen.isLt) ha
  · rfl

/-- R190, R42: PROCESS keeps SMP outside the frames it stores. -/
theorem process_keeps_smp_outside {s t : State} (h : exec .process s = .next t) {a : ℕ}
    (ha : ∀ c, c < s.fmtCh → ¬(c * s.cap.smp ≤ a ∧
      a < c * s.cap.smp + s.srcLen.toNat / (s.fmtBits / 8 * s.fmtCh))) :
    Memory.read t.smp a = Memory.read s.smp a := by
  rcases process_cases h with
    ⟨f, s', nr, ad, r, e, hf, -, -, -, -, -, -, hs', rfl⟩ | ⟨bytes, e, -, -, -, rfl⟩ | ⟨c, rfl⟩
  · obtain ⟨⟨out, words, -, hch, hl, hs'⟩, -, -⟩ := floatStages_frame hs'
    rw [← hf.frameBytes_eq] at ha
    rw [complete_smp, hs']
    exact read_writeChannels_outside s.smp (hch.trans hf.ch_eq) hl ha
  · rfl
  · rfl

/-- Settles O58: the float branch by its stages, and the gained bytes alone without one. -/
theorem frameOfProcess : Obligations.FrameOfProcess := fun _ _ h =>
  ⟨process_frame h, process_keeps_smp_of_disabled h, process_keeps_noise_state h, process_keeps_la h,
    fun _ _ _ => process_keeps_dst h, fun _ => process_keeps_smp_outside h⟩

end Sys2Proof.Machine

/-! The invariant (R22, R25, R28, R32, R37, R40, R44, R150): what it says of a state, that every stored
result keeps it, and that every step does. -/

namespace Sys2Proof.Machine

/-! ### The invariant's parts -/

/-- What the invariant says of everything but STATUS's BUSY and DONE and the latched word. -/
structure State.Stored (s : State) : Prop where
  cap : s.cap.wf = true
  src : Memory.wf s.cap.src s.src = true
  aux : Memory.wf s.cap.aux s.aux = true
  dst : Memory.wf s.cap.dst s.dst = true
  smp : Memory.wf (s.cap.ch * s.cap.smp) s.smp = true
  xr : Memory.wf Config.fftSize s.xr = true
  xi : Memory.wf Config.fftSize s.xi = true
  mag : Memory.wf Config.fftSize s.mag = true
  ph : Memory.wf Config.fftSize s.ph = true
  profile : Memory.wf Config.nBins s.profile = true
  prevMag : Memory.wf Config.nBins s.prevMag = true
  prevPh : Memory.wf Config.nBins s.prevPh = true
  la : Memory.wf (s.cap.smp + s.cap.la) s.la = true
  fmt : s.fmt &&& fmtMask = s.fmt
  ctrl : s.ctrl &&& ctrlMask = s.ctrl
  dstLen : s.dstLen.toNat ≤ s.cap.dst
  filled : s.pstate = .unset ∨ ∀ b < Config.nBins, (Memory.read s.profile b).isSome = true

theorem State.memWf_iff {s : State} : s.memWf = true ↔
    Memory.wf s.cap.src s.src = true ∧ Memory.wf s.cap.aux s.aux = true ∧
    Memory.wf s.cap.dst s.dst = true ∧ Memory.wf (s.cap.ch * s.cap.smp) s.smp = true ∧
    Memory.wf Config.fftSize s.xr = true ∧ Memory.wf Config.fftSize s.xi = true ∧
    Memory.wf Config.fftSize s.mag = true ∧ Memory.wf Config.fftSize s.ph = true ∧
    Memory.wf Config.nBins s.profile = true ∧ Memory.wf Config.nBins s.prevMag = true ∧
    Memory.wf Config.nBins s.prevPh = true ∧ Memory.wf (s.cap.smp + s.cap.la) s.la = true := by
  simp only [State.memWf, Bool.and_eq_true, and_assoc]

theorem State.regWf_iff {s : State} : s.regWf = true ↔
    s.fmt &&& fmtMask = s.fmt ∧ s.ctrl &&& ctrlMask = s.ctrl ∧ (s.busy = true ∨ s.cmd = 0) ∧
      ¬(s.busy = true ∧ s.isDone = true) ∧ s.dstLen.toNat ≤ s.cap.dst := by
  simp only [State.regWf, Bool.and_eq_true, Bool.or_eq_true, beq_iff_eq, Bool.not_eq_true',
    Bool.and_eq_false_iff, decide_eq_true_eq, and_assoc, not_and_or, Bool.not_eq_true]

theorem State.profileWf_iff {s : State} : s.profileWf = true ↔
    s.pstate = .unset ∨ ∀ b < Config.nBins, (Memory.read s.profile b).isSome = true := by
  simp only [State.profileWf, Bool.or_eq_true, decide_eq_true_eq, List.all_eq_true, List.mem_range]

theorem State.inv_iff {s : State} : s.Inv ↔
    s.Stored ∧ (s.busy = true ∨ s.cmd = 0) ∧ ¬(s.busy = true ∧ s.isDone = true) := by
  unfold State.Inv
  rw [State.memWf_iff, State.regWf_iff, State.profileWf_iff]
  constructor
  · rintro ⟨hcap, ⟨h1, h2, h3, h4, h5, h6, h7, h8, h9, h10, h11, h12⟩, ⟨hf, hc, hl, hx, hd⟩, hp⟩
    exact ⟨⟨hcap, h1, h2, h3, h4, h5, h6, h7, h8, h9, h10, h11, h12, hf, hc, hd, hp⟩, hl, hx⟩
  · rintro ⟨h, hl, hx⟩
    exact ⟨h.cap, ⟨h.src, h.aux, h.dst, h.smp, h.xr, h.xi, h.mag, h.ph, h.profile, h.prevMag,
      h.prevPh, h.la⟩, ⟨h.fmt, h.ctrl, hl, hx, h.dstLen⟩, h.filled⟩

theorem State.Inv.stored {s : State} (h : s.Inv) : s.Stored := (State.inv_iff.1 h).1

/-- R25, R203: a completed command leaves the engine idle and done. -/
theorem State.Stored.complete {s : State} (h : s.Stored) (e : ErrCode) (t : Bool) :
    (complete s e t).Inv :=
  State.inv_iff.2 ⟨{ h with }, .inr rfl, by simp⟩

/-- R25, R203: an accepted command leaves the engine busy and not done. -/
theorem State.Stored.accept {s : State} (h : s.Stored) (w : Word) : (accept s w).Inv :=
  State.inv_iff.2 ⟨{ h with }, .inl rfl, by simp⟩

/-! ### Lengths of what a command stores -/

/-- R170: a frame's magnitudes and spectrum have at most NBINS bins. -/
theorem nrChannel_bins_length_le (A : Numerics) (u : NrSetup) (x : List A.R) :
    (∀ m2s ∈ (nrChannel A u x).prevMag, m2s.length ≤ Config.nBins) ∧
      (nrChannel A u x).last.length ≤ Config.nBins := by
  refine List.foldlRecOn (motive := fun k : NrTrack A =>
    (∀ m2s ∈ k.prevMag, m2s.length ≤ Config.nBins) ∧ k.last.length ≤ Config.nBins) _ _
    ⟨nofun, Nat.zero_le _⟩ fun k _ o _ => ⟨?_, ?_⟩
  · intro m2s hm
    simp only [nrFrame, Option.mem_def, Option.some.injEq] at hm
    simp [← hm]
  · simp [nrFrame, spectrum]

theorem nrRun_bins_length_le (u : NrSetup) (x : List ℚ) :
    (∀ m2s ∈ (nrRun Config.precision u x).prevMag, m2s.length ≤ Config.nBins) ∧
      (nrRun Config.precision u x).last.length ≤ Config.nBins :=
  nrChannel_bins_length_le ..

/-- R155: every entry of PROFILE is the one just stored. -/
theorem read_setProfile (s : State) (x : List ℚ) (starts : List ℕ) (ps : PState) {k : ℕ}
    (hk : k < Config.nBins) :
    Memory.read (setProfile s x starts ps).profile k = (profileStored x starts)[k]? := by
  have hin : 0 ≤ k ∧ k < 0 + (profileStored x starts).length :=
    ⟨Nat.zero_le k, by rwa [profileStored_length, Nat.zero_add]⟩
  rw [setProfile_profile, Memory.read_writeRun, if_pos hin, Nat.sub_zero]

/-! ### Stored results keep the invariant -/

namespace State.Stored

variable {s : State} (h : s.Stored)
include h

theorem setProfile (x : List ℚ) (starts : List ℕ) (ps : PState) :
    (setProfile s x starts ps).Stored :=
  { h with
    profile := Memory.wf_writeRun h.profile 0 _ (by rw [profileStored_length]; decide)
    filled := .inr fun b hb => by
      rw [read_setProfile s x starts ps hb, List.getElem?_eq_getElem (by rwa [profileStored_length])]
      rfl }

theorem autoEstimated (x : List ℚ) : (autoEstimated s x).Stored := by
  unfold Machine.autoEstimated
  split
  · exact h.setProfile ..
  · exact h

theorem clobberTransform : (clobberTransform s).Stored :=
  { h with xr := Memory.wf_nil _, xi := Memory.wf_nil _ }

theorem storeHiddenNr {k : NrTrack (Numerics.enclosing Config.precision)}
    (hm : ∀ m2s ∈ k.prevMag, m2s.length ≤ Config.nBins) (hl : k.last.length ≤ Config.nBins) :
    (storeHiddenNr s k).Stored := by
  unfold Machine.storeHiddenNr
  split
  · exact h
  · next m2s hk =>
    exact { h with
      prevMag := Memory.wf_writeRun h.prevMag 0 _ (by simpa using hm m2s hk)
      prevPh := Memory.wf_writeRun h.prevPh 0 _ (by simpa using hl) }

theorem storeLa {las : ℕ} {x : List Encl} (hx : x.length ≤ s.cap.smp) (hlas : las ≤ s.cap.la) :
    (storeLa s las x).Stored :=
  { h with
    la := Memory.wf_writeRun h.la 0 _ (by
      rw [lookAheadBuffer, List.length_append, List.length_replicate]; omega) }

theorem storeDst {bytes : List Byte} (hb : bytes.length ≤ s.cap.dst) : (storeDst s bytes).Stored :=
  { h with
    dst := Memory.wf_writeRun h.dst 0 _ (by simpa using hb)
    dstLen := by
      rw [storeDst_dstLen, storeDst_cap, BitVec.toNat_ofNat]
      exact (Nat.mod_le ..).trans hb }

/-- R42: words of at most SMP_CAP frames a channel, for at most CH_MAX channels, fit SMP. -/
theorem wf_channels {words : List (List Word)} {n : ℕ} (hch : words.length ≤ s.cap.ch)
    (hw : ∀ w ∈ words, w.length = n) (hn : n ≤ s.cap.smp) :
    Memory.wf (s.cap.ch * s.cap.smp) (writeChannels s.cap.smp s.smp 0 words) = true :=
  wf_writeChannels words s.smp 0 h.smp (by omega) fun w hmem => (hw w hmem).trans_le hn

theorem withSmp {m : Memory Word} (hm : Memory.wf (s.cap.ch * s.cap.smp) m = true) (n : Word) :
    State.Stored { s with smp := m, smpLen := n } :=
  { h with smp := hm }

end State.Stored

/-! ### Updates keep the capacities -/

theorem autoEstimated_cap (s : State) (x : List ℚ) : (autoEstimated s x).cap = s.cap := by
  obtain ⟨p, ps, h⟩ := autoEstimated_frame s x
  rw [h]

theorem storeHiddenNr_cap (s : State) (k : NrTrack (Numerics.enclosing Config.precision)) :
    (storeHiddenNr s k).cap = s.cap := by
  obtain ⟨m, p, h⟩ := storeHiddenNr_frame s k
  rw [h]

theorem storeHidden_cap (s : State) (st : Stages) (x : List ℚ) :
    (storeHidden s st (chainRun Config.precision st x)).cap = s.cap := by
  obtain ⟨m, p, l, h, -⟩ := storeHidden_frame s st x
  rw [h]

/-! ### Commands -/

theorem decodeRule_stored {s : State} {e : Effect} (h : s.Stored) (he : decodeRule s = .ok e) :
    e.state.Stored := by
  obtain ⟨f, bytes, hf, -, hn, -, rfl⟩ := decodeRule_ok.1 he
  refine h.withSmp (h.wf_channels ?_ (fun w hw => ?_) hn) _
  · rw [List.length_map, decodeFrames_length]
    exact hf.ch_le
  · obtain ⟨y, hy, rfl⟩ := List.mem_map.1 hw
    rw [List.length_map, length_of_mem_decodeFrames hy]

theorem encodeRule_stored {s : State} {e : Effect} (h : s.Stored) (he : encodeRule s = .ok e) :
    e.state.Stored := by
  obtain ⟨f, chs, bytes, -, -, hfit, hc, hb, rfl⟩ := encodeRule_ok.1 he
  have hle := encodeRule_bytes_length_le hc hb
  exact { h with
    dst := Memory.wf_writeRun h.dst 0 _ (by omega)
    dstLen := by
      rw [BitVec.toNat_ofNat]
      exact (Nat.mod_le ..).trans hfit }

theorem gainRule_stored {s : State} {e : Effect} (h : s.Stored) (he : gainRule s = .ok e) :
    e.state.Stored := by
  obtain ⟨f, g, r, -, -, hdst, -, hr, rfl⟩ := gainRule_ok.1 he
  exact h.storeDst ((gainStage_bytes_length_le hr).trans hdst)

theorem two_pow_logn_le {n : ℕ} (hn : n ≤ 11) : 2 ^ n ≤ Config.fftSize :=
  Nat.pow_le_pow_right (by decide) hn

theorem transformRule_stored {parts : ℕ → List ℚ → List ℚ → Cyc.Parts} {logn : BitVec 5} {s : State}
    {e : Effect} (hparts : ∀ n re im,
      (parts n re im).re.length = 2 ^ n ∧ (parts n re im).im.length = 2 ^ n)
    (h : s.Stored) (he : transformRule parts logn s = .ok e) : e.state.Stored := by
  obtain ⟨re, im, hn, -, -, rfl⟩ := transformRule_ok.1 he
  obtain ⟨hre, him⟩ := hparts logn.toNat re im
  exact { h with
    xr := Memory.wf_writeRun h.xr 0 _ (by
      rw [storeParts_length, hre, Nat.zero_add]; exact two_pow_logn_le hn)
    xi := Memory.wf_writeRun h.xi 0 _ (by
      rw [storeParts_length, him, Nat.zero_add]; exact two_pow_logn_le hn) }

theorem magphRule_stored {logn : BitVec 5} {s : State} {e : Effect} (h : s.Stored)
    (he : magphRule logn s = .ok e) : e.state.Stored := by
  obtain ⟨re, im, hn, hre, him, rfl⟩ := magphRule_ok.1 he
  obtain ⟨hmag, hph⟩ := magph_stored_length hre him
  exact { h with
    mag := Memory.wf_writeRun h.mag 0 _ (by rw [hmag, Nat.zero_add]; exact two_pow_logn_le hn)
    ph := Memory.wf_writeRun h.ph 0 _ (by rw [hph, Nat.zero_add]; exact two_pow_logn_le hn) }

theorem nrlearnRule_stored {s : State} {e : Effect} (h : s.Stored) (he : nrlearnRule s = .ok e) :
    e.state.Stored := by
  obtain ⟨f, x, -, -, -, -, rfl⟩ := nrlearnRule_ok.1 he
  exact (h.setProfile ..).clobberTransform

theorem nrlearnrRule_stored {s : State} {e : Effect} (h : s.Stored) (he : nrlearnrRule s = .ok e) :
    e.state.Stored := by
  obtain ⟨f, x, -, -, -, -, -, -, rfl⟩ := nrlearnrRule_ok.1 he
  exact (h.setProfile ..).clobberTransform

theorem nrprocRule_stored {s : State} {e : Effect} (h : s.Stored) (he : nrprocRule s = .ok e) :
    e.state.Stored := by
  obtain ⟨par, xs, profile, -, hch, hn, -, hxs, -, rfl⟩ := nrprocRule_ok.1 he
  obtain ⟨hlen, hl⟩ := readChannels_length hxs
  obtain ⟨hm, hlast⟩ := nrRun_bins_length_le ⟨par, profile⟩ (xs.getLastD [])
  refine (((h.autoEstimated _).storeHiddenNr hm hlast).withSmp ?_ _).clobberTransform
  rw [storeHiddenNr_cap, autoEstimated_cap]
  exact h.wf_channels (by rw [List.length_map, hlen]; exact hch)
    (length_of_mem_map (nrStored_length _) hl) hn

theorem adprocRule_stored {s : State} {e : Effect} (h : s.Stored) (he : adprocRule s = .ok e) :
    e.state.Stored := by
  obtain ⟨las, par, xs, -, hch, hn, -, hlas, -, hxs, rfl⟩ := adprocRule_ok.1 he
  obtain ⟨hlen, hl⟩ := readChannels_length hxs
  have hx : ((xs.getLastD []).map Encl.exact).length ≤ s.cap.smp := by
    rw [List.length_map]
    exact (length_getLastD_le hl).trans hn
  refine (h.storeLa hx hlas).withSmp ?_ _
  exact h.wf_channels (by rw [List.length_map, hlen]; exact hch)
    (length_of_mem_map (adStored_length _ _ _) hl) hn

/-- R190, R202: the look-ahead of an enabled anti-distortion stage fits LA. -/
theorem processAd_lookAhead_le {s : State} {las : ℕ} {par : AdParams} {soft : Bool}
    (h : processAd s = .ok (some (las, par, soft))) : las ≤ s.cap.la := by
  unfold processAd at h
  split at h
  · obtain ⟨n, -, h⟩ := bind_ok.1 h
    obtain ⟨u, hle, h⟩ := bind_ok.1 h
    obtain ⟨p, -, h⟩ := bind_ok.1 h
    cases h
    simpa using hle
  · cases h

theorem storeHidden_stored {s : State} {st : Stages} {x : List ℚ} (h : s.Stored)
    (hx : x.length ≤ s.cap.smp) (had : ∀ a ∈ st.ad, a.1 ≤ s.cap.la) :
    (storeHidden s st (chainRun Config.precision st x)).Stored := by
  obtain ⟨-, hmid⟩ := chainRun_length Config.precision st x
  obtain ⟨nr, ad⟩ := st
  cases nr with
  | none =>
    cases ad with
    | none => exact h
    | some ad => exact h.storeLa (hmid.trans_le hx) (had ad rfl)
  | some u =>
    obtain ⟨hm, hl⟩ := nrRun_bins_length_le u x
    have hnr := h.storeHiddenNr hm hl
    cases ad with
    | none => exact hnr
    | some ad =>
      refine hnr.storeLa (x := (chainRun Config.precision ⟨some u, some ad⟩ x).mid) ?_ ?_
      · rw [storeHiddenNr_cap]
        exact hmid.trans_le hx
      · rw [storeHiddenNr_cap]
        exact had ad rfl

theorem floatStages_stored {s s' : State} {f : Format} {n : ℕ} {nr : Option NrParams}
    {ad : Option (ℕ × AdParams × Bool)} {b : List Byte} (h : s.Stored) (hch : f.ch ≤ s.cap.ch)
    (hn : n ≤ s.cap.smp) (hdst : n * f.frameBytes ≤ s.cap.dst) (had : ∀ a ∈ ad, a.1 ≤ s.cap.la)
    (hs : floatStages s f n nr ad b = .ok s') : s'.Stored := by
  obtain ⟨s1, setup, out, rfl, -, hout, rfl⟩ := floatStages_ok.1 hs
  have hx : ((decodeFrames f n b).getLastD []).length ≤ s.cap.smp :=
    (length_getLastD_le fun x => length_of_mem_decodeFrames).trans hn
  have hsmp := h.wf_channels (words := (decodeFrames f n b).map (chainStored ⟨setup, ad⟩))
    (by simpa using hch)
    (length_of_mem_map (chainStored_length _) fun x => length_of_mem_decodeFrames) hn
  have hbytes := (floatStages_bytes_length_le hout).trans hdst
  cases nr with
  | none =>
    refine State.Stored.storeDst ((storeHidden_stored h hx had).withSmp ?_ _) ?_
    · rwa [storeHidden_cap]
    · change out.length ≤ (storeHidden ..).cap.dst
      rwa [storeHidden_cap]
  | some par =>
    have h1 := h.autoEstimated ((decodeFrames f n b).getD 0 [])
    have hcap := autoEstimated_cap s ((decodeFrames f n b).getD 0 [])
    have hhidden := storeHidden_stored (st := ⟨setup, ad⟩) h1 (hcap ▸ hx) (hcap ▸ had)
    refine State.Stored.storeDst (hhidden.withSmp ?_ _).clobberTransform ?_
    · rwa [storeHidden_cap, hcap]
    · change out.length ≤ (storeHidden ..).cap.dst
      rwa [storeHidden_cap, hcap]

theorem process_inv {s t : State} (h : s.Stored) (ht : exec .process s = .next t) : t.Inv := by
  rcases process_cases ht with
    ⟨f, s', nr, ad, r, e, hf, -, hdst, hsmp, -, had, -, hs', rfl⟩ | ⟨bytes, e, hb, hdst, -, rfl⟩ |
      ⟨c, rfl⟩
  · have hbytes := (Nat.div_mul_le_self s.srcLen.toNat f.frameBytes).trans hdst
    refine (floatStages_stored h hf.ch_le hsmp hbytes ?_ hs').complete ..
    rintro ⟨las, par, soft⟩ rfl
    exact processAd_lookAhead_le had
  · exact (h.storeDst (hb.trans hdst)).complete ..
  · exact h.complete ..

/-- A command whose rule keeps what is stored keeps the invariant, as an error entry does (R204). -/
theorem finish_inv {s t : State} {r : Except Stop Effect} (h : s.Stored)
    (hr : ∀ e, r = .ok e → e.state.Stored) (ht : finish s r = .next t) : t.Inv := by
  rcases finish_next.1 ht with ⟨e, he, rfl⟩ | ⟨c, -, rfl⟩
  · exact (hr e he).complete ..
  · exact h.complete ..

theorem exec_inv {i : Instr} {s t : State} (h : s.Stored) (ht : exec i s = .next t) : t.Inv := by
  cases i with
  | decode => exact finish_inv h (fun _ => decodeRule_stored h) ht
  | encode => exact finish_inv h (fun _ => encodeRule_stored h) ht
  | gain => exact finish_inv h (fun _ => gainRule_stored h) ht
  | fft logn => exact finish_inv h (fun _ => transformRule_stored fftParts_length h) ht
  | ifft logn => exact finish_inv h (fun _ => transformRule_stored ifftParts_length h) ht
  | magph logn => exact finish_inv h (fun _ => magphRule_stored h) ht
  | nrlearn => exact finish_inv h (fun _ => nrlearnRule_stored h) ht
  | nrlearnr => exact finish_inv h (fun _ => nrlearnrRule_stored h) ht
  | nrreset =>
    cases ht
    exact State.Stored.complete (s := { s with pstate := .unset }) { h with filled := .inl rfl } ..
  | nrproc => exact finish_inv h (fun _ => nrprocRule_stored h) ht
  | adproc => exact finish_inv h (fun _ => adprocRule_stored h) ht
  | process => exact process_inv h ht

/-- R49: SRC_LEN and the capacities, which no command writes. -/
theorem exec_keeps_srcLen_cap {i : Instr} {s t : State} (h : exec i s = .next t) :
    t.srcLen = s.srcLen ∧ t.cap = s.cap := by
  cases i with
  | decode => rw [decode_frame h]; exact ⟨rfl, rfl⟩
  | encode => rw [encode_frame h]; exact ⟨rfl, rfl⟩
  | gain => rw [gain_frame h]; exact ⟨rfl, rfl⟩
  | fft logn => rw [(transform_frame fftParts_length h).1]; exact ⟨rfl, rfl⟩
  | ifft logn => rw [(transform_frame ifftParts_length h).1]; exact ⟨rfl, rfl⟩
  | magph logn => rw [(magph_frame h).1]; exact ⟨rfl, rfl⟩
  | nrlearn => rw [nrlearn_frame h]; exact ⟨rfl, rfl⟩
  | nrlearnr => rw [nrlearnr_frame h]; exact ⟨rfl, rfl⟩
  | nrreset => rw [nrreset_frame h]; exact ⟨rfl, rfl⟩
  | nrproc => rw [nrproc_frame h]; exact ⟨rfl, rfl⟩
  | adproc => rw [adproc_frame h]; exact ⟨rfl, rfl⟩
  | process => rw [process_frame h]; exact ⟨rfl, rfl⟩

/-! ### The engine and the host -/

/-- R81, R203: the engine's turn runs a command, enters an error, or changes nothing. -/
theorem engineTurn_inv {s t : State} (h : s.Inv) (ht : engineTurn s = .next t) :
    t.Inv ∧ t.cap = s.cap := by
  unfold engineTurn at ht
  split at ht
  · split at ht
    · exact ⟨exec_inv h.stored ht, (exec_keeps_srcLen_cap ht).2⟩
    · cases ht
      exact ⟨h.stored.complete .., rfl⟩
  · cases ht
    exact ⟨h, rfl⟩

theorem writeCmd_inv {s : State} (h : s.Inv) (w : Word) :
    (writeCmd s w).Inv ∧ (writeCmd s w).cap = s.cap := by
  unfold writeCmd
  split
  · exact ⟨h.stored.accept w, rfl⟩
  · exact ⟨(h.stored.accept w).stored.complete .., rfl⟩

/-- A state with the same engine state keeps the invariant where what it stores does. -/
theorem State.Inv.of_stored {s t : State} (h : s.Inv) (ht : t.Stored) (hb : t.busy = s.busy)
    (hd : t.isDone = s.isDone) (hc : t.cmd = s.cmd) : t.Inv := by
  obtain ⟨-, hl, hx⟩ := State.inv_iff.1 h
  exact State.inv_iff.2 ⟨ht, by rwa [hb, hc], by rwa [hb, hd]⟩

/-- R28, R37: a write of FMT or CTRL leaves the reserved bits 0. -/
theorem and_mask_idem (v m : Word) : v &&& m &&& m = v &&& m := by
  rw [BitVec.and_assoc, BitVec.and_self]

theorem writeReg_inv {s : State} (h : s.Inv) (i : ℕ) (v : Word) :
    (writeReg s i v).Inv ∧ (writeReg s i v).cap = s.cap := by
  match i with
  | 0 => exact writeCmd_inv h v
  | 2 => exact ⟨h.of_stored { h.stored with fmt := and_mask_idem .. } rfl rfl rfl, rfl⟩
  | 4 => exact ⟨h.of_stored { h.stored with filled := .inl rfl } rfl rfl rfl, rfl⟩
  | 15 => exact ⟨h.of_stored { h.stored with ctrl := and_mask_idem .. } rfl rfl rfl, rfl⟩
  | 3 | 5 | 7 | 8 | 9 | 10 | 11 | 12 | 13 | 14 | 16 | 17 => exact ⟨h, rfl⟩
  | 1 | 6 | _ + 18 => exact ⟨h, rfl⟩

theorem hostWrite_inv {s : State} (h : s.Inv) (sp : Space) (i : ℕ) (v : Word) :
    (hostWrite s sp i v).Inv ∧ (hostWrite s sp i v).cap = s.cap := by
  unfold hostWrite
  split
  · next hi =>
    have hs := h.stored
    cases sp with
    | reg => exact writeReg_inv h i v
    | src => exact ⟨h.of_stored { hs with src := Memory.wf_write hs.src i _ hi } rfl rfl rfl, rfl⟩
    | aux => exact ⟨h.of_stored { hs with aux := Memory.wf_write hs.aux i _ hi } rfl rfl rfl, rfl⟩
    | smp => exact ⟨h.of_stored { hs with smp := Memory.wf_write hs.smp i _ hi } rfl rfl rfl, rfl⟩
    | xr => exact ⟨h.of_stored { hs with xr := Memory.wf_write hs.xr i _ hi } rfl rfl rfl, rfl⟩
    | xi => exact ⟨h.of_stored { hs with xi := Memory.wf_write hs.xi i _ hi } rfl rfl rfl, rfl⟩
    | dst | mag | ph | profile => exact ⟨h, rfl⟩
  · exact ⟨h, rfl⟩

theorem hostRead_inv {s : State} (h : s.Inv) (sp : Space) (i : ℕ) :
    (hostRead s sp i).Inv ∧ (hostRead s sp i).cap = s.cap := by
  unfold hostRead
  split
  · exact ⟨h, rfl⟩
  · exact ⟨h, rfl⟩

/-- R47, R230: the reset state meets the invariant for any capacities R7 allows. -/
theorem hostReset_inv {s : State} (h : s.Inv) : (hostReset s).Inv ∧ (hostReset s).cap = s.cap :=
  have hreg : (hostReset s).regWf = true :=
    State.regWf_iff.2 ⟨BitVec.zero_and, BitVec.zero_and, .inr rfl, fun ⟨hb, _⟩ => (nomatch hb),
      Nat.zero_le _⟩
  ⟨⟨h.stored.cap, rfl, hreg, rfl⟩, rfl⟩

theorem hostTurn_inv {s t : State} {op : HostOp} (h : s.Inv) (ht : hostTurn s op = .next t) :
    t.Inv ∧ t.cap = s.cap := by
  unfold hostTurn at ht
  split at ht
  · cases ht
  · cases op with
    | read sp i => cases ht; exact hostRead_inv h sp i
    | write sp i v => cases ht; exact hostWrite_inv h sp i v
    | reset => cases ht; exact hostReset_inv h
    | wait => cases ht; exact hostRead_inv h .reg 1

/-- Settles O60: the engine's turn and every host transaction keep the invariant. -/
theorem stepKeepsTheInvariant : Obligations.StepKeepsTheInvariant := by
  intro s t h ht
  unfold step at ht
  split at ht
  · exact engineTurn_inv h ht
  · next op rest _ =>
    split at ht
    · exact engineTurn_inv h ht
    · exact hostTurn_inv (s := { s with script := rest }) h ht

end Sys2Proof.Machine

/-! The host's view of the registers and memories (R21 to R48, R60 to R68): STATUS, what a read answers,
what a write stores, and when the step runs the latched command. -/

namespace Sys2Proof.Machine

/-! ### STATUS -/

theorem PState.code_le (p : PState) : p.code ≤ 2 := by
  cases p <;> decide

theorem ErrCode.code_le (e : ErrCode) : e.code ≤ 6 := by
  cases e <;> decide

theorem State.status_fields_le (s : State) : s.busy.toNat ≤ 1 ∧ s.isDone.toNat ≤ 1 ∧
    s.pstate.code ≤ 2 ∧ s.err.code ≤ 6 ∧ s.trunc.toNat ≤ 1 :=
  ⟨s.busy.toNat_le, s.isDone.toNat_le, s.pstate.code_le, s.err.code_le, s.trunc.toNat_le⟩

/-- R24: the fields do not overlap, so the word is their weighted sum. -/
theorem State.statusWord_toNat (s : State) : s.statusWord.toNat =
    s.busy.toNat + 2 * s.isDone.toNat + 4 * s.pstate.code + 16 * s.err.code + 256 * s.trunc.toNat := by
  obtain ⟨h1, h2, h3, h4, h5⟩ := s.status_fields_le
  rw [State.statusWord, BitVec.toNat_ofNat, Nat.mod_eq_of_lt (by omega)]

theorem State.statusWord_lt (s : State) : s.statusWord.toNat < 512 := by
  obtain ⟨h1, h2, h3, h4, h5⟩ := s.status_fields_le
  rw [s.statusWord_toNat]
  omega

/-- A bit of a word, from its value. -/
theorem getLsbD_eq_of_div_mod {w : Word} {k : ℕ} {b : Bool} (h : w.toNat / 2 ^ k % 2 = b.toNat) :
    w.getLsbD k = b := by
  rw [BitVec.getLsbD, Nat.testBit_eq_decide_div_mod_eq, h]
  cases b <;> rfl

/-- Settles O9: each field is a quotient of the weighted sum. -/
theorem statusWordHasItsFields : Obligations.StatusWordHasItsFields := by
  intro s
  obtain ⟨h1, h2, h3, h4, h5⟩ := s.status_fields_le
  have hw := s.statusWord_toNat
  refine ⟨getLsbD_eq_of_div_mod ?_, getLsbD_eq_of_div_mod ?_, ?_, ?_, getLsbD_eq_of_div_mod ?_,
    s.statusWord_lt⟩
  · omega
  · omega
  · have hp : (s.statusWord.extractLsb' 2 2).toNat = s.pstate.code := by
      rw [BitVec.extractLsb'_toNat, Nat.shiftRight_eq_div_pow]
      omega
    rw [hp]
    cases s.pstate <;> rfl
  · have he : (s.statusWord.extractLsb' 4 4).toNat = s.err.code := by
      rw [BitVec.extractLsb'_toNat, Nat.shiftRight_eq_div_pow]
      omega
    rw [he]
    cases s.err <;> rfl
  · omega

/-! ### Registers -/

/-- R23, R39: CMD and the reserved indices read 0. -/
theorem State.regWord_of_reserved (s : State) {i : ℕ} (h : 18 ≤ i) : s.regWord i = 0 := by
  obtain ⟨k, rfl⟩ := Nat.exists_eq_add_of_le' h
  rfl

/-- R39: a write of a reserved index is ignored. -/
theorem writeReg_of_reserved (s : State) {i : ℕ} (h : 18 ≤ i) (v : Word) : writeReg s i v = s := by
  obtain ⟨k, rfl⟩ := Nat.exists_eq_add_of_le' h
  rfl

theorem hostWrite_reg (s : State) {i : ℕ} (h : i < 32) (v : Word) :
    hostWrite s .reg i v = writeReg s i v := if_pos h

/-- R62: a write beyond the space's length is ignored. -/
theorem hostWrite_of_le (s : State) {sp : Space} {i : ℕ} (h : spaceLen s.cap sp ≤ i) (v : Word) :
    hostWrite s sp i v = s := if_neg (Nat.not_lt.2 h)

/-- R41, R43, R44: DST, MAG, PH and PROFILE are read-only for the host. -/
theorem hostWrite_readOnly (s : State) {sp : Space} (h : sp ∈ [Space.dst, .mag, .ph, .profile])
    (i : ℕ) (v : Word) : hostWrite s sp i v = s := by
  unfold hostWrite
  split
  · fin_cases h <;> rfl
  · rfl

/-- R60: what a read answers where the spec gives a value. -/
theorem hostRead_of_some {s : State} {sp : Space} {i : ℕ} {w : Word} (h : s.peek sp i = some w) :
    hostRead s sp i = { s with answer := some w } := by
  rw [hostRead, h]

/-- R48, R62: what a read answers where it gives none. -/
theorem hostRead_of_none {s : State} {sp : Space} {i : ℕ} (h : s.peek sp i = none) :
    hostRead s sp i =
      { s with answer := some (asElement sp (Config.freeRead s.draws)), draws := s.draws + 1 } := by
  rw [hostRead, h]

/-! ### The value a read finds -/

theorem peek_reg (s : State) (i : ℕ) :
    s.peek .reg i = if i < 32 then some (s.regWord i) else none := rfl
theorem peek_src (s : State) (i : ℕ) : s.peek .src i =
    if i < s.cap.src then (Memory.read s.src i).map (·.setWidth 32) else none := rfl
theorem peek_aux (s : State) (i : ℕ) : s.peek .aux i =
    if i < s.cap.aux then (Memory.read s.aux i).map (·.setWidth 32) else none := rfl
theorem peek_smp (s : State) (i : ℕ) : s.peek .smp i =
    if i < s.cap.ch * s.cap.smp then Memory.read s.smp i else none := rfl
theorem peek_xr (s : State) (i : ℕ) : s.peek .xr i =
    if i < 2048 then Memory.read s.xr i else none := rfl
theorem peek_xi (s : State) (i : ℕ) : s.peek .xi i =
    if i < 2048 then Memory.read s.xi i else none := rfl

/-- R44: PROFILE has a value for the host only unless PSTATE is Unset. -/
theorem peek_profile (s : State) (i : ℕ) : s.peek .profile i =
    if i < 1025 ∧ s.pstate ≠ .unset then Memory.read s.profile i else none := by
  by_cases hp : s.pstate = .unset <;> simp [State.peek, spaceLen, Config.nBins, hp]

/-! ### The statements -/

/-- Settles O4: the script lets the engine move. -/
theorem stepRunsTheDecodedCommand : Obligations.StepRunsTheDecodedCommand := by
  intro s i hb hd hs
  have hturn : engineTurn s = exec i s := by rw [engineTurn, if_pos hb, hd]
  rcases hs with hs | ⟨rest, hs⟩
  · rw [step, hs]
    exact hturn
  · rw [step, hs]
    exact (if_pos ⟨rfl, hb⟩).trans hturn

/-- Settles O10: every register of the reset state is a literal 0. -/
theorem resetRegistersAreZero : Obligations.ResetRegistersAreZero := by
  refine ⟨fun i => ?_, rfl, rfl, rfl, rfl, rfl, rfl, ?_⟩
  · unfold State.regWord
    split <;> rfl
  · have hu : units 0#32 = 0 := by decide
    rw [f32, if_pos (by decide), hu, Rat.zero_mkRat]

/-- Settles O12: loading a source is one register write, and every command's frame keeps SRC_LEN. -/
theorem sourceLengthWriteUnsetsProfile : Obligations.SourceLengthWriteUnsetsProfile :=
  ⟨fun s v => hostWrite_reg s (by decide) v, fun _ _ _ h => (exec_keeps_srcLen_cap h).1⟩

/-- Settles O13: reserved indices by their bound, reserved bits by the write masks. -/
theorem reservedRegistersAndBitsReadZero : Obligations.ReservedRegistersAndBitsReadZero := by
  refine ⟨fun s i v h1 h2 => ⟨?_, ?_⟩, fun s v =>
    ⟨hostWrite_reg s (by decide) v, rfl, hostWrite_reg s (by decide) v, rfl,
      hostWrite_reg s (by decide) v, s.statusWord_lt⟩⟩
  · rw [hostWrite_reg s h2, writeReg_of_reserved s h1]
  · exact hostRead_of_some (by rw [peek_reg, if_pos h2, s.regWord_of_reserved h1])

/-- Settles O14: each index selects its register. -/
theorem hostRegisterWritesAndReads : Obligations.HostRegisterWritesAndReads := by
  refine ⟨fun s v => ?_, fun s i v => ⟨hostWrite_readOnly s (by simp) i v,
    hostWrite_readOnly s (by simp) i v, hostWrite_readOnly s (by simp) i v,
    hostWrite_readOnly s (by simp) i v, hostWrite_reg s (by decide) v,
    hostWrite_reg s (by decide) v, fun sp h => hostWrite_of_le s h v⟩⟩
  have hw : ∀ i < 32, hostWrite s .reg i v = writeReg s i v := fun i hi => hostWrite_reg s hi v
  exact ⟨hw 3 (by decide), rfl, hw 5 (by decide), rfl, hw 7 (by decide), rfl, hw 8 (by decide), rfl,
    hw 9 (by decide), rfl, hw 10 (by decide), rfl, hw 11 (by decide), rfl, hw 12 (by decide), rfl,
    hw 13 (by decide), rfl, hw 14 (by decide), rfl, hw 16 (by decide), rfl, hw 17 (by decide), rfl,
    rfl, rfl, rfl, rfl⟩

/-- Settles O15: a read answers what `peek` finds, and `peek` is each space's read within its length. -/
theorem hostReadsAnswerWhatIsHeld : Obligations.HostReadsAnswerWhatIsHeld := fun s _ i =>
  ⟨fun _ => hostRead_of_some, hostRead_of_none, peek_reg s i, peek_src s i, peek_aux s i, rfl,
    peek_smp s i, peek_xr s i, peek_xi s i, rfl, rfl, peek_profile s i⟩

end Sys2Proof.Machine

/-! Why a command is refused (R29, R34 to R36, R48, R111, R152): each check and operand read names a true
cause, and so does every rule made of them. -/

namespace Sys2Proof.Machine

/-! ### Refusals of a sequence -/

/-- Every refusal of `x` satisfies `P`; errors are no refusals. -/
structure RefusesOnly (P : Refusal → Prop) {α : Type} (x : Except Stop α) : Prop where
  cause : ∀ r, x = .error (.refuse r) → P r

namespace RefusesOnly

variable {P : Refusal → Prop} {α β : Type}

theorem bind {x : Except Stop α} {f : α → Except Stop β} (hx : RefusesOnly P x)
    (hf : ∀ a, x = .ok a → RefusesOnly P (f a)) : RefusesOnly P (x >>= f) := by
  refine ⟨fun r hr => ?_⟩
  rcases bind_error.1 hr with hr | ⟨a, ha, hr⟩
  · exact hx.cause r hr
  · exact (hf a ha).cause r hr

theorem ok (a : α) : RefusesOnly P (.ok a) := ⟨nofun⟩

theorem pure (a : α) : RefusesOnly P (pure a : Except Stop α) := ok a

theorem raiseIf (c : Bool) (e : ErrCode) : RefusesOnly P (raiseIf c e) := by
  refine ⟨fun r hr => ?_⟩
  obtain ⟨-, h⟩ := (raiseIf_error c e _).1 hr
  cases h

theorem refuseIf {c : Bool} {r : Refusal} (h : c = true → P r) : RefusesOnly P (refuseIf c r) := by
  refine ⟨fun r' hr => ?_⟩
  obtain ⟨hc, hr⟩ := (refuseIf_error c r _).1 hr
  cases hr
  exact h hc

theorem fmtCheck (s : State) : RefusesOnly P (fmtCheck s) := by
  refine ⟨fun r hr => ?_⟩
  unfold Machine.fmtCheck at hr
  split at hr
  · cases hr
  · split at hr <;> cases hr

theorem chCheck (s : State) : RefusesOnly P (chCheck s) := by
  refine ⟨fun r hr => ?_⟩
  unfold Machine.chCheck at hr
  split at hr <;> cases hr

theorem lognCheck (n : BitVec 5) : RefusesOnly P (lognCheck n) := by
  refine ⟨fun r hr => ?_⟩
  unfold Machine.lognCheck at hr
  split at hr <;> cases hr

theorem param {k : ℕ} {w : Word} (h : f32 w = none → P (.nonFiniteParameter k)) :
    RefusesOnly P (param k w) := by
  refine ⟨fun r hr => ?_⟩
  unfold Machine.param at hr
  split at hr
  · cases hr
  · next hw =>
    cases hr
    exact h hw

/-! ### Operand reads -/

variable {sp : Space} {len : ℕ}

theorem readAll {m : Memory α} (hw : Memory.wf len m = true)
    (hu : ∀ k, Memory.read m k = none → P (.unwritten sp k)) (i n : ℕ) :
    RefusesOnly P (readAll sp m i n) := by
  refine ⟨fun r hr => ?_⟩
  obtain ⟨k, hk, -, hn⟩ := readAll_error hw hr
  cases hk
  exact hu k hn

theorem readFloats {m : Memory Word} (hw : Memory.wf len m = true) (i n : ℕ)
    (hu : ∀ k < i + n, Memory.read m k = none → P (.unwritten sp k))
    (hf : ∀ k w, k < i + n → Memory.read m k = some w → f32 w = none → P (.nonFiniteElement sp k)) :
    RefusesOnly P (readFloats sp m i n) := by
  refine ⟨fun r hr => ?_⟩
  rcases readFloats_error hw hr with ⟨k, hk, hlt, hn⟩ | ⟨k, w, hk, hlt, hs, hn⟩
  · cases hk
    exact hu k hlt hn
  · cases hk
    exact hf k w hlt hs hn

theorem readChannels {m : Memory Word} (hw : Memory.wf len m = true)
    (hu : ∀ k, Memory.read m k = none → P (.unwritten .smp k))
    (hf : ∀ k w, Memory.read m k = some w → f32 w = none → P (.nonFiniteElement .smp k))
    (cap f c n : ℕ) : RefusesOnly P (readChannels cap m f c n) := by
  induction n generalizing c with
  | zero => exact ok _
  | succ n ih =>
    rw [readChannels_succ]
    exact bind (readFloats hw _ _ (fun k _ => hu k) fun k w _ => hf k w) fun _ _ =>
      bind (ih (c + 1)) fun _ _ => ok _

theorem readPatterns {m : Memory Word} (hw : Memory.wf len m = true)
    (hu : ∀ k, Memory.read m k = none → P (.unwritten .smp k)) (cap f c n : ℕ) :
    RefusesOnly P (readPatterns cap m f c n) := by
  induction n generalizing c with
  | zero => exact ok _
  | succ n ih =>
    rw [readPatterns_succ]
    exact bind (readAll hw hu _ _) fun _ _ => bind (ih (c + 1)) fun _ _ => ok _

theorem learnSignal {m : Memory Byte} (hw : Memory.wf len m = true)
    (hu : ∀ k, Memory.read m k = none → P (.unwritten sp k)) (f : Format) (a n : ℕ) :
    RefusesOnly P (learnSignal sp m f a n) := by
  induction n generalizing a with
  | zero => exact ok _
  | succ n ih =>
    rw [learnSignal_succ]
    exact bind (readAll hw hu _ _) fun _ _ => bind (ih (a + 1)) fun _ _ => ok _

theorem gainStage {s : State} (hw : Memory.wf len s.src = true)
    (hu : ∀ k, Memory.read s.src k = none → P (.unwritten .src k)) (f : Format) (g : ℚ) (n : ℕ) :
    RefusesOnly P (gainStage s f g n) := by
  rw [gainStage_eq_bind]
  split
  · exact bind (readAll hw hu _ _) fun _ _ => ok _
  · exact bind (readAll hw hu _ _) fun _ _ => ok _

end RefusesOnly

/-! ### Patterns without an encoding -/

/-- R111: only a NaN has no encoding. -/
theorem quantise_f32x_eq_none {d : Depth} {w : Word} :
    quantise d (f32x w) = none ↔ f32 w = none ∧ fracField w ≠ 0 := by
  unfold f32x
  cases f32 w with
  | some q => simp [quantise]
  | none =>
    by_cases hf : fracField w = 0 <;> by_cases hs : signBit w = true <;> simp [hf, hs, quantise]

/-- R10, R111: a pattern that a store can produce has an encoding. -/
theorem quantise_storable_ne_none {d : Depth} {w : Word} (h : isStorable w = true) :
    quantise d (f32x w) ≠ none := by
  intro hq
  obtain ⟨hn, hfrac⟩ := quantise_f32x_eq_none.1 hq
  have hexp : expField w = 255 := by
    unfold f32 isFinite at hn
    simpa using hn
  simp only [isStorable, Bool.and_eq_true, decide_eq_true_eq] at h
  obtain ⟨hle, -⟩ := h
  rw [expField_eq] at hexp
  rw [fracField_eq] at hfrac
  omega

theorem quantiseFrom_error {d : Depth} {i : ℕ} {ws : List Word} {e : Stop}
    (h : quantiseFrom d i ws = .error e) : ∃ k w, e = .refuse (.nonFiniteElement .smp (i + k)) ∧
      ws[k]? = some w ∧ quantise d (f32x w) = none := by
  induction ws generalizing i with
  | nil => cases h
  | cons w ws ih =>
    rw [quantiseFrom] at h
    split at h
    · next hq =>
      cases h
      exact ⟨0, w, rfl, rfl, hq⟩
    · split at h
      · cases h
      · next hr =>
        cases h
        obtain ⟨k, v, h1, h2, h3⟩ := ih hr
        exact ⟨k + 1, v, by rw [h1, Nat.add_right_comm, Nat.add_assoc], h2, h3⟩

theorem quantiseChannels_error {cap : ℕ} {d : Depth} {c : ℕ} {xs : List (List Word)} {e : Stop}
    (h : quantiseChannels cap d c xs = .error e) :
    ∃ k x j w, e = .refuse (.nonFiniteElement .smp ((c + k) * cap + j)) ∧ xs[k]? = some x ∧
      x[j]? = some w ∧ quantise d (f32x w) = none := by
  induction xs generalizing c with
  | nil => cases h
  | cons x xs ih =>
    rw [quantiseChannels] at h
    split at h
    · next hq =>
      cases h
      obtain ⟨j, w, h1, h2, h3⟩ := quantiseFrom_error hq
      exact ⟨0, x, j, w, h1, rfl, h2, h3⟩
    · split at h
      · next hr =>
        cases h
        obtain ⟨k, y, j, w, h1, h2, h3, h4⟩ := ih hr
        exact ⟨k + 1, y, j, w, by rw [h1, Nat.add_right_comm, Nat.add_assoc], h2, h3, h4⟩
      · cases h

theorem encodeFrames_error {cap : ℕ} {f : Format} {n : ℕ} {chs : List (List Word)} {e : Stop}
    (h : encodeFrames cap f n chs = .error e) :
    ∃ k x j w, e = .refuse (.nonFiniteElement .smp (k * cap + j)) ∧ chs[k]? = some x ∧
      x[j]? = some w ∧ quantise f.depth (f32x w) = none := by
  unfold encodeFrames at h
  split at h
  · cases h
  · next hq =>
    cases h
    simpa using quantiseChannels_error hq

theorem isStorable_chainStored (st : Stages) (x : List ℚ) :
    ∀ w ∈ chainStored st x, isStorable w = true := by
  unfold chainStored storeReals
  exact isStorable_storeFloats _ _

/-- R190: the words a float stage stores are encoded without a refusal. -/
theorem encodeFrames_chainStored_ne_error {cap : ℕ} {f : Format} {n : ℕ} {st : Stages}
    {xs : List (List ℚ)} {e : Stop} : encodeFrames cap f n (xs.map (chainStored st)) ≠ .error e := by
  intro h
  obtain ⟨k, x, j, w, -, hx, hj, hq⟩ := encodeFrames_error h
  obtain ⟨y, -, rfl⟩ := List.mem_map.1 (List.mem_of_getElem? hx)
  exact quantise_storable_ne_none (isStorable_chainStored st y w (List.mem_of_getElem? hj)) hq

/-! ### The causes -/

/-- R152, R168, R190: x is channel 0 of the signal from which command i estimates the profile. -/
def EstimatesFrom (i : Instr) (s : State) (x : List ℚ) : Prop :=
  (i = .nrproc ∧ x.length = s.smpLen.toNat ∧ HoldsFloats s.smp 0 x) ∨
    (i = .process ∧ ∃ f g r, FormatIs s f ∧ f32 s.gainf = some g ∧
      gainStage s f g s.srcLen.toNat = .ok r ∧
      x = (decodeFrames f (s.srcLen.toNat / f.frameBytes) r.bytes).getD 0 [])

/-- U1, U2, U3: what a refusal of command i in state s says of the state. -/
def RefusalCause (i : Instr) (s : State) : Refusal → Prop
  | .unwritten sp k =>
    (sp ≠ .profile ∧ s.peek sp k = none) ∨
      (sp = .profile ∧ s.pstate ≠ .unset ∧ Memory.read s.profile k = none)
  | .nonFiniteElement sp k =>
    (sp ≠ .profile ∧ ∃ w, s.peek sp k = some w ∧ f32 w = none) ∨
      (sp = .profile ∧ s.pstate ≠ .unset ∧ ∃ w, Memory.read s.profile k = some w ∧ f32 w = none) ∨
      (sp = .profile ∧ s.pstate = .unset ∧ ∃ x w, EstimatesFrom i s x ∧
        (profileStored x (autoStarts x.length))[k]? = some w ∧ f32 w = none)
  | .nonFiniteParameter k => f32 (s.regWord k) = none
  | .parameterOutOfRange k => ∃ q, f32 (s.regWord k) = some q ∧ OutOfRange k q
  | .notModelled _ => False
  | .hostWhileBusy => False

section Causes

variable {i : Instr} {s : State}

theorem cause_unwritten_src {k : ℕ} (h : Memory.read s.src k = none) :
    RefusalCause i s (.unwritten .src k) :=
  .inl ⟨by decide, by rw [peek_src, h]; exact ite_self none⟩

theorem cause_unwritten_aux {k : ℕ} (h : Memory.read s.aux k = none) :
    RefusalCause i s (.unwritten .aux k) :=
  .inl ⟨by decide, by rw [peek_aux, h]; exact ite_self none⟩

theorem cause_unwritten_smp {k : ℕ} (h : Memory.read s.smp k = none) :
    RefusalCause i s (.unwritten .smp k) :=
  .inl ⟨by decide, by rw [peek_smp, h]; exact ite_self none⟩

theorem cause_unwritten_xr {k : ℕ} (h : Memory.read s.xr k = none) :
    RefusalCause i s (.unwritten .xr k) :=
  .inl ⟨by decide, by rw [peek_xr, h]; exact ite_self none⟩

theorem cause_unwritten_xi {k : ℕ} (h : Memory.read s.xi k = none) :
    RefusalCause i s (.unwritten .xi k) :=
  .inl ⟨by decide, by rw [peek_xi, h]; exact ite_self none⟩

variable (hw : s.memWf = true)
include hw

theorem cause_nonFinite_smp {k : ℕ} {w : Word} (h : Memory.read s.smp k = some w)
    (hf : f32 w = none) : RefusalCause i s (.nonFiniteElement .smp k) := by
  obtain ⟨-, -, -, hsmp, -⟩ := State.memWf_iff.1 hw
  exact .inl ⟨by decide, w, by rw [peek_smp, if_pos (Memory.lt_of_read hsmp h), h], hf⟩

theorem cause_nonFinite_xr {k : ℕ} {w : Word} (h : Memory.read s.xr k = some w)
    (hf : f32 w = none) : RefusalCause i s (.nonFiniteElement .xr k) := by
  obtain ⟨-, -, -, -, hxr, -⟩ := State.memWf_iff.1 hw
  exact .inl ⟨by decide, w, (if_pos (Memory.lt_of_read hxr h)).trans h, hf⟩

theorem cause_nonFinite_xi {k : ℕ} {w : Word} (h : Memory.read s.xi k = some w)
    (hf : f32 w = none) : RefusalCause i s (.nonFiniteElement .xi k) := by
  obtain ⟨-, -, -, -, -, hxi, -⟩ := State.memWf_iff.1 hw
  exact .inl ⟨by decide, w, (if_pos (Memory.lt_of_read hxi h)).trans h, hf⟩

end Causes

/-! ### Parameters and the profile -/

section Rules

variable {i : Instr} {s : State}

theorem nrParams_refusesOnly : RefusesOnly (RefusalCause i s) (nrParams s) := by
  unfold nrParams
  refine .bind (.param id) fun red hred => .bind (.param id) fun nf hnf =>
    .bind (.param id) fun sm hsm => ?_
  refine .bind (.refuseIf fun h => ⟨red, param_ok.1 hred, ?_⟩) fun _ _ =>
    .bind (.refuseIf fun h => ⟨nf, param_ok.1 hnf, ?_⟩) fun _ _ =>
      .bind (.refuseIf fun h => ⟨sm, param_ok.1 hsm, ?_⟩) fun _ _ => .pure _
  · simpa [OutOfRange] using h
  · simpa [OutOfRange] using h
  · simpa [OutOfRange] using h

theorem adParams_refusesOnly : RefusesOnly (RefusalCause i s) (adParams s) := by
  unfold adParams
  refine .bind (.param id) fun thr hthr => .bind (.param id) fun ratio hratio =>
    .bind (.param id) fun makeup hmakeup => ?_
  refine .bind (.refuseIf fun h => ⟨thr, param_ok.1 hthr, ?_⟩) fun _ _ =>
    .bind (.refuseIf fun h => ⟨ratio, param_ok.1 hratio, ?_⟩) fun _ _ =>
      .bind (.refuseIf fun h => ⟨makeup, param_ok.1 hmakeup, ?_⟩) fun _ _ => .pure _
  · simpa [OutOfRange] using h
  · simpa [OutOfRange] using h
  · simpa [OutOfRange] using h

theorem lookAhead_refusesOnly : RefusesOnly (RefusalCause i s) (lookAhead s) := by
  unfold lookAhead
  refine .bind (.param id) fun rate hrate =>
    .bind (.refuseIf fun h => ⟨rate, param_ok.1 hrate, ?_⟩) fun _ _ => .pure _
  simpa [OutOfRange] using h

theorem gainFactor_refusesOnly : RefusesOnly (RefusalCause i s) (gainFactor s) := .param id

theorem processAd_refusesOnly : RefusesOnly (RefusalCause i s) (processAd s) := by
  unfold processAd
  split
  · exact .bind lookAhead_refusesOnly fun _ _ => .bind (.raiseIf ..) fun _ _ =>
      .bind adParams_refusesOnly fun _ _ => .pure _
  · exact .pure _

theorem processNr_refusesOnly : RefusesOnly (RefusalCause i s) (processNr s) := by
  unfold processNr
  split
  · exact .bind nrParams_refusesOnly fun _ _ => .pure _
  · exact .pure _

/-- R170, log 25: the profile as it stands, or, from Unset, as the auto-estimation stored it. -/
theorem readProfile_refusesOnly (hw : s.memWf = true) {x : List ℚ} (hx : EstimatesFrom i s x)
    (l : ℕ) : RefusesOnly (RefusalCause i s) (readProfile (autoEstimated s x) l) := by
  obtain ⟨-, -, -, -, -, -, -, -, hprofile, -⟩ := State.memWf_iff.1 hw
  unfold readProfile autoEstimated
  split
  · exact .ok _
  by_cases hp : s.pstate = .unset
  · rw [if_pos hp]
    refine .readFloats (len := Config.nBins)
      (m := (setProfile s x (autoStarts x.length) .autoEstimated).profile)
      (Memory.wf_writeRun hprofile 0 _ (by rw [profileStored_length]; decide)) _ _ ?_ ?_
    · intro k hk hn
      rw [Nat.zero_add] at hk
      have hlen : k < (profileStored x (autoStarts x.length)).length := by rwa [profileStored_length]
      rw [read_setProfile s x _ _ hk, List.getElem?_eq_getElem hlen] at hn
      cases hn
    · intro k w hk hs hf
      rw [Nat.zero_add] at hk
      rw [read_setProfile s x _ _ hk] at hs
      exact .inr (.inr ⟨rfl, hp, x, w, hx, hs, hf⟩)
  · rw [if_neg hp]
    exact .readFloats hprofile _ _ (fun k _ hn => .inr ⟨rfl, hp, hn⟩)
      fun k w _ hs hf => .inr (.inl ⟨rfl, hp, w, hs, hf⟩)

/-! ### The rules -/

variable (hw : s.memWf = true)
include hw

theorem readChannels_refusesOnly (l c n : ℕ) :
    RefusesOnly (RefusalCause i s) (readChannels s.cap.smp s.smp l c n) := by
  obtain ⟨-, -, -, hsmp, -⟩ := State.memWf_iff.1 hw
  exact .readChannels hsmp (fun _ => cause_unwritten_smp) (fun _ _ => cause_nonFinite_smp hw) _ _ _ _

theorem gainStage_refusesOnly (f : Format) (g : ℚ) (n : ℕ) :
    RefusesOnly (RefusalCause i s) (gainStage s f g n) := by
  obtain ⟨hsrc, -⟩ := State.memWf_iff.1 hw
  exact .gainStage hsrc (fun _ => cause_unwritten_src) f g n

theorem decodeRule_refusesOnly : RefusesOnly (RefusalCause i s) (decodeRule s) := by
  obtain ⟨hsrc, -⟩ := State.memWf_iff.1 hw
  unfold decodeRule
  exact .bind (.fmtCheck s) fun f _ => .bind (.raiseIf ..) fun _ _ => .bind (.raiseIf ..) fun _ _ =>
    .bind (.readAll hsrc (fun _ => cause_unwritten_src) ..) fun _ _ => .pure _

theorem encodeFrames_refusesOnly {f : Format} {n : ℕ} {chs : List (List Word)}
    (hc : readPatterns s.cap.smp s.smp n 0 f.ch = .ok chs) :
    RefusesOnly (RefusalCause i s) (encodeFrames s.cap.smp f n chs) := by
  obtain ⟨-, -, -, hsmp, -⟩ := State.memWf_iff.1 hw
  refine ⟨fun r hr => ?_⟩
  obtain ⟨k, x, j, w, h, hx, hj, hq⟩ := encodeFrames_error hr
  obtain ⟨-, hruns⟩ := readPatterns_ok hc
  obtain ⟨-, hread⟩ := (Memory.readRun_ok hsmp _ _ _).1 (hruns k x hx)
  obtain ⟨hjlt, rfl⟩ := List.getElem?_eq_some_iff.1 hj
  cases h
  have hval := hread j hjlt
  rw [Nat.zero_add] at hval
  exact cause_nonFinite_smp hw hval (quantise_f32x_eq_none.1 hq).1

theorem encodeRule_refusesOnly : RefusesOnly (RefusalCause i s) (encodeRule s) := by
  obtain ⟨-, -, -, hsmp, -⟩ := State.memWf_iff.1 hw
  unfold encodeRule
  exact .bind (.fmtCheck s) fun f _ => .bind (.raiseIf ..) fun _ _ =>
    .bind (.readPatterns hsmp (fun _ => cause_unwritten_smp) ..) fun _ hc =>
      .bind (encodeFrames_refusesOnly hw hc) fun _ _ => .pure _

theorem gainRule_refusesOnly : RefusesOnly (RefusalCause i s) (gainRule s) := by
  unfold gainRule
  exact .bind (.fmtCheck s) fun f _ => .bind (.raiseIf ..) fun _ _ =>
    .bind gainFactor_refusesOnly fun _ _ => .bind (gainStage_refusesOnly hw ..) fun _ _ => .pure _

theorem readTransform_refusesOnly (n : ℕ) :
    RefusesOnly (RefusalCause i s) (readFloats .xr s.xr 0 n) ∧
      RefusesOnly (RefusalCause i s) (readFloats .xi s.xi 0 n) := by
  obtain ⟨-, -, -, -, hxr, hxi, -⟩ := State.memWf_iff.1 hw
  exact ⟨.readFloats hxr _ _ (fun _ _ => cause_unwritten_xr) fun _ _ _ => cause_nonFinite_xr hw,
    .readFloats hxi _ _ (fun _ _ => cause_unwritten_xi) fun _ _ _ => cause_nonFinite_xi hw⟩

theorem transformRule_refusesOnly (parts : ℕ → List ℚ → List ℚ → Cyc.Parts) (logn : BitVec 5) :
    RefusesOnly (RefusalCause i s) (transformRule parts logn s) := by
  unfold transformRule
  refine .bind (.lognCheck logn) fun n _ => ?_
  obtain ⟨hre, him⟩ := readTransform_refusesOnly (i := i) hw (2 ^ n)
  exact .bind hre fun _ _ => .bind him fun _ _ => .pure _

theorem magphRule_refusesOnly (logn : BitVec 5) :
    RefusesOnly (RefusalCause i s) (magphRule logn s) := by
  unfold magphRule
  refine .bind (.lognCheck logn) fun n _ => ?_
  obtain ⟨hre, him⟩ := readTransform_refusesOnly (i := i) hw (2 ^ n)
  exact .bind hre fun _ _ => .bind him fun _ _ => .pure _

theorem nrlearnRule_refusesOnly : RefusesOnly (RefusalCause i s) (nrlearnRule s) := by
  obtain ⟨-, haux, -⟩ := State.memWf_iff.1 hw
  unfold nrlearnRule learnRule
  exact .bind (.fmtCheck s) fun f _ => .bind (.raiseIf ..) fun _ _ => .bind (.raiseIf ..) fun _ _ =>
    .bind (.learnSignal haux (fun _ => cause_unwritten_aux) ..) fun _ _ => .pure _

theorem nrlearnrRule_refusesOnly : RefusesOnly (RefusalCause i s) (nrlearnrRule s) := by
  obtain ⟨hsrc, -⟩ := State.memWf_iff.1 hw
  unfold nrlearnrRule learnRule
  exact .bind (.fmtCheck s) fun f _ => .bind (.raiseIf ..) fun _ _ => .bind (.raiseIf ..) fun _ _ =>
    .bind (.raiseIf ..) fun _ _ =>
      .bind (.learnSignal hsrc (fun _ => cause_unwritten_src) ..) fun _ _ => .pure _

/-- R168: channel 0 of the channels NRPROC reads is what it estimates the profile from. -/
theorem estimatesFrom_of_readChannels {xs : List (List ℚ)} (hch : 1 ≤ s.fmtCh)
    (hxs : readChannels s.cap.smp s.smp s.smpLen.toNat 0 s.fmtCh = .ok xs) :
    EstimatesFrom .nrproc s (xs.getD 0 []) := by
  obtain ⟨-, -, -, hsmp, -⟩ := State.memWf_iff.1 hw
  obtain ⟨hlen, hall⟩ := (readChannels_holds hsmp).1 hxs
  have h0 : 0 < xs.length := by omega
  obtain ⟨hl, hh⟩ := hall 0 h0
  rw [List.getD_eq_getElem _ _ h0]
  exact .inl ⟨rfl, hl, by simpa using hh⟩

theorem nrprocRule_refusesOnly : RefusesOnly (RefusalCause .nrproc s) (nrprocRule s) := by
  unfold nrprocRule
  refine .bind (.chCheck s) fun ch hch => .bind (.raiseIf ..) fun _ _ =>
    .bind nrParams_refusesOnly fun par _ => .bind (readChannels_refusesOnly hw ..) fun xs hxs => ?_
  obtain ⟨rfl, hpos, -⟩ := chCheck_ok.1 hch
  exact .bind (readProfile_refusesOnly hw (estimatesFrom_of_readChannels hw hpos hxs) _) fun _ _ =>
    .pure _

theorem adprocRule_refusesOnly : RefusesOnly (RefusalCause i s) (adprocRule s) := by
  unfold adprocRule
  exact .bind (.chCheck s) fun ch _ => .bind (.raiseIf ..) fun _ _ =>
    .bind lookAhead_refusesOnly fun _ _ => .bind (.raiseIf ..) fun _ _ =>
      .bind adParams_refusesOnly fun _ _ => .bind (readChannels_refusesOnly hw ..) fun _ _ => .pure _

theorem floatStages_refusesOnly {f : Format} {n : ℕ} {nr : Option NrParams}
    {ad : Option (ℕ × AdParams × Bool)} {b : List Byte}
    (hx : EstimatesFrom i s ((decodeFrames f n b).getD 0 [])) :
    RefusesOnly (RefusalCause i s) (floatStages s f n nr ad b) := by
  have hencode : ∀ st, RefusesOnly (RefusalCause i s)
      (encodeFrames s.cap.smp f n ((decodeFrames f n b).map (chainStored st))) := fun _ =>
    ⟨fun _ h => absurd h encodeFrames_chainStored_ne_error⟩
  unfold floatStages
  cases nr with
  | none => exact .bind (.pure _) fun _ _ => .bind (hencode _) fun _ _ => .pure _
  | some par =>
    exact .bind (readProfile_refusesOnly hw hx n) fun _ _ => .bind (.pure _) fun _ _ =>
      .bind (hencode _) fun _ _ => .pure _

theorem processRule_refusesOnly : RefusesOnly (RefusalCause .process s) (processRule s) := by
  unfold processRule
  refine .bind (.fmtCheck s) fun f hf => .bind (.raiseIf ..) fun _ _ => .bind (.raiseIf ..) fun _ _ =>
    .bind processAd_refusesOnly fun ad _ => .bind gainFactor_refusesOnly fun g hg =>
      .bind processNr_refusesOnly fun nr _ => .bind (gainStage_refusesOnly hw ..) fun r hr => ?_
  split
  · have hx : EstimatesFrom .process s
        ((decodeFrames f (s.srcLen.toNat / f.frameBytes) r.bytes).getD 0 []) :=
      .inr ⟨rfl, f, g, r, fmtCheck_ok.1 hf, param_ok.1 hg, hr, rfl⟩
    exact .bind (floatStages_refusesOnly hw hx) fun _ _ => .pure _
  · exact .pure _

end Rules

/-! ### Every command -/

theorem finish_refused {s : State} {x : Except Stop Effect} {r : Refusal}
    (h : finish s x = .refused r) : x = .error (.refuse r) := by
  unfold finish at h
  split at h <;> cases h
  rfl

theorem exec_refused {i : Instr} {s : State} {r : Refusal} (hw : s.memWf = true)
    (h : exec i s = .refused r) : RefusalCause i s r := by
  cases i with
  | decode => exact (decodeRule_refusesOnly hw).cause r (finish_refused h)
  | encode => exact (encodeRule_refusesOnly hw).cause r (finish_refused h)
  | gain => exact (gainRule_refusesOnly hw).cause r (finish_refused h)
  | fft logn => exact (transformRule_refusesOnly hw _ logn).cause r (finish_refused h)
  | ifft logn => exact (transformRule_refusesOnly hw _ logn).cause r (finish_refused h)
  | magph logn => exact (magphRule_refusesOnly hw logn).cause r (finish_refused h)
  | nrlearn => exact (nrlearnRule_refusesOnly hw).cause r (finish_refused h)
  | nrlearnr => exact (nrlearnrRule_refusesOnly hw).cause r (finish_refused h)
  | nrreset => cases h
  | nrproc => exact (nrprocRule_refusesOnly hw).cause r (finish_refused h)
  | adproc => exact (adprocRule_refusesOnly hw).cause r (finish_refused h)
  | process => exact (processRule_refusesOnly hw).cause r (finish_refused h)

/-- Settles O22: there is no fault to raise, and each rule's refusals have a cause. -/
theorem commandsAreRefusedOnlyForCause : Obligations.CommandsAreRefusedOnlyForCause := by
  rintro i s o hw rfl
  cases h : exec i s with
  | next t => trivial
  | fault f => exact nomatch f
  | refused r =>
    have hcause := exec_refused hw h
    cases r <;> exact hcause

end Sys2Proof.Machine

/-! The host's writes to the memories (R60, R62, R68, R71) and the byte order of a sample (R64, R103,
R104). -/

namespace Sys2Proof.Machine

/-! ### Writes to a memory -/

theorem hostWrite_src (s : State) {i : ℕ} (h : i < s.cap.src) (v : Word) :
    hostWrite s .src i v = { s with src := Memory.write s.src i (v.setWidth 8) } := if_pos h

theorem hostWrite_aux (s : State) {i : ℕ} (h : i < s.cap.aux) (v : Word) :
    hostWrite s .aux i v = { s with aux := Memory.write s.aux i (v.setWidth 8) } := if_pos h

theorem hostWrite_smp (s : State) {i : ℕ} (h : i < s.cap.ch * s.cap.smp) (v : Word) :
    hostWrite s .smp i v = { s with smp := Memory.write s.smp i v } := if_pos h

theorem hostWrite_xr (s : State) {i : ℕ} (h : i < 2048) (v : Word) :
    hostWrite s .xr i v = { s with xr := Memory.write s.xr i v } := if_pos h

theorem hostWrite_xi (s : State) {i : ℕ} (h : i < 2048) (v : Word) :
    hostWrite s .xi i v = { s with xi := Memory.write s.xi i v } := if_pos h

/-- R68: what is kept of a word in a memory of bytes is its low byte. -/
theorem setWidth_byte_word (v : Word) : (v.setWidth 8).setWidth 32 = v &&& 0xFF#32 := by
  apply BitVec.eq_of_toNat_eq
  have hmask : v.toNat &&& 255 = v.toNat % 256 := Nat.and_two_pow_sub_one_eq_mod _ 8
  simp only [BitVec.toNat_setWidth, BitVec.toNat_and, BitVec.toNat_ofNat, Nat.reducePow, Nat.reduceMod,
    hmask]
  omega

/-- A byte read back as a word, from a memory of which one byte was written. -/
theorem read_write_byte (m : Memory Byte) (i : ℕ) (v : Word) (j : ℕ) :
    (Memory.read (Memory.write m i (v.setWidth 8)) j).map (·.setWidth 32) =
      if j = i then some (asElement .src v) else (Memory.read m j).map (·.setWidth 32) := by
  rw [Memory.read_write]
  split
  · rw [Option.map_some, setWidth_byte_word]; rfl
  · rfl

/-- Within a length, the index written is decided before the length. -/
theorem ite_lt_ite_eq {α : Type} {i j n : ℕ} {a b c : α} (h : i < n) :
    (if j < n then if j = i then a else b else c) = if j = i then a else if j < n then b else c := by
  by_cases hj : j = i
  · rw [if_pos hj, if_pos hj, if_pos (hj ▸ h)]
  · rw [if_neg hj, if_neg hj]

/-- What a read finds after a write within the length of a writable memory: the value as an element of
that memory at the index written, and elsewhere what it found before. -/
theorem peek_hostWrite {s : State} {sp : Space} {i : ℕ} (hsp : sp ∈ [Space.src, .aux, .smp, .xr, .xi])
    (h : i < spaceLen s.cap sp) (v : Word) (j : ℕ) : (hostWrite s sp i v).peek sp j =
      if j = i then some (asElement sp v) else s.peek sp j := by
  fin_cases hsp
  · rw [hostWrite_src s h, peek_src, peek_src, read_write_byte]; exact ite_lt_ite_eq h
  · rw [hostWrite_aux s h, peek_aux, peek_aux, read_write_byte]; exact ite_lt_ite_eq h
  · rw [hostWrite_smp s h, peek_smp, peek_smp, Memory.read_write]; exact ite_lt_ite_eq h
  · rw [hostWrite_xr s h, peek_xr, peek_xr, Memory.read_write]; exact ite_lt_ite_eq h
  · rw [hostWrite_xi s h, peek_xi, peek_xi, Memory.read_write]; exact ite_lt_ite_eq h

/-- Settles O16: a write is one element of its memory, and `peek` reads the memories element by
element. -/
theorem hostWriteIsReadBack : Obligations.HostWriteIsReadBack := by
  refine ⟨fun s i v => ⟨fun h => hostWrite_src s h v, fun h => hostWrite_aux s h v,
    fun h => hostWrite_smp s h v, fun h => ⟨hostWrite_xr s h v, hostWrite_xi s h v⟩⟩,
    fun s sp i j v hsp h => ⟨?_, fun hj => ?_⟩⟩
  · rw [peek_hostWrite hsp h, if_pos rfl]
    fin_cases hsp <;> rfl
  · rw [peek_hostWrite hsp h, if_neg hj]

/-! ### The bytes of a sample -/

/-- R8: `sext_N` is the two's complement value. -/
theorem sext_toNat {n : ℕ} (hn : 0 < n) (x : BitVec n) : sext n x.toNat = x.toInt := by
  have hpow : 2 * 2 ^ (n - 1) = 2 ^ n := mul_pow_sub_one hn.ne' 2
  have hlt : 2 * x.toNat < 2 ^ n ↔ x.toNat < 2 ^ (n - 1) := by omega
  simp only [sext, BitVec.toInt_eq_toNat_cond, hlt, Nat.cast_pow, Nat.cast_ofNat]

theorem toNat_append_byte {n : ℕ} (x : BitVec n) (b : Byte) :
    (x ++ b).toNat = b.toNat + 256 * x.toNat := by
  rw [BitVec.toNat_append, ← Nat.shiftLeft_add_eq_or_of_lt b.isLt, Nat.shiftLeft_eq]
  omega

/-- R103 with BE = 0: the byte of the lowest index is the least significant one. -/
theorem unpack_d16_le (b0 b1 : Byte) : unpack .d16 false [b0, b1] = (b1 ++ b0).toInt := by
  have hle : leNat [b0, b1] = (b1 ++ b0).toNat := by simp [leNat, toNat_append_byte]
  exact (congrArg (sext 16) hle).trans (sext_toNat (by decide) _)

theorem unpack_d24_le (b0 b1 b2 : Byte) :
    unpack .d24 false [b0, b1, b2] = (b2 ++ b1 ++ b0).toInt := by
  have hle : leNat [b0, b1, b2] = (b2 ++ b1 ++ b0).toNat := by simp [leNat, toNat_append_byte]
  exact (congrArg (sext 24) hle).trans (sext_toNat (by decide) _)

/-- R64, R103: with BE = 1 the bytes are read in the opposite order. -/
theorem unpack_be {d : Depth} {b : List Byte} (h : b.length = d.bytes) :
    unpack d true b = unpack d false b.reverse := by
  cases d with
  | d8 => obtain ⟨x, rfl⟩ := List.length_eq_one_iff.1 h; rfl
  | d16 => rfl
  | d24 => rfl

/-- R64, R104: with BE = 1 the bytes are stored in the opposite order. -/
theorem pack_be (d : Depth) (v : ℤ) : pack d true v = (pack d false v).reverse := by
  cases d <;> rfl

/-- R104 with BE = 0, of the two's complement value of a bit vector. -/
theorem pack_d16_le_toInt (x : BitVec 16) :
    pack .d16 false x.toInt = [x.extractLsb' 0 8, x.extractLsb' 8 8] := by
  simp only [pack, BitVec.ofInt_toInt, Bool.false_eq_true, if_false]

theorem pack_d24_le_toInt (x : BitVec 24) : pack .d24 false x.toInt =
    [x.extractLsb' 0 8, x.extractLsb' 8 8, x.extractLsb' 16 8] := by
  simp only [pack, BitVec.ofInt_toInt, Bool.false_eq_true, if_false]

/-- A bit vector is made of its bytes. -/
theorem append_bytes_16 (u : BitVec 16) : u.extractLsb' 8 8 ++ u.extractLsb' 0 8 = u :=
  (BitVec.extractLsb'_append_extractLsb'_eq_extractLsb' rfl).trans BitVec.extractLsb'_eq_self

theorem append_bytes_24 (u : BitVec 24) :
    u.extractLsb' 16 8 ++ u.extractLsb' 8 8 ++ u.extractLsb' 0 8 = u := by
  have hhigh : u.extractLsb' 16 8 ++ u.extractLsb' 8 8 = u.extractLsb' 8 16 :=
    BitVec.extractLsb'_append_extractLsb'_eq_extractLsb' rfl
  rw [hhigh]
  exact (BitVec.extractLsb'_append_extractLsb'_eq_extractLsb' rfl).trans BitVec.extractLsb'_eq_self

/-- A little-endian sample is read back from its bytes. -/
theorem unpack_pack_le {d : Depth} {v : ℤ} (h1 : d.lo ≤ v) (h2 : v ≤ d.hi) :
    unpack d false (pack d false v) = v := by
  cases d with
  | d8 =>
    simp only [Depth.lo, Depth.hi, Depth.scale] at h1 h2
    simp only [unpack, pack, leNat, BitVec.toNat_ofInt]
    omega
  | d16 =>
    calc unpack .d16 false (pack .d16 false v)
      _ = (BitVec.ofInt 16 v).toInt :=
        (unpack_d16_le _ _).trans (congrArg BitVec.toInt (append_bytes_16 _))
      _ = v := BitVec.toInt_ofInt_eq_self (by decide) h1 (Int.lt_of_le_sub_one h2)
  | d24 =>
    calc unpack .d24 false (pack .d24 false v)
      _ = (BitVec.ofInt 24 v).toInt :=
        (unpack_d24_le _ _ _).trans (congrArg BitVec.toInt (append_bytes_24 _))
      _ = v := BitVec.toInt_ofInt_eq_self (by decide) h1 (Int.lt_of_le_sub_one h2)

/-- The bytes of a little-endian sample are stored back as they were, and the integer they hold is in
range. -/
theorem pack_unpack_le {d : Depth} {b : List Byte} (h : b.length = d.bytes) :
    pack d false (unpack d false b) = b ∧ d.lo ≤ unpack d false b ∧ unpack d false b ≤ d.hi := by
  cases d with
  | d8 =>
    obtain ⟨x, rfl⟩ := List.length_eq_one_iff.1 h
    have hx := x.isLt
    have hu : unpack .d8 false [x] = (x.toNat : ℤ) - 128 := rfl
    simp only [hu, Depth.lo, Depth.hi, Depth.scale, pack, Int.sub_add_cancel, BitVec.ofInt_natCast,
      BitVec.ofNat_toNat, BitVec.setWidth_eq, true_and]
    omega
  | d16 =>
    obtain ⟨b0, b1, rfl⟩ := List.length_eq_two.1 h
    rw [unpack_d16_le, pack_d16_le_toInt]
    exact ⟨congrArg₂ (fun x y => [x, y]) BitVec.extractLsb'_append_eq_right
      BitVec.extractLsb'_append_eq_left, BitVec.le_toInt _, Int.le_sub_one_of_lt BitVec.toInt_lt⟩
  | d24 =>
    obtain ⟨b0, b1, b2, rfl⟩ := List.length_eq_three.1 h
    have hmid : (b2 ++ b1 ++ b0).extractLsb' 8 8 = b1 := by
      rw [BitVec.extractLsb'_append_eq_ite]
      exact BitVec.extractLsb'_append_eq_right
    have hhigh : (b2 ++ b1 ++ b0).extractLsb' 16 8 = b2 := by
      rw [BitVec.extractLsb'_append_eq_ite]
      exact BitVec.extractLsb'_append_eq_left
    rw [unpack_d24_le, pack_d24_le_toInt, hmid, hhigh]
    exact ⟨congrArg (fun x => [x, b1, b2]) BitVec.extractLsb'_append_eq_right,
      BitVec.le_toInt _, Int.le_sub_one_of_lt BitVec.toInt_lt⟩

/-- Settles O23: BE = 1 reverses the bytes on both sides, so the laws of BE = 0 carry over. -/
theorem packAndUnpackAreInverse : Obligations.PackAndUnpackAreInverse := by
  refine ⟨fun be b => by cases be <;> rfl,
    fun b0 b1 => ⟨unpack_d16_le b0 b1, unpack_d16_le b1 b0⟩,
    fun b0 b1 b2 => ⟨unpack_d24_le b0 b1 b2, unpack_d24_le b2 b1 b0⟩,
    fun d be => ⟨fun v h1 h2 => ?_, fun b hb => ?_⟩⟩
  · cases be with
    | false => exact unpack_pack_le h1 h2
    | true => rw [unpack_be (pack_length ..), pack_be, List.reverse_reverse, unpack_pack_le h1 h2]
  · cases be with
    | false => exact pack_unpack_le hb
    | true =>
      rw [unpack_be hb, pack_be, List.reverse_eq_iff]
      exact pack_unpack_le (List.length_reverse.trans hb)

end Sys2Proof.Machine

/-! The command word (R80 to R86): its fields, what decoding and encoding undo of each other, which words
are legal, and the host's write of an illegal one. -/

namespace Sys2Proof

/-! ### The fields of a word -/

/-- R80, R86: every command word carries its command's opcode and `logn`, and 0 above. -/
theorem encode_fields (i : Instr) : Laws.EncodedFields.Statement i := by
  cases i with
  | decode => exact Laws.EncodedFields.decode
  | encode => exact Laws.EncodedFields.encode
  | gain => exact Laws.EncodedFields.gain
  | fft logn => exact Laws.EncodedFields.fft logn
  | ifft logn => exact Laws.EncodedFields.ifft logn
  | magph logn => exact Laws.EncodedFields.magph logn
  | nrlearn => exact Laws.EncodedFields.nrlearn
  | nrlearnr => exact Laws.EncodedFields.nrlearnr
  | nrreset => exact Laws.EncodedFields.nrreset
  | nrproc => exact Laws.EncodedFields.nrproc
  | adproc => exact Laws.EncodedFields.adproc
  | process => exact Laws.EncodedFields.process

theorem opField_encode (i : Instr) : opField (encode i) = i.opcode := (encode_fields i).1

/-- R80: bits 31:8 and `op` are the whole word. -/
theorem formatZ_fields_append (w : Word) : w.extractLsb' 8 24 ++ opField w = w :=
  calc w.extractLsb' (0 + 8) 24 ++ w.extractLsb' 0 8
    _ = w.extractLsb' 0 (24 + 8) := BitVec.extractLsb'_append_extractLsb'_eq_extractLsb' rfl
    _ = w := BitVec.extractLsb'_eq_self

/-- R80: bits 31:13, `logn` and `op` are the whole word. -/
theorem formatL_fields_append (w : Word) :
    (w.extractLsb' 13 19 ++ lognField w) ++ opField w = w := by
  have hz : w.extractLsb' (8 + 5) 19 ++ lognField w = w.extractLsb' 8 (19 + 5) :=
    BitVec.extractLsb'_append_extractLsb'_eq_extractLsb' rfl
  exact (congrArg (· ++ opField w) hz).trans (formatZ_fields_append w)

/-! ### The two formats -/

theorem formatZ_ok {i j : Instr} {w : Word} :
    formatZ i w = .ok j ↔ w.extractLsb' 8 24 = 0 ∧ i = j := by
  unfold formatZ
  split <;> simp_all

theorem formatL_ok {mk : BitVec 5 → Instr} {j : Instr} {w : Word} :
    formatL mk w = .ok j ↔
      w.extractLsb' 13 19 = 0 ∧ lognOk (lognField w) = true ∧ mk (lognField w) = j := by
  unfold formatL
  split_ifs <;> simp_all

theorem formatZ_encode {i : Instr} (hlogn : i.logn = 0) : formatZ i (encode i) = .ok i := by
  refine formatZ_ok.2 ⟨?_, rfl⟩
  calc (encode i).extractLsb' 8 24 = 0#19 ++ i.logn := BitVec.extractLsb'_append_eq_left
    _ = 0 := by rw [hlogn]; rfl

theorem formatL_encode {mk : BitVec 5 → Instr} {n : BitVec 5} (hlogn : (mk n).logn = n)
    (hwf : lognOk n = true) : formatL mk (encode (mk n)) = .ok (mk n) := by
  obtain ⟨-, hl, hz⟩ := encode_fields (mk n)
  rw [hlogn] at hl
  exact formatL_ok.2 ⟨hz, by rwa [hl], congrArg mk hl⟩

theorem wf_and_encode_of_formatZ {i j : Instr} {w : Word} (h : formatZ i w = .ok j)
    (hop : opField w = i.opcode) (hlogn : i.logn = 0) (hwf : i.wf = true) :
    j.wf = true ∧ encode j = w := by
  obtain ⟨hz, rfl⟩ := formatZ_ok.1 h
  refine ⟨hwf, ?_⟩
  rw [← formatZ_fields_append w, hz, hop, encode, hlogn]
  rfl

theorem wf_and_encode_of_formatL {mk : BitVec 5 → Instr} {j : Instr} {w : Word}
    (h : formatL mk w = .ok j) (hop : ∀ n, opField w = (mk n).opcode)
    (hlogn : ∀ n, (mk n).logn = n) (hwf : ∀ n, (mk n).wf = lognOk n) :
    j.wf = true ∧ encode j = w := by
  obtain ⟨hz, hl, rfl⟩ := formatL_ok.1 h
  refine ⟨(hwf _).trans hl, ?_⟩
  rw [encode, hlogn, ← hop, ← BitVec.ofNat_eq_ofNat, ← hz]
  exact formatL_fields_append w

/-! ### Decoding and encoding -/

/-- R83: the opcode selects the row, and the row's format finds its operand again. -/
theorem decode_encode {i : Instr} (hwf : i.wf = true) : decode (encode i) = .ok i := by
  rw [decode, opField_encode]
  cases i with
  | fft _ | ifft _ | magph _ => exact formatL_encode rfl hwf
  | decode | encode | gain | nrlearn | nrlearnr | nrreset | nrproc | adproc | process =>
    exact formatZ_encode rfl

/-- R81: a row's format lets through the word its command has, and no other. -/
theorem wf_and_encode_of_decode {w : Word} {i : Instr} (h : decode w = .ok i) :
    i.wf = true ∧ encode i = w := by
  unfold decode at h
  split at h
  case h_13 => cases h
  case h_4 hop | h_5 hop | h_6 hop =>
    exact wf_and_encode_of_formatL h (fun _ => BitVec.eq_of_toNat_eq hop) (fun _ => rfl)
      (fun _ => rfl)
  all_goals
    next hop => exact wf_and_encode_of_formatZ h (BitVec.eq_of_toNat_eq hop) rfl rfl

theorem decode_eq_ok_iff {w : Word} {i : Instr} :
    decode w = .ok i ↔ i.wf = true ∧ encode i = w :=
  ⟨wf_and_encode_of_decode, fun ⟨hwf, h⟩ => h ▸ decode_encode hwf⟩

/-! ### The legal words by their numbers -/

/-- R86: the command word is `op + logn * 256`. -/
theorem encode_toNat (i : Instr) : (encode i).toNat = 256 * i.logn.toNat + i.opcode.toNat := by
  rw [encode, BitVec.toNat_append, BitVec.toNat_append, ← Nat.shiftLeft_add_eq_or_of_lt i.opcode.isLt]
  simp [Nat.shiftLeft_eq, Nat.mul_comm]

/-- Its quotient and remainder by 256 single out the word of a command. -/
theorem encode_eq_of_toNat {i : Instr} {w : Word} (hop : i.opcode.toNat = w.toNat % 256)
    (hlogn : i.logn.toNat = w.toNat / 256) : encode i = w := by
  refine BitVec.eq_of_toNat_eq ?_
  rw [encode_toNat, hop, hlogn, Nat.div_add_mod]

theorem exists_formatZ {k : ℕ} (h : k ∈ [1, 2, 3, 7, 8, 9, 10, 11, 12]) :
    ∃ i : Instr, i.wf = true ∧ i.logn = 0 ∧ i.opcode.toNat = k := by
  fin_cases h
  exacts [⟨.decode, rfl, rfl, rfl⟩, ⟨.encode, rfl, rfl, rfl⟩, ⟨.gain, rfl, rfl, rfl⟩,
    ⟨.nrlearn, rfl, rfl, rfl⟩, ⟨.nrlearnr, rfl, rfl, rfl⟩, ⟨.nrreset, rfl, rfl, rfl⟩,
    ⟨.nrproc, rfl, rfl, rfl⟩, ⟨.adproc, rfl, rfl, rfl⟩, ⟨.process, rfl, rfl, rfl⟩]

theorem exists_formatL {k : ℕ} (h : k ∈ [4, 5, 6]) {n : BitVec 5} (hn : lognOk n = true) :
    ∃ i : Instr, i.wf = true ∧ i.logn = n ∧ i.opcode.toNat = k := by
  fin_cases h
  exacts [⟨.fft n, hn, rfl, rfl⟩, ⟨.ifft n, hn, rfl, rfl⟩, ⟨.magph n, hn, rfl, rfl⟩]

/-- A command's opcode is one of the nine of format Z, with `logn` 0, or one of the three of format L. -/
theorem Instr.opcode_cases (i : Instr) :
    (i.opcode.toNat ∈ [1, 2, 3, 7, 8, 9, 10, 11, 12] ∧ i.logn = 0) ∨
      (i.opcode.toNat ∈ [4, 5, 6] ∧ i.wf = lognOk i.logn) := by
  cases i with
  | fft _ | ifft _ | magph _ => exact .inr ⟨by simp [Instr.opcode], rfl⟩
  | decode | encode | gain | nrlearn | nrlearnr | nrreset | nrproc | adproc | process =>
    exact .inl (by decide)

/-- R81: the words the decoder accepts, by opcode and by the bits above it. -/
theorem exists_decode_iff (w : Word) : (∃ i, decode w = .ok i) ↔
    (w.toNat % 256 ∈ [1, 2, 3, 7, 8, 9, 10, 11, 12] ∧ w.toNat / 256 = 0) ∨
      (w.toNat % 256 ∈ [4, 5, 6] ∧ w.toNat / 8192 = 0 ∧ w.toNat / 256 % 32 ≤ 11) := by
  simp only [decode_eq_ok_iff]
  constructor
  · rintro ⟨i, hwf, rfl⟩
    have hop := i.opcode.isLt
    have hlogn := i.logn.isLt
    have hmod : (encode i).toNat % 256 = i.opcode.toNat := by rw [encode_toNat]; omega
    have hdiv : (encode i).toNat / 256 = i.logn.toNat := by rw [encode_toNat]; omega
    rw [hmod, hdiv]
    rcases i.opcode_cases with ⟨hmem, hl⟩ | ⟨hmem, hw⟩
    · exact .inl ⟨hmem, by rw [hl]; rfl⟩
    · have hle : i.logn.toNat ≤ 11 := of_decide_eq_true (hw.symm.trans hwf)
      exact .inr ⟨hmem, by omega, by omega⟩
  · rintro (⟨hmem, hdiv⟩ | ⟨hmem, hdiv, hle⟩)
    · obtain ⟨i, hwf, hl, hop⟩ := exists_formatZ hmem
      exact ⟨i, hwf, encode_eq_of_toNat hop (by rw [hl, hdiv]; rfl)⟩
    · have hn : (BitVec.ofNat 5 (w.toNat / 256)).toNat = w.toNat / 256 % 32 := BitVec.toNat_ofNat ..
      obtain ⟨i, hwf, hl, hop⟩ := exists_formatL hmem
        (n := BitVec.ofNat 5 (w.toNat / 256)) (decide_eq_true (hn ▸ hle))
      exact ⟨i, hwf, encode_eq_of_toNat hop (by rw [hl, hn]; omega)⟩

/-! ### The statements -/

/-- Settles O1: the opcode selects the command's row, whose format finds the operand again. -/
theorem decodeOfEncodeIsIdentity : Obligations.DecodeOfEncodeIsIdentity :=
  fun _ hwf => decode_encode hwf

/-- Settles O2: a legal word is its command's encoding, whose number is `op + logn * 256`. -/
theorem legalWordsAreTheTwelveEncodings : Obligations.LegalWordsAreTheTwelveEncodings :=
  ⟨fun _ _ => wf_and_encode_of_decode, exists_decode_iff⟩

/-- Settles O3: each written-out word is the encoding of its command. -/
theorem writtenOutWordsDecode : Obligations.WrittenOutWordsDecode :=
  ⟨decode_encode (i := .decode) rfl, decode_encode (i := .process) rfl,
    decode_encode (i := .fft 3) rfl, decode_encode (i := .ifft 11) rfl,
    decode_encode (i := .magph 11) rfl, decode_encode (i := .adproc) rfl⟩

end Sys2Proof

namespace Sys2Proof.Machine

/-- R60, R71: with BUSY = 0 a step performs the host's write. -/
theorem step_write_of_idle {s : State} {sp : Space} {i : ℕ} {v : Word} {rest : List HostOp}
    (hb : s.busy = false) (hs : s.script = .write sp i v :: rest) :
    step s = .next (hostWrite { s with script := rest } sp i v) := by
  rw [step, hs]
  simp [hostTurn, hb]

/-- R81, R205: the write of an illegal word ends in the erred state. -/
theorem writeCmd_of_illegal {w : Word} (h : ∀ i, decode w ≠ .ok i) (s : State) :
    writeCmd s w = erred s .illegalCommand := by
  unfold writeCmd
  split
  · next i hi => exact absurd hi (h i)
  · rfl

/-- Settles O6: the write is the host's turn, and the decoder refuses the word. -/
theorem illegalWordCompletesAtOnce : Obligations.IllegalWordCompletesAtOnce := by
  intro s w rest hb hs hw
  rw [step_write_of_idle hb hs, hostWrite_reg _ (by decide)]
  exact congrArg Host.Outcome.next (writeCmd_of_illegal hw _)

end Sys2Proof.Machine

/-! Decoded samples (R109): binary32 holds every sample's value exactly. -/

namespace Sys2Proof.Machine

/-- R10: a rational whose magnitude is a significand below 2^24 times a power of two, in units of 2^-149,
is its own rounding. -/
theorem f32_rnd32_of_significand {q : ℚ} {m e : ℕ} (hm : m < 2 ^ 24)
    (hq : |q * 2 ^ 149| = (m : ℚ) * 2 ^ e) (hlt : |q| < 2 ^ 128 - 2 ^ 103) : f32 (rnd32 q) = some q := by
  have hlt' : |(q : ℝ)| < 2 ^ 128 - 2 ^ 103 := by exact_mod_cast hlt
  have hq' : |(q : ℝ) * 2 ^ 149| = (m : ℝ) * 2 ^ e := by exact_mod_cast hq
  have hle := (signedUnits_nearest ((q : ℝ) * 2 ^ 149) hm ((abs_eq (by positivity)).1 hq')).1
  rw [← units_rndReal hlt', ← rnd32_eq_rndReal, sub_self, abs_zero, abs_nonpos_iff] at hle
  have hu : q * 2 ^ 149 - units (rnd32 q) = 0 := by exact_mod_cast hle
  have h0 : |q - mkRat (units (rnd32 q)) (2 ^ 149)| = 0 := by rw [abs_sub_mkRat, hu, abs_zero, zero_div]
  rw [rnd32_finite hlt, ← sub_eq_zero.1 (abs_eq_zero.1 h0)]

/-- R6: the scale is a power of two, below the exponent of the unit. -/
theorem Depth.scale_eq (d : Depth) : ∃ k ≤ 23, d.scale = 2 ^ k := by
  cases d with
  | d8 => exact ⟨7, by decide, rfl⟩
  | d16 => exact ⟨15, by decide, rfl⟩
  | d24 => exact ⟨23, by decide, rfl⟩

theorem Depth.scale_pos (d : Depth) : (0 : ℚ) < d.scale := by
  obtain ⟨k, -, hk⟩ := d.scale_eq
  rw [hk]
  positivity

theorem toFloat_eq (d : Depth) (v : ℤ) : toFloat d v = (v : ℚ) / d.scale := Rat.mkRat_eq_div v d.scale

theorem natAbs_le_scale {d : Depth} {v : ℤ} (h1 : d.lo ≤ v) (h2 : v ≤ d.hi) : v.natAbs ≤ d.scale := by
  unfold Depth.lo at h1
  unfold Depth.hi at h2
  omega

theorem abs_toFloat_le {d : Depth} {v : ℤ} (h1 : d.lo ≤ v) (h2 : v ≤ d.hi) : |toFloat d v| ≤ 1 := by
  rw [toFloat_eq, abs_div, abs_of_pos d.scale_pos, div_le_one d.scale_pos, ← Int.cast_abs,
    ← Nat.cast_natAbs]
  exact_mod_cast natAbs_le_scale h1 h2

/-- R109: a sample in range is stored with no rounding error. -/
theorem f32_rnd32_toFloat {d : Depth} {v : ℤ} (h1 : d.lo ≤ v) (h2 : v ≤ d.hi) :
    f32 (rnd32 (toFloat d v)) = some (toFloat d v) := by
  obtain ⟨k, hk, hs⟩ := d.scale_eq
  have habs : v.natAbs ≤ 2 ^ k := hs ▸ natAbs_le_scale h1 h2
  have hpow : 2 ^ k ≤ 2 ^ 23 := Nat.pow_le_pow_right two_pos hk
  refine f32_rnd32_of_significand (m := v.natAbs) (e := 149 - k) (by omega) ?_
    ((abs_toFloat_le h1 h2).trans_lt (by norm_num))
  have hunit : (2 : ℚ) ^ 149 = 2 ^ (149 - k) * 2 ^ k := by rw [← pow_add, Nat.sub_add_cancel (by omega)]
  rw [toFloat_eq, hs, Nat.cast_pow, Nat.cast_ofNat, hunit, mul_comm (2 ^ (149 - k)), ← mul_assoc,
    div_mul_cancel₀ _ (by positivity), abs_mul, Nat.cast_natAbs, Int.cast_abs,
    abs_of_pos (a := (2 : ℚ) ^ _) (by positivity)]

/-- Settles O24: S is a power of two and `|v| ≤ 2^23`, so `v / S` is a binary32 value. -/
theorem decodedSamplesAreExact : Obligations.DecodedSamplesAreExact := by
  intro d v h1 h2
  rw [f32_rnd32_toFloat h1 h2, toFloat_eq]
  refine ⟨rfl, rfl, ?_, ?_⟩
  · rw [le_div_iff₀ d.scale_pos, neg_one_mul]
    exact_mod_cast h1
  · rw [div_le_div_iff_of_pos_right d.scale_pos]
    exact_mod_cast h2

end Sys2Proof.Machine

/-! The PCM streams (R101 to R104): the bytes and the integer of each sample, and the channels' samples in
buffer order. -/

namespace Sys2Proof.Machine

/-! ### The places of samples -/

/-- R101: the bytes of the sample of channel c, frame k. -/
def Format.sampleBytes (f : Format) (bytes : List Byte) (c k : ℕ) : List Byte :=
  (bytes.drop ((k * f.ch + c) * f.depth.bytes)).take f.depth.bytes

/-- R101, R103: the integer of the sample of channel c, frame k. -/
def Format.sample (f : Format) (bytes : List Byte) (c k : ℕ) : ℤ :=
  unpack f.depth f.be (f.sampleBytes bytes c k)

theorem Format.getElem?_sampleBytes (f : Format) (bytes : List Byte) {c k j : ℕ}
    (hj : j < f.depth.bytes) :
    (f.sampleBytes bytes c k)[j]? = bytes[(k * f.ch + c) * f.depth.bytes + j]? := by
  rw [Format.sampleBytes, List.getElem?_take_of_lt hj, List.getElem?_drop]

/-- R104: the bytes of a sample are stored back as they were, and the integer they hold is in range. -/
theorem pack_unpack {d : Depth} {b : List Byte} (be : Bool) (h : b.length = d.bytes) :
    pack d be (unpack d be b) = b ∧ d.lo ≤ unpack d be b ∧ unpack d be b ≤ d.hi := by
  obtain ⟨-, -, -, hinv⟩ := packAndUnpackAreInverse
  exact (hinv d be).2 b h

theorem Depth.bytes_pos (d : Depth) : 0 < d.bytes := by cases d <;> decide

/-- In n frames the samples have places below `n * ch`. -/
theorem place_lt {ch n c k : ℕ} (hc : c < ch) (hk : k < n) : k * ch + c < n * ch := by
  calc k * ch + c < (k + 1) * ch := by rw [Nat.succ_mul]; omega
    _ ≤ n * ch := Nat.mul_le_mul_right ch hk

/-- Every byte of the whole frames is one of a sample's. -/
theorem exists_place {f : Format} {n a : ℕ} (h : a < n * f.frameBytes) : ∃ c k j, c < f.ch ∧ k < n ∧
    j < f.depth.bytes ∧ a = (k * f.ch + c) * f.depth.bytes + j := by
  have hplace : a / f.depth.bytes < n * f.ch := by
    rw [Nat.div_lt_iff_lt_mul f.depth.bytes_pos]
    exact h.trans_eq (by rw [Format.frameBytes]; ring)
  have hch : 0 < f.ch := Nat.pos_of_ne_zero fun h0 => by simp [h0] at hplace
  exact ⟨a / f.depth.bytes % f.ch, a / f.depth.bytes / f.ch, a % f.depth.bytes, Nat.mod_lt _ hch,
    (Nat.div_lt_iff_lt_mul hch).2 hplace, Nat.mod_lt _ f.depth.bytes_pos,
    by rw [Nat.div_add_mod', Nat.div_add_mod']⟩

section Places

variable {f : Format} {n c k : ℕ} (hc : c < f.ch) (hk : k < n)
include hc hk

theorem Format.sampleBytes_length {bytes : List Byte} (hb : bytes.length = n * f.frameBytes) :
    (f.sampleBytes bytes c k).length = f.depth.bytes := by
  have hlast : (k * f.ch + c + 1) * f.depth.bytes ≤ bytes.length := by
    calc (k * f.ch + c + 1) * f.depth.bytes ≤ n * f.ch * f.depth.bytes :=
          Nat.mul_le_mul_right _ (place_lt hc hk)
      _ = bytes.length := by rw [hb, Format.frameBytes]; ring
  rw [Nat.succ_mul] at hlast
  rw [Format.sampleBytes, List.length_take, List.length_drop]
  omega

/-- R103: an unpacked sample is in range. -/
theorem Format.sample_mem {bytes : List Byte} (hb : bytes.length = n * f.frameBytes) :
    f.depth.lo ≤ f.sample bytes c k ∧ f.sample bytes c k ≤ f.depth.hi :=
  (pack_unpack f.be (f.sampleBytes_length hc hk hb)).2

/-- R104: packing an unpacked sample gives its bytes back. -/
theorem Format.pack_sample {bytes : List Byte} (hb : bytes.length = n * f.frameBytes) :
    pack f.depth f.be (f.sample bytes c k) = f.sampleBytes bytes c k :=
  (pack_unpack f.be (f.sampleBytes_length hc hk hb)).1

end Places

/-! ### Bytes to channels -/

theorem getElem?_unpackAll (f : Format) {n i : ℕ} (bytes : List Byte) (h : i < n) :
    (unpackAll f n bytes)[i]? =
      some (unpack f.depth f.be ((bytes.drop (i * f.depth.bytes)).take f.depth.bytes)) := by
  rw [unpackAll, List.getElem?_map, getElem?_chunks _ _ _ _ h, Option.map_some]

theorem getElem?_channelOf {ch n c k : ℕ} (samples : List ℤ) (hc : c < ch) (hk : k < n) :
    (channelOf ch n c samples)[k]? = some (samples[k * ch + c]?.getD 0) := by
  rw [channelOf, List.getElem?_map, getElem?_chunks _ _ _ _ hk, Option.map_some,
    List.getD_eq_getElem?_getD, List.getElem?_take_of_lt hc, List.getElem?_drop]

/-! ### Channels to bytes -/

/-- The first samples of the channels, one for each. -/
theorem map_some_filterMap_head? {α : Type} {chs : List (List α)} (h : ∀ x ∈ chs, x ≠ []) :
    (chs.filterMap List.head?).map some = chs.map List.head? := by
  rw [List.map_filterMap_some_eq_filter_map_isSome, List.filter_eq_self]
  intro o ho
  obtain ⟨x, hx, rfl⟩ := List.mem_map.1 ho
  exact List.isSome_head?.2 (h x hx)

/-- R101: in buffer order the sample of channel c, frame k has place `k * ch + c`. -/
theorem getElem?_interleave {α : Type} {n c k : ℕ} {chs : List (List α)} {x : List α}
    (hl : ∀ y ∈ chs, y.length = n) (hc : chs[c]? = some x) (hk : k < n) :
    (interleave n chs)[k * chs.length + c]? = x[k]? := by
  induction n generalizing chs x k with
  | zero => omega
  | succ n ih =>
    have hne : ∀ y ∈ chs, y ≠ [] := fun y hy => List.ne_nil_of_length_eq_add_one (hl y hy)
    have hheads := map_some_filterMap_head? hne
    have hlen : (chs.filterMap List.head?).length = chs.length := by
      simpa using congrArg List.length hheads
    have hlt : c < chs.length := (List.getElem?_eq_some_iff.1 hc).1
    rw [interleave]
    cases k with
    | zero =>
      have hhead : (chs.filterMap List.head?)[c]?.map some = some x.head? := by
        rw [← List.getElem?_map, hheads, List.getElem?_map, hc, Option.map_some]
      rw [List.getElem?_append_left (by omega), Nat.zero_mul, Nat.zero_add, ← List.head?_eq_getElem?]
      obtain ⟨a, ha, hax⟩ := Option.map_eq_some_iff.1 hhead
      rw [ha, hax]
    | succ k =>
      have htail := ih (chs := chs.map List.tail) (x := x.tail) (k := k)
        (fun y hy => by
          obtain ⟨z, hz, rfl⟩ := List.mem_map.1 hy
          simp [hl z hz])
        (by rw [List.getElem?_map, hc, Option.map_some]) (by omega)
      rw [List.length_map, List.getElem?_tail] at htail
      have hplace : (k + 1) * chs.length + c - (chs.filterMap List.head?).length =
          k * chs.length + c := by rw [hlen, Nat.succ_mul]; omega
      rw [List.getElem?_append_right (by rw [hlen, Nat.succ_mul]; omega), hplace, htail]

/-- R101, R104: the bytes of sample i in buffer order. -/
theorem getElem?_packAll {f : Format} {vs : List ℤ} {i j : ℕ} {v : ℤ} (hi : vs[i]? = some v)
    (hj : j < f.depth.bytes) :
    (packAll f vs)[i * f.depth.bytes + j]? = (pack f.depth f.be v)[j]? := by
  induction vs generalizing i with
  | nil => cases hi
  | cons w vs ih =>
    rw [packAll, List.flatMap_cons, ← packAll]
    cases i with
    | zero =>
      cases hi
      rw [Nat.zero_mul, Nat.zero_add, List.getElem?_append_left (by rwa [pack_length])]
    | succ i =>
      have hplace : (i + 1) * f.depth.bytes + j - (pack f.depth f.be w).length =
          i * f.depth.bytes + j := by rw [pack_length, Nat.succ_mul]; omega
      rw [List.getElem?_append_right (by rw [pack_length, Nat.succ_mul]; omega), hplace, ih hi]

/-- `ch` channels of n elements each, from their values. -/
def channelTable {α : Type} (ch n : ℕ) (g : ℕ → ℕ → α) : List (List α) :=
  (List.range ch).map fun c => (List.range n).map (g c)

theorem channelTable_length {α : Type} (ch n : ℕ) (g : ℕ → ℕ → α) :
    (channelTable ch n g).length = ch := by
  rw [channelTable, List.length_map, List.length_range]

theorem length_of_mem_channelTable {α : Type} {ch n : ℕ} {g : ℕ → ℕ → α} :
    ∀ x ∈ channelTable ch n g, x.length = n := by
  intro x hx
  obtain ⟨c, -, rfl⟩ := List.mem_map.1 hx
  rw [List.length_map, List.length_range]

theorem getElem?_channelTable {α : Type} {ch c : ℕ} (n : ℕ) (g : ℕ → ℕ → α) (hc : c < ch) :
    (channelTable ch n g)[c]? = some ((List.range n).map (g c)) := by
  rw [channelTable, List.getElem?_map, List.getElem?_range hc, Option.map_some]

theorem forall₂_channelTable {α β : Type} {R : α → β → Prop} {ch n : ℕ} {g : ℕ → ℕ → α}
    {g' : ℕ → ℕ → β} (h : ∀ c k, c < ch → k < n → R (g c k) (g' c k)) :
    List.Forall₂ (List.Forall₂ R) (channelTable ch n g) (channelTable ch n g') := by
  simp only [channelTable, List.forall₂_map_left_iff, List.forall₂_map_right_iff, List.forall₂_same,
    List.mem_range]
  exact fun c hc k hk => h c k hc hk

/-- R108: the bytes of n frames of samples. -/
def encodedBytes (f : Format) (n : ℕ) (v : ℕ → ℕ → ℤ) : List Byte :=
  packAll f (interleave n (channelTable f.ch n v))

theorem encodedBytes_length (f : Format) (n : ℕ) (v : ℕ → ℕ → ℤ) :
    (encodedBytes f n v).length = n * f.frameBytes := by
  rw [encodedBytes, packAll_length, interleave_length n _ length_of_mem_channelTable,
    channelTable_length, Format.frameBytes]
  ring

theorem getElem?_encodedBytes {f : Format} {n c k j : ℕ} (v : ℕ → ℕ → ℤ) (hc : c < f.ch) (hk : k < n)
    (hj : j < f.depth.bytes) :
    (encodedBytes f n v)[(k * f.ch + c) * f.depth.bytes + j]? = (pack f.depth f.be (v c k))[j]? := by
  refine getElem?_packAll ?_ hj
  have h := getElem?_interleave length_of_mem_channelTable (getElem?_channelTable n v hc) hk
  rwa [channelTable_length, List.getElem?_map, List.getElem?_range hk, Option.map_some] at h

/-- R110: the samples of whole frames encode to the frames' bytes. -/
theorem encodedBytes_sample {f : Format} {n : ℕ} {bytes : List Byte}
    (hb : bytes.length = n * f.frameBytes) : encodedBytes f n (f.sample bytes) = bytes := by
  refine List.ext_getElem? fun a => ?_
  by_cases ha : a < n * f.frameBytes
  · obtain ⟨c, k, j, hc, hk, hj, rfl⟩ := exists_place ha
    rw [getElem?_encodedBytes _ hc hk hj, f.pack_sample hc hk hb, f.getElem?_sampleBytes bytes hj]
  · rw [List.getElem?_eq_none (by rw [encodedBytes_length]; omega), List.getElem?_eq_none (by omega)]

end Sys2Proof.Machine

/-! The codec's commands (R107, R108, R110): what DECODE and ENCODE store element by element, and that the one
undoes the other. -/

namespace Sys2Proof.Machine

/-! ### DECODE -/

/-- R107: the words DECODE stores, channel by channel. -/
def decodedWords (f : Format) (n : ℕ) (bytes : List Byte) : List (List Word) :=
  (decodeFrames f n bytes).map (·.map rnd32)

@[simp] theorem decodedWords_length (f : Format) (n : ℕ) (bytes : List Byte) :
    (decodedWords f n bytes).length = f.ch := by
  rw [decodedWords, List.length_map, decodeFrames_length]

theorem length_of_mem_decodedWords {f : Format} {n : ℕ} {bytes : List Byte} :
    ∀ x ∈ decodedWords f n bytes, x.length = n :=
  length_of_mem_map (fun _ => List.length_map ..) fun _ => length_of_mem_decodeFrames

theorem getElem?_decodedWords {f : Format} {n c k : ℕ} (bytes : List Byte) (hc : c < f.ch) (hk : k < n) :
    ((decodedWords f n bytes).getD c [])[k]? = some (rnd32 (toFloat f.depth (f.sample bytes c k))) := by
  have hplace := getElem?_unpackAll f bytes (place_lt hc hk)
  simp only [decodedWords, decodeFrames, List.getD_eq_getElem?_getD, List.getElem?_map,
    List.getElem?_range hc, Option.map_some, Option.getD_some, getElem?_channelOf _ hc hk, hplace]
  rfl

/-- R107: the element of channel c, frame k after a DECODE of n frames. -/
theorem read_decodedWords {f : Format} {cap n c k : ℕ} (m : Memory Word) (bytes : List Byte)
    (hn : n ≤ cap) (hc : c < f.ch) (hk : k < n) :
    Memory.read (writeChannels cap m 0 (decodedWords f n bytes)) (c * cap + k) =
      some (rnd32 (toFloat f.depth (f.sample bytes c k))) := by
  have h := read_writeChannels_in (decodedWords f n bytes) m 0 c k length_of_mem_decodedWords hn
    (by rwa [decodedWords_length]) hk
  rwa [Nat.zero_add, getElem?_decodedWords bytes hc hk] at h

/-- Settles O27: the checks pass, and each stored channel is read back sample by sample. -/
theorem decodeCommandResult : Obligations.DecodeCommandResult := by
  intro s f bs hw hf hsrc hn hlen hbs
  obtain ⟨hwf, -⟩ := State.memWf_iff.1 hw
  have hrule := decodeRule_ok.2 ⟨f, bs, hf, hsrc, hn, (readAll_holds hwf).2 ⟨hlen, hbs⟩, rfl⟩
  exact ⟨_, congrArg (finish s) hrule, fun c k hc hk => read_decodedWords s.smp bs hn hc hk⟩

/-! ### ENCODE -/

theorem readPatterns_of_holds {cap len n c : ℕ} {m : Memory Word} {xs : List (List Word)}
    (hw : Memory.wf len m = true)
    (h : ∀ k x, xs[k]? = some x → x.length = n ∧ Holds m ((c + k) * cap) x) :
    readPatterns cap m n c xs.length = .ok xs := by
  induction xs generalizing c with
  | nil => rfl
  | cons x xs ih =>
    have hx : readAll .smp m (c * cap) n = .ok x := (readAll_holds hw).2 (h 0 x rfl)
    have hxs := ih (c := c + 1) fun k y hy => by
      rw [Nat.add_right_comm, Nat.add_assoc]
      exact h (k + 1) y hy
    rw [List.length_cons, readPatterns_succ, hx, hxs]
    rfl

/-- R108: ENCODE reads the pattern of channel c, frame k at its element of SMP. -/
theorem readPatterns_channelTable {cap len ch n : ℕ} {m : Memory Word} {pat : ℕ → ℕ → Word}
    (hw : Memory.wf len m = true)
    (h : ∀ c k, c < ch → k < n → Memory.read m (c * cap + k) = some (pat c k)) :
    readPatterns cap m n 0 ch = .ok (channelTable ch n pat) := by
  have hread := readPatterns_of_holds (cap := cap) (n := n) (c := 0)
    (xs := channelTable ch n pat) hw fun c x hx => ?_
  · rwa [channelTable_length] at hread
  · have hc : c < ch := (List.getElem?_eq_some_iff.1 hx).1.trans_eq (channelTable_length ..)
    obtain rfl := Option.some.inj ((getElem?_channelTable n pat hc).symm.trans hx)
    refine ⟨by simp, fun k hk => ?_⟩
    rw [List.getElem_map, List.getElem_range, Nat.zero_add]
    exact h c k hc (by simpa using hk)

theorem quantiseFrom_of_forall₂ {d : Depth} {i : ℕ} {ws : List Word} {vs : List ℤ}
    (h : List.Forall₂ (fun w v => quantise d (f32x w) = some v) ws vs) :
    quantiseFrom d i ws = .ok vs := by
  induction h generalizing i with
  | nil => rfl
  | cons hw _ ih => simp only [quantiseFrom, hw, ih]

theorem quantiseChannels_of_forall₂ {cap c : ℕ} {d : Depth} {xs : List (List Word)} {vs : List (List ℤ)}
    (h : List.Forall₂ (List.Forall₂ fun w v => quantise d (f32x w) = some v) xs vs) :
    quantiseChannels cap d c xs = .ok vs := by
  induction h generalizing c with
  | nil => rfl
  | cons hx _ ih => simp only [quantiseChannels, quantiseFrom_of_forall₂ hx, ih]

/-- R108: what ENCODE of n frames answers where every pattern has an encoding. -/
theorem encode_next {s : State} {f : Format} {len n : ℕ} {pat : ℕ → ℕ → Word} {v : ℕ → ℕ → ℤ}
    (hw : Memory.wf len s.smp = true) (hf : FormatIs s f) (hlen : s.smpLen.toNat = n)
    (hn : n ≤ s.cap.smp) (hfit : n * f.frameBytes ≤ s.cap.dst)
    (h : ∀ c k, c < f.ch → k < n → Memory.read s.smp (c * s.cap.smp + k) = some (pat c k) ∧
      quantise f.depth (f32x (pat c k)) = some (v c k)) :
    exec .encode s = .next (completed
      { s with dst := Memory.writeRun s.dst 0 (encodedBytes f n v)
               dstLen := BitVec.ofNat 32 (n * f.frameBytes) } false) := by
  subst hlen
  have hread := readPatterns_channelTable hw fun c k hc hk => (h c k hc hk).1
  have hquant := quantiseChannels_of_forall₂ (cap := s.cap.smp) (c := 0)
    (forall₂_channelTable fun c k hc hk => (h c k hc hk).2)
  have hbytes : encodeFrames s.cap.smp f s.smpLen.toNat (channelTable f.ch s.smpLen.toNat pat) =
      .ok (encodedBytes f s.smpLen.toNat v) := by
    rw [encodeFrames, hquant, encodedBytes]
  exact congrArg (finish s) (encodeRule_ok.2 ⟨f, _, _, hf, hn, hfit, hread, hbytes, rfl⟩)

theorem read_encodedBytes {f : Format} {n c k j : ℕ} (m : Memory Byte) (v : ℕ → ℕ → ℤ) (hc : c < f.ch)
    (hk : k < n) (hj : j < f.depth.bytes) :
    Memory.read (Memory.writeRun m 0 (encodedBytes f n v)) ((k * f.ch + c) * f.depth.bytes + j) =
      (pack f.depth f.be (v c k))[j]? := by
  have hin : (k * f.ch + c) * f.depth.bytes + j < (encodedBytes f n v).length := by
    rw [encodedBytes_length]
    calc (k * f.ch + c) * f.depth.bytes + j < n * f.ch * f.depth.bytes :=
          place_lt hj (place_lt hc hk)
      _ = n * f.frameBytes := by rw [Format.frameBytes]; ring
  rw [Memory.read_writeRun, if_pos ⟨Nat.zero_le _, by rwa [Nat.zero_add]⟩, Nat.sub_zero,
    getElem?_encodedBytes v hc hk hj]

/-- Settles O28: the reads and the quantiser succeed, and the packed samples lie in buffer order. -/
theorem encodeCommandResult : Obligations.EncodeCommandResult := by
  intro s f pat v hw hf hn hfit h
  obtain ⟨-, -, -, hsmp, -⟩ := State.memWf_iff.1 hw
  exact ⟨_, encode_next hsmp hf rfl hn hfit h, fun c k j hc hk hj => read_encodedBytes s.dst v hc hk hj⟩

/-! ### DECODE, then ENCODE -/

theorem roundInt_intCast (z : ℤ) : roundInt .away (z : ℚ) = z :=
  le_antisymm (roundInt_le le_rfl) (le_roundInt le_rfl)

/-- R106, R109: the quantiser gives a stored sample its integer back. -/
theorem quantise_rnd32_toFloat {d : Depth} {v : ℤ} (h1 : d.lo ≤ v) (h2 : v ≤ d.hi) :
    quantise d (f32x (rnd32 (toFloat d v))) = some v := by
  have hscaled : toFloat d v * (d.scale : ℚ) = v := by
    rw [toFloat_eq, div_mul_cancel₀ _ d.scale_pos.ne']
  have hint : toInt d (toFloat d v) = v := by
    rw [toInt, hscaled, Config.roundTies, roundInt_intCast, clampInt_of_mem h1 h2]
  rw [f32x, f32_rnd32_toFloat h1 h2]
  exact congrArg some hint

theorem fmtCheck_ne_none (s : State) : fmtCheck s ≠ .error (.err .none) := by
  unfold fmtCheck
  split
  · nofun
  · split <;> nofun

theorem readAll_ne_err {α : Type} {sp : Space} {m : Memory α} {i n : ℕ} {c : ErrCode} :
    readAll sp m i n ≠ .error (.err c) := by
  unfold readAll
  split <;> nofun

/-- R204: no check of DECODE raises the code of no error. -/
theorem decodeRule_ne_none (s : State) : decodeRule s ≠ .error (.err .none) := by
  unfold decodeRule
  simp only [ne_eq, bind_error, not_or, not_exists, not_and]
  refine ⟨fmtCheck_ne_none s, fun f _ => ⟨by simp, fun _ _ => ⟨by simp, fun _ _ =>
    ⟨readAll_ne_err, fun _ _ => nofun⟩⟩⟩⟩

/-- A DECODE that ends without error completed with the format's samples. -/
theorem decode_without_error {s t : State} {f : Format} (hf : FormatIs s f)
    (h : exec .decode s = .next t) (hok : t.err = .none) :
    ∃ bytes, s.srcLen.toNat ≤ s.cap.src ∧ s.srcLen.toNat / f.frameBytes ≤ s.cap.smp ∧
      readAll .src s.src 0 (s.srcLen.toNat / f.frameBytes * f.frameBytes) = .ok bytes ∧
      t = completed { s with
        smp := writeChannels s.cap.smp s.smp 0
          (decodedWords f (s.srcLen.toNat / f.frameBytes) bytes)
        smpLen := BitVec.ofNat 32 (s.srcLen.toNat / f.frameBytes) }
        (truncated s.srcLen.toNat f.frameBytes) := by
  rcases finish_next.1 h with ⟨e, he, rfl⟩ | ⟨c, hc, rfl⟩
  · obtain ⟨f', bytes, hf', hsrc, hn, hread, rfl⟩ := decodeRule_ok.1 he
    obtain rfl : f' = f := Except.ok.inj ((fmtCheck_ok.2 hf').symm.trans (fmtCheck_ok.2 hf))
    exact ⟨bytes, hsrc, hn, hread, rfl⟩
  · obtain rfl : c = .none := hok
    exact absurd hc (decodeRule_ne_none s)

/-- R110: ENCODE of the frames that a DECODE stored answers their bytes. -/
theorem encode_decoded {s : State} {f : Format} {len n : ℕ} {bytes : List Byte}
    (hw : Memory.wf len s.smp = true) (hf : FormatIs s f) (hlen : s.smpLen.toNat = n)
    (hn : n ≤ s.cap.smp) (hfit : n * f.frameBytes ≤ s.cap.dst)
    (hb : bytes.length = n * f.frameBytes)
    (h : ∀ c k, c < f.ch → k < n → Memory.read s.smp (c * s.cap.smp + k) =
      some (rnd32 (toFloat f.depth (f.sample bytes c k)))) :
    exec .encode s = .next (completed
      { s with dst := Memory.writeRun s.dst 0 bytes
               dstLen := BitVec.ofNat 32 (n * f.frameBytes) } false) := by
  have hnext := encode_next hw hf hlen hn hfit fun c k hc hk =>
    have ⟨hlo, hhi⟩ := f.sample_mem hc hk hb
    ⟨h c k hc hk, quantise_rnd32_toFloat hlo hhi⟩
  rwa [encodedBytes_sample hb] at hnext

/-- Settles O29: each stored sample is quantised to its integer, which packs to the bytes it came from. -/
theorem decodeThenEncodeRestoresBytes : Obligations.DecodeThenEncodeRestoresBytes := by
  intro s t f hcap hw hf hdec hok
  obtain ⟨bytes, hsrc, hn, hread, rfl⟩ := decode_without_error hf hdec hok
  obtain ⟨hwsrc, -, -, hwsmp, -⟩ := State.memWf_iff.1 hw
  obtain ⟨hlen, hbytes⟩ := (readAll_holds hwsrc).1 hread
  have hle := Nat.div_mul_le_self s.srcLen.toNat f.frameBytes
  have hsmpLen := Nat.mod_eq_of_lt ((Nat.div_le_self s.srcLen.toNat f.frameBytes).trans_lt s.srcLen.isLt)
  have hsrcdst : s.cap.src ≤ s.cap.dst := by
    simp only [Capacities.wf, Bool.and_eq_true, decide_eq_true_eq] at hcap
    omega
  have hwsmp' := wf_writeChannels (ch := s.cap.ch) _ _ 0 hwsmp
    (by rw [Nat.zero_add, decodedWords_length]; exact hf.ch_le)
    fun x hx => (length_of_mem_decodedWords (bytes := bytes) x hx).trans_le hn
  refine ⟨_, encode_decoded (f := f) (s := completed _ _) hwsmp' hf
    ((BitVec.toNat_ofNat ..).trans hsmpLen) hn (hle.trans (hsrc.trans hsrcdst)) hlen
    fun c k hc hk => read_decodedWords s.smp bytes hn hc hk, rfl, ?_, fun a ha => ?_⟩
  · exact (BitVec.toNat_ofNat ..).trans (Nat.mod_eq_of_lt (hle.trans_lt s.srcLen.isLt))
  · have hsrca := hbytes a (hlen ▸ ha)
    have hdsta := Memory.read_writeRun_in s.dst 0 bytes a (hlen ▸ ha)
    rw [Nat.zero_add] at hsrca hdsta
    exact ⟨Option.isSome_of_eq_some hsrca, hdsta.trans hsrca.symm⟩

end Sys2Proof.Machine

/-! The gain stage (R121 to R124): the factors of the identity fast path, the bytes that either path gives,
and GAIN's results. -/

namespace Sys2Proof.Machine

/-! ### The identity fast path -/

/-- R123: the two comparisons are the distance of the factor from 1. -/
theorem isIdentityGain_iff (g : ℚ) : isIdentityGain g = true ↔ |g - 1| < 1 / 1000 := by
  have htol : Config.gainTol = 1 / 1000 := Rat.mkRat_eq_div 1 1000
  rw [isIdentityGain, htol, Bool.and_eq_true, decide_eq_true_eq, decide_eq_true_eq, abs_sub_lt_iff]

/-- R123: the binary32 nearest 0.999 is within the tolerance. -/
theorem abs_nearest_0999_sub_one_lt : |mkRat 16760439 16777216 - 1| < 1 / 1000 := by
  rw [Rat.mkRat_eq_div, abs_lt]
  norm_num

/-- R123: the binary32 nearest 1.001 is not within the tolerance. -/
theorem lt_abs_nearest_1001_sub_one : 1 / 1000 < |mkRat 8396997 8388608 - 1| := by
  rw [Rat.mkRat_eq_div, lt_abs]
  norm_num

/-! ### The bytes of the gain stage -/

/-- R121: the bytes of the first k samples, each scaled by g. -/
def scaledBytes (f : Format) (g : ℚ) (k : ℕ) (bytes : List Byte) : List Byte :=
  packAll f ((unpackAll f k bytes).map (scaleInt f.depth g))

@[simp] theorem scaledBytes_length (f : Format) (g : ℚ) (k : ℕ) (bytes : List Byte) :
    (scaledBytes f g k bytes).length = k * f.depth.bytes := by
  rw [scaledBytes, packAll_length, List.length_map, unpackAll_length]

theorem Format.mul_frameBytes (f : Format) (n : ℕ) : n * f.frameBytes = n * f.ch * f.depth.bytes := by
  rw [Format.frameBytes]
  ring

section Stage

variable {s : State} {f : Format} {g : ℚ} {cap len : ℕ} {bytes : List Byte}
  (hw : Memory.wf cap s.src = true) (hbytes : Holds s.src 0 bytes)
include hw hbytes

/-- R123: on the fast path the stage copies its bytes, trailing ones included. -/
theorem gainStage_of_identity (hg : |g - 1| < 1 / 1000) (hlen : bytes.length = len) :
    gainStage s f g len = .ok ⟨bytes, false⟩ := by
  have hread : readAll .src s.src 0 len = .ok bytes := (readAll_holds hw).2 ⟨hlen, hbytes⟩
  rw [gainStage_eq_bind, if_pos ((isIdentityGain_iff g).2 hg), hread]
  rfl

/-- R121: off the fast path the stage scales the samples of the whole frames. -/
theorem gainStage_of_not_identity (hg : 1 / 1000 ≤ |g - 1|)
    (hlen : bytes.length = len / f.frameBytes * f.frameBytes) :
    gainStage s f g len =
      .ok ⟨scaledBytes f g (len / f.frameBytes * f.ch) bytes, truncated len f.frameBytes⟩ := by
  have hoff : ¬isIdentityGain g = true := fun h => hg.not_gt ((isIdentityGain_iff g).1 h)
  have hread : readAll .src s.src 0 (len / f.frameBytes * f.ch * f.depth.bytes) = .ok bytes :=
    (readAll_holds hw).2 ⟨hlen.trans (f.mul_frameBytes _), hbytes⟩
  rw [gainStage_eq_bind, if_neg hoff, hread]
  rfl

end Stage

/-! ### GAIN -/

/-- R121: GAIN completes with what the stage gives, its checks passed. -/
theorem gain_next {s : State} {f : Format} {g : ℚ} {r : GainResult} (hf : FormatIs s f)
    (hsrc : s.srcLen.toNat ≤ s.cap.src) (hdst : s.srcLen.toNat ≤ s.cap.dst) (hg : f32 s.gainf = some g)
    (hr : gainStage s f g s.srcLen.toNat = .ok r) :
    exec .gain s = .next (completed (storeDst s r.bytes) r.trunc) :=
  congrArg (finish s) (gainRule_ok.2 ⟨f, g, r, hf, hsrc, hdst, hg, hr, rfl⟩)

/-- R121: the bytes of sample k after GAIN stored n scaled samples. -/
theorem read_scaledBytes {f : Format} {n k j : ℕ} (m : Memory Byte) (g : ℚ) (bytes : List Byte)
    (hk : k < n) (hj : j < f.depth.bytes) :
    Memory.read (Memory.writeRun m 0 (scaledBytes f g n bytes)) (k * f.depth.bytes + j) =
      (pack f.depth f.be (scaleInt f.depth g (unpack f.depth f.be
        ((bytes.drop (k * f.depth.bytes)).take f.depth.bytes))))[j]? := by
  have hin : k * f.depth.bytes + j < (scaledBytes f g n bytes).length := by
    rw [scaledBytes_length]
    exact place_lt hj hk
  have hsample : ((unpackAll f n bytes).map (scaleInt f.depth g))[k]? =
      some (scaleInt f.depth g (unpack f.depth f.be
        ((bytes.drop (k * f.depth.bytes)).take f.depth.bytes))) := by
    rw [List.getElem?_map, getElem?_unpackAll f bytes hk, Option.map_some]
  rw [Memory.read_writeRun, if_pos ⟨Nat.zero_le _, by rwa [Nat.zero_add]⟩, Nat.sub_zero]
  exact getElem?_packAll hsample hj

/-- Settles O30: off the fast path the stage gives the scaled bytes of the whole frames, which DST holds
sample by sample. -/
theorem gainCommandScalesSamples : Obligations.GainCommandScalesSamples := by
  intro s f g bs hw hf hsrc hdst hg hoff hlen hbs
  obtain ⟨hwsrc, -⟩ := State.memWf_iff.1 hw
  have hnext := gain_next hf hsrc hdst hg (gainStage_of_not_identity hwsrc hbs hoff hlen)
  rw [storeDst, scaledBytes_length, ← f.mul_frameBytes] at hnext
  exact ⟨_, hnext, fun k j hk hj => read_scaledBytes s.dst g bs hk hj⟩

/-- R123, R124: on the fast path GAIN copies SRC's bytes to DST. -/
theorem gain_next_of_identity {s : State} {f : Format} {g : ℚ} {bytes : List Byte}
    (hw : s.memWf = true) (hf : FormatIs s f) (hsrc : s.srcLen.toNat ≤ s.cap.src)
    (hdst : s.srcLen.toNat ≤ s.cap.dst) (hg : f32 s.gainf = some g) (hid : |g - 1| < 1 / 1000)
    (hlen : bytes.length = s.srcLen.toNat) (hbytes : Holds s.src 0 bytes) :
    exec .gain s = .next (completed
      { s with dst := Memory.writeRun s.dst 0 bytes, dstLen := s.srcLen } false) := by
  obtain ⟨hwsrc, -⟩ := State.memWf_iff.1 hw
  have hnext := gain_next hf hsrc hdst hg (gainStage_of_identity hwsrc hbytes hid hlen)
  rwa [storeDst, hlen, BitVec.ofNat_toNat, BitVec.setWidth_eq] at hnext

/-- Settles O31: within the tolerance the stage answers the bytes it read, and their number is SRC_LEN; the
factors at the boundary are exact rationals. -/
theorem gainFastPathCopiesEveryByte : Obligations.GainFastPathCopiesEveryByte := by
  refine ⟨fun s f g bs hw hf hsrc hdst hg hid hlen hbs =>
    ⟨_, gain_next_of_identity hw hf hsrc hdst hg hid hlen hbs,
      Memory.read_writeRun_in s.dst 0 bs⟩,
    by decide, by decide, abs_nearest_0999_sub_one_lt, by decide,
    lt_abs_nearest_1001_sub_one⟩

end Sys2Proof.Machine

/-! The spectral commands (R133 to R135): FFT, IFFT and MAGPH complete on finite operands. -/

namespace Sys2Proof.Machine

section Operands

variable {s : State} {logn : BitVec 5} {re im : List ℚ} (hw : s.memWf = true) (hn : logn.toNat ≤ 11)
  (hre : re.length = 2 ^ logn.toNat) (him : im.length = 2 ^ logn.toNat)
  (hxr : HoldsFloats s.xr 0 re) (hxi : HoldsFloats s.xi 0 im)
include hw hre him hxr hxi

/-- R133 to R135: a spectral command reads its operands. -/
theorem readFloats_operands : readFloats .xr s.xr 0 (2 ^ logn.toNat) = .ok re ∧
    readFloats .xi s.xi 0 (2 ^ logn.toNat) = .ok im := by
  obtain ⟨-, -, -, -, hwr, hwi, -⟩ := State.memWf_iff.1 hw
  exact ⟨(readFloats_holds hwr).2 ⟨hre, hxr⟩, (readFloats_holds hwi).2 ⟨him, hxi⟩⟩

include hn

/-- R133, R134: a transform completes with its parts stored from element 0 on. -/
theorem transform_next (parts : ℕ → List ℚ → List ℚ → Cyc.Parts) :
    finish s (transformRule parts logn s) = .next (completed
      { s with
        xr := Memory.writeRun s.xr 0
          ((parts logn.toNat re im).stored (parts logn.toNat re im).re)
        xi := Memory.writeRun s.xi 0
          ((parts logn.toNat re im).stored (parts logn.toNat re im).im) } false) := by
  obtain ⟨hr, hi⟩ := readFloats_operands hw hre him hxr hxi
  exact congrArg (finish s) (transformRule_ok.2 ⟨re, im, hn, hr, hi, rfl⟩)

/-- R135: MAGPH completes with the magnitudes and the phases stored from element 0 on. -/
theorem magph_next : exec (.magph logn) s = .next (completed
    { s with mag := Memory.writeRun s.mag 0 (storeReals (magnitudes · re im))
             ph := Memory.writeRun s.ph 0 (storeReals (phases · re im)) } false) := by
  obtain ⟨hr, hi⟩ := readFloats_operands hw hre him hxr hxi
  exact congrArg (finish s) (magphRule_ok.2 ⟨re, im, hn, hr, hi, rfl⟩)

end Operands

/-- Settles O37: both transforms are one rule over their parts, which have 2^logn entries each. -/
theorem transformCommandsComplete : Obligations.TransformCommandsComplete := by
  intro s logn re im hw hn hre him hxr hxi
  obtain ⟨hfr, hfi⟩ := fftParts_length logn.toNat re im
  obtain ⟨hir, hii⟩ := ifftParts_length logn.toNat re im
  refine ⟨_, _, rfl, rfl, transform_next hw hn hre him hxr hxi fftParts,
    transform_next hw hn hre him hxr hxi ifftParts, ?_⟩
  simp only [storeParts_length]
  exact ⟨hfr, hfi, hir, hii⟩

/-- Settles O40: the rule's magnitudes and phases are the two formulas. -/
theorem magphCommandResult : Obligations.MagphCommandResult := by
  intro s logn re im hw hn hre him hxr hxi
  obtain ⟨hr, hi⟩ := readFloats_operands hw hre him hxr hxi
  obtain ⟨hmag, hph⟩ := magph_stored_length hr hi
  exact ⟨_, _, rfl, rfl, hmag, hph, magph_next hw hn hre him hxr hxi⟩

end Sys2Proof.Machine

/-! Bit reversal and butterflies (R132, R139): over the complex numbers they give the discrete Fourier
transform, by decimation in time. -/

namespace Sys2Proof.Machine

open Finset

/-! ### Places in blocks -/

/-- Lists of one length, one after the other. -/
theorem getElem?_flatMap_of_length {α β : Type} {f : α → List β} {s b k : ℕ} {l : List α} {a : α}
    (hs : ∀ c ∈ l, (f c).length = s) (hb : l[b]? = some a) (hk : k < s) :
    (l.flatMap f)[b * s + k]? = (f a)[k]? := by
  induction l generalizing b with
  | nil => cases hb
  | cons c l ih =>
    have hc : (f c).length = s := hs c List.mem_cons_self
    rw [List.flatMap_cons]
    cases b with
    | zero =>
      cases hb
      rw [Nat.zero_mul, Nat.zero_add, List.getElem?_append_left (by omega)]
    | succ b =>
      have hplace : (b + 1) * s + k - (f c).length = b * s + k := by rw [hc, Nat.succ_mul]; omega
      rw [List.getElem?_append_right (by rw [hc, Nat.succ_mul]; omega), hplace,
        ih (fun d hd => hs d (List.mem_cons_of_mem c hd)) hb]

theorem length_flatMap_of_length {α β : Type} {f : α → List β} {s : ℕ} {l : List α}
    (hs : ∀ c ∈ l, (f c).length = s) : (l.flatMap f).length = l.length * s := by
  rw [List.length_flatMap, List.map_congr_left hs, List.map_const', List.sum_replicate, smul_eq_mul]

theorem length_of_mem_chunks {α : Type} {size n : ℕ} {l c : List α} (hl : l.length = n * size)
    (hc : c ∈ chunks size n l) : c.length = size := by
  induction n generalizing l with
  | zero => cases hc
  | succ n ih =>
    rw [Nat.succ_mul] at hl
    rcases List.mem_cons.1 hc with rfl | hc
    · rw [List.length_take]; omega
    · exact ih (by rw [List.length_drop]; omega) hc

section Stage

variable {T C : Type} {o : FftOps T C} {tw : List T} {w : T} {k : ℕ} {u v : C}

theorem length_butterflies {blk : List C} (h : blk.length = 2 * tw.length) :
    (butterflies o tw blk).length = 2 * tw.length := by
  simp only [butterflies, List.length_append, List.length_zipWith, List.length_take, List.length_drop, h]
  omega

theorem lt_length_of_getElem? {α : Type} {l : List α} {i : ℕ} {a : α} (h : l[i]? = some a) :
    i < l.length := (List.getElem?_eq_some_iff.1 h).1

/-- R139: one butterfly of a block, its twiddle factor and its two inputs given. -/
theorem getElem?_butterflies {blk : List C} (hl : blk.length = 2 * tw.length) (hw : tw[k]? = some w)
    (hu : blk[k]? = some u) (hv : blk[tw.length + k]? = some v) :
    (butterflies o tw blk)[k]? = some (o.add u (o.mulW w v)) ∧
      (butterflies o tw blk)[tw.length + k]? = some (o.sub u (o.mulW w v)) := by
  have hk := lt_length_of_getElem? hw
  have hu' : (blk.take tw.length)[k]? = some u := by rw [List.getElem?_take_of_lt hk, hu]
  have hv' : (List.zipWith o.mulW tw (blk.drop tw.length))[k]? = some (o.mulW w v) := by
    simp [List.getElem?_zipWith, hw, hv]
  have hadd : (List.zipWith o.add (blk.take tw.length)
      (List.zipWith o.mulW tw (blk.drop tw.length))).length = tw.length := by
    simp only [List.length_zipWith, List.length_take, List.length_drop]
    omega
  unfold butterflies
  constructor
  · rw [List.getElem?_append_left (by omega)]
    simp [List.getElem?_zipWith, hu', hv']
  · rw [List.getElem?_append_right (by omega), hadd, Nat.add_sub_cancel_left]
    simp [List.getElem?_zipWith, hu', hv']

variable {y : List C} {blocks b : ℕ} (hy : y.length = blocks * (2 * tw.length))
include hy

theorem length_stage (ht : 0 < tw.length) : (stage o y tw).length = y.length := by
  unfold stage
  rw [hy, Nat.mul_div_cancel _ (by omega), length_flatMap_of_length (s := 2 * tw.length), chunks_length]
  exact fun c hc => length_butterflies (length_of_mem_chunks hy hc)

/-- R139: one butterfly of a stage, in block b. -/
theorem getElem?_stage (hb : b < blocks) (hw : tw[k]? = some w)
    (hu : y[b * (2 * tw.length) + k]? = some u)
    (hv : y[b * (2 * tw.length) + (tw.length + k)]? = some v) :
    (stage o y tw)[b * (2 * tw.length) + k]? = some (o.add u (o.mulW w v)) ∧
      (stage o y tw)[b * (2 * tw.length) + (tw.length + k)]? = some (o.sub u (o.mulW w v)) := by
  have hk := lt_length_of_getElem? hw
  have hblk := getElem?_chunks (2 * tw.length) blocks b y hb
  have hlen : ∀ c ∈ chunks (2 * tw.length) blocks y, c.length = 2 * tw.length :=
    fun c => length_of_mem_chunks hy
  have hbut : ∀ c ∈ chunks (2 * tw.length) blocks y, (butterflies o tw c).length = 2 * tw.length :=
    fun c hc => length_butterflies (hlen c hc)
  have hplace : ∀ i < 2 * tw.length, ((y.drop (b * (2 * tw.length))).take (2 * tw.length))[i]? =
      y[b * (2 * tw.length) + i]? := fun i hi => by
    rw [List.getElem?_take_of_lt hi, List.getElem?_drop]
  have hone := getElem?_butterflies (o := o) (hlen _ (List.mem_of_getElem? hblk)) hw
    ((hplace k (by omega)).trans hu) ((hplace _ (by omega)).trans hv)
  unfold stage
  rw [hy, Nat.mul_div_cancel _ (by omega), getElem?_flatMap_of_length hbut hblk (by omega),
    getElem?_flatMap_of_length hbut hblk (by omega)]
  exact hone

end Stage

/-! ### Twiddle factors -/

/-- R131: `W(m, j) = exp(-2 pi i j / m)`. -/
noncomputable def unitRoot (m j : ℕ) : ℂ := Complex.exp (-(2 * Real.pi * j / m : ℝ) * Complex.I)

theorem unitRoot_add (m i j : ℕ) : unitRoot m (i + j) = unitRoot m i * unitRoot m j := by
  rw [unitRoot, unitRoot, unitRoot, ← Complex.exp_add]
  congr 1
  push_cast
  ring

theorem unitRoot_zero (m : ℕ) : unitRoot m 0 = 1 := by simp [unitRoot]

theorem unitRoot_mul_left {c : ℕ} (hc : 0 < c) (m j : ℕ) : unitRoot (c * m) (c * j) = unitRoot m j := by
  have hc' : (c : ℝ) ≠ 0 := by exact_mod_cast hc.ne'
  rw [unitRoot, unitRoot, Nat.cast_mul, Nat.cast_mul, mul_left_comm, mul_div_mul_left _ _ hc']

theorem unitRoot_half {m : ℕ} (hm : 0 < m) : unitRoot (2 * m) m = -1 := by
  have hm' : (m : ℝ) ≠ 0 := by exact_mod_cast hm.ne'
  have hang : 2 * Real.pi * m / (2 * m : ℕ) = Real.pi := by
    push_cast
    field_simp
  rw [unitRoot, hang, neg_mul, Complex.exp_neg, Complex.exp_pi_mul_I, inv_neg_one]

theorem unitRoot_mul_self {m : ℕ} (hm : 0 < m) (j : ℕ) : unitRoot m (m * j) = 1 := by
  have hturn : unitRoot m m = 1 := by
    rw [← unitRoot_mul_left two_pos, congrArg (unitRoot (2 * m)) (two_mul m), unitRoot_add,
      unitRoot_half hm, neg_one_mul, neg_neg]
  induction j with
  | zero => exact unitRoot_zero m
  | succ j ih => rw [Nat.mul_succ, unitRoot_add, ih, one_mul, hturn]

/-! ### Decimation in time -/

/-- The transform of length m of every `stride`-th element from `off` on. -/
noncomputable def strideDft (x : ℕ → ℂ) (stride off m k : ℕ) : ℂ :=
  ∑ j ∈ range m, x (j * stride + off) * unitRoot m (k * j)

theorem sum_range_two_mul (f : ℕ → ℂ) (m : ℕ) :
    ∑ j ∈ range (2 * m), f j = ∑ j ∈ range m, f (2 * j) + ∑ j ∈ range m, f (2 * j + 1) := by
  induction m with
  | zero => simp
  | succ m ih =>
    rw [Nat.mul_succ, sum_range_succ, sum_range_succ, ih, sum_range_succ, sum_range_succ]
    ring

variable (x : ℕ → ℂ) (stride off k : ℕ) {m : ℕ}

theorem strideDft_double (m : ℕ) : strideDft x stride off (2 * m) k =
    strideDft x (2 * stride) off m k +
      unitRoot (2 * m) k * strideDft x (2 * stride) (stride + off) m k := by
  rw [strideDft, sum_range_two_mul, strideDft, strideDft, mul_sum]
  congr 1
  · refine sum_congr rfl fun j _ => ?_
    have hplace : 2 * j * stride + off = j * (2 * stride) + off := by ring
    rw [hplace, Nat.mul_left_comm k 2 j, unitRoot_mul_left two_pos]
  · refine sum_congr rfl fun j _ => ?_
    have hplace : (2 * j + 1) * stride + off = j * (2 * stride) + (stride + off) := by ring
    rw [hplace, Nat.mul_add k (2 * j) 1, Nat.mul_left_comm k 2 j, unitRoot_add, unitRoot_mul_left two_pos,
      Nat.mul_one]
    ring

theorem strideDft_add_self (hm : 0 < m) :
    strideDft x stride off m (m + k) = strideDft x stride off m k := by
  refine sum_congr rfl fun j _ => ?_
  rw [Nat.add_mul, unitRoot_add, unitRoot_mul_self hm, one_mul]

theorem strideDft_double_upper (hm : 0 < m) : strideDft x stride off (2 * m) (m + k) =
    strideDft x (2 * stride) off m k -
      unitRoot (2 * m) k * strideDft x (2 * stride) (stride + off) m k := by
  rw [strideDft_double, strideDft_add_self _ _ _ _ hm, strideDft_add_self _ _ _ _ hm, unitRoot_add,
    unitRoot_half hm]
  ring

/-! ### The stages -/

theorem bitRev_even (r b : ℕ) : bitRev (r + 1) (2 * b) = bitRev r b := by
  simp [bitRev]

theorem bitRev_odd (r b : ℕ) : bitRev (r + 1) (2 * b + 1) = 2 ^ r + bitRev r b := by
  have h1 : (2 * b + 1) % 2 = 1 := by omega
  have h2 : (2 * b + 1) / 2 = b := by omega
  rw [bitRev, h1, h2, one_mul]

/-- The butterflies of R139 over the complex numbers. -/
noncomputable def complexOps : FftOps ℂ ℂ where
  add a b := a + b
  sub a b := a - b
  mulW w a := w * a

/-- The twiddle factors of the stage of size 2^(t+1). -/
noncomputable def complexStage (t : ℕ) : List ℂ := (List.range (2 ^ t)).map (unitRoot (2 ^ (t + 1)))

/-- After t stages, with r to go, each block of size 2^t holds the transform of the elements with the
block's stride, 2^r, and offset, its number reversed. -/
def HoldsBlocks (x : ℕ → ℂ) (t r : ℕ) (y : List ℂ) : Prop :=
  y.length = 2 ^ r * 2 ^ t ∧ ∀ b k, b < 2 ^ r → k < 2 ^ t →
    y[b * 2 ^ t + k]? = some (strideDft x (2 ^ r) (bitRev r b) (2 ^ t) k)

variable {x}

theorem holdsBlocks_bitRev (n : ℕ) :
    HoldsBlocks x 0 n ((List.range (2 ^ n)).map fun j => x (bitRev n j)) := by
  refine ⟨by simp, fun b k hb hk => ?_⟩
  obtain rfl : k = 0 := by simpa using hk
  simp [hb, strideDft, unitRoot_zero]

/-- R139: a stage joins the transforms of the even and the odd elements. -/
theorem HoldsBlocks.stage {t r : ℕ} {y : List ℂ} (h : HoldsBlocks x t (r + 1) y) :
    HoldsBlocks x (t + 1) r (stage complexOps y (complexStage t)) := by
  obtain ⟨hlen, hval⟩ := h
  have htw : (complexStage t).length = 2 ^ t := by simp [complexStage]
  have hy : y.length = 2 ^ r * (2 * (complexStage t).length) := by rw [htw, hlen]; ring
  refine ⟨by rw [length_stage hy (by rw [htw]; positivity), hlen]; ring, fun b k hb hk => ?_⟩
  have hone : ∀ i < 2 ^ t,
      (Machine.stage complexOps y (complexStage t))[b * 2 ^ (t + 1) + i]? =
        some (strideDft x (2 ^ r) (bitRev r b) (2 ^ (t + 1)) i) ∧
      (Machine.stage complexOps y (complexStage t))[b * 2 ^ (t + 1) + (2 ^ t + i)]? =
        some (strideDft x (2 ^ r) (bitRev r b) (2 ^ (t + 1)) (2 ^ t + i)) := by
    intro i hi
    have hw : (complexStage t)[i]? = some (unitRoot (2 ^ (t + 1)) i) := by simp [complexStage, hi]
    have hu := hval (2 * b) i (by rw [pow_succ]; omega) hi
    have hv := hval (2 * b + 1) i (by rw [pow_succ]; omega) hi
    rw [bitRev_even] at hu
    rw [bitRev_odd] at hv
    have hst := getElem?_stage (o := complexOps) hy hb hw
      (by rw [htw, ← hu]; congr 1; ring) (by rw [htw, ← hv]; congr 1; ring)
    rw [htw, ← pow_succ'] at hst
    rw [pow_succ' 2 t, strideDft_double, strideDft_double_upper _ _ _ _ (Nat.two_pow_pos t), ← pow_succ',
      ← pow_succ']
    exact hst
  rcases Nat.lt_or_ge k (2 ^ t) with hlt | hge
  · exact (hone k hlt).1
  · have hupper := (hone (k - 2 ^ t) (by rw [pow_succ] at hk; omega)).2
    rwa [Nat.add_sub_cancel' hge] at hupper

theorem holdsBlocks_foldl (x : ℕ → ℂ) (t r : ℕ) :
    HoldsBlocks x t r (((List.range t).map complexStage).foldl (Machine.stage complexOps)
      ((List.range (2 ^ (t + r))).map fun j => x (bitRev (t + r) j))) := by
  induction t generalizing r with
  | zero => simpa using holdsBlocks_bitRev r
  | succ t ih =>
    rw [List.range_succ, List.map_append, List.foldl_append, Nat.add_right_comm, Nat.add_assoc t r 1]
    exact (ih (r + 1)).stage

/-- R139: over the complex numbers the stages give the transform of the list. -/
theorem getElem?_fft_complexOps (z : List ℂ) {n k : ℕ} (hk : k < 2 ^ n) :
    (fft complexOps 0 ((List.range n).map complexStage) n z)[k]? =
      some (∑ j ∈ range (2 ^ n), z.getD j 0 * unitRoot (2 ^ n) (k * j)) := by
  have h := (holdsBlocks_foldl (fun j => z.getD j 0) n 0).2 0 k (by simp) hk
  simp only [Nat.zero_mul, Nat.zero_add, Nat.add_zero, strideDft, bitRev, pow_zero, Nat.mul_one] at h
  exact h

end Sys2Proof.Machine

/-! The transform of pairs of reals (R139), and what it gives of a windowed frame: the profile's entries
(R153 to R155). -/

namespace Sys2Proof.Machine

open Finset

/-- An arithmetic of butterflies that is related to the complex numbers' transforms lists related to
complex numbers into elements related to their transform. -/
theorem exists_fft_of_related {T C : Type} {o : FftOps T C} {P : T → ℂ → Prop} {Q : C → ℂ → Prop}
    (ho : FftOps.Related o complexOps P Q) {zero : C} (hz : Q zero 0) {n : ℕ} {tws : List (List T)}
    (ht : List.Forall₂ (List.Forall₂ P) tws ((List.range n).map complexStage)) {x : List C} {z : List ℂ}
    (hx : List.Forall₂ Q x z) {k : ℕ} (hk : k < 2 ^ n) :
    ∃ c, (fft o zero tws n x)[k]? = some c ∧
      Q c (∑ j ∈ range (2 ^ n), z.getD j 0 * unitRoot (2 ^ n) (k * j)) := by
  have hrel := fft_related ho hz ht n hx
  have hval := getElem?_fft_complexOps z hk
  obtain ⟨r, c, hr, hc, hq⟩ := exists_of_forall₂ hrel (hrel.length_eq ▸ lt_length_of_getElem? hval)
  obtain rfl : r = _ := Option.some.inj (hr.symm.trans hval)
  exact ⟨c, hc, hq⟩

/-! ### Pairs of reals -/

/-- The pair is the complex number's real and imaginary part. -/
def IsParts (c : ℝ × ℝ) (z : ℂ) : Prop := c = (z.re, z.im)

theorem realOps_related : FftOps.Related (Cplx.ops Numerics.real) complexOps IsParts IsParts where
  add := by rintro _ z _ w rfl rfl; rfl
  sub := by rintro _ z _ w rfl rfl; rfl
  mulW := by rintro _ w _ z rfl rfl; rfl

theorem isParts_unitRoot (m k : ℕ) : IsParts (Cplx.twiddle Numerics.real m k) (unitRoot m k) := by
  rw [unitRoot, IsParts, ← Complex.ofReal_neg, Complex.exp_ofReal_mul_I_re, Complex.exp_ofReal_mul_I_im,
    Real.cos_neg, Real.sin_neg]
  rfl

theorem isParts_twiddles (n : ℕ) : List.Forall₂ (List.Forall₂ IsParts) (Cplx.twiddles Numerics.real n)
    ((List.range n).map complexStage) :=
  forall₂_map_same _ fun _ _ => forall₂_map_same _ fun k _ => isParts_unitRoot _ k

/-- R139: element k of the transform of a list of pairs. -/
theorem getElem?_fft_real {n k : ℕ} {x : List (ℝ × ℝ)} {g : ℕ → ℂ}
    (hx : ∀ j < 2 ^ n, (⟨(x.getD j (0, 0)).1, (x.getD j (0, 0)).2⟩ : ℂ) = g j) (hk : k < 2 ^ n) :
    (fft (Cplx.ops Numerics.real) (Cplx.zero Numerics.real) (Cplx.twiddles Numerics.real n) n x)[k]? =
      some ((∑ j ∈ range (2 ^ n), g j * unitRoot (2 ^ n) (k * j)).re,
        (∑ j ∈ range (2 ^ n), g j * unitRoot (2 ^ n) (k * j)).im) := by
  have hzero : IsParts (Cplx.zero Numerics.real) 0 := by simp [IsParts, Cplx.zero]
  have hparts : List.Forall₂ IsParts x (x.map fun c => (⟨c.1, c.2⟩ : ℂ)) := by
    rw [List.forall₂_map_right_iff, List.forall₂_same]
    exact fun _ _ => rfl
  obtain ⟨c, hc, rfl⟩ := exists_fft_of_related realOps_related hzero (isParts_twiddles n) hparts hk
  have hsum : ∑ j ∈ range (2 ^ n),
        (x.map fun c => (⟨c.1, c.2⟩ : ℂ)).getD j 0 * unitRoot (2 ^ n) (k * j) =
      ∑ j ∈ range (2 ^ n), g j * unitRoot (2 ^ n) (k * j) := by
    refine sum_congr rfl fun j hj => ?_
    rw [← hx j (mem_range.1 hj)]
    exact congrArg (· * _) (List.getD_map x ((0 : ℝ), (0 : ℝ)) fun c => (⟨c.1, c.2⟩ : ℂ))
  rw [hc, hsum]

theorem unitRoot_mul (m k j : ℕ) :
    unitRoot m (k * j) = Complex.exp (-(2 * Real.pi * k * j / m : ℝ) * Complex.I) := by
  rw [unitRoot, Nat.cast_mul, ← mul_assoc]

theorem dft_eq_sum_unitRoot (n : ℕ) (re im : List ℝ) (k : ℕ) : dft n re im k =
    ∑ j ∈ range n, ((re.getD j 0 : ℂ) + (im.getD j 0 : ℂ) * Complex.I) * unitRoot n (k * j) :=
  sum_congr rfl fun j _ => by rw [unitRoot_mul]

/-- Settles O39: by induction over the stages each block holds the transform of a strided part. -/
theorem butterfliesAreTheDft : Obligations.ButterfliesAreTheDft := by
  intro n re im hre him k hk
  rw [dft_eq_sum_unitRoot]
  refine getElem?_fft_real (fun j hj => ?_) hk
  rw [← Complex.mk_eq_add_mul_I]
  simp [List.getD_eq_getElem?_getD, hre, him, hj]

/-! ### Windowed frames -/

theorem hann_real (n : ℕ) : hann Numerics.real n = hannReal n := by
  have hhalf : mkRat 1 2 = 1 / 2 := by norm_num [Rat.mkRat_eq_div]
  simp only [hann, hannReal, hhalf, Config.hannDenom]
  push_cast
  ring

/-- R154: a sample of the windowed frame, 0 beyond the signal. -/
theorem getD_windowed (x : List ℝ) (o : ℕ) {j : ℕ} (hj : j < Config.fftSize) :
    (List.zipWith (fun a w : ℝ => (a * w, ((0 : ℚ) : ℝ))) (x.drop o)
      (nrTables Numerics.real).window).getD j (0, 0) = (x.getD (o + j) 0 * hannReal j, 0) := by
  have hwin : (nrTables Numerics.real).window[j]? = some (hannReal j) := by
    rw [nrTables, List.getElem?_map, List.getElem?_range hj, Option.map_some, hann_real]
  rw [List.getD_eq_getElem?_getD, List.getElem?_zipWith, hwin, List.getElem?_drop,
    List.getD_eq_getElem?_getD]
  cases x[o + j]? with
  | none => simp
  | some a => simp

/-- R154: bin b of a frame's spectrum. -/
theorem getElem?_spectrum_real (x : List ℝ) (o : ℕ) {b : ℕ} (hb : b < Config.nBins) :
    (spectrum Numerics.real (nrTables Numerics.real) x o)[b]? =
      some ((spectrumReal x o b).re, (spectrumReal x o b).im) := by
  have hfft := getElem?_fft_real (n := 11) (k := b)
    (g := fun j => ((x.getD (o + j) 0 * hannReal j : ℝ) : ℂ))
    (fun j hj => by rw [getD_windowed x o hj]; rfl) (hb.trans (by decide))
  have hsum : spectrumReal x o b = ∑ j ∈ range (2 ^ 11),
      ((x.getD (o + j) 0 * hannReal j : ℝ) : ℂ) * unitRoot (2 ^ 11) (b * j) :=
    sum_congr rfl fun j _ => by rw [unitRoot_mul]; norm_num
  rw [spectrum, List.getElem?_take_of_lt hb, hsum]
  exact hfft

theorem magnitude_real (z : ℂ) : Cplx.magnitude Numerics.real (z.re, z.im) = ‖z‖ := by
  rw [Complex.norm_def, Complex.normSq_apply]
  rfl

/-- R155: bin b of the sums of the frames' magnitudes. -/
theorem getElem?_magnitudeSums_real (x : List ℝ) (starts : List ℕ) {b : ℕ} (hb : b < Config.nBins) :
    (magnitudeSums Numerics.real (nrTables Numerics.real) x starts)[b]? =
      some (starts.map fun o => ‖spectrumReal x o b‖).sum := by
  induction starts with
  | nil => rw [magnitudeSums, List.getElem?_replicate, if_pos hb]; simp
  | cons o os ih =>
    rw [magnitudeSums, List.getElem?_zipWith, List.getElem?_map, getElem?_spectrum_real x o hb, ih,
      Option.map_some, magnitude_real]
    simp

theorem profileEps_real : Numerics.real.rat Config.profileEps = 1 / 1000000 := by
  norm_num [Config.profileEps, Rat.mkRat_eq_div]

/-- R155: entry b of a profile. -/
theorem getElem?_profileEntries_real (x : List ℝ) (starts : List ℕ) {b : ℕ} (hb : b < Config.nBins) :
    (profileEntries Numerics.real x starts)[b]? = some (profileReal x starts b) := by
  have hbin : bin (A := Numerics.real) (magnitudeSums Numerics.real (nrTables Numerics.real) x starts) b =
      (starts.map fun o => ‖spectrumReal x o b‖).sum := by
    rw [bin, List.getD_eq_getElem?_getD, getElem?_magnitudeSums_real x starts hb, Option.getD_some]
  rw [profileEntries, List.getElem?_map, List.getElem?_range hb, Option.map_some, hbin, profileEps_real,
    profileReal]
  cases starts with
  | nil => simp
  | cons o os => simp

/-- Settles O47: an entry is a maximum with the floor, of the mean over the frames. -/
theorem profileEntriesAreFlooredMeans : Obligations.ProfileEntriesAreFlooredMeans := by
  refine fun x starts => ⟨profileEntries_length .., fun b => getElem?_profileEntries_real x starts,
    fun a ha => ?_⟩
  obtain ⟨b, hb, rfl⟩ := List.mem_iff_getElem.1 ha
  have hval := getElem?_profileEntries_real x starts (hb.trans_eq (profileEntries_length ..))
  rw [List.getElem?_eq_getElem hb, Option.some.injEq] at hval
  rw [hval]
  exact le_max_right ..

end Sys2Proof.Machine

/-! Cyclotomic numbers (log 11): what a list of coordinates stands for, and that the butterflies on
coordinates are those of the complex numbers. -/

namespace Sys2Proof.Machine

open Finset

/-! ### The value of a list of coordinates -/

/-- `exp(2 pi i / m)`. -/
noncomputable def cycRoot (m : ℕ) : ℂ := Complex.exp ((2 * Real.pi / m : ℝ) * Complex.I)

theorem cycRoot_pow (m j : ℕ) :
    cycRoot m ^ j = Complex.exp ((2 * Real.pi * j / m : ℝ) * Complex.I) := by
  rw [cycRoot, ← Complex.exp_nat_mul]
  congr 1
  push_cast
  ring

theorem cycRoot_pow_re (m j : ℕ) : (cycRoot m ^ j).re = Real.cos (2 * Real.pi * j / m) := by
  rw [cycRoot_pow, Complex.exp_ofReal_mul_I_re]

theorem cycRoot_pow_im (m j : ℕ) : (cycRoot m ^ j).im = Real.sin (2 * Real.pi * j / m) := by
  rw [cycRoot_pow, Complex.exp_ofReal_mul_I_im]

theorem unitRoot_eq_inv (m j : ℕ) : unitRoot m j = (cycRoot m ^ j)⁻¹ := by
  rw [cycRoot_pow, unitRoot, neg_mul, Complex.exp_neg]

theorem cycRoot_quarter {q : ℕ} (hq : 0 < q) : cycRoot (4 * q) ^ q = Complex.I := by
  have hq' : (q : ℝ) ≠ 0 := by exact_mod_cast hq.ne'
  have hang : 2 * Real.pi * q / (4 * q : ℕ) = Real.pi / 2 := by
    push_cast
    field_simp
    norm_num
  rw [cycRoot_pow, hang, Complex.ofReal_div, Complex.ofReal_ofNat, Complex.exp_pi_div_two_mul_I]

theorem cycRoot_half {q : ℕ} (hq : 0 < q) : cycRoot (4 * q) ^ (2 * q) = -1 := by
  rw [mul_comm 2 q, pow_mul, cycRoot_quarter hq, Complex.I_sq]

theorem cycRoot_pow_self {q : ℕ} (hq : 0 < q) : cycRoot (4 * q) ^ (4 * q) = 1 := by
  rw [pow_mul', cycRoot_quarter hq, Complex.I_pow_four]

/-- The number with the given coordinates in 1, z, z², … -/
def evalAt (z : ℂ) : List ℤ → ℂ
  | [] => 0
  | a :: c => a + z * evalAt z c

section Eval

variable (z : ℂ)

theorem evalAt_append (c d : List ℤ) : evalAt z (c ++ d) = evalAt z c + z ^ c.length * evalAt z d := by
  induction c with
  | nil => simp [evalAt]
  | cons a c ih =>
    rw [List.cons_append, evalAt, ih, evalAt, List.length_cons, pow_succ']
    ring

theorem evalAt_neg (c : List ℤ) : evalAt z (c.map fun a => -a) = -evalAt z c := by
  induction c with
  | nil => simp [evalAt]
  | cons a c ih =>
    rw [List.map_cons, evalAt, ih, evalAt, Int.cast_neg]
    ring

theorem evalAt_zipWith_add {c d : List ℤ} (h : c.length = d.length) :
    evalAt z (List.zipWith (fun a b => a + b) c d) = evalAt z c + evalAt z d := by
  induction c generalizing d with
  | nil =>
    obtain rfl := List.eq_nil_of_length_eq_zero h.symm
    simp [evalAt]
  | cons a c ih =>
    cases d with
    | nil => cases h
    | cons b d =>
      rw [List.zipWith_cons_cons, evalAt, ih (Nat.succ.inj h), evalAt, evalAt, Int.cast_add]
      ring

theorem evalAt_zipWith_sub {c d : List ℤ} (h : c.length = d.length) :
    evalAt z (List.zipWith (fun a b => a - b) c d) = evalAt z c - evalAt z d := by
  have hneg : List.zipWith (fun a b => a - b) c d =
      List.zipWith (fun a b => a + b) c (d.map fun b => -b) := by
    rw [List.zipWith_map_right]
    simp only [sub_eq_add_neg]
  rw [hneg, evalAt_zipWith_add z (by rw [List.length_map, h]), evalAt_neg, sub_eq_add_neg]

theorem evalAt_replicate_zero (n : ℕ) : evalAt z (List.replicate n 0) = 0 := by
  induction n with
  | zero => rfl
  | succ n ih => rw [List.replicate_succ, evalAt, ih, Int.cast_zero, mul_zero, add_zero]

theorem evalAt_set {c : List ℤ} {j : ℕ} (hj : j < c.length) (b : ℤ) :
    evalAt z (c.set j b) = evalAt z c + (b - c.getD j 0) * z ^ j := by
  induction c generalizing j with
  | nil => cases hj
  | cons a c ih =>
    cases j with
    | zero =>
      simp [evalAt]
      ring
    | succ j =>
      rw [List.set_cons_succ, evalAt, ih (Nat.lt_of_succ_lt_succ hj), evalAt, List.getD_cons_succ,
        pow_succ']
      ring

theorem evalAt_eq_sum (c : List ℤ) : evalAt z c = ∑ j ∈ range c.length, (c.getD j 0 : ℂ) * z ^ j := by
  induction c with
  | nil => rfl
  | cons a c ih =>
    rw [List.length_cons, sum_range_succ', evalAt, ih, mul_sum, add_comm]
    congr 1
    · refine sum_congr rfl fun j _ => ?_
      rw [List.getD_cons_succ, pow_succ']
      ring
    · simp

end Eval

/-! ### Butterflies on coordinates -/

namespace Cyc

/-- The list is the coordinates of the complex number. -/
def IsCoords (m : ℕ) (c : List ℤ) (z : ℂ) : Prop := c.length = m / 2 ∧ z = evalAt (cycRoot m) c

/-- The exponent is that of the power of the root. -/
def IsPower (m e : ℕ) (w : ℂ) : Prop := e < m ∧ w = cycRoot m ^ e

theorem isCoords_zero (m : ℕ) : IsCoords m (zero m) 0 :=
  ⟨by simp [zero], (evalAt_replicate_zero _ _).symm⟩

theorem length_rotate {m : ℕ} (e : ℕ) {c : List ℤ} (hc : c.length = m / 2) :
    (rotate m e c).length = m / 2 := by
  unfold rotate
  dsimp only
  split_ifs <;>
    simp only [List.length_map, List.length_append, List.length_drop, List.length_take, hc] <;> omega

section Order

variable {q : ℕ} (hq : 0 < q)
include hq

/-- A list turned by k places, those passed over the end negated, is multiplied by `z^k`. -/
theorem evalAt_turned {c : List ℤ} (hc : c.length = 2 * q) {k : ℕ} (hk : k < 2 * q) :
    evalAt (cycRoot (4 * q)) ((c.drop (2 * q - k)).map (fun a => -a) ++ c.take (2 * q - k)) =
      cycRoot (4 * q) ^ k * evalAt (cycRoot (4 * q)) c := by
  have hdrop : (c.drop (2 * q - k)).length = k := by rw [List.length_drop]; omega
  have htake : (c.take (2 * q - k)).length = 2 * q - k := by rw [List.length_take]; omega
  have hwhole : cycRoot (4 * q) ^ k * cycRoot (4 * q) ^ (2 * q - k) = -1 := by
    rw [← pow_add, Nat.add_sub_cancel' hk.le, cycRoot_half hq]
  conv_rhs => rw [← List.take_append_drop (2 * q - k) c]
  rw [evalAt_append, evalAt_append, evalAt_neg, List.length_map, hdrop, htake, mul_add, ← mul_assoc, hwhole]
  ring

/-- Product with a power of the root; from the half turn on the turned list is negated. -/
theorem evalAt_rotate {c : List ℤ} (hc : c.length = 2 * q) {e : ℕ} (he : e < 4 * q) :
    evalAt (cycRoot (4 * q)) (rotate (4 * q) e c) =
      cycRoot (4 * q) ^ e * evalAt (cycRoot (4 * q)) c := by
  have hhalf : 4 * q / 2 = 2 * q := by omega
  have hturn := evalAt_turned hq hc (Nat.mod_lt e (by omega : 0 < 2 * q))
  unfold rotate
  simp only [hhalf]
  rcases Nat.lt_or_ge e (2 * q) with h | h
  · rw [if_pos h, hturn, Nat.mod_eq_of_lt h]
  · have hpow : cycRoot (4 * q) ^ e = -cycRoot (4 * q) ^ (e % (2 * q)) := by
      have hmod : e % (2 * q) + 2 * q = e := by
        rw [Nat.mod_eq_sub_mod h, Nat.mod_eq_of_lt (by omega), Nat.sub_add_cancel h]
      conv_lhs => rw [← hmod, pow_add, cycRoot_half hq, mul_neg_one]
    rw [if_neg h.not_gt, evalAt_neg, hturn, hpow, neg_mul]

theorem isCoords_rotate {e : ℕ} {w z : ℂ} {c : List ℤ} (hw : IsPower (4 * q) e w)
    (hc : IsCoords (4 * q) c z) : IsCoords (4 * q) (rotate (4 * q) e c) (w * z) := by
  obtain ⟨he, rfl⟩ := hw
  obtain ⟨hlen, rfl⟩ := hc
  have hhalf : 4 * q / 2 = 2 * q := by omega
  exact ⟨length_rotate e hlen, (evalAt_rotate hq (hlen.trans hhalf) he).symm⟩

theorem ops_related : FftOps.Related (ops (4 * q)) complexOps (IsPower (4 * q)) (IsCoords (4 * q)) where
  add := by
    rintro a _ b _ ⟨ha, rfl⟩ ⟨hb, rfl⟩
    exact ⟨by simp [ops, ha, hb], (evalAt_zipWith_add _ (ha.trans hb.symm)).symm⟩
  sub := by
    rintro a _ b _ ⟨ha, rfl⟩ ⟨hb, rfl⟩
    exact ⟨by simp [ops, ha, hb], (evalAt_zipWith_sub _ (ha.trans hb.symm)).symm⟩
  mulW hw ha := isCoords_rotate hq hw ha

theorem isCoords_ofUnits (a b : ℤ) : IsCoords (4 * q) (ofUnits (4 * q) a b) (a + b * Complex.I) := by
  have hhalf : 4 * q / 2 = 2 * q := by omega
  have hquarter : 4 * q / 4 = q := by omega
  have hget : ((List.replicate (2 * q) (0 : ℤ)).set q b).getD 0 0 = 0 := by
    rw [List.getD_eq_getElem?_getD, List.getElem?_set_ne (by omega)]
    simp
  refine ⟨by simp [ofUnits, zero], ?_⟩
  rw [ofUnits, zero, hhalf, hquarter, evalAt_set _ (by simp; omega), evalAt_set _ (by simp; omega), hget,
    evalAt_replicate_zero, cycRoot_quarter hq]
  simp
  ring

/-- `W(2^s, k)` as a power of the root. -/
theorem isPower_twiddle {s c k : ℕ} (hm : 4 * q = c * s) (hk : k ≤ s) (hs : 0 < s) :
    IsPower (4 * q) ((4 * q - k * (4 * q / s)) % (4 * q)) (unitRoot s k) := by
  have hdiv : 4 * q / s = c := by rw [hm, Nat.mul_div_cancel _ hs]
  have hc : 0 < c := Nat.pos_of_ne_zero fun h => by simp [h] at hm; omega
  have hle : k * c ≤ 4 * q := by rw [hm, mul_comm c]; exact Nat.mul_le_mul_right c hk
  refine ⟨Nat.mod_lt _ (by omega), ?_⟩
  rw [hdiv, ← pow_eq_pow_mod _ (cycRoot_pow_self hq), ← unitRoot_mul_left hc, ← hm, unitRoot_eq_inv,
    mul_comm c]
  refine (eq_inv_of_mul_eq_one_left ?_).symm
  rw [← pow_add, Nat.sub_add_cancel hle, cycRoot_pow_self hq]

end Order

theorem order_eq (n : ℕ) : order n = 4 * 2 ^ (n - 2) := by
  have hfour : (4 : ℕ) = 2 ^ 2 := rfl
  rcases Nat.le_total n 2 with h | h
  · rw [order, hfour, Nat.max_eq_left (Nat.pow_le_pow_right two_pos h), Nat.sub_eq_zero_of_le h, pow_zero,
      mul_one]
  · rw [order, hfour, Nat.max_eq_right (Nat.pow_le_pow_right two_pos h), ← pow_add,
      Nat.add_sub_cancel' h]

theorem two_pow_dvd_order {s n : ℕ} (h : s ≤ n) : 2 ^ s ∣ order n := by
  have hpow : order n = 2 ^ (2 + (n - 2)) := by rw [order_eq, pow_add]; norm_num
  rw [hpow]
  exact pow_dvd_pow 2 (by omega)

theorem isPower_twiddles (n : ℕ) : List.Forall₂ (List.Forall₂ (IsPower (order n))) (twiddles n)
    ((List.range n).map complexStage) := by
  refine forall₂_map_same _ fun t ht => forall₂_map_same _ fun k hk => ?_
  rw [List.mem_range] at ht hk
  obtain ⟨c, hc⟩ := two_pow_dvd_order ht
  rw [order_eq] at hc ⊢
  refine isPower_twiddle (Nat.two_pow_pos _) (hc.trans (mul_comm _ _)) ?_ (Nat.two_pow_pos _)
  exact (hk.trans_le (Nat.pow_le_pow_right two_pos (Nat.le_succ t))).le

end Cyc

end Sys2Proof.Machine

/-! The values of a transform's parts (log 11): the real and the imaginary part of a cyclotomic number by
its coordinates in cosines, and their enclosures. -/

namespace Sys2Proof.Machine

open Finset

namespace Cyc

/-! ### Coordinates in cosines -/

/-- The real with the given coordinates in the cosines of `2 pi j / m`, j = 0, 1, … -/
noncomputable def cosValue (m : ℕ) (d : List ℤ) : ℝ :=
  ∑ j ∈ range d.length, (d.getD j 0 : ℝ) * Real.cos (2 * Real.pi * j / m)

theorem cosValue_cons (m : ℕ) (a : ℤ) (d : List ℤ) : cosValue m (a :: d) =
    a + ∑ j ∈ range d.length, (d.getD j 0 : ℝ) * Real.cos (2 * Real.pi * (j + 1 : ℕ) / m) := by
  rw [cosValue, List.length_cons, sum_range_succ', add_comm]
  simp

theorem cosValue_neg (m : ℕ) (d : List ℤ) : cosValue m (d.map fun b => -b) = -cosValue m d := by
  rw [cosValue, cosValue, List.length_map, ← sum_neg_distrib]
  refine sum_congr rfl fun j _ => ?_
  have hget : (d.map fun b => -b).getD j 0 = -d.getD j 0 := by
    simpa using List.getD_map d (0 : ℤ) (n := j) fun b => -b
  rw [hget, Int.cast_neg, neg_mul]

/-- The places 0 to 2p + 1 as 0, p + 1 and the p places on either side of p + 1. -/
theorem sum_range_quarters (f : ℕ → ℝ) (p : ℕ) : ∑ j ∈ range (2 * (p + 1)), f j =
    f 0 + f (p + 1) + (∑ i ∈ range p, f (i + 1) + ∑ i ∈ range p, f (p + 2 + i)) := by
  have hsplit : 2 * (p + 1) = p + 1 + 1 + p := by ring
  rw [hsplit, sum_range_add, sum_range_succ, sum_range_succ']
  ring

theorem getD_zipWith {f : ℤ → ℤ → ℤ} {c d : List ℤ} {i : ℕ} (hc : i < c.length)
    (hd : i < d.length) : (List.zipWith f c d).getD i 0 = f (c.getD i 0) (d.getD i 0) := by
  simp [List.getD_eq_getElem?_getD, hc, hd]

theorem evalAt_cycRoot_re (m : ℕ) (c : List ℤ) : (evalAt (cycRoot m) c).re =
    ∑ j ∈ range c.length, (c.getD j 0 : ℝ) * Real.cos (2 * Real.pi * j / m) := by
  rw [evalAt_eq_sum, Complex.re_sum]
  refine sum_congr rfl fun j _ => ?_
  rw [← Complex.ofReal_intCast, Complex.re_ofReal_mul, cycRoot_pow_re]

theorem evalAt_cycRoot_im (m : ℕ) (c : List ℤ) : (evalAt (cycRoot m) c).im =
    ∑ j ∈ range c.length, (c.getD j 0 : ℝ) * Real.sin (2 * Real.pi * j / m) := by
  rw [evalAt_eq_sum, Complex.im_sum]
  refine sum_congr rfl fun j _ => ?_
  rw [← Complex.ofReal_intCast, Complex.im_ofReal_mul, cycRoot_pow_im]

/-- A quarter turn is `pi / 2`. -/
theorem turn_add_quarter {q : ℕ} (hq : 0 < q) (j : ℕ) :
    2 * Real.pi * (q + j : ℕ) / (4 * q : ℕ) = 2 * Real.pi * j / (4 * q : ℕ) + Real.pi / 2 := by
  have hq' : (q : ℝ) ≠ 0 := by exact_mod_cast hq.ne'
  push_cast
  field_simp
  ring

theorem sin_turn_add_quarter {q : ℕ} (hq : 0 < q) (j : ℕ) :
    Real.sin (2 * Real.pi * (q + j : ℕ) / (4 * q : ℕ)) = Real.cos (2 * Real.pi * j / (4 * q : ℕ)) := by
  rw [turn_add_quarter hq, Real.sin_add_pi_div_two]

theorem cos_turn_add_quarter {q : ℕ} (hq : 0 < q) (j : ℕ) :
    Real.cos (2 * Real.pi * (q + j : ℕ) / (4 * q : ℕ)) = -Real.sin (2 * Real.pi * j / (4 * q : ℕ)) := by
  rw [turn_add_quarter hq, Real.cos_add_pi_div_two]

/-- Complementary turns exchange cosine and sine. -/
theorem sin_turn_of_add_eq {q i j : ℕ} (hq : 0 < q) (h : i + j = q) :
    Real.sin (2 * Real.pi * i / (4 * q : ℕ)) = Real.cos (2 * Real.pi * j / (4 * q : ℕ)) := by
  have hq' : (q : ℝ) ≠ 0 := by exact_mod_cast hq.ne'
  have hang : 2 * Real.pi * j / (4 * q : ℕ) = Real.pi / 2 - 2 * Real.pi * i / (4 * q : ℕ) := by
    have hj : (j : ℝ) = q - i := by rw [← h]; push_cast; ring
    rw [hj]
    push_cast
    field_simp
    ring
  rw [hang, Real.cos_pi_div_two_sub]

theorem getD_lower {c : List ℤ} {i q : ℕ} (h : i + 1 < q) :
    ((c.take q).drop 1).getD i 0 = c.getD (i + 1) 0 := by
  rw [List.getD_eq_getElem?_getD, List.getElem?_drop, List.getElem?_take_of_lt (by omega),
    List.getD_eq_getElem?_getD, Nat.add_comm]

theorem getD_upper (c : List ℤ) (i k : ℕ) : (c.drop k).getD i 0 = c.getD (k + i) 0 := by
  rw [List.getD_eq_getElem?_getD, List.getElem?_drop, List.getD_eq_getElem?_getD]

section Parts

variable {c : List ℤ} {p : ℕ} (hc : c.length = 2 * (p + 1))
include hc

theorem length_lower : ((c.take (p + 1)).drop 1).length = p := by
  rw [List.length_drop, List.length_take]
  omega

theorem length_upper : (c.drop (p + 2)).length = p := by
  rw [List.length_drop]
  omega

theorem length_realPart : (realPart (4 * (p + 1)) c).length = p + 1 := by
  rw [realPart, Nat.mul_div_cancel_left _ four_pos, List.length_cons, List.length_zipWith,
    List.length_reverse, length_lower hc, length_upper hc, Nat.min_self]

theorem length_imagPart : (imagPart (4 * (p + 1)) c).length = p + 1 := by
  rw [imagPart, Nat.mul_div_cancel_left _ four_pos, List.length_cons, List.length_zipWith,
    List.length_reverse, length_lower hc, length_upper hc, Nat.min_self]

/-- The cosines of the second quarter are minus those of the first, backwards. -/
theorem cosValue_realPart : cosValue (4 * (p + 1)) (realPart (4 * (p + 1)) c) =
    (evalAt (cycRoot (4 * (p + 1))) c).re := by
  have hq : 0 < p + 1 := p.succ_pos
  have hquarter : Real.cos (2 * Real.pi * (p + 1 : ℕ) / (4 * (p + 1) : ℕ)) = 0 := by
    simpa using cos_turn_add_quarter hq 0
  rw [realPart, Nat.mul_div_cancel_left _ four_pos, cosValue_cons, evalAt_cycRoot_re, hc, sum_range_quarters,
    List.length_zipWith, List.length_reverse, length_lower hc, length_upper hc, Nat.min_self,
    ← sum_range_reflect (fun i => _ * Real.cos (2 * Real.pi * (p + 2 + i : ℕ) / _)), ← sum_add_distrib]
  congr 1
  · rw [hquarter]
    simp
  · refine sum_congr rfl fun i hi => ?_
    rw [mem_range] at hi
    rw [getD_zipWith (by rwa [length_lower hc]) (by rwa [List.length_reverse, length_upper hc]),
      getD_lower (by omega), List.getD_reverse _ (by rwa [length_upper hc]), length_upper hc, getD_upper]
    have hcos : Real.cos (2 * Real.pi * (p + 2 + (p - 1 - i) : ℕ) / (4 * (p + 1) : ℕ)) =
        -Real.cos (2 * Real.pi * (i + 1 : ℕ) / (4 * (p + 1) : ℕ)) := by
      rw [show p + 2 + (p - 1 - i) = p + 1 + (p - i) by omega, cos_turn_add_quarter hq,
        sin_turn_of_add_eq (j := i + 1) hq (by omega)]
    rw [hcos]
    push_cast
    ring

/-- A sine of the first quarter is the cosine of the complement, of the second the cosine of the excess. -/
theorem cosValue_imagPart : cosValue (4 * (p + 1)) (imagPart (4 * (p + 1)) c) =
    (evalAt (cycRoot (4 * (p + 1))) c).im := by
  have hq : 0 < p + 1 := p.succ_pos
  have hquarter : Real.sin (2 * Real.pi * (p + 1 : ℕ) / (4 * (p + 1) : ℕ)) = 1 := by
    simpa using sin_turn_add_quarter hq 0
  rw [imagPart, Nat.mul_div_cancel_left _ four_pos, cosValue_cons, evalAt_cycRoot_im, hc, sum_range_quarters,
    List.length_zipWith, List.length_reverse, length_lower hc, length_upper hc, Nat.min_self,
    ← sum_range_reflect (fun i => _ * Real.sin (2 * Real.pi * (i + 1 : ℕ) / _)), ← sum_add_distrib]
  congr 1
  · rw [hquarter]
    simp
  · refine sum_congr rfl fun i hi => ?_
    rw [mem_range] at hi
    have hlower := length_lower hc
    rw [getD_zipWith (by rwa [List.length_reverse, hlower]) (by rwa [length_upper hc]),
      List.getD_reverse _ (by rwa [hlower]), hlower, getD_lower (by omega), getD_upper]
    have hsin : Real.sin (2 * Real.pi * (p - 1 - i + 1 : ℕ) / (4 * (p + 1) : ℕ)) =
        Real.cos (2 * Real.pi * (i + 1 : ℕ) / (4 * (p + 1) : ℕ)) :=
      sin_turn_of_add_eq hq (by omega)
    have hsin' : Real.sin (2 * Real.pi * (p + 2 + i : ℕ) / (4 * (p + 1) : ℕ)) =
        Real.cos (2 * Real.pi * (i + 1 : ℕ) / (4 * (p + 1) : ℕ)) := by
      rw [show p + 2 + i = p + 1 + (i + 1) by omega, sin_turn_add_quarter hq]
    rw [hsin, hsin']
    push_cast
    ring

end Parts

/-! ### Enclosures of the values -/

theorem length_cosines (p q : ℕ) : (cosines p (4 * q)).length = q - 1 := by simp [cosines]

theorem holds_weighted {p : ℕ} {ds : List ℤ} {xs : List Ivl} {g : ℕ → ℝ}
    (hl : ds.length = xs.length) (hx : ∀ (j : ℕ) (x : Ivl), xs[j]? = some x → x.holds p (g j)) :
    (weighted ds xs).holds p (∑ j ∈ range ds.length, (ds.getD j 0 : ℝ) * g j) := by
  induction ds generalizing xs g with
  | nil => simp [weighted, Ivl.holds]
  | cons d ds ih =>
    cases xs with
    | nil => cases hl
    | cons x xs =>
      have htail := ih (g := fun j => g (j + 1)) (Nat.succ.inj hl) fun j y hy => hx (j + 1) y hy
      rw [List.length_cons, sum_range_succ', weighted]
      simp only [List.getD_cons_succ, List.getD_cons_zero]
      split_ifs with hd
      · simpa [hd] using htail
      · have hhead := Ivl.holds_scale (hx 0 x rfl) d
        rw [add_comm, mul_comm]
        exact Ivl.holds_add hhead htail

section Values

variable {p q : ℕ} (hq : 0 < q)
include hq

/-- Element j of the table holds the cosine of turn j + 1. -/
theorem holds_cosines {j : ℕ} {i : Ivl} (hi : (cosines p (4 * q))[j]? = some i) :
    i.holds p (Real.cos (2 * Real.pi * (j + 1 : ℕ) / (4 * q : ℕ))) := by
  have hj : 1 + j < q := by
    have hlt := lt_length_of_getElem? hi
    rw [length_cosines] at hlt
    omega
  rw [cosines, Nat.mul_div_cancel_left _ four_pos, List.getElem?_map, List.getElem?_drop,
    List.getElem?_range hj, Option.map_some, Option.some.injEq] at hi
  subst hi
  have hcos := Encl.holds_cosQuarter (Ivl.holds_pi p) (k := 1 + j) (m := 4 * q) (by omega) (by omega)
  rw [Nat.add_comm j]
  cases ht : (Encl.cosQuarter p (Ivl.pi p) (1 + j) (4 * q)).toIvl p with
  | some i => exact Encl.holds_toIvl hcos ht
  | none =>
    have hpow : (0 : ℝ) < 2 ^ p := by positivity
    obtain ⟨hlo, hhi⟩ := abs_le.1 (Real.abs_cos_le_one (2 * Real.pi * (1 + j : ℕ) / (4 * q : ℕ)))
    simp only [Option.getD_none, Ivl.holds]
    push_cast at hlo hhi ⊢
    constructor <;> nlinarith

/-- A value has an enclosure with knowledge: its rational, or an interval. -/
theorem holds_value {d : List ℤ} {den : ℕ} (hd : d.length = q) (hden : 0 < den) :
    value p den (cosines p (4 * q)) d ≠ .any ∧
      (value p den (cosines p (4 * q)) d).holds (cosValue (4 * q) d / den) := by
  cases d with
  | nil => exact absurd hd hq.ne
  | cons d0 ds =>
    rw [cosValue_cons, value]
    have hlen : ds.length = q - 1 := by rw [← hd]; rfl
    split_ifs with hz
    · have hzero : ∑ j ∈ range ds.length,
          (ds.getD j 0 : ℝ) * Real.cos (2 * Real.pi * (j + 1 : ℕ) / (4 * q : ℕ)) = 0 := by
        refine sum_eq_zero fun j hj => ?_
        rw [mem_range] at hj
        have hcoord := List.all_eq_true.1 hz _ (List.getElem_mem hj)
        rw [List.getD_eq_getElem _ _ hj, beq_iff_eq.1 hcoord, Int.cast_zero, zero_mul]
      rw [hzero, add_zero]
      refine ⟨nofun, ?_⟩
      rw [Encl.holds, Rat.mkRat_eq_div]
      push_cast
      rfl
    · refine ⟨nofun, Encl.holds_some_ofIvl (Ivl.holds_divNat ?_ hden)⟩
      rw [add_comm]
      exact Ivl.holds_add
        (holds_weighted (hlen.trans (length_cosines _ _).symm) fun j x => holds_cosines hq)
        (Ivl.holds_ofInt p d0)

end Values

end Cyc

end Sys2Proof.Machine

/-! FFT and IFFT (R133, R134, R136): the parts they round are those of the discrete Fourier transform and of
its inverse. -/

namespace Sys2Proof.Machine

open Finset ComplexConjugate

/-! ### Operands in units -/

/-- R10: a finite binary32 value is a whole number of units of 2^-149. -/
theorem unitsOf_of_f32 {w : Word} {a : ℚ} (h : f32 w = some a) : (unitsOf a : ℚ) = a * 2 ^ 149 := by
  have hdvd : a.den ∣ 2 ^ 149 := by
    rw [f32_eq_some h, Rat.mkRat_eq_divInt]
    exact Int.natCast_dvd_natCast.1 (Rat.den_dvd _ _)
  have hden : (a.den : ℚ) ≠ 0 := by exact_mod_cast a.den_nz
  rw [unitsOf, Int.cast_mul, Int.cast_natCast, Nat.cast_div hdvd hden]
  conv_rhs => rw [← Rat.num_div_den a]
  push_cast
  ring

theorem unitsOf_neg (a : ℚ) : unitsOf (-a) = -unitsOf a := by
  rw [unitsOf, unitsOf, Rat.neg_num, Rat.neg_den, neg_mul]

/-- The number is a whole number of units. -/
def InUnits (a : ℚ) : Prop := (unitsOf a : ℚ) = a * 2 ^ 149

theorem InUnits.neg {a : ℚ} (h : InUnits a) : InUnits (-a) := by
  rw [InUnits, unitsOf_neg, Int.cast_neg, h, neg_mul]

theorem inUnits_of_map_f32 {ws : List Word} {as : List ℚ} (h : ws.map f32 = as.map some) :
    ∀ a ∈ as, InUnits a := by
  intro a ha
  have hmem : some a ∈ ws.map f32 := h ▸ List.mem_map_of_mem ha
  obtain ⟨w, -, hw⟩ := List.mem_map.1 hmem
  exact unitsOf_of_f32 hw

namespace Cyc

/-! ### The transform of the operands -/

theorem isCoords_operands (n : ℕ) {re im : List ℚ} (hur : ∀ a ∈ re, InUnits a)
    (hui : ∀ b ∈ im, InUnits b) : List.Forall₂ (IsCoords (order n))
    (List.zipWith (ofUnits (order n)) (re.map unitsOf) (im.map unitsOf))
    (List.zipWith (fun a b : ℚ => ((2 ^ 149 : ℝ) : ℂ) * (a + b * Complex.I)) re im) := by
  have hunits : ∀ {as : List ℚ}, (∀ a ∈ as, InUnits a) →
      List.Forall₂ (fun (u : ℤ) (a : ℚ) => (u : ℂ) = a * 2 ^ 149) (as.map unitsOf) as := fun h => by
    rw [List.forall₂_map_left_iff, List.forall₂_same]
    exact fun a ha => by exact_mod_cast congrArg (Rat.cast (K := ℂ)) (h a ha)
  refine forall₂_zipWith (hunits hur) (hunits hui) fun {u a v b} hu hv => ?_
  have hcoords := isCoords_ofUnits (Nat.two_pow_pos (n - 2)) u v
  rw [← order_eq, hu, hv] at hcoords
  convert hcoords using 1
  push_cast
  ring

section Transform

variable {n k : ℕ} {re im : List ℚ} (hre : re.length = 2 ^ n) (him : im.length = 2 ^ n)
  (hur : ∀ a ∈ re, InUnits a) (hui : ∀ b ∈ im, InUnits b)
include hre him hur hui

/-- Element k of the transform stands for element k of the operands' discrete Fourier transform. -/
theorem isCoords_transform (hk : k < 2 ^ n) : IsCoords (order n)
    ((transform n (re.map unitsOf) (im.map unitsOf)).getD k [])
    (((2 ^ 149 : ℝ) : ℂ) * dft (2 ^ n) (re.map (↑)) (im.map (↑)) k) := by
  have hops := ops_related (Nat.two_pow_pos (n - 2))
  rw [← order_eq] at hops
  obtain ⟨c, hc, hval⟩ := exists_fft_of_related hops (isCoords_zero _) (isPower_twiddles n)
    (isCoords_operands n hur hui) hk
  rw [List.getD_eq_getElem?_getD, transform, hc, Option.getD_some]
  convert hval using 1
  rw [dft_eq_sum_unitRoot, mul_sum]
  refine sum_congr rfl fun j hj => ?_
  rw [mem_range] at hj
  rw [← mul_assoc]
  simp [List.getD_eq_getElem?_getD, hre, him, hj]

end Transform

/-! ### Values of the parts -/

/-- The lists are coordinates of the given reals, in the order and the units of the transform. -/
structure Parts.Holds (n : ℕ) (t : Parts) (ds : List (List ℤ)) (value : ℕ → ℝ) : Prop where
  order : t.order = Cyc.order n
  den : 0 < t.den
  length : ds.length = 2 ^ n
  coords : ∀ k < 2 ^ n, ∃ d, ds[k]? = some d ∧ d.length = 2 ^ (n - 2) ∧
    cosValue t.order d = value k * t.den

section Holds

variable {n : ℕ} {t : Parts} {ds : List (List ℤ)} {value : ℕ → ℝ} (h : t.Holds n ds value)
include h

/-- What is rounded has knowledge of its real, and holds it. -/
theorem Parts.Holds.exists_enclosed (p : ℕ) {k : ℕ} (hk : k < 2 ^ n) :
    ∃ e, (t.enclosed ds p)[k]? = some e ∧ e ≠ .any ∧ e.holds (value k) := by
  obtain ⟨d, hd, hlen, hval⟩ := h.coords k hk
  obtain ⟨hne, hholds⟩ := holds_value (p := p) (Nat.two_pow_pos (n - 2)) hlen h.den
  have hden : (t.den : ℝ) ≠ 0 := by exact_mod_cast h.den.ne'
  rw [← order_eq, ← h.order] at hne hholds
  rw [hval, mul_div_cancel_right₀ _ hden] at hholds
  exact ⟨_, by rw [Parts.enclosed, List.getElem?_map, hd, Option.map_some], hne, hholds⟩

/-- A part that an early evaluation decides is stored as the reference roundings. -/
theorem Parts.Holds.stored_eq {j : ℕ} (hj : j < 4)
    (hd : ∀ e ∈ t.enclosed ds (320 * 4 ^ j), e.rounded ≠ none) :
    t.stored ds = (List.range (2 ^ n)).map fun k => rndReal (value k) := by
  have hall : ∀ p,
      List.Forall₂ Encl.holds (t.enclosed ds p) ((List.range (2 ^ n)).map value) := fun p => by
    refine forall₂_holds_of_getElem (by simp [Parts.enclosed, h.length]) fun k hk => ?_
    rw [List.length_map, List.length_range] at hk
    obtain ⟨e, he, -, hholds⟩ := h.exists_enclosed p hk
    exact ⟨e, he, by simpa using hholds⟩
  rw [Parts.stored, storeFloats_of_decided hall (Nat.lt_add_right _ hj) hd, List.map_map]
  rfl

end Holds

/-- The coordinates of the two parts have a quarter of the order's length and the parts' values. -/
theorem IsCoords.parts {n : ℕ} {c : List ℤ} {z : ℂ} (h : IsCoords (order n) c z) :
    ((realPart (order n) c).length = 2 ^ (n - 2) ∧ cosValue (order n) (realPart (order n) c) = z.re) ∧
      ((imagPart (order n) c).length = 2 ^ (n - 2) ∧ cosValue (order n) (imagPart (order n) c) = z.im) := by
  obtain ⟨p, hp⟩ := Nat.exists_eq_succ_of_ne_zero (Nat.two_pow_pos (n - 2)).ne'
  obtain ⟨hlen, rfl⟩ := h
  rw [order_eq, hp] at hlen ⊢
  have hc : c.length = 2 * (p + 1) := by omega
  exact ⟨⟨length_realPart hc, cosValue_realPart hc⟩, length_imagPart hc, cosValue_imagPart hc⟩

end Cyc

/-- R136: the transform of the conjugates is N times the conjugate of the inverse transform. -/
theorem dft_neg_im {m : ℕ} (hm : 0 < m) (re im : List ℝ) (k : ℕ) :
    dft m re (im.map fun b => -b) k = conj (m * idft m re im k) := by
  have hm' : (m : ℂ) ≠ 0 := by exact_mod_cast hm.ne'
  rw [idft, mul_div_cancel₀ _ hm', dft, map_sum]
  refine sum_congr rfl fun j _ => ?_
  have hget : (im.map fun b => -b).getD j 0 = -im.getD j 0 := by
    simpa using List.getD_map im (0 : ℝ) (n := j) fun b => -b
  rw [hget, map_mul, map_add, map_mul, ← Complex.exp_conj, map_mul, Complex.conj_I, Complex.conj_ofReal,
    Complex.conj_ofReal, Complex.conj_ofReal, Complex.ofReal_neg, mul_right_comm _ (k : ℝ)]
  ring_nf

section Values

variable {n : ℕ} {re im : List ℚ} (hre : re.length = 2 ^ n) (him : im.length = 2 ^ n)
  (hur : ∀ a ∈ re, InUnits a) (hui : ∀ b ∈ im, InUnits b)
include hre him hur hui

/-- R133: the parts of FFT are those of the discrete Fourier transform. -/
theorem fftParts_holds :
    (fftParts n re im).Holds n (fftParts n re im).re
        (fun k => (dft (2 ^ n) (re.map (↑)) (im.map (↑)) k).re) ∧
      (fftParts n re im).Holds n (fftParts n re im).im
        (fun k => (dft (2 ^ n) (re.map (↑)) (im.map (↑)) k).im) := by
  have hden : ((fftParts n re im).den : ℝ) = 2 ^ 149 := by
    simp only [fftParts, Nat.cast_pow, Nat.cast_ofNat]
  have hpos : 0 < (fftParts n re im).den := Nat.two_pow_pos 149
  obtain ⟨hlre, hlim⟩ := fftParts_length n re im
  refine ⟨⟨rfl, hpos, hlre, fun k hk => ?_⟩, ⟨rfl, hpos, hlim, fun k hk => ?_⟩⟩
  · obtain ⟨⟨hl, hv⟩, -⟩ := (Cyc.isCoords_transform hre him hur hui hk).parts
    refine ⟨_, by simp only [fftParts, List.getElem?_map, List.getElem?_range hk, Option.map_some], hl,
      hv.trans ?_⟩
    rw [Complex.re_ofReal_mul, hden, mul_comm]
  · obtain ⟨-, hl, hv⟩ := (Cyc.isCoords_transform hre him hur hui hk).parts
    refine ⟨_, by simp only [fftParts, List.getElem?_map, List.getElem?_range hk, Option.map_some], hl,
      hv.trans ?_⟩
    rw [Complex.im_ofReal_mul, hden, mul_comm]

/-- R136: the conjugated operands' transform has the inverse transform's parts, the imaginary ones
negated, times N. -/
theorem isCoords_transform_conj {k : ℕ} (hk : k < 2 ^ n) : Cyc.IsCoords (Cyc.order n)
    ((Cyc.transform n (re.map unitsOf) ((im.map unitsOf).map fun b => -b)).getD k [])
    (((2 ^ 149 * 2 ^ n : ℝ) : ℂ) * conj (idft (2 ^ n) (re.map (↑)) (im.map (↑)) k)) := by
  have hneg : (im.map unitsOf).map (fun b => -b) = (im.map fun b => -b).map unitsOf := by
    simp only [List.map_map]
    exact List.map_congr_left fun b _ => (unitsOf_neg b).symm
  have hcast : (im.map fun b => -b).map (fun b : ℚ => (b : ℝ)) =
      (im.map fun b : ℚ => (b : ℝ)).map fun b => -b := by
    simp only [List.map_map]
    exact List.map_congr_left fun b _ => Rat.cast_neg b
  have hui' : ∀ b ∈ im.map fun b => -b, InUnits b := by
    intro b hb
    obtain ⟨a, ha, rfl⟩ := List.mem_map.1 hb
    exact (hui a ha).neg
  have hcoords := Cyc.isCoords_transform hre (by rwa [List.length_map]) hur hui' hk
  rw [hcast, dft_neg_im (Nat.two_pow_pos n), map_mul, ← hneg] at hcoords
  convert hcoords using 1
  push_cast
  simp only [map_pow, Complex.conj_ofNat]
  ring

/-- R134: the parts of IFFT are those of the inverse discrete Fourier transform. -/
theorem ifftParts_holds :
    (ifftParts n re im).Holds n (ifftParts n re im).re
        (fun k => (idft (2 ^ n) (re.map (↑)) (im.map (↑)) k).re) ∧
      (ifftParts n re im).Holds n (ifftParts n re im).im
        (fun k => (idft (2 ^ n) (re.map (↑)) (im.map (↑)) k).im) := by
  have hden : ((ifftParts n re im).den : ℝ) = 2 ^ 149 * 2 ^ n := by
    simp only [ifftParts, Nat.cast_mul, Nat.cast_pow, Nat.cast_ofNat]
  have hpos : 0 < (ifftParts n re im).den := Nat.mul_pos (Nat.two_pow_pos 149) (Nat.two_pow_pos n)
  obtain ⟨hlre, hlim⟩ := ifftParts_length n re im
  refine ⟨⟨rfl, hpos, hlre, fun k hk => ?_⟩, ⟨rfl, hpos, hlim, fun k hk => ?_⟩⟩
  · obtain ⟨⟨hl, hv⟩, -⟩ := (isCoords_transform_conj hre him hur hui hk).parts
    refine ⟨_, by simp only [ifftParts, List.getElem?_map, List.getElem?_range hk, Option.map_some], hl,
      hv.trans ?_⟩
    rw [Complex.re_ofReal_mul, Complex.conj_re, hden, mul_comm]
  · obtain ⟨-, hl, hv⟩ := (isCoords_transform_conj hre him hur hui hk).parts
    refine ⟨_, by simp only [ifftParts, List.getElem?_map, List.getElem?_range hk, Option.map_some],
      (List.length_map _).trans hl, (Cyc.cosValue_neg _ _).trans ?_⟩
    refine (congrArg Neg.neg hv).trans ?_
    rw [Complex.im_ofReal_mul, Complex.conj_im, hden]
    ring

end Values

/-- Settles O38: on coordinates the butterflies are exact, and each part's coordinates are those of the
transform's real or imaginary parts. -/
theorem transformValuesHoldTheDft : Obligations.TransformValuesHoldTheDft := by
  rintro n wr wi re im - hwr hwi hfr hfi _ _ _ _ rfl rfl rfl rfl t ds value hcase
  have hre : re.length = 2 ^ n := by
    rw [← hwr]; simpa using (congrArg List.length hfr).symm
  have him : im.length = 2 ^ n := by
    rw [← hwi]; simpa using (congrArg List.length hfi).symm
  have hur := inUnits_of_map_f32 hfr
  have hui := inUnits_of_map_f32 hfi
  obtain ⟨hxr, hxi⟩ := fftParts_holds hre him hur hui
  obtain ⟨hyr, hyi⟩ := ifftParts_holds hre him hur hui
  have hholds : t.Holds n ds value := by
    rcases hcase with ⟨rfl, rfl, rfl⟩ | ⟨rfl, rfl, rfl⟩ | ⟨rfl, rfl, rfl⟩ | ⟨rfl, rfl, rfl⟩
    · exact hxr
    · exact hxi
    · exact hyr
    · exact hyi
  exact ⟨fun p k => hholds.exists_enclosed p, fun ⟨j, hj, hd⟩ => hholds.stored_eq hj hd⟩

end Sys2Proof.Machine

/-! The noise reduction commands on their normal paths (R151 to R168): NRRESET, learning, NRPROC, and a signal
shorter than a frame. -/

namespace Sys2Proof.Machine

/-! ### Reset and learning -/

/-- Settles O42: NRRESET reads nothing and raises nothing. -/
theorem nrresetResult : Obligations.NrresetResult := fun _ => rfl

theorem hopFrames_of_le {l : ℕ} (h : 2048 ≤ l) : hopFrames l = (l - 2048) / 512 + 1 :=
  if_neg (Nat.not_lt.2 h)

/-- R151, R156: a signal of at least one frame is learned at every hop that leaves a full frame. -/
theorem learnStarts_of_le {l : ℕ} (h : 2048 ≤ l) :
    learnStarts l = (List.range ((l - 2048) / 512 + 1)).map (· * 512) := by
  rw [learnStarts, hopFrames_of_le h]
  rfl

theorem hopFrames_eq_zero_iff {l : ℕ} : hopFrames l = 0 ↔ l < 2048 := by
  rw [hopFrames]
  split
  · next h => exact iff_of_true rfl h
  · next h => exact iff_of_false (Nat.succ_ne_zero _) h

section Learn

variable {s : State} {f : Format} {x : List ℚ} (hw : s.memWf = true) (hf : FormatIs s f)
  (hx : 2048 ≤ x.length)
include hw hf hx

/-- R160: NRLEARN completes with the profile of AUX's frames. -/
theorem nrlearn_next (haux : s.auxLen.toNat ≤ s.cap.aux)
    (hlen : x.length = s.auxLen.toNat / f.frameBytes)
    (hsamples : ∀ k (h : k < x.length), ∃ b, b.length = f.depth.bytes ∧
      Holds s.aux (k * f.ch * f.depth.bytes) b ∧ x[k] = toFloat f.depth (unpack f.depth f.be b)) :
    exec .nrlearn s = .next (completed
      (clobberTransform (setProfile s x (learnStarts x.length) .learned))
      (truncated s.auxLen.toNat f.frameBytes)) := by
  obtain ⟨-, hwaux, -⟩ := State.memWf_iff.1 hw
  have hframes : hopFrames (s.auxLen.toNat / f.frameBytes) ≠ 0 := by
    rw [← hlen, ne_eq, hopFrames_eq_zero_iff]
    exact hx.not_gt
  have hread : learnSignal .aux s.aux f 0 (s.auxLen.toNat / f.frameBytes) = .ok x :=
    (learnSignal_holds hwaux).2 ⟨hlen, by simpa only [Nat.zero_add] using hsamples⟩
  rw [hlen]
  exact congrArg (finish s) (nrlearnRule_ok.2 ⟨f, x, hf, haux, hframes, hread, rfl⟩)

/-- R163: NRLEARNR completes with the profile of the selected frames of SRC. -/
theorem nrlearnr_next (hsrc : s.srcLen.toNat ≤ s.cap.src)
    (hend : s.rangeEnd.toNat ≤ s.srcLen.toNat / f.frameBytes)
    (hlen : s.rangeStart.toNat + x.length = s.rangeEnd.toNat)
    (hsamples : ∀ k (h : k < x.length), ∃ b, b.length = f.depth.bytes ∧
      Holds s.src ((s.rangeStart.toNat + k) * f.ch * f.depth.bytes) b ∧
        x[k] = toFloat f.depth (unpack f.depth f.be b)) :
    exec .nrlearnr s = .next (completed
      (clobberTransform (setProfile s x (learnStarts x.length) .learned))
      (truncated s.srcLen.toNat f.frameBytes)) := by
  obtain ⟨hwsrc, -⟩ := State.memWf_iff.1 hw
  have hselected : s.rangeEnd.toNat - s.rangeStart.toNat = x.length := by omega
  have hframes : hopFrames x.length ≠ 0 := mt hopFrames_eq_zero_iff.1 hx.not_gt
  have hread : learnSignal .src s.src f s.rangeStart.toNat x.length = .ok x :=
    (learnSignal_holds hwsrc).2 ⟨rfl, hsamples⟩
  rw [← hselected] at hframes hread ⊢
  exact congrArg (finish s)
    (nrlearnrRule_ok.2 ⟨f, x, hf, hsrc, by omega, hend, hframes, hread, rfl⟩)

end Learn

/-- Settles O43: both commands complete with the profile of their signal at its hops. -/
theorem learnCommandsResult : Obligations.LearnCommandsResult := by
  intro s f x hw hf hx
  refine ⟨fun haux hlen hsamples => ?_, fun hsrc hend hlen hsamples => ?_⟩
  · rw [nrlearn_next hw hf hx haux hlen hsamples, learnStarts_of_le hx]
    rfl
  · rw [nrlearnr_next hw hf hx hsrc hend hlen hsamples, learnStarts_of_le hx]
    rfl

/-! ### NRPROC -/

/-- R152: PROFILE after the auto-estimation step of a command on l samples, with x the first channel. -/
def estimatedProfile (s : State) (x : List ℚ) (l : ℕ) : Memory Word :=
  if s.pstate = .unset then
    Memory.writeRun s.profile 0 (storeReals fun A => profileEntries A (x.map A.rat)
      ((List.range (min 10 (l / 2048))).map (· * 2048)))
  else s.profile

theorem autoEstimated_eq (s : State) (x : List ℚ) :
    autoEstimated s x =
      { s with profile := estimatedProfile s x x.length
               pstate := if s.pstate = .unset then .autoEstimated else s.pstate } := by
  rw [autoEstimated, estimatedProfile]
  split
  · rfl
  · rfl

theorem wf_estimatedProfile {s : State} (hw : Memory.wf Config.nBins s.profile = true) (x : List ℚ)
    (l : ℕ) : Memory.wf Config.nBins (estimatedProfile s x l) = true := by
  rw [estimatedProfile]
  split
  · exact Memory.wf_writeRun hw _ _
      (by rw [storeReals_length _ _ fun A => profileEntries_length A ..]; decide)
  · exact hw

/-- R170: PROFILE is read where a frame fits the signal. -/
theorem readProfile_of_profileIs {s : State} {l : ℕ} {prof : List ℚ}
    (hw : Memory.wf Config.nBins s.profile = true) (h : ProfileIs s l prof) :
    readProfile s l = .ok prof := by
  rw [ProfileIs] at h
  rw [readProfile]
  split at h
  · next hl => rw [if_pos (hopFrames_eq_zero_iff.2 hl), h]
  · next hl =>
    rw [if_neg (mt hopFrames_eq_zero_iff.1 hl)]
    exact (readFloats_holds hw).2 h

/-- R170: without a frame no profile is read. -/
theorem profileIs_of_lt (s : State) {l : ℕ} (h : l < 2048) : ProfileIs s l [] := by
  rw [ProfileIs, if_pos h]

/-- R168: the conditions of NRPROC's normal path but the one on PROFILE. -/
structure NrprocReady (s : State) (par : NrParams) (xs : List (List ℚ)) : Prop where
  memWf : s.memWf = true
  ch_pos : 1 ≤ s.fmtCh
  ch_le : s.fmtCh ≤ s.cap.ch
  len_le : s.smpLen.toNat ≤ s.cap.smp
  params : NrParamsAre s par
  channels : xs.length = s.fmtCh
  samples : HoldsChannels s s.smpLen.toNat xs

namespace NrprocReady

variable {s : State} {par : NrParams} {xs : List (List ℚ)} {prof : List ℚ} (h : NrprocReady s par xs)
include h

theorem length_of_mem : ∀ x ∈ xs, x.length = s.smpLen.toNat := by
  intro x hx
  obtain ⟨c, hc, rfl⟩ := List.mem_iff_getElem.1 hx
  exact (h.samples c hc).1

theorem length_channel {c : ℕ} (hc : c < s.fmtCh) : (xs.getD c []).length = s.smpLen.toNat := by
  have hc' : c < xs.length := h.channels ▸ hc
  rw [List.getD_eq_getElem _ _ hc']
  exact (h.samples c hc').1

theorem readChannels : readChannels s.cap.smp s.smp s.smpLen.toNat 0 s.fmtCh = .ok xs := by
  obtain ⟨-, -, -, hsmp, -⟩ := State.memWf_iff.1 h.memWf
  refine (readChannels_holds hsmp).2 ⟨h.channels, fun c hc => ?_⟩
  rw [Nat.zero_add]
  exact h.samples c hc

/-- R168: NRPROC completes with the stored `nr_channel` of each channel. -/
theorem nrproc_next
    (hprof : ProfileIs { s with profile := estimatedProfile s (xs.getD 0 []) s.smpLen.toNat }
      s.smpLen.toNat prof) :
    exec .nrproc s = .next (completed (clobberTransform
      { storeHiddenNr (autoEstimated s (xs.getD 0 []))
          (nrRun Config.precision ⟨par, prof⟩ (xs.getLastD [])) with
        smp := writeChannels s.cap.smp s.smp 0 (xs.map (nrStored ⟨par, prof⟩)) }) false) := by
  obtain ⟨-, -, -, -, -, -, -, -, hwp, -⟩ := State.memWf_iff.1 h.memWf
  have hread : readProfile (autoEstimated s (xs.getD 0 [])) s.smpLen.toNat = .ok prof := by
    rw [autoEstimated_eq, h.length_channel h.ch_pos]
    exact readProfile_of_profileIs (wf_estimatedProfile hwp ..) hprof
  exact congrArg (finish s) (nrprocRule_ok.2 ⟨par, xs, prof, h.ch_pos, h.ch_le, h.len_le,
    nrParams_ok.2 h.params, h.readChannels, hread, rfl⟩)

/-- R42: what NRPROC stored reads as. -/
theorem read_stored (u : NrSetup) {c k : ℕ} (hc : c < s.fmtCh) (hk : k < s.smpLen.toNat) :
    Memory.read (writeChannels s.cap.smp s.smp 0 (xs.map (nrStored u))) (c * s.cap.smp + k) =
      (nrStored u (xs.getD c []))[k]? := by
  have hc' : c < xs.length := h.channels ▸ hc
  have hread := read_writeChannels_in (xs.map (nrStored u)) s.smp 0 c k
    (length_of_mem_map (nrStored_length u) h.length_of_mem) h.len_le (by rwa [List.length_map]) hk
  rw [Nat.zero_add] at hread
  rw [hread, List.getD_eq_getElem _ _ hc', List.getD_eq_getElem _ _ (by rwa [List.length_map]),
    List.getElem_map]

/-- R168, R152: the fields NRPROC writes, on its normal path. -/
theorem nrproc_result
    (hprof : ProfileIs { s with profile := estimatedProfile s (xs.getD 0 []) s.smpLen.toNat }
      s.smpLen.toNat prof) :
    ∃ t, exec .nrproc s = .next t ∧ t.err = .none ∧ t.trunc = false ∧ t.xr = [] ∧ t.xi = [] ∧
      t.profile = estimatedProfile s (xs.getD 0 []) s.smpLen.toNat ∧
      t.pstate = (if s.pstate = .unset then .autoEstimated else s.pstate) ∧
      ∀ c k, c < s.fmtCh → k < s.smpLen.toNat →
        Memory.read t.smp (c * s.cap.smp + k) = (nrStored ⟨par, prof⟩ (xs.getD c []))[k]? := by
  have hnext := h.nrproc_next hprof
  obtain ⟨prevMag, prevPh, hhidden⟩ := storeHiddenNr_frame (autoEstimated s (xs.getD 0 []))
    (nrRun Config.precision ⟨par, prof⟩ (xs.getLastD []))
  rw [hhidden, autoEstimated_eq, h.length_channel h.ch_pos] at hnext
  exact ⟨_, hnext, rfl, rfl, rfl, rfl, rfl, rfl, fun c k hc hk => h.read_stored _ hc hk⟩

end NrprocReady

/-- Settles O44: the state NRPROC completes with, read off channel by channel. -/
theorem nrprocResult : Obligations.NrprocResult := by
  rintro s par xs m prof hw hch1 hch2 hlen hpar hxs hsmp rfl hprof
  have h : NrprocReady s par xs := ⟨hw, hch1, hch2, hlen, hpar, hxs, hsmp⟩
  obtain ⟨t, hnext, herr, htrunc, hxr, hxi, hprofile, hps, hread⟩ := h.nrproc_result hprof
  refine ⟨t, hnext, herr, htrunc, hxr, hxi, hprofile, hps, fun c k hc hk => ?_⟩
  have hk' : k < (nrStored ⟨par, prof⟩ (xs.getD c [])).length := by
    rwa [nrStored_length, h.length_channel hc]
  exact ⟨_, List.getElem?_eq_getElem hk', (hread c k hc hk).trans (List.getElem?_eq_getElem hk')⟩

/-! ### Short signals -/

theorem nrStart_eq_replicate (A : Numerics) (x : List A.R) :
    nrStart A x = List.replicate x.length (A.rat 0) := List.map_const'

/-- R175: no frame fits a signal of less than 2048 samples, so its output is as it starts. -/
theorem nrChannel_out_of_lt (A : Numerics) (u : NrSetup) {x : List A.R} (h : x.length < 2048) :
    (nrChannel A u x).out = List.replicate x.length (A.rat 0) := by
  rw [nrChannel, learnStarts, hopFrames_eq_zero_iff.2 h]
  exact nrStart_eq_replicate A x

/-- R155: the profile of no frames is the floor in every bin. -/
theorem profileEntries_nil (A : Numerics) (x : List A.R) :
    profileEntries A x [] =
      List.replicate 1025 (A.max (A.rat 0) (A.rat Config.profileEps)) := by
  simp only [profileEntries, List.length_nil, if_true, List.map_const', List.length_range,
    Config.nBins]

theorem mapM_rounded_replicate {e : Encl} {w : Word} (h : e.rounded = some w) (n : ℕ) :
    (List.replicate n e).mapM Encl.rounded = some (List.replicate n w) := by
  induction n with
  | zero => rfl
  | succ n ih => simp [List.replicate_succ, h, ih]

/-- R11: a run of one decided element is stored as its rounding. -/
theorem storeReals_of_replicate {f : (A : Numerics) → List A.R} {n : ℕ} {e : Encl} {w : Word}
    (hf : f (Numerics.enclosing Config.precision) = List.replicate n e) (he : e.rounded = some w) :
    storeReals f = List.replicate n w :=
  storeFloats_decided (by rw [hf]; exact mapM_rounded_replicate he n)

/-- R155: PROFILE_EPS is stored as its binary32 pattern. -/
theorem rounded_floor (p : ℕ) :
    (Encl.max p (.exact 0) (.exact Config.profileEps)).rounded = some 0x358637BD#32 := by
  change some (rnd32 (if (0 : ℚ) < Config.profileEps then Config.profileEps else 0)) = _
  decide +kernel

theorem storeReals_profileEntries_nil (x : List ℚ) :
    storeReals (fun A => profileEntries A (x.map A.rat) []) = List.replicate 1025 0x358637BD#32 :=
  storeReals_of_replicate (profileEntries_nil ..) (rounded_floor Config.precision)

theorem nrStored_of_lt (u : NrSetup) {x : List ℚ} (h : x.length < 2048) :
    nrStored u x = List.replicate x.length 0 := by
  have hout := nrChannel_out_of_lt (Numerics.enclosing Config.precision) u
    (x := x.map (Numerics.enclosing Config.precision).rat) (by rwa [List.length_map])
  rw [List.length_map] at hout
  exact storeReals_of_replicate hout (by decide +kernel)

/-- Settles O45: without a frame the stored profile is the floor and every stored channel is 0. -/
theorem shortSignalIsSilenced : Obligations.ShortSignalIsSilenced := by
  intro s par xs hw hch1 hch2 hlen hshort hpar hxs hsmp
  have h : NrprocReady s par xs := ⟨hw, hch1, hch2, hlen, hpar, hxs, hsmp⟩
  obtain ⟨t, hnext, herr, -, -, -, hprofile, hps, hread⟩ :=
    h.nrproc_result (prof := []) (profileIs_of_lt _ hshort)
  refine ⟨t, hnext, herr, ?_, fun hunset => ⟨by rw [hps, if_pos hunset], fun b hb => ?_⟩,
    fun c k hc hk => ?_⟩
  · rw [hps]
    split
    · nofun
    · assumption
  · have hframes : s.smpLen.toNat / 2048 = 0 := Nat.div_eq_of_lt hshort
    rw [hprofile, estimatedProfile, if_pos hunset, hframes, Nat.min_zero, List.range_zero, List.map_nil,
      storeReals_profileEntries_nil, Memory.read_writeRun, List.length_replicate, Nat.zero_add,
      if_pos ⟨Nat.zero_le b, hb⟩]
    exact List.getElem?_replicate_of_lt hb
  · have hxc := h.length_channel hc
    rw [hread c k hc hk, nrStored_of_lt _ (hxc ▸ hshort), hxc]
    exact List.getElem?_replicate_of_lt hk

end Sys2Proof.Machine

/-! The state machine of the noise profile (R150): the error codes a rule can end with, and what every command
leaves of PSTATE and PROFILE. -/

namespace Sys2Proof.Machine

/-! ### Error codes of a sequence -/

/-- Every error code that `x` raises satisfies `P`; refusals are no errors. -/
structure RaisesOnly (P : ErrCode → Prop) {α : Type} (x : Except Stop α) : Prop where
  code : ∀ c, x = .error (.err c) → P c

namespace RaisesOnly

variable {P : ErrCode → Prop} {α β : Type}

theorem bind {x : Except Stop α} {f : α → Except Stop β} (hx : RaisesOnly P x)
    (hf : ∀ a, RaisesOnly P (f a)) : RaisesOnly P (x >>= f) := by
  refine ⟨fun c hc => ?_⟩
  rcases bind_error.1 hc with hc | ⟨a, -, hc⟩
  · exact hx.code c hc
  · exact (hf a).code c hc

theorem ok (a : α) : RaisesOnly P (.ok a) := ⟨nofun⟩

theorem pure (a : α) : RaisesOnly P (pure a : Except Stop α) := ok a

theorem raiseIf {e : ErrCode} (h : P e) (b : Bool) : RaisesOnly P (raiseIf b e) := by
  refine ⟨fun c hc => ?_⟩
  obtain ⟨-, he⟩ := (raiseIf_error b e _).1 hc
  cases he
  exact h

theorem refuseIf (b : Bool) (r : Refusal) : RaisesOnly P (refuseIf b r) := by
  refine ⟨fun c hc => ?_⟩
  obtain ⟨-, h⟩ := (refuseIf_error b r _).1 hc
  cases h

theorem fmtCheck (hdepth : P .unsupportedBitDepth) (hformat : P .unsupportedFormat) (s : State) :
    RaisesOnly P (fmtCheck s) := by
  refine ⟨fun c hc => ?_⟩
  unfold Machine.fmtCheck at hc
  split at hc
  · cases hc
    exact hdepth
  · split at hc <;> cases hc
    exact hformat

theorem chCheck (hformat : P .unsupportedFormat) (s : State) : RaisesOnly P (chCheck s) := by
  refine ⟨fun c hc => ?_⟩
  unfold Machine.chCheck at hc
  split at hc <;> cases hc
  exact hformat

theorem param (k : ℕ) (w : Word) : RaisesOnly P (param k w) := by
  refine ⟨fun c hc => ?_⟩
  unfold Machine.param at hc
  split at hc <;> cases hc

theorem readAll (sp : Space) (m : Memory α) (i n : ℕ) : RaisesOnly P (readAll sp m i n) :=
  ⟨fun _ hc => absurd hc readAll_ne_err⟩

theorem readFloats (sp : Space) (m : Memory Word) (i n : ℕ) : RaisesOnly P (readFloats sp m i n) := by
  rw [readFloats_eq_bind]
  refine bind (readAll ..) fun ws => ⟨fun c hc => ?_⟩
  obtain ⟨k, w, hk, -⟩ := finiteFrom_error hc
  cases hk

theorem readChannels (cap : ℕ) (m : Memory Word) (f c n : ℕ) :
    RaisesOnly P (readChannels cap m f c n) := by
  induction n generalizing c with
  | zero => exact ok _
  | succ n ih =>
    rw [readChannels_succ]
    exact bind (readFloats ..) fun _ => bind (ih (c + 1)) fun _ => ok _

theorem learnSignal (sp : Space) (m : Memory Byte) (f : Format) (a n : ℕ) :
    RaisesOnly P (learnSignal sp m f a n) := by
  induction n generalizing a with
  | zero => exact ok _
  | succ n ih =>
    rw [learnSignal_succ]
    exact bind (readAll ..) fun _ => bind (ih (a + 1)) fun _ => ok _

theorem gainStage (s : State) (f : Format) (g : ℚ) (n : ℕ) : RaisesOnly P (gainStage s f g n) := by
  rw [gainStage_eq_bind]
  split
  · exact bind (readAll ..) fun _ => ok _
  · exact bind (readAll ..) fun _ => ok _

/-! ### The rules of noise reduction and PROCESS -/

theorem nrParams (s : State) : RaisesOnly P (nrParams s) := by
  unfold Machine.nrParams
  exact bind (param ..) fun _ => bind (param ..) fun _ => bind (param ..) fun _ =>
    bind (refuseIf ..) fun _ => bind (refuseIf ..) fun _ => bind (refuseIf ..) fun _ => pure _

theorem adParams (s : State) : RaisesOnly P (adParams s) := by
  unfold Machine.adParams
  exact bind (param ..) fun _ => bind (param ..) fun _ => bind (param ..) fun _ =>
    bind (refuseIf ..) fun _ => bind (refuseIf ..) fun _ => bind (refuseIf ..) fun _ => pure _

theorem lookAhead (s : State) : RaisesOnly P (lookAhead s) := by
  unfold Machine.lookAhead
  exact bind (param ..) fun _ => bind (refuseIf ..) fun _ => pure _

theorem readProfile (s : State) (l : ℕ) : RaisesOnly P (readProfile s l) := by
  unfold Machine.readProfile
  split
  · exact ok _
  · exact readFloats ..

theorem processNr (s : State) : RaisesOnly P (processNr s) := by
  unfold Machine.processNr
  split
  · exact bind (nrParams s) fun _ => pure _
  · exact pure _

section Rules

variable (hdepth : P .unsupportedBitDepth) (hformat : P .unsupportedFormat) (hcap : P .capacityExceeded)
  (hrange : P .invalidSelectionRange)

include hcap in
theorem processAd (s : State) : RaisesOnly P (processAd s) := by
  unfold Machine.processAd
  split
  · exact bind (lookAhead s) fun _ => bind (raiseIf hcap _) fun _ => bind (adParams s) fun _ => pure _
  · exact pure _

include hrange in
theorem learnRule (s : State) (sp : Space) (m : Memory Byte) (f : Format) (a n len : ℕ) :
    RaisesOnly P (learnRule s sp m f a n len) := by
  unfold Machine.learnRule
  exact bind (raiseIf hrange _) fun _ => bind (learnSignal ..) fun _ => pure _

include hformat hcap in
theorem nrprocRule (s : State) : RaisesOnly P (nrprocRule s) := by
  unfold Machine.nrprocRule
  exact bind (chCheck hformat s) fun _ => bind (raiseIf hcap _) fun _ => bind (nrParams s) fun _ =>
    bind (readChannels ..) fun _ => bind (readProfile ..) fun _ => pure _

include hdepth hformat hcap

theorem processRule (s : State) : RaisesOnly P (processRule s) := by
  unfold Machine.processRule
  refine bind (fmtCheck hdepth hformat s) fun f => bind (raiseIf hcap _) fun _ =>
    bind (raiseIf hcap _) fun _ => bind (processAd hcap s) fun ad => bind (param ..) fun _ =>
      bind (processNr s) fun nr => bind (gainStage ..) fun r => ?_
  split
  · refine bind ?_ fun _ => pure _
    have hencode : ∀ st, RaisesOnly P (encodeFrames s.cap.smp f (s.srcLen.toNat / f.frameBytes)
        ((decodeFrames f (s.srcLen.toNat / f.frameBytes) r.bytes).map (chainStored st))) := fun _ =>
      ⟨fun _ hc => absurd hc encodeFrames_chainStored_ne_error⟩
    unfold floatStages
    cases nr with
    | none => exact bind (pure _) fun _ => bind (hencode _) fun _ => pure _
    | some par =>
      exact bind (readProfile ..) fun _ => bind (pure _) fun _ => bind (hencode _) fun _ => pure _
  · exact pure _

include hrange

theorem nrlearnRule (s : State) : RaisesOnly P (nrlearnRule s) := by
  unfold Machine.nrlearnRule
  exact bind (fmtCheck hdepth hformat s) fun _ => bind (raiseIf hcap _) fun _ => learnRule hrange ..

theorem nrlearnrRule (s : State) : RaisesOnly P (nrlearnrRule s) := by
  unfold Machine.nrlearnrRule
  exact bind (fmtCheck hdepth hformat s) fun _ => bind (raiseIf hcap _) fun _ =>
    bind (raiseIf hrange _) fun _ => learnRule hrange ..

end Rules

end RaisesOnly

/-! ### Ends of a command -/

/-- R204: a command that ends with an error changes nothing but STATUS. -/
theorem finish_erred {s t : State} {x : Except Stop Effect} (h : finish s x = .next t)
    (hne : t.err ≠ .none) : ∃ c, t = raiseErr s c := by
  rcases finish_next.1 h with ⟨e, -, rfl⟩ | ⟨c, -, rfl⟩
  · exact absurd rfl hne
  · exact ⟨c, rfl⟩

/-- A command that ends without an error has what its rule answers, whose errors all have a code. -/
theorem finish_completed {s t : State} {x : Except Stop Effect} (hx : RaisesOnly (· ≠ .none) x)
    (h : finish s x = .next t) (hok : t.err = .none) :
    ∃ e, x = .ok e ∧ t = complete e.state .none e.trunc := by
  rcases finish_next.1 h with ⟨e, he, rfl⟩ | ⟨c, hc, rfl⟩
  · exact ⟨e, he, rfl⟩
  · exact absurd hok (hx.code c hc)

theorem exec_erred {i : Instr} {s t : State} (h : exec i s = .next t) (hne : t.err ≠ .none) :
    ∃ c, t = raiseErr s c := by
  cases i
  case nrreset =>
    cases h
    exact absurd rfl hne
  all_goals exact finish_erred h hne

/-! ### PSTATE and PROFILE after a command -/

/-- R150, R152: from Unset the profile was estimated, else it was kept. -/
def EstimatesOnce (s t : State) : Prop :=
  (s.pstate = .unset → t.pstate = .autoEstimated ∧
      ∃ ws : List Word, ws.length = 1025 ∧ t.profile = Memory.writeRun s.profile 0 ws) ∧
    (s.pstate ≠ .unset → t.pstate = s.pstate ∧ t.profile = s.profile)

theorem autoEstimated_estimatesOnce (s : State) (x : List ℚ) : EstimatesOnce s (autoEstimated s x) := by
  rw [autoEstimated]
  split
  · next h => exact ⟨fun _ => ⟨rfl, _, profileStored_length x _, rfl⟩, fun hne => absurd h hne⟩
  · next h => exact ⟨fun hun => absurd hun h, fun _ => ⟨rfl, rfl⟩⟩

/-- R152, R168: NRPROC writes PROFILE in its auto-estimation step alone. -/
theorem nrproc_estimatesOnce {s t : State} (h : exec .nrproc s = .next t) (hok : t.err = .none) :
    EstimatesOnce s t := by
  obtain ⟨e, he, rfl⟩ := finish_completed (.nrprocRule nofun nofun s) h hok
  obtain ⟨par, xs, prof, -, -, -, -, -, -, rfl⟩ := nrprocRule_ok.1 he
  obtain ⟨prevMag, prevPh, hk⟩ := storeHiddenNr_frame (autoEstimated s (xs.getD 0 []))
    (nrRun Config.precision ⟨par, prof⟩ (xs.getLastD []))
  rw [hk]
  exact autoEstimated_estimatesOnce s (xs.getD 0 [])

/-- R190: with NR_EN = 1 the noise reduction stage is set up. -/
theorem processNr_enabled {s : State} {nr : Option NrParams} (h : processNr s = .ok nr)
    (hn : s.nrEn = true) : ∃ par, nr = some par := by
  rw [processNr, hn] at h
  obtain ⟨par, -, hpar⟩ := bind_ok.1 h
  cases hpar
  exact ⟨par, rfl⟩

/-- R152, R190: so does PROCESS with noise reduction. -/
theorem process_estimatesOnce {s t : State} (h : exec .process s = .next t) (hn : s.nrEn = true)
    (hok : t.err = .none) : EstimatesOnce s t := by
  obtain ⟨e, he, rfl⟩ := finish_completed (.processRule nofun nofun nofun s) h hok
  obtain ⟨f, ad, g, nr, r, -, -, -, -, -, -, hnr, -, hbranch⟩ := processRule_ok.1 he
  obtain ⟨par, rfl⟩ := processNr_enabled hnr hn
  rw [hn, Bool.true_or, if_pos rfl] at hbranch
  obtain ⟨s', hs', rfl⟩ := hbranch
  obtain ⟨s1, setup, out, rfl, -, -, rfl⟩ := floatStages_ok.1 hs'
  obtain ⟨prevMag, prevPh, la, hk, -⟩ := storeHidden_frame
    (autoEstimated s ((decodeFrames f (s.srcLen.toNat / f.frameBytes) r.bytes).getD 0 [])) ⟨setup, ad⟩
    ((decodeFrames f (s.srcLen.toNat / f.frameBytes) r.bytes).getLastD [])
  simp only [Option.isSome_some, if_true, hk]
  exact autoEstimated_estimatesOnce ..

/-- R155, R156: a learn command without an error replaces PROFILE. -/
theorem learn_completed {i : Instr} {s t : State} (hi : i = .nrlearn ∨ i = .nrlearnr)
    (h : exec i s = .next t) (hok : t.err = .none) : t.pstate = .learned ∧
      ∃ ws : List Word, ws.length = 1025 ∧ t.profile = Memory.writeRun s.profile 0 ws := by
  rcases hi with rfl | rfl
  · obtain ⟨e, he, rfl⟩ := finish_completed (.nrlearnRule nofun nofun nofun nofun s) h hok
    obtain ⟨f, x, -, -, -, -, rfl⟩ := nrlearnRule_ok.1 he
    exact ⟨rfl, _, profileStored_length x _, rfl⟩
  · obtain ⟨e, he, rfl⟩ := finish_completed (.nrlearnrRule nofun nofun nofun nofun s) h hok
    obtain ⟨f, x, -, -, -, -, -, -, rfl⟩ := nrlearnrRule_ok.1 he
    exact ⟨rfl, _, profileStored_length x _, rfl⟩

/-- R49: the commands without noise reduction keep the profile and its state. -/
theorem exec_keeps_profile {i : Instr} {s t : State} (h : exec i s = .next t)
    (hi : i ∉ [Instr.nrreset, .nrlearn, .nrlearnr, .nrproc]) (hp : ¬(i = .process ∧ s.nrEn = true)) :
    t.pstate = s.pstate ∧ t.profile = s.profile := by
  cases i with
  | decode => rw [decode_frame h]; exact ⟨rfl, rfl⟩
  | encode => rw [encode_frame h]; exact ⟨rfl, rfl⟩
  | gain => rw [gain_frame h]; exact ⟨rfl, rfl⟩
  | fft logn => rw [(transform_frame fftParts_length h).1]; exact ⟨rfl, rfl⟩
  | ifft logn => rw [(transform_frame ifftParts_length h).1]; exact ⟨rfl, rfl⟩
  | magph logn => rw [(magph_frame h).1]; exact ⟨rfl, rfl⟩
  | nrlearn => simp at hi
  | nrlearnr => simp at hi
  | nrreset => simp at hi
  | nrproc => simp at hi
  | adproc => rw [adproc_frame h]; exact ⟨rfl, rfl⟩
  | process =>
    have hn : s.nrEn = false := by simpa using hp
    obtain ⟨hprofile, hps, -⟩ := process_keeps_noise_state h hn
    exact ⟨hps, hprofile⟩

/-- Settles O41: an error keeps the profile, and without one each command leaves what its rule says. -/
theorem profileStateMachine : Obligations.ProfileStateMachine := by
  refine ⟨fun i s t h => ⟨fun hne => ?_, fun hok => ⟨?_, fun hi => learn_completed hi h hok, ?_,
    exec_keeps_profile h⟩⟩, fun s v => ⟨rfl, rfl⟩⟩
  · obtain ⟨c, rfl⟩ := exec_erred h hne
    exact ⟨rfl, rfl⟩
  · rintro rfl
    cases h
    exact ⟨rfl, rfl⟩
  · rintro (rfl | ⟨rfl, hn⟩)
    · exact nrproc_estimatesOnce h hok
    · exact process_estimatesOnce h hn hok

end Sys2Proof.Machine

/-! `nr_channel` over any arithmetic and over the reals (R170 to R175): the gain, the scaled magnitudes, what
a frame adds to the output, and the sum over the frames. -/

namespace Sys2Proof.Machine

open Finset

/-! ### The gain and the scaled magnitudes over the reals -/

/-- R171: step 3 over the reals. -/
theorem suppression_real (par : NrParams) (pb : ℚ) (m : ℝ) :
    suppression Numerics.real par pb m = max 0 (1 - 5 * par.red * pb / max m par.nf) := by
  simp only [suppression, Config.nrK]
  push_cast
  rfl

/-- Settles O46: the gain is 1 less a quotient that is not negative. -/
theorem suppressionGainIsAtMostOne : Obligations.SuppressionGainIsAtMostOne := by
  intro par pb m hred hnf hpb
  have hred' : (0 : ℝ) ≤ par.red := by exact_mod_cast hred
  have hpb' : (0 : ℝ) ≤ pb := by exact_mod_cast hpb
  have hdiv : 0 < max m (par.nf : ℝ) := lt_max_of_lt_right (by exact_mod_cast hnf)
  have hquot : 0 ≤ 5 * (par.red : ℝ) * pb / max m par.nf := by positivity
  refine ⟨_, suppression_real par pb m, rfl, hdiv.ne', le_max_left ..,
    max_le zero_le_one (sub_le_self 1 hquot), fun hzero => ?_⟩
  rw [hzero]
  simp

/-- R172: step 4 over the reals. -/
theorem smoothed_real (par : NrParams) (g prev m : ℝ) : smoothed Numerics.real par g prev m =
    par.sm * g + (1 - par.sm) * (prev / max m (1 / 1000000)) := by
  have heps : ((Config.smoothEps : ℚ) : ℝ) = 1 / 1000000 := profileEps_real
  simp only [smoothed, heps]
  push_cast
  rfl

/-- R172: PREVMAG before frame j, by the formula for the scaled magnitudes. -/
noncomputable def previousReal (par : NrParams) (P : ℕ → ℝ) (x : List ℝ) : ℕ → ℕ → Option ℝ
  | 0, _ => none
  | j + 1, b => some (scaledReal par P x j b)

/-- R170 to R172: steps 3 to 5 of bin b in frame j. -/
theorem scaledMagnitude_real (par : NrParams) (P : ℕ → ℚ) (x : List ℝ) (j b : ℕ) :
    scaledMagnitude Numerics.real par (P b) (previousReal par (fun b => P b) x j b)
      ((spectrumReal x (j * 512) b).re, (spectrumReal x (j * 512) b).im) =
      scaledReal par (fun b => P b) x j b := by
  cases j with
  | zero =>
    simp only [scaledReal, ← magnitude_real, ← suppression_real, Nat.zero_mul]
    rfl
  | succ j =>
    simp only [scaledReal, ← magnitude_real, ← suppression_real]
    rw [previousReal, scaledMagnitude, smoothed_real]

/-! ### What a frame adds -/

/-- R170: the scaled magnitudes of the frame at offset o, after a frame with magnitudes `prev`. -/
def frameMagnitudes (A : Numerics) (u : NrSetup) (x : List A.R) (prev : Option (List A.R)) (o : ℕ) :
    List A.R :=
  ((List.range Config.nBins).zip (spectrum A (nrTables A) x o)).map fun e =>
    scaledMagnitude A u.par (u.profile.getD e.1 0) (prev.map fun l => bin l e.1) e.2

/-- R173: the spectrum rebuilt for the frame at offset o. -/
def frameSpectrum (A : Numerics) (u : NrSetup) (x : List A.R) (prev : Option (List A.R)) (o : ℕ) :
    List (Cplx A) :=
  mirrored (List.zipWith (rebuilt A) (frameMagnitudes A u x prev o) (spectrum A (nrTables A) x o))

/-- R174: the samples the frame at offset o adds. -/
def frameSamples (A : Numerics) (u : NrSetup) (x : List A.R) (prev : Option (List A.R)) (o : ℕ) :
    List A.R :=
  List.zipWith (fun (c : Cplx A) w => A.mul (A.mul c.1 w) (A.rat Config.olaScale))
    (Cplx.ifft A (nrTables A).tws Config.lognMax (frameSpectrum A u x prev o)) (nrTables A).window

/-- R170: a frame adds its samples to the output and leaves its magnitudes to the next. -/
theorem nrFrame_eq (A : Numerics) (u : NrSetup) (x : List A.R) (k : NrTrack A) (o : ℕ) :
    nrFrame A (nrTables A) u x k o =
      { out := addAt A o k.out (frameSamples A u x k.prevMag o)
        prevMag := some (frameMagnitudes A u x k.prevMag o)
        last := spectrum A (nrTables A) x o } := rfl

theorem frameSamples_length_le (A : Numerics) (u : NrSetup) (x : List A.R) (prev : Option (List A.R))
    (o : ℕ) : (frameSamples A u x prev o).length ≤ 2048 := by
  have hwindow : (nrTables A).window.length = 2048 := by
    rw [nrTables, List.length_map, List.length_range, Config.fftSize]
  rw [frameSamples, List.length_zipWith, hwindow]
  exact Nat.min_le_right ..

theorem getElem?_frameSamples {A : Numerics} {u : NrSetup} {x : List A.R} {prev : Option (List A.R)}
    {o n : ℕ} {c : Cplx A} {w : A.R} (hw : (nrTables A).window[n]? = some w)
    (hc : (Cplx.ifft A (nrTables A).tws Config.lognMax (frameSpectrum A u x prev o))[n]? = some c) :
    (frameSamples A u x prev o)[n]? = some (A.mul (A.mul c.1 w) (A.rat Config.olaScale)) :=
  List.getElem?_zipWith_eq_some.2 ⟨c, w, hc, hw, rfl⟩

/-- R170: what the first n frames leave. -/
def nrFrames (A : Numerics) (u : NrSetup) (x : List A.R) (n : ℕ) : NrTrack A :=
  ((List.range n).map (· * Config.hopSize)).foldl (nrFrame A (nrTables A) u x)
    { out := nrStart A x, prevMag := none, last := [] }

theorem nrChannel_eq_nrFrames (A : Numerics) (u : NrSetup) (x : List A.R) :
    nrChannel A u x = nrFrames A u x (hopFrames x.length) := rfl

theorem nrFrames_succ (A : Numerics) (u : NrSetup) (x : List A.R) (n : ℕ) :
    nrFrames A u x (n + 1) = nrFrame A (nrTables A) u x (nrFrames A u x n) (n * 512) := by
  rw [nrFrames, List.range_succ, List.map_append, List.foldl_append]
  rfl

/-! ### Adding at an offset -/

section AddAt

variable {A : Numerics} {ys ts : List A.R}

theorem getElem?_addAt_in {o j : ℕ} {y t : A.R} (hy : ys[o + j]? = some y) (ht : ts[j]? = some t) :
    (addAt A o ys ts)[o + j]? = some (A.add y t) := by
  induction o, ys, ts using addAt.induct A generalizing j with
  | case1 => simp at hy
  | case2 => simp at ht
  | case3 z ys v ts ih =>
    cases j with
    | zero =>
      cases hy
      cases ht
      rfl
    | succ j => simpa [addAt] using ih (j := j) (by simpa using hy) (by simpa using ht)
  | case4 z ys ts o ih =>
    rw [Nat.succ_add, List.getElem?_cons_succ] at hy
    rw [addAt, Nat.succ_add, List.getElem?_cons_succ]
    exact ih hy ht

theorem getElem?_addAt_out {o k : ℕ} (h : k < o ∨ o + ts.length ≤ k) :
    (addAt A o ys ts)[k]? = ys[k]? := by
  induction o, ys, ts using addAt.induct A generalizing k with
  | case1 => rw [addAt]
  | case2 => rw [addAt]
  | case3 z ys v ts ih =>
    rw [List.length_cons] at h
    cases k with
    | zero => omega
    | succ k => exact ih (by omega)
  | case4 z ys ts o ih =>
    cases k with
    | zero => rfl
    | succ k => exact ih (by omega)

end AddAt

/-! ### Samples no frame covers -/

/-- R175: a sample that none of the first n frames covers is as it started. -/
theorem getElem?_nrFrames_out_uncovered (A : Numerics) (u : NrSetup) {x : List A.R} {n k : ℕ}
    (hk : k < x.length) (h : ∀ j < n, j * 512 + 2048 ≤ k) :
    (nrFrames A u x n).out[k]? = some (A.rat 0) := by
  induction n with
  | zero =>
    have hstart : (nrFrames A u x 0).out = List.replicate x.length (A.rat 0) := nrStart_eq_replicate A x
    rw [hstart]
    exact List.getElem?_replicate_of_lt hk
  | succ n ih =>
    have hle := frameSamples_length_le A u x (nrFrames A u x n).prevMag (n * 512)
    have hlast := h n n.lt_succ_self
    rw [nrFrames_succ, nrFrame_eq, getElem?_addAt_out (.inr (by omega))]
    exact ih fun j hj => h j (hj.trans n.lt_succ_self)

theorem getElem?_nrChannel_uncovered (A : Numerics) (u : NrSetup) {x : List A.R} {k : ℕ}
    (hk : k < x.length)
    (h : (if x.length < 2048 then 0 else (x.length - 2048) / 512 * 512 + 2048) ≤ k) :
    (nrChannel A u x).out[k]? = some (A.rat 0) := by
  rw [nrChannel_eq_nrFrames]
  refine getElem?_nrFrames_out_uncovered A u hk fun j hj => ?_
  rcases Nat.lt_or_ge x.length 2048 with hl | hl
  · rw [hopFrames_eq_zero_iff.2 hl] at hj
    exact absurd hj j.not_lt_zero
  · rw [if_neg hl.not_gt] at h
    rw [hopFrames_of_le hl] at hj
    have hle := Nat.mul_le_mul_right 512 (Nat.le_of_lt_succ hj)
    exact (Nat.add_le_add_right hle 2048).trans h

/-! ### Lists over the bins -/

theorem zipWith_map_same {ι α β γ : Type} (f : α → β → γ) (g : ι → α) (h : ι → β) (l : List ι) :
    List.zipWith f (l.map g) (l.map h) = l.map fun i => f (g i) (h i) := by
  rw [List.zipWith_map, List.zipWith_self]

/-- R154: the bins of a frame's spectrum. -/
theorem spectrum_real (x : List ℝ) (o : ℕ) : spectrum Numerics.real (nrTables Numerics.real) x o =
    (List.range Config.nBins).map fun b => ((spectrumReal x o b).re, (spectrumReal x o b).im) := by
  refine List.ext_getElem? fun b => ?_
  rcases Nat.lt_or_ge b Config.nBins with hb | hb
  · rw [getElem?_spectrum_real x o hb, List.getElem?_map, List.getElem?_range hb, Option.map_some]
  · have hlen : (spectrum Numerics.real (nrTables Numerics.real) x o).length ≤ b :=
      (List.length_take_le ..).trans hb
    rw [List.getElem?_eq_none hlen,
      List.getElem?_eq_none (by rwa [List.length_map, List.length_range])]

theorem bin_map_range (g : ℕ → ℝ) {b : ℕ} (hb : b < Config.nBins) :
    bin (A := Numerics.real) ((List.range Config.nBins).map g) b = g b := by
  rw [bin, List.getD_eq_getElem?_getD, List.getElem?_map, List.getElem?_range hb, Option.map_some,
    Option.getD_some]

/-- R173: the mirror images of bins 1023 down to 1 follow bin 1024. -/
theorem mirrored_map_range (g : ℕ → ℂ) :
    mirrored (A := Numerics.real) ((List.range Config.nBins).map fun b => ((g b).re, (g b).im)) =
      (List.range 2048).map fun b =>
        ((if b ≤ 1024 then g b else (starRingEnd ℂ) (g (2048 - b))).re,
          (if b ≤ 1024 then g b else (starRingEnd ℂ) (g (2048 - b))).im) := by
  refine List.ext_getElem (by simp [mirrored, Config.nBins]) fun b hb _ => ?_
  have hb' : b < 2048 := by simpa [mirrored, Config.nBins] using hb
  rw [List.getElem_map, List.getElem_range]
  simp only [mirrored, Config.nBins]
  by_cases h : b ≤ 1024
  · rw [List.getElem_append_left (by simp; omega)]
    simp [h]
  · have hplace : 1022 - (b - 1025) + 1 = 2048 - b := by omega
    rw [List.getElem_append_right (by simp; omega)]
    simp [h, hplace, Cplx.conj]

/-! ### The inverse transform and the frames over the reals -/

theorem conj_unitRoot (m k j : ℕ) : (starRingEnd ℂ) (unitRoot m (k * j)) =
    Complex.exp ((2 * Real.pi * j * k / m : ℝ) * Complex.I) := by
  rw [unitRoot_mul, ← Complex.exp_conj, map_mul, Complex.conj_I, ← Complex.ofReal_neg, Complex.conj_ofReal,
    Complex.ofReal_neg, neg_mul_neg, mul_right_comm (2 * Real.pi) (k : ℝ)]

/-- R136: element k of the inverse transform of m complex numbers. -/
noncomputable def inverseDft (m : ℕ) (g : ℕ → ℂ) (k : ℕ) : ℂ :=
  (∑ j ∈ range m, g j * Complex.exp ((2 * Real.pi * j * k / m : ℝ) * Complex.I)) / m

/-- R136: conjugating around the transform inverts the turn of its factors. -/
theorem getElem?_ifft_real {n m k : ℕ} (hm : 2 ^ n = m) (g : ℕ → ℂ) (hk : k < m) :
    (Cplx.ifft Numerics.real (Cplx.twiddles Numerics.real n) n
        ((List.range m).map fun j => ((g j).re, (g j).im)))[k]? =
      some ((inverseDft m g k).re, (inverseDft m g k).im) := by
  subst hm
  have hfft := getElem?_fft_real (x := ((List.range (2 ^ n)).map fun j => ((g j).re, (g j).im)).map
      (Cplx.conj (A := Numerics.real))) (g := fun j => (starRingEnd ℂ) (g j)) (fun j hj => by
        simp [Cplx.conj, hj, Complex.ext_iff]) hk
  have hconj : ∑ j ∈ range (2 ^ n), (starRingEnd ℂ) (g j) * unitRoot (2 ^ n) (k * j) =
      (starRingEnd ℂ) (∑ j ∈ range (2 ^ n),
        g j * Complex.exp ((2 * Real.pi * j * k / (2 ^ n : ℕ) : ℝ) * Complex.I)) := by
    rw [map_sum]
    refine sum_congr rfl fun j _ => ?_
    rw [← conj_unitRoot, map_mul, Complex.conj_conj]
  rw [hconj] at hfft
  rw [Cplx.ifft, List.getElem?_map, hfft, Option.map_some, inverseDft, Complex.div_natCast_re,
    Complex.div_natCast_im]
  generalize ∑ j ∈ range (2 ^ n), g j *
    Complex.exp ((2 * Real.pi * j * k / (2 ^ n : ℕ) : ℝ) * Complex.I) = z
  simp [Cplx.conj]

/-- R170, R173: a magnitude with a phase's cosine and sine is that magnitude in the phase's direction. -/
theorem rebuilt_real (m : ℝ) (z : ℂ) : rebuilt Numerics.real m (z.re, z.im) =
    ((m * Complex.exp (Complex.arg z * Complex.I) : ℂ).re,
      (m * Complex.exp (Complex.arg z * Complex.I) : ℂ).im) := by
  rw [Complex.re_ofReal_mul, Complex.im_ofReal_mul, Complex.exp_ofReal_mul_I_re,
    Complex.exp_ofReal_mul_I_im]
  rfl

theorem getElem?_window_real {n : ℕ} (hn : n < Config.fftSize) :
    (nrTables Numerics.real).window[n]? = some (hannReal n) := by
  rw [nrTables, List.getElem?_map, List.getElem?_range hn, Option.map_some, hann_real]

theorem olaScale_real : Numerics.real.rat Config.olaScale = 1 / 2 := by
  norm_num [Config.olaScale, Rat.mkRat_eq_div]

theorem frameReal_eq (par : NrParams) (P : ℕ → ℝ) (x : List ℝ) (j n : ℕ) : frameReal par P x j n =
    (inverseDft 2048 (mirroredReal par P x j) n).re * hannReal n * (1 / 2) := by
  rw [frameReal, inverseDft, Nat.cast_ofNat, Nat.cast_ofNat, mul_one_div]

section Frames

variable (u : NrSetup) (x : List ℝ)

/-- The profile's entries as reals. -/
noncomputable def NrSetup.entry (b : ℕ) : ℝ := (u.profile.getD b 0 : ℚ)

variable {prev : Option (List ℝ)} {j : ℕ}
  (hprev : ∀ b < Config.nBins, prev.map (fun l => bin (A := Numerics.real) l b) =
    previousReal u.par u.entry x j b)

section Frame

include hprev

theorem frameMagnitudes_real : frameMagnitudes Numerics.real u x prev (j * 512) =
    (List.range Config.nBins).map (scaledReal u.par u.entry x j) := by
  rw [frameMagnitudes, spectrum_real, List.map_zip_eq_zipWith, List.zipWith_map_right, List.zipWith_self]
  refine List.map_congr_left fun b hb => ?_
  rw [Function.curry, hprev b (List.mem_range.1 hb)]
  exact scaledMagnitude_real u.par (fun b => u.profile.getD b 0) x j b

theorem frameSpectrum_real : frameSpectrum Numerics.real u x prev (j * 512) =
    (List.range 2048).map fun b =>
      ((mirroredReal u.par u.entry x j b).re, (mirroredReal u.par u.entry x j b).im) := by
  have hbins : List.zipWith (rebuilt Numerics.real)
      ((List.range Config.nBins).map (scaledReal u.par u.entry x j))
      ((List.range Config.nBins).map fun b =>
        ((spectrumReal x (j * 512) b).re, (spectrumReal x (j * 512) b).im)) =
      (List.range Config.nBins).map fun b =>
        ((rebuiltReal u.par u.entry x j b).re, (rebuiltReal u.par u.entry x j b).im) :=
    (zipWith_map_same ..).trans (List.map_congr_left fun b _ => rebuilt_real ..)
  rw [frameSpectrum, frameMagnitudes_real u x hprev, spectrum_real, hbins, mirrored_map_range]
  simp only [mirroredReal]

/-- R174: sample n that frame j adds. -/
theorem getElem?_frameSamples_real {n : ℕ} (hn : n < 2048) :
    (frameSamples Numerics.real u x prev (j * 512))[n]? = some (frameReal u.par u.entry x j n) := by
  have hinv : (Cplx.ifft Numerics.real (nrTables Numerics.real).tws Config.lognMax
      (frameSpectrum Numerics.real u x prev (j * 512)))[n]? =
      some ((inverseDft 2048 (mirroredReal u.par u.entry x j) n).re,
        (inverseDft 2048 (mirroredReal u.par u.entry x j) n).im) := by
    rw [frameSpectrum_real u x hprev]
    exact getElem?_ifft_real (by norm_num [Config.lognMax]) (mirroredReal u.par u.entry x j) hn
  rw [getElem?_frameSamples (getElem?_window_real hn) hinv, olaScale_real, frameReal_eq]

end Frame

/-- R172: PREVMAG after n frames. -/
theorem prevMag_nrFrames_real (n : ℕ) : ∀ b < Config.nBins,
    (nrFrames Numerics.real u x n).prevMag.map (fun l => bin l b) =
      previousReal u.par u.entry x n b := by
  induction n with
  | zero => exact fun _ _ => rfl
  | succ n ih =>
    intro b hb
    rw [nrFrames_succ, nrFrame_eq, Option.map_some, frameMagnitudes_real u x ih, bin_map_range _ hb]
    rfl

/-- R170: the output after n frames is the sum over those that cover the sample. -/
theorem getElem?_nrFrames_out_real {k : ℕ} (hk : k < x.length) (n : ℕ) :
    (nrFrames Numerics.real u x n).out[k]? = some (∑ j ∈ range n,
      if j * 512 ≤ k ∧ k < j * 512 + 2048 then frameReal u.par u.entry x j (k - j * 512) else 0) := by
  induction n with
  | zero =>
    rw [range_zero, sum_empty,
      getElem?_nrFrames_out_uncovered _ u hk fun j hj => absurd hj j.not_lt_zero]
    exact congrArg some Rat.cast_zero
  | succ n ih =>
    rw [nrFrames_succ, nrFrame_eq, sum_range_succ]
    split
    · next hin =>
      obtain ⟨i, rfl⟩ := Nat.exists_eq_add_of_le hin.1
      rw [Nat.add_sub_cancel_left]
      exact getElem?_addAt_in ih
        (getElem?_frameSamples_real u x (prevMag_nrFrames_real u x n) (by omega))
    · next hout =>
      have hle := frameSamples_length_le Numerics.real u x (nrFrames Numerics.real u x n).prevMag (n * 512)
      rw [getElem?_addAt_out (by omega), ih, add_zero]

end Frames

/-- Settles O48: by induction over the frames, each adding its samples where it covers the output. -/
theorem noiseReductionFormula : Obligations.NoiseReductionFormula := by
  refine ⟨fun u x k hk => ?_, fun A u x =>
    ⟨nrChannel_length A u x, fun k hk h => getElem?_nrChannel_uncovered A u hk h⟩⟩
  rw [nrChannel_eq_nrFrames]
  exact getElem?_nrFrames_out_real u x hk (hopFrames x.length)

end Sys2Proof.Machine

/-! ADPROC on its normal path (R180 to R183): the look-ahead length, and the state the command completes
with. -/

namespace Sys2Proof.Machine

/-! ### The look-ahead length -/

/-- R181: the truncated quotient is the floor of the exact one. -/
theorem lookAheadOf_eq_floor (q : ℚ) : lookAheadOf q = ⌊q * 5 / 1000⌋₊ := by
  have hquot : q * 5 / 1000 = ((q.num * 5 : ℤ) : ℚ) / ((q.den * 1000 : ℕ) : ℚ) := by
    conv_lhs => rw [← Rat.num_div_den q]
    push_cast
    ring
  rw [hquot, ← Int.floor_toNat, Rat.floor_intCast_div_natCast, Nat.cast_mul]
  rfl

/-- Settles O50: the look-ahead length is a floor. -/
theorem lookAheadIsTruncated : Obligations.LookAheadIsTruncated := by
  refine ⟨fun q hq => ?_, rfl, rfl, rfl, rfl, rfl⟩
  rw [lookAheadOf_eq_floor]
  refine ⟨Nat.floor_le (by positivity), Nat.lt_floor_add_one _, fun hlow => ?_⟩
  exact Nat.floor_eq_zero.2 (by linarith)

/-! ### The operands and the stored channels -/

namespace HoldsChannels

variable {s : State} {l : ℕ} {xs : List (List ℚ)} (h : HoldsChannels s l xs)
include h

theorem length_of_mem : ∀ x ∈ xs, x.length = l := by
  intro x hx
  obtain ⟨c, hc, rfl⟩ := List.mem_iff_getElem.1 hx
  exact (h c hc).1

theorem readChannels_eq (hw : s.memWf = true) :
    readChannels s.cap.smp s.smp l 0 xs.length = .ok xs := by
  obtain ⟨-, -, -, hsmp, -⟩ := State.memWf_iff.1 hw
  refine (readChannels_holds hsmp).2 ⟨rfl, fun c hc => ?_⟩
  rw [Nat.zero_add]
  exact h c hc

/-- R42: what a command that stores `f` of every channel leaves in SMP. -/
theorem read_stored {f : List ℚ → List Word} (hf : ∀ x, (f x).length = x.length) (hl : l ≤ s.cap.smp)
    {c k : ℕ} (hc : c < xs.length) (hk : k < l) :
    ∃ w, (f (xs.getD c []))[k]? = some w ∧
      Memory.read (writeChannels s.cap.smp s.smp 0 (xs.map f)) (c * s.cap.smp + k) = some w := by
  have hread := read_writeChannels_in (xs.map f) s.smp 0 c k (length_of_mem_map hf h.length_of_mem) hl
    (by rwa [List.length_map]) hk
  rw [Nat.zero_add, List.getD_eq_getElem _ _ (by rwa [List.length_map]), List.getElem_map] at hread
  rw [List.getD_eq_getElem _ _ hc, hread]
  have hk' : k < (f xs[c]).length := by rwa [hf, (h c hc).1]
  exact ⟨_, List.getElem?_eq_getElem hk', List.getElem?_eq_getElem hk'⟩

end HoldsChannels

/-! ### ADPROC -/

theorem getLastD_eq_getD {α : Type} (l : List α) (d : α) : l.getLastD d = l.getD (l.length - 1) d := by
  rw [List.getLastD_eq_getLast?, List.getLast?_eq_getElem?, List.getD_eq_getElem?_getD]

/-- R180, R182: ADPROC completes, its only writes the stored channels and the look-ahead buffer. -/
theorem adproc_next {s : State} {q : ℚ} {par : AdParams} {xs : List (List ℚ)} (hw : s.memWf = true)
    (hpos : 1 ≤ s.fmtCh) (hch : s.fmtCh ≤ s.cap.ch) (hlen : s.smpLen.toNat ≤ s.cap.smp)
    (hpar : AdParamsAre s q par) (hxs : xs.length = s.fmtCh) (hsmp : HoldsChannels s s.smpLen.toNat xs) :
    exec .adproc s = .next (completed
      { storeLa s (lookAheadOf q) ((xs.getLastD []).map Encl.exact) with
        smp := writeChannels s.cap.smp s.smp 0 (xs.map (adStored (lookAheadOf q) par s.softClip)) }
      false) := by
  obtain ⟨hrate, hq, hla, hpars⟩ := hpar
  exact congrArg (finish s) (adprocRule_ok.2 ⟨lookAheadOf q, par, xs, hpos, hch, hlen,
    lookAhead_ok.2 ⟨q, hrate, hq, rfl⟩, hla, adParams_ok.2 hpars, hxs ▸ hsmp.readChannels_eq hw, rfl⟩)

/-- Settles O49: the checks pass, the last channel is the one R182 leaves in LA, and each stored channel is
read back. -/
theorem adprocResult : Obligations.AdprocResult := by
  intro s q par xs hw hpos hch hlen hpar hxs hsmp
  refine ⟨_, ?_, fun c k hc hk =>
    hsmp.read_stored (adStored_length (lookAheadOf q) par s.softClip) hlen (hxs ▸ hc) hk⟩
  rw [adproc_next hw hpos hch hlen hpar hxs hsmp, getLastD_eq_getD, hxs]
  rfl

end Sys2Proof.Machine

/-! The anti-distortion stage over the reals (R182 to R184): the window's peak, the compressor's gain on both
sides of the threshold, the two clippers, and the samples of `ad_channel`. -/

namespace Sys2Proof.Machine

/-! ### The samples of a channel -/

/-- R183: sample i is clipped after the gain of the look-ahead buffer's window that begins at i. -/
theorem getElem?_adSamples (A : Numerics) (las : ℕ) (par : AdParams) (soft : Bool) (x la : List A.R)
    (i : ℕ) : (adSamples A las par soft x la)[i]? = x[i]?.map fun v =>
      clip A soft (A.mul (A.mul v (adGain A par (peakOf A ((la.drop i).take (las + 1)))))
        (A.rat par.makeup)) := by
  induction x generalizing la i with
  | nil => rfl
  | cons v vs ih =>
    rw [adSamples]
    cases i with
    | zero => rfl
    | succ i => rw [List.getElem?_cons_succ, List.getElem?_cons_succ, ih, List.drop_tail]

/-! ### The peak of a window -/

/-- R182: the window of a sample, read off the signal, which is 0 behind its end. -/
theorem lookAheadWindow_real (las : ℕ) {x : List ℝ} {i : ℕ} (hi : i < x.length) :
    ((lookAheadBuffer Numerics.real las x).drop i).take (las + 1) =
      (List.range' i (las + 1)).map fun j => x.getD j 0 := by
  refine List.ext_getElem (by simp [lookAheadBuffer]; omega) fun k _ hk => ?_
  simp only [lookAheadBuffer, List.getElem_take, List.getElem_drop, List.getElem_map,
    List.getElem_range', one_mul]
  rcases Nat.lt_or_ge (i + k) x.length with hin | hout
  · rw [List.getElem_append_left hin, List.getD_eq_getElem _ _ hin]
  · rw [List.getElem_append_right hout, List.getElem_replicate, List.getD_eq_default _ _ hout]
    exact Rat.cast_zero

theorem foldl_max_abs_le_iff (l : List ℝ) (m b : ℝ) :
    l.foldl (fun m u => max m |u|) m ≤ b ↔ m ≤ b ∧ ∀ u ∈ l, |u| ≤ b := by
  induction l generalizing m with
  | nil => simp
  | cons v l ih => rw [List.foldl_cons, ih, max_le_iff, List.forall_mem_cons, and_assoc]

/-- R183: a bound of the peak is a bound of every absolute value. -/
theorem peakOf_real_le_iff {l : List ℝ} (hl : l ≠ []) (b : ℝ) :
    peakOf Numerics.real l ≤ b ↔ ∀ u ∈ l, |u| ≤ b := by
  cases l with
  | nil => exact absurd rfl hl
  | cons v l => rw [List.forall_mem_cons]; exact foldl_max_abs_le_iff l |v| b

theorem peakOf_real (las : ℕ) {x : List ℝ} {i : ℕ} (hi : i < x.length) :
    peakOf Numerics.real (((lookAheadBuffer Numerics.real las x).drop i).take (las + 1)) =
      peakReal las x i := by
  refine eq_of_forall_ge_iff fun b => ?_
  rw [lookAheadWindow_real las hi, peakOf_real_le_iff (by simp), List.forall_mem_map, peakReal,
    Finset.sup'_le_iff]
  simp only [List.mem_range'_1, Finset.mem_Icc, ← Nat.add_assoc, Nat.lt_succ_iff]

/-! ### The gain -/

theorem adGain_real (par : AdParams) (peak : ℝ) : adGain Numerics.real par peak = gainReal par peak := by
  simp only [adGain, gainReal, Config.ratioCap]
  push_cast
  rfl

theorem gainReal_of_le {par : AdParams} {peak : ℝ} (h : peak ≤ par.thr) : gainReal par peak = 1 :=
  if_neg h.not_gt

/-- R183: above the threshold the scaled peak keeps a part of its excess. -/
theorem gainReal_mul_peak {par : AdParams} {peak : ℝ} (hpos : 0 < par.thr) (h : par.thr < peak) :
    gainReal par peak * peak = par.thr +
      (peak - par.thr) / min 20 (par.ratio * (1 + 2 * (peak - par.thr))) := by
  have hthr : (0 : ℝ) < par.thr := by exact_mod_cast hpos
  rw [gainReal, if_pos h, div_mul_cancel₀ _ (hthr.trans h).ne']

/-- R183: the dynamic ratio never amplifies. -/
theorem one_le_dynamicRatio {ratio excess : ℝ} (hratio : 1 ≤ ratio) (hexcess : 0 ≤ excess) :
    1 ≤ min 20 (ratio * (1 + 2 * excess)) :=
  le_min (by norm_num) (one_le_mul_of_one_le_of_one_le hratio (by linarith))

/-- R183: above the threshold the scaled peak stays above it and does not grow. -/
theorem gainReal_above {par : AdParams} {peak : ℝ} (h : par.thr < peak) (hpos : 0 < par.thr)
    (hratio : 1 ≤ par.ratio) :
    par.thr < gainReal par peak * peak ∧ gainReal par peak * peak ≤ peak := by
  have hexcess : 0 < peak - par.thr := sub_pos.2 h
  have hdr := one_le_dynamicRatio (ratio := par.ratio) (by exact_mod_cast hratio) hexcess.le
  rw [gainReal_mul_peak hpos h]
  exact ⟨lt_add_of_pos_right _ (div_pos hexcess (zero_lt_one.trans_le hdr)),
    le_sub_iff_add_le'.1 (div_le_self hexcess.le hdr)⟩

/-! ### The clippers -/

theorem clip_real (soft : Bool) (v : ℝ) : clip Numerics.real soft v = clipReal soft v := by
  have hdrive : ((Config.softDrive : ℚ) : ℝ) = 3 / 2 := by norm_num [Config.softDrive, Rat.mkRat_eq_div]
  simp only [clip, clipReal, hdrive]
  push_cast
  rfl

/-- R184: the hard clamp. -/
theorem clipReal_hard (v : ℝ) : -1 ≤ clipReal false v ∧ clipReal false v ≤ 1 ∧
    (|v| ≤ 1 → clipReal false v = v) := by
  refine ⟨le_max_left .., max_le (by norm_num) (min_le_left ..), fun hv => ?_⟩
  obtain ⟨hlo, hhi⟩ := abs_le.1 hv
  exact (max_eq_right (le_min (by norm_num) hlo)).trans (min_eq_right hhi)

theorem clipReal_soft (v : ℝ) : clipReal true v = Real.tanh (v * (3 / 2)) / (3 / 2) := rfl

/-- R184: the soft clipper stays strictly inside `±2/3`. -/
theorem clipReal_soft_mem (v : ℝ) : -(2 / 3) < clipReal true v ∧ clipReal true v < 2 / 3 := by
  have hlo := Real.neg_one_lt_tanh (v * (3 / 2))
  have hhi := Real.tanh_lt_one (v * (3 / 2))
  rw [clipReal_soft]
  constructor <;> linarith

theorem clipReal_soft_neg (v : ℝ) : clipReal true (-v) = -clipReal true v := by
  rw [clipReal_soft, clipReal_soft, neg_mul, Real.tanh_neg, neg_div]

/-- `tanh` increases, since its inverse does. -/
theorem tanh_strictMono : StrictMono Real.tanh := fun v u h => lt_of_not_ge fun hle => by
  have hinv := Real.artanh_le_artanh (Real.neg_one_lt_tanh u) (Real.tanh_lt_one v) hle
  rw [Real.artanh_tanh, Real.artanh_tanh] at hinv
  exact hinv.not_gt h

theorem clipReal_soft_strictMono : StrictMono (clipReal true) := fun v u h =>
  div_lt_div_of_pos_right (tanh_strictMono (mul_lt_mul_of_pos_right h (by norm_num))) (by norm_num)

/-! ### The statement -/

/-- R183: sample i over the reals. -/
theorem getElem?_adChannel_real (las : ℕ) (par : AdParams) (soft : Bool) {x : List ℝ} {i : ℕ} {v : ℝ}
    (hv : x[i]? = some v) : (adChannel Numerics.real las par soft x)[i]? =
      some (clipReal soft (v * gainReal par (peakReal las x i) * par.makeup)) := by
  obtain ⟨hi, -⟩ := List.getElem?_eq_some_iff.1 hv
  rw [adChannel, getElem?_adSamples, hv, Option.map_some, peakOf_real las hi, adGain_real, clip_real]

/-- Settles O51: over the reals the stage is R183's formula, whose gain and clippers have the stated
bounds. -/
theorem compressorAndClipperProperties : Obligations.CompressorAndClipperProperties := by
  refine ⟨fun las par soft x i v => getElem?_adChannel_real las par soft, fun par peak => ?_,
    clipReal false, clipReal true, clip_real false, clip_real true, clipReal_hard, fun v u => ?_⟩
  · exact ⟨_, adGain_real par peak, gainReal_of_le, fun h hpos hratio =>
      ⟨gainReal_mul_peak hpos h, gainReal_above h hpos hratio⟩⟩
  · obtain ⟨hlo, hhi⟩ := clipReal_soft_mem v
    exact ⟨clipReal_soft v, hlo, hhi, clipReal_soft_neg v, fun h => clipReal_soft_strictMono h⟩

end Sys2Proof.Machine

/-! PROCESS on its normal paths (R190 to R192): without a float stage it is GAIN, and with one it stores
the result of the enabled stages on the gained, decoded channels and encodes what it stored. -/

namespace Sys2Proof.Machine

/-! ### Without a float stage -/

theorem processAd_of_disabled {s : State} (ha : s.adEn = false) : processAd s = .ok none := by
  rw [processAd, ha]
  rfl

theorem processNr_of_disabled {s : State} (hn : s.nrEn = false) : processNr s = .ok none := by
  rw [processNr, hn]
  rfl

/-- R190: with both enables off the rule of PROCESS is that of GAIN, errors and refusals included. -/
theorem processRule_of_disabled {s : State} (hn : s.nrEn = false) (ha : s.adEn = false) :
    processRule s = gainRule s := by
  have hskip : raiseIf false .capacityExceeded = .ok () := rfl
  simp only [processRule, gainRule, processAd_of_disabled ha, processNr_of_disabled hn, hn, ha,
    Bool.or_self, Bool.false_and, hskip, ok_bind, Bool.false_eq_true, if_false]

/-- Settles O53: the two rules agree, and `finish` sees nothing else. -/
theorem processWithoutStagesIsGain : Obligations.ProcessWithoutStagesIsGain := fun s hn ha =>
  congrArg (finish s) (processRule_of_disabled hn ha)

/-! ### The operands of the enabled stages -/

theorem processAd_of_params {s : State} {q : ℚ} {par : AdParams}
    (h : s.adEn = true → AdParamsAre s q par) :
    processAd s = .ok (if s.adEn then some (lookAheadOf q, par, s.softClip) else none) := by
  cases ha : s.adEn with
  | false => exact processAd_of_disabled ha
  | true =>
    obtain ⟨hrate, hq, hla, hpars⟩ := h ha
    rw [processAd, if_pos ha]
    exact bind_ok.2 ⟨_, lookAhead_ok.2 ⟨q, hrate, hq, rfl⟩, bind_ok.2 ⟨(), by simpa using hla,
      bind_ok.2 ⟨par, adParams_ok.2 hpars, rfl⟩⟩⟩

theorem processNr_of_params {s : State} {par : NrParams} (h : s.nrEn = true → NrParamsAre s par) :
    processNr s = .ok (if s.nrEn then some par else none) := by
  cases hn : s.nrEn with
  | false => exact processNr_of_disabled hn
  | true =>
    rw [processNr, if_pos hn]
    exact bind_ok.2 ⟨par, nrParams_ok.2 (h hn), rfl⟩

/-- R191: the stages CTRL enables, with their operands. -/
def enabledStages (s : State) (q : ℚ) (npar : NrParams) (apar : AdParams) (prof : List ℚ) : Stages where
  nr := if s.nrEn then some ⟨npar, prof⟩ else none
  ad := if s.adEn then some (lookAheadOf q, apar, s.softClip) else none

/-! ### What the stages store, and its encoding -/

/-- R190: the word the stages store for channel c, frame k of `xs`. -/
def stagedWord (st : Stages) (xs : List (List ℚ)) (c k : ℕ) : Word :=
  (chainStored st (xs.getD c [])).getD k 0

/-- R106, R190: the integer that word is encoded as. -/
def stagedSample (d : Depth) (st : Stages) (xs : List (List ℚ)) (c k : ℕ) : ℤ :=
  (quantise d (f32x (stagedWord st xs c k))).getD 0

theorem length_channel_decodeFrames {f : Format} {n c : ℕ} (bytes : List Byte) (hc : c < f.ch) :
    ((decodeFrames f n bytes).getD c []).length = n := by
  have hc' : c < (decodeFrames f n bytes).length := by rwa [decodeFrames_length]
  rw [List.getD_eq_getElem _ _ hc']
  exact length_of_mem_decodeFrames (List.getElem_mem hc')

section Staged

variable {f : Format} {n c k : ℕ} (st : Stages) (bytes : List Byte) (hc : c < f.ch) (hk : k < n)

theorem length_of_mem_chainStored :
    ∀ w ∈ (decodeFrames f n bytes).map (chainStored st), w.length = n :=
  length_of_mem_map (chainStored_length st) fun _ => length_of_mem_decodeFrames

theorem map_chainStored_eq_channelTable : (decodeFrames f n bytes).map (chainStored st) =
    channelTable f.ch n (stagedWord st (decodeFrames f n bytes)) := by
  refine List.ext_getElem (by simp [channelTable_length]) fun c hc _ => ?_
  rw [List.length_map] at hc
  have hlen := length_of_mem_decodeFrames (List.getElem_mem hc)
  refine List.ext_getElem (by simp [channelTable, hlen]) fun k hk _ => ?_
  rw [List.getElem_map] at hk
  simp only [channelTable, List.getElem_map, List.getElem_range, stagedWord, List.getD_eq_getElem _ _ hc,
    List.getD_eq_getElem _ _ hk]

include hc hk

theorem getElem?_chainStored : (chainStored st ((decodeFrames f n bytes).getD c []))[k]? =
    some (stagedWord st (decodeFrames f n bytes) c k) := by
  have hk' : k < (chainStored st ((decodeFrames f n bytes).getD c [])).length := by
    rwa [chainStored_length, length_channel_decodeFrames bytes hc]
  rw [stagedWord, List.getD_eq_getElem _ _ hk', List.getElem?_eq_getElem hk']

/-- R106, R111: no stored word is a NaN, so each is quantised. -/
theorem quantise_stagedWord : quantise f.depth (f32x (stagedWord st (decodeFrames f n bytes) c k)) =
    some (stagedSample f.depth st (decodeFrames f n bytes) c k) := by
  have hmem := List.mem_of_getElem? (getElem?_chainStored st bytes hc hk)
  obtain ⟨v, hv⟩ := Option.ne_none_iff_exists'.1
    (quantise_storable_ne_none (d := f.depth) (isStorable_chainStored st _ _ hmem))
  rw [stagedSample, hv, Option.getD_some]

/-- R42: the element of channel c, frame k after PROCESS stored n frames. -/
theorem read_stagedWord {cap : ℕ} (m : Memory Word) (hn : n ≤ cap) :
    Memory.read (writeChannels cap m 0 ((decodeFrames f n bytes).map (chainStored st)))
      (c * cap + k) = some (stagedWord st (decodeFrames f n bytes) c k) := by
  have hread := read_writeChannels_in _ m 0 c k (length_of_mem_chainStored st bytes) hn
    (by rwa [List.length_map, decodeFrames_length]) hk
  have hc' : c < (decodeFrames f n bytes).length := by rwa [decodeFrames_length]
  rw [Nat.zero_add, List.getD_eq_getElem _ _ (by rwa [List.length_map]), List.getElem_map,
    ← List.getD_eq_getElem _ [] hc', getElem?_chainStored st bytes hc hk] at hread
  exact hread

end Staged

/-- R108, R190: the stored words of n frames are encoded sample by sample. -/
theorem encodeFrames_chainStored {cap : ℕ} {f : Format} {n : ℕ} (st : Stages) (bytes : List Byte) :
    encodeFrames cap f n ((decodeFrames f n bytes).map (chainStored st)) =
      .ok (encodedBytes f n (stagedSample f.depth st (decodeFrames f n bytes))) := by
  have hquant := quantiseChannels_of_forall₂ (cap := cap) (c := 0) (forall₂_channelTable
    fun c k (hc : c < f.ch) (hk : k < n) => quantise_stagedWord st bytes hc hk)
  rw [encodeFrames, map_chainStored_eq_channelTable, hquant, encodedBytes]

/-! ### The state the float branch leaves -/

/-- R152, R190: PROFILE after the stages of n frames, x the gained channel 0. -/
def stagedProfile (s : State) (x : List ℚ) (n : ℕ) : Memory Word :=
  if s.nrEn then estimatedProfile s x n else s.profile

/-- R150, R190: PSTATE after the stages. -/
def stagedPstate (s : State) : PState :=
  if s.nrEn ∧ s.pstate = .unset then .autoEstimated else s.pstate

/-- R43, R190: what the float branch leaves beside the hidden memories. -/
def stagedState (s : State) (f : Format) (st : Stages) (n : ℕ) (bytes : List Byte) : State :=
  { s with
    profile := stagedProfile s ((decodeFrames f n bytes).getD 0 []) n
    pstate := stagedPstate s
    xr := if s.nrEn then [] else s.xr
    xi := if s.nrEn then [] else s.xi
    smp := writeChannels s.cap.smp s.smp 0 ((decodeFrames f n bytes).map (chainStored st))
    smpLen := BitVec.ofNat 32 n
    dst := Memory.writeRun s.dst 0
      (encodedBytes f n (stagedSample f.depth st (decodeFrames f n bytes)))
    dstLen := BitVec.ofNat 32 (n * f.frameBytes) }

theorem FormatIs.ch_pos {s : State} {f : Format} (h : FormatIs s f) : 0 < f.ch := by
  obtain ⟨-, -, hch, hpos, -⟩ := h
  exact hch ▸ hpos

/-- R152, R190: the state after the auto-estimation step of PROCESS on n frames. -/
theorem autoEstimated_of_enabled (s : State) {x : List ℚ} {n : ℕ} (hx : x.length = n) :
    (if s.nrEn then autoEstimated s x else s) =
      { s with profile := stagedProfile s x n, pstate := stagedPstate s } := by
  rw [stagedProfile, stagedPstate, autoEstimated_eq, hx]
  cases s.nrEn with
  | false => rfl
  | true => simp only [if_true, true_and]

/-- R190: the float branch answers, and leaves `stagedState` with some hidden memories. -/
theorem floatStages_staged {s : State} {f : Format} {n : ℕ} {q : ℚ} {npar : NrParams} {apar : AdParams}
    {prof : List ℚ} {bytes : List Byte} (hw : s.memWf = true) (hf : FormatIs s f)
    (hprof : s.nrEn = true → ProfileIs
      { s with profile := stagedProfile s ((decodeFrames f n bytes).getD 0 []) n } n prof) :
    ∃ prevMag prevPh la, floatStages s f n (if s.nrEn then some npar else none)
        (enabledStages s q npar apar prof).ad bytes =
      .ok { stagedState s f (enabledStages s q npar apar prof) n bytes with
            prevMag := prevMag, prevPh := prevPh, la := la } := by
  obtain ⟨-, -, -, -, -, -, -, -, hwp, -⟩ := State.memWf_iff.1 hw
  have hestimated := autoEstimated_of_enabled s
    (length_channel_decodeFrames (n := n) (c := 0) bytes hf.ch_pos)
  obtain ⟨prevMag, prevPh, la, hhidden, -⟩ := storeHidden_frame
    { s with profile := stagedProfile s ((decodeFrames f n bytes).getD 0 []) n, pstate := stagedPstate s }
    (enabledStages s q npar apar prof) ((decodeFrames f n bytes).getLastD [])
  refine ⟨prevMag, prevPh, la, floatStages_ok.2 ⟨_, (enabledStages s q npar apar prof).nr, _, rfl, ?_,
    encodeFrames_chainStored .., ?_⟩⟩
  · simp only [Option.isSome_ite]
    rw [hestimated, enabledStages]
    cases hn : s.nrEn with
    | false => rfl
    | true =>
      refine ⟨prof, readProfile_of_profileIs ?_ (hprof hn), rfl⟩
      rw [stagedProfile, if_pos hn]
      exact wf_estimatedProfile hwp ..
  · simp only [Option.isSome_ite]
    rw [hestimated, hhidden, storeDst, encodedBytes_length, stagedState]
    cases s.nrEn with
    | false => rfl
    | true => rfl

/-! ### PROCESS -/

/-- R190: the conditions of PROCESS's normal path with a float stage, but the one on PROFILE. -/
structure ProcessReady (s : State) (f : Format) (g q : ℚ) (npar : NrParams) (apar : AdParams)
    (r : GainResult) : Prop where
  memWf : s.memWf = true
  format : FormatIs s f
  enabled : (s.nrEn || s.adEn) = true
  src_le : s.srcLen.toNat ≤ s.cap.src
  dst_le : s.srcLen.toNat ≤ s.cap.dst
  frames_le : s.srcLen.toNat / f.frameBytes ≤ s.cap.smp
  nr : s.nrEn = true → NrParamsAre s npar
  ad : s.adEn = true → AdParamsAre s q apar
  gain : f32 s.gainf = some g
  gained : gainStage s f g s.srcLen.toNat = .ok r

/-- R190: PROCESS completes with what the float branch leaves. -/
theorem ProcessReady.process_next {s : State} {f : Format} {g q : ℚ} {npar : NrParams} {apar : AdParams}
    {r : GainResult} {n : ℕ} {prof : List ℚ} (h : ProcessReady s f g q npar apar r)
    (hn : n = s.srcLen.toNat / f.frameBytes)
    (hprof : s.nrEn = true → ProfileIs
      { s with profile := stagedProfile s ((decodeFrames f n r.bytes).getD 0 []) n } n prof) :
    ∃ prevMag prevPh la, exec .process s = .next (completed
      { stagedState s f (enabledStages s q npar apar prof) n r.bytes with
        prevMag := prevMag, prevPh := prevPh, la := la }
      (truncated s.srcLen.toNat f.frameBytes)) := by
  subst hn
  obtain ⟨prevMag, prevPh, la, hstages⟩ := floatStages_staged h.memWf h.format hprof
  have hrule := processRule_ok.2 ⟨f, _, g, _, r, h.format, h.src_le, h.dst_le, fun _ => h.frames_le,
    processAd_of_params h.ad, h.gain, processNr_of_params h.nr, h.gained,
    (if_pos h.enabled).mpr ⟨_, hstages, rfl⟩⟩
  exact ⟨prevMag, prevPh, la, congrArg (finish s) hrule⟩

/-- R152: the profile the statement writes out. -/
theorem stagedProfile_eq (s : State) (x : List ℚ) (n : ℕ) : stagedProfile s x n =
    if s.nrEn = true ∧ s.pstate = .unset then
      Memory.writeRun s.profile 0 (storeReals fun A => profileEntries A (x.map A.rat)
        ((List.range (min 10 (n / 2048))).map (· * 2048)))
    else s.profile := by
  rw [stagedProfile, estimatedProfile, ite_and]

/-- Settles O54: the state PROCESS completes with, read off channel by channel. -/
theorem processWithFloatStages : Obligations.ProcessWithFloatStages := by
  rintro s f g q npar apar r n xs m prof hw - hf hen hsrc hdst hn hsmp hnr had hg hr rfl hm hprof
  obtain rfl := hm.trans (stagedProfile_eq s ((decodeFrames f n r.bytes).getD 0 []) n).symm
  have h : ProcessReady s f g q npar apar r := ⟨hw, hf, hen, hsrc, hdst, hn ▸ hsmp, hnr, had, hg, hr⟩
  obtain ⟨prevMag, prevPh, la, hnext⟩ := h.process_next hn hprof
  have hbytes : n * f.frameBytes < 2 ^ 32 := (hn ▸ Nat.div_mul_le_self ..).trans_lt s.srcLen.isLt
  have hframes : n < 2 ^ 32 := (hn ▸ Nat.div_le_self ..).trans_lt s.srcLen.isLt
  refine ⟨_, hnext, rfl, rfl, rfl, (BitVec.toNat_ofNat ..).trans (Nat.mod_eq_of_lt hframes),
    (BitVec.toNat_ofNat ..).trans (Nat.mod_eq_of_lt hbytes), rfl,
    fun hnr => ⟨if_pos hnr, if_pos hnr⟩, fun c k hc hk => ?_⟩
  exact ⟨_, _, getElem?_chainStored _ _ hc hk, read_stagedWord _ _ hc hk _ hsmp,
    quantise_stagedWord _ _ hc hk, fun j hj => read_encodedBytes _ _ hc hk hj⟩

end Sys2Proof.Machine

/-! Errors (R201 to R209): every command is the end of a rule, a rule's checks come in a fixed order, and
which codes each check raises. -/

namespace Sys2Proof.Machine

/-! ### The rule of a command -/

/-- The rule whose end a command is (R83). -/
def ruleOf : Instr → State → Except Stop Effect
  | .decode, s => decodeRule s
  | .encode, s => encodeRule s
  | .gain, s => gainRule s
  | .fft logn, s => transformRule fftParts logn s
  | .ifft logn, s => transformRule ifftParts logn s
  | .magph logn, s => magphRule logn s
  | .nrlearn, s => nrlearnRule s
  | .nrlearnr, s => nrlearnrRule s
  | .nrreset, s => .ok { state := { s with pstate := .unset }, trunc := false }
  | .nrproc, s => nrprocRule s
  | .adproc, s => adprocRule s
  | .process, s => processRule s

theorem exec_eq_finish (i : Instr) (s : State) : exec i s = finish s (ruleOf i s) := by
  cases i <;> rfl

/-- R204: an error of the rule is the error the command ends with. -/
theorem exec_of_rule_error {i : Instr} {s : State} {c : ErrCode} (h : ruleOf i s = .error (.err c)) :
    exec i s = .next (erred s c) := by
  rw [exec_eq_finish, h, finish_err, raiseErr_eq]

/-- A command that ends with an error code has it from its rule. -/
theorem rule_error_of_exec {i : Instr} {s t : State} (h : exec i s = .next t) (hne : t.err ≠ .none) :
    ruleOf i s = .error (.err t.err) := by
  rw [exec_eq_finish] at h
  rcases finish_next.1 h with ⟨e, -, rfl⟩ | ⟨c, hc, rfl⟩
  · exact absurd rfl hne
  · exact hc

/-- R25, R203: every command that ends does so by completion. -/
theorem exec_completes {i : Instr} {s t : State} (h : exec i s = .next t) :
    t.busy = false ∧ t.isDone = true ∧ t.cmd = 0 := by
  rw [exec_eq_finish] at h
  rcases finish_next.1 h with ⟨e, -, rfl⟩ | ⟨c, -, rfl⟩
  · exact ⟨rfl, rfl, rfl⟩
  · exact ⟨rfl, rfl, rfl⟩

/-! ### The checks in front of a rule -/

/-- R201: `fmt_check` raises UnsupportedBitDepth for the depth alone. -/
theorem fmtCheck_bitDepth_iff {s : State} :
    fmtCheck s = .error (.err .unsupportedBitDepth) ↔ Depth.ofBits s.fmtBits = none := by
  unfold fmtCheck
  cases Depth.ofBits s.fmtBits with
  | none => simp
  | some d =>
    simp only [reduceCtorEq, iff_false]
    split <;> nofun

theorem badChannels_iff {s : State} : badChannels s = true ↔ s.fmtCh = 0 ∨ s.cap.ch < s.fmtCh := by
  simp [badChannels]

theorem badSigned_iff {s : State} {d : Depth} : badSigned s d = true ↔ s.fmtSigned ≠ d.signed := by
  simp [badSigned, Config.signedPolicy]

/-- R206: `fmt_check` raises UnsupportedFormat for the channel count and the signed flag of a supported
depth. -/
theorem fmtCheck_format_iff {s : State} :
    fmtCheck s = .error (.err .unsupportedFormat) ↔ ∃ d, Depth.ofBits s.fmtBits = some d ∧
      (s.fmtCh = 0 ∨ s.cap.ch < s.fmtCh ∨ s.fmtSigned ≠ d.signed) := by
  unfold fmtCheck
  cases Depth.ofBits s.fmtBits with
  | none => simp
  | some d =>
    have hbad : (badChannels s || badSigned s d) = true ↔
        s.fmtCh = 0 ∨ s.cap.ch < s.fmtCh ∨ s.fmtSigned ≠ d.signed := by
      rw [Bool.or_eq_true, badChannels_iff, badSigned_iff, or_assoc]
    simp only [Option.some.injEq, exists_eq_left', ← hbad]
    split
    · next h => exact iff_of_true rfl h
    · next h => exact iff_of_false nofun h

/-- R206, R168, R180: the channel count check raises UnsupportedFormat and nothing else. -/
theorem chCheck_error_iff {s : State} {e : Stop} : chCheck s = .error e ↔
    (s.fmtCh = 0 ∨ s.cap.ch < s.fmtCh) ∧ e = .err .unsupportedFormat := by
  unfold chCheck
  rw [← badChannels_iff]
  split
  · next h => exact ⟨fun he => ⟨h, (Except.error.inj he).symm⟩, fun ⟨_, he⟩ => he ▸ rfl⟩
  · next h => exact iff_of_false nofun fun ⟨hb, _⟩ => h hb

theorem ofBits_eq_none_iff {n : ℕ} : Depth.ofBits n = none ↔ n ≠ 8 ∧ n ≠ 16 ∧ n ≠ 24 := by
  unfold Depth.ofBits
  split_ifs <;> simp_all

/-! ### Errors behind the checks -/

namespace RaisesOnly

variable {P : ErrCode → Prop}

theorem readPatterns (cap : ℕ) (m : Memory Word) (f c n : ℕ) :
    RaisesOnly P (readPatterns cap m f c n) := by
  induction n generalizing c with
  | zero => exact ok _
  | succ n ih =>
    rw [readPatterns_succ]
    exact bind (readAll ..) fun _ => bind (ih (c + 1)) fun _ => ok _

theorem encodeFrames (cap : ℕ) (f : Format) (n : ℕ) (chs : List (List Word)) :
    RaisesOnly P (encodeFrames cap f n chs) := by
  refine ⟨fun c hc => ?_⟩
  obtain ⟨k, x, j, w, he, -⟩ := encodeFrames_error hc
  cases he

theorem floatStages (s : State) (f : Format) (n : ℕ) (nr : Option NrParams)
    (ad : Option (ℕ × AdParams × Bool)) (b : List Byte) : RaisesOnly P (floatStages s f n nr ad b) := by
  unfold Machine.floatStages
  cases nr with
  | none => exact bind (pure _) fun _ => bind (encodeFrames ..) fun _ => pure _
  | some par =>
    exact bind (readProfile ..) fun _ => bind (pure _) fun _ => bind (encodeFrames ..) fun _ => pure _

theorem lognCheck (h : P .illegalCommand) (n : BitVec 5) : RaisesOnly P (lognCheck n) := by
  refine ⟨fun c hc => ?_⟩
  unfold Machine.lognCheck at hc
  split at hc <;> cases hc
  exact h

theorem transformRule (h : P .illegalCommand) (parts : ℕ → List ℚ → List ℚ → Cyc.Parts)
    (logn : BitVec 5) (s : State) : RaisesOnly P (transformRule parts logn s) := by
  unfold Machine.transformRule
  exact bind (lognCheck h logn) fun _ => bind (readFloats ..) fun _ => bind (readFloats ..) fun _ =>
    pure _

theorem magphRule (h : P .illegalCommand) (logn : BitVec 5) (s : State) :
    RaisesOnly P (magphRule logn s) := by
  unfold Machine.magphRule
  exact bind (lognCheck h logn) fun _ => bind (readFloats ..) fun _ => bind (readFloats ..) fun _ =>
    pure _

end RaisesOnly

/-- The six commands of the byte buffers (R201, R206). -/
def bufferCommands : List Instr := [.decode, .encode, .gain, .nrlearn, .nrlearnr, .process]

/-- The two commands that check the channel count alone (R168, R180). -/
def sampleCommands : List Instr := [.nrproc, .adproc]

/-- The codes of the checks on a command's operands (R202, R207, log 27). -/
def OperandError (c : ErrCode) : Prop :=
  c = .capacityExceeded ∨ c = .invalidSelectionRange ∨ c = .illegalCommand

theorem operandError_capacity : OperandError .capacityExceeded := .inl rfl
theorem operandError_range : OperandError .invalidSelectionRange := .inr (.inl rfl)
theorem operandError_illegal : OperandError .illegalCommand := .inr (.inr rfl)

/-- R209: a buffer command begins with `fmt_check`, and what follows raises operand errors only. -/
theorem bufferCommand_rule {i : Instr} (hi : i ∈ bufferCommands) (s : State) :
    ∃ k, ruleOf i s = fmtCheck s >>= k ∧ ∀ f, RaisesOnly OperandError (k f) := by
  have hcap := operandError_capacity
  have hrange := operandError_range
  cases i with
  | decode =>
    exact ⟨_, rfl, fun f => .bind (.raiseIf hcap _) fun _ => .bind (.raiseIf hcap _) fun _ =>
      .bind (.readAll ..) fun _ => .pure _⟩
  | encode =>
    exact ⟨_, rfl, fun f => .bind (.raiseIf hcap _) fun _ => .bind (.readPatterns ..) fun _ =>
      .bind (.encodeFrames ..) fun _ => .pure _⟩
  | gain =>
    exact ⟨_, rfl, fun f => .bind (.raiseIf hcap _) fun _ => .bind (.param ..) fun _ =>
      .bind (.gainStage ..) fun _ => .pure _⟩
  | nrlearn => exact ⟨_, rfl, fun f => .bind (.raiseIf hcap _) fun _ => .learnRule hrange ..⟩
  | nrlearnr =>
    exact ⟨_, rfl, fun f => .bind (.raiseIf hcap _) fun _ => .bind (.raiseIf hrange _) fun _ =>
      .learnRule hrange ..⟩
  | process =>
    refine ⟨_, rfl, fun f => .bind (.raiseIf hcap _) fun _ => .bind (.raiseIf hcap _) fun _ =>
      .bind (.processAd hcap s) fun _ => .bind (.param ..) fun _ => .bind (.processNr s) fun _ =>
        .bind (.gainStage ..) fun _ => ?_⟩
    split
    · exact .bind (.floatStages ..) fun _ => .pure _
    · exact .pure _
  | fft _ | ifft _ | magph _ | nrreset | nrproc | adproc => simp [bufferCommands] at hi

/-- R168, R180: NRPROC and ADPROC begin with the channel count, and what follows raises operand errors
only. -/
theorem sampleCommand_rule {i : Instr} (hi : i ∈ sampleCommands) (s : State) :
    ∃ k, ruleOf i s = chCheck s >>= k ∧ ∀ n, RaisesOnly OperandError (k n) := by
  have hcap := operandError_capacity
  rcases List.mem_pair.1 hi with rfl | rfl
  · exact ⟨_, rfl, fun _ => .bind (.raiseIf hcap _) fun _ => .bind (.nrParams s) fun _ =>
      .bind (.readChannels ..) fun _ => .bind (.readProfile ..) fun _ => .pure _⟩
  · exact ⟨_, rfl, fun _ => .bind (.raiseIf hcap _) fun _ => .bind (.lookAhead s) fun _ =>
      .bind (.raiseIf hcap _) fun _ => .bind (.adParams s) fun _ => .bind (.readChannels ..) fun _ =>
        .pure _⟩

/-- The remaining commands check no format. -/
theorem otherCommand_raisesOnly {i : Instr} (hb : i ∉ bufferCommands) (hs : i ∉ sampleCommands)
    (s : State) : RaisesOnly OperandError (ruleOf i s) := by
  cases i with
  | fft logn => exact .transformRule operandError_illegal ..
  | ifft logn => exact .transformRule operandError_illegal ..
  | magph logn => exact .magphRule operandError_illegal ..
  | nrreset => exact .ok _
  | decode | encode | gain | nrlearn | nrlearnr | process => simp [bufferCommands] at hb
  | nrproc | adproc => simp [sampleCommands] at hs

/-- Every error a command ends with: that of its format or channel count check, or an operand error. -/
theorem rule_error_cases {i : Instr} {s : State} {c : ErrCode} (h : ruleOf i s = .error (.err c)) :
    (i ∈ bufferCommands ∧ fmtCheck s = .error (.err c)) ∨
      (i ∈ sampleCommands ∧ chCheck s = .error (.err c)) ∨ OperandError c := by
  by_cases hb : i ∈ bufferCommands
  · obtain ⟨k, hk, hraise⟩ := bufferCommand_rule hb s
    rcases bind_error.1 (hk ▸ h) with hc | ⟨f, -, hc⟩
    · exact .inl ⟨hb, hc⟩
    · exact .inr (.inr ((hraise f).code c hc))
  by_cases hs : i ∈ sampleCommands
  · obtain ⟨k, hk, hraise⟩ := sampleCommand_rule hs s
    rcases bind_error.1 (hk ▸ h) with hc | ⟨n, -, hc⟩
    · exact .inr (.inl ⟨hs, hc⟩)
    · exact .inr (.inr ((hraise n).code c hc))
  exact .inr (.inr ((otherCommand_raisesOnly hb hs s).code c h))

theorem exec_of_fmtCheck_error {i : Instr} {s : State} {c : ErrCode} (hi : i ∈ bufferCommands)
    (h : fmtCheck s = .error (.err c)) : exec i s = .next (erred s c) := by
  obtain ⟨k, hk, -⟩ := bufferCommand_rule hi s
  exact exec_of_rule_error (by rw [hk, h, error_bind])

theorem exec_of_chCheck_error {i : Instr} {s : State} {c : ErrCode} (hi : i ∈ sampleCommands)
    (h : chCheck s = .error (.err c)) : exec i s = .next (erred s c) := by
  obtain ⟨k, hk, -⟩ := sampleCommand_rule hi s
  exact exec_of_rule_error (by rw [hk, h, error_bind])

/-! ### Unsupported depths and formats -/

/-- Settles O17: an error entry is the state before with its STATUS fields. -/
theorem erroringCommandChangesOnlyStatus : Obligations.ErroringCommandChangesOnlyStatus := by
  intro i s t h hne
  obtain ⟨c, rfl⟩ := exec_erred h hne
  rfl

/-- Settles O18: `fmt_check` comes first in the six commands, and it alone raises the code. -/
theorem unsupportedBitDepthIsReported : Obligations.UnsupportedBitDepthIsReported := by
  refine ⟨fun i s hi h8 h16 h24 => exec_of_fmtCheck_error hi
    (fmtCheck_bitDepth_iff.2 (ofBits_eq_none_iff.2 ⟨h8, h16, h24⟩)), fun i s t h hcode => ?_⟩
  have hrule := rule_error_of_exec h (hcode ▸ nofun)
  rw [hcode] at hrule
  rcases rule_error_cases hrule with ⟨hi, -⟩ | ⟨-, hch⟩ | hop
  · exact hi
  · obtain ⟨-, hc⟩ := chCheck_error_iff.1 hch
    cases hc
  · simp [OperandError] at hop

/-- Settles O19: each of the two checks raises the code for its own causes, and nothing behind them
does. -/
theorem unsupportedFormatIsReported : Obligations.UnsupportedFormatIsReported := by
  refine ⟨fun i s d hi hd hbad => exec_of_fmtCheck_error hi (fmtCheck_format_iff.2 ⟨d, hd, hbad⟩),
    fun i s hi hbad => exec_of_chCheck_error hi (chCheck_error_iff.2 ⟨hbad, rfl⟩),
    fun i s t h hcode => ?_⟩
  have hrule := rule_error_of_exec h (hcode ▸ nofun)
  rw [hcode] at hrule
  rcases rule_error_cases hrule with ⟨hi, hfmt⟩ | ⟨hi, hch⟩ | hop
  · exact .inr ⟨hi, fmtCheck_format_iff.1 hfmt⟩
  · exact .inl ⟨hi, (chCheck_error_iff.1 hch).1⟩
  · simp [OperandError] at hop

/-! ### Capacities and selections -/

/-- A rule that goes on with a check of code `c` ends with `c` when the check fails or its rest does. -/
theorem raiseIf_bind_error {b : Bool} {c : ErrCode} {α : Type} {k : Unit → Except Stop α} :
    (raiseIf b c >>= k) = .error (.err c) ↔ b = true ∨ k () = .error (.err c) := by
  cases b <;> simp [raiseIf]

theorem raiseIf_of_not {p : Prop} [Decidable p] (h : ¬p) (c : ErrCode) :
    raiseIf (decide p) c = .ok () := (raiseIf_ok ..).2 (decide_eq_false h)

/-- R180, R181, R190: a look-ahead above LA_MAX, which is found before the other parameters are read. -/
theorem lookAhead_capacity {s : State} {q : ℚ} (hq : f32 s.srate = some q) (hpos : 0 < q)
    (h : s.cap.la < lookAheadOf q) {α : Type} (k : ℕ → Except Stop α) :
    (lookAhead s >>= fun las => raiseIf (decide (s.cap.la < las)) .capacityExceeded >>= fun _ => k las) =
      .error (.err .capacityExceeded) := by
  rw [lookAhead_ok.2 ⟨q, hq, hpos, rfl⟩, ok_bind, raiseIf_bind_error]
  exact .inl (decide_eq_true h)

/-- R156: a selection shorter than a frame is found before its samples are read. -/
theorem learnRule_short {n : ℕ} (h : n < 2048) (s : State) (sp : Space) (m : Memory Byte) (f : Format)
    (a len : ℕ) : learnRule s sp m f a n len = .error (.err .invalidSelectionRange) := by
  rw [learnRule, raiseIf_bind_error]
  exact .inl (decide_eq_true (hopFrames_eq_zero_iff.2 h))

section Checked

variable {s : State} {f : Format} (hf : FormatIs s f)
include hf

theorem FormatIs.chCheck_eq : chCheck s = .ok s.fmtCh := by
  obtain ⟨-, -, -, hpos, hle, -⟩ := hf
  exact chCheck_ok.2 ⟨rfl, hpos, hle⟩

theorem decodeRule_capacity
    (h : s.cap.src < s.srcLen.toNat ∨ s.cap.smp < s.srcLen.toNat / f.frameBytes) :
    decodeRule s = .error (.err .capacityExceeded) := by
  rw [decodeRule, fmtCheck_ok.2 hf, ok_bind, raiseIf_bind_error, raiseIf_bind_error]
  exact h.imp decide_eq_true fun hsmp => .inl (decide_eq_true hsmp)

theorem encodeRule_capacity
    (h : s.cap.smp < s.smpLen.toNat ∨ s.cap.dst < s.smpLen.toNat * f.frameBytes) :
    encodeRule s = .error (.err .capacityExceeded) := by
  rw [encodeRule, fmtCheck_ok.2 hf, ok_bind, raiseIf_bind_error]
  exact .inl (by simpa using h)

theorem gainRule_capacity (h : s.cap.src < s.srcLen.toNat ∨ s.cap.dst < s.srcLen.toNat) :
    gainRule s = .error (.err .capacityExceeded) := by
  rw [gainRule, fmtCheck_ok.2 hf, ok_bind, raiseIf_bind_error]
  exact .inl (by simpa using h)

theorem nrlearnRule_capacity (h : s.cap.aux < s.auxLen.toNat) :
    nrlearnRule s = .error (.err .capacityExceeded) := by
  rw [nrlearnRule, fmtCheck_ok.2 hf, ok_bind, raiseIf_bind_error]
  exact .inl (decide_eq_true h)

theorem nrlearnrRule_capacity (h : s.cap.src < s.srcLen.toNat) :
    nrlearnrRule s = .error (.err .capacityExceeded) := by
  rw [nrlearnrRule, fmtCheck_ok.2 hf, ok_bind, raiseIf_bind_error]
  exact .inl (decide_eq_true h)

theorem nrprocRule_capacity (h : s.cap.smp < s.smpLen.toNat) :
    nrprocRule s = .error (.err .capacityExceeded) := by
  rw [nrprocRule, hf.chCheck_eq, ok_bind, raiseIf_bind_error]
  exact .inl (decide_eq_true h)

theorem adprocRule_capacity (h : s.cap.smp < s.smpLen.toNat ∨
    ∃ q, f32 s.srate = some q ∧ 0 < q ∧ s.cap.la < lookAheadOf q) :
    adprocRule s = .error (.err .capacityExceeded) := by
  rw [adprocRule, hf.chCheck_eq, ok_bind, raiseIf_bind_error]
  exact h.imp decide_eq_true fun ⟨_, hq, hpos, hla⟩ => lookAhead_capacity hq hpos hla _

theorem processRule_capacity (h : (s.cap.src < s.srcLen.toNat ∨ s.cap.dst < s.srcLen.toNat) ∨
    ((s.nrEn || s.adEn) = true ∧ s.cap.smp < s.srcLen.toNat / f.frameBytes) ∨
    (s.adEn = true ∧ ∃ q, f32 s.srate = some q ∧ 0 < q ∧ s.cap.la < lookAheadOf q)) :
    processRule s = .error (.err .capacityExceeded) := by
  rw [processRule, fmtCheck_ok.2 hf, ok_bind, raiseIf_bind_error, raiseIf_bind_error]
  refine h.imp (by simp) (.imp (by simp) ?_)
  rintro ⟨had, q, hq, hpos, hla⟩
  rw [processAd, if_pos had, lookAhead_capacity hq hpos hla, error_bind]

theorem nrlearnRule_range (haux : s.auxLen.toNat ≤ s.cap.aux)
    (h : s.auxLen.toNat / f.frameBytes < 2048) :
    nrlearnRule s = .error (.err .invalidSelectionRange) := by
  simp only [nrlearnRule, fmtCheck_ok.2 hf, ok_bind, raiseIf_of_not haux.not_gt, learnRule_short h]

theorem nrlearnrRule_range (hsrc : s.srcLen.toNat ≤ s.cap.src)
    (h : s.rangeEnd.toNat ≤ s.rangeStart.toNat ∨ s.srcLen.toNat / f.frameBytes < s.rangeEnd.toNat ∨
      s.rangeEnd.toNat - s.rangeStart.toNat < 2048) :
    nrlearnrRule s = .error (.err .invalidSelectionRange) := by
  simp only [nrlearnrRule, fmtCheck_ok.2 hf, ok_bind, raiseIf_of_not hsrc.not_gt, raiseIf_bind_error]
  exact (or_assoc.2 h).imp (by simp) fun hshort => learnRule_short hshort ..

end Checked

/-- Settles O20: each rule ends with the code whichever of its comparisons fails. -/
theorem capacityExceededIsReported : Obligations.CapacityExceededIsReported := by
  intro s f hf
  refine ⟨fun h i hi => exec_of_rule_error ?_, fun h => exec_of_rule_error (nrlearnRule_capacity hf h),
    fun h i hi => exec_of_rule_error ?_,
    fun h => ⟨exec_of_rule_error (decodeRule_capacity hf (.inr h)),
      fun hen => exec_of_rule_error (processRule_capacity hf (.inr (.inl ⟨hen, h⟩)))⟩,
    fun h i hi => exec_of_rule_error ?_,
    fun h => exec_of_rule_error (encodeRule_capacity hf (.inr h)),
    fun q hq hpos h => ⟨exec_of_rule_error (adprocRule_capacity hf (.inr ⟨q, hq, hpos, h⟩)),
      fun had => exec_of_rule_error (processRule_capacity hf (.inr (.inr ⟨had, q, hq, hpos, h⟩)))⟩⟩
  · fin_cases hi
    exacts [decodeRule_capacity hf (.inl h), gainRule_capacity hf (.inl h), nrlearnrRule_capacity hf h,
      processRule_capacity hf (.inl (.inl h))]
  · fin_cases hi
    exacts [gainRule_capacity hf (.inr h), processRule_capacity hf (.inl (.inr h))]
  · fin_cases hi
    exacts [encodeRule_capacity hf (.inl h), nrprocRule_capacity hf h, adprocRule_capacity hf (.inl h)]

/-- Settles O21: the range and the length of the selection are compared before its samples are read. -/
theorem invalidSelectionIsReported : Obligations.InvalidSelectionIsReported := fun _ _ hf =>
  ⟨fun hsrc h => exec_of_rule_error (nrlearnrRule_range hf hsrc h),
    fun haux h => exec_of_rule_error (nrlearnRule_range hf haux h)⟩

/-! ### Acceptance and the idle engine -/

/-- R203: the write of a legal word is its acceptance. -/
theorem writeCmd_of_legal {w : Word} {i : Instr} (h : decode w = .ok i) (s : State) :
    writeCmd s w = accept s w := by
  rw [writeCmd, h]

/-- R22: with BUSY = 1 the engine runs the command of the latched word. -/
theorem engineTurn_of_busy {s : State} {i : Instr} (hb : s.busy = true) (h : decode s.cmd = .ok i) :
    engineTurn s = exec i s := by
  rw [engineTurn, if_pos hb, h]

/-- R217: with BUSY = 0 the engine's turn changes nothing. -/
theorem engineTurn_of_idle {s : State} (hb : s.busy = false) : engineTurn s = .next s := by
  rw [engineTurn, hb]
  rfl

/-- R71: with BUSY = 0 a step is the host's turn, whatever its transaction. -/
theorem step_of_idle {s : State} {op : HostOp} {rest : List HostOp} (hb : s.busy = false)
    (hs : s.script = op :: rest) : step s = hostTurn { s with script := rest } op := by
  rw [step, hs]
  exact if_neg fun ⟨_, hbusy⟩ => absurd hbusy (by simp [hb])

/-- R60: with BUSY = 0 no read is refused. -/
theorem hostTurn_read_of_idle {s : State} (hb : s.busy = false) (sp : Space) (i : ℕ) :
    hostTurn s (.read sp i) = .next (hostRead s sp i) := if_neg (by simp [hb])

/-- R86: with BUSY = 0 `wait` is a read of STATUS. -/
theorem hostTurn_wait_of_idle {s : State} (hb : s.busy = false) :
    hostTurn s .wait = .next { s with answer := some s.statusWord } := by
  rw [hostTurn, if_neg (by simp [hb])]
  exact congrArg Host.Outcome.next (hostRead_of_some rfl)

/-- Settles O5: the write is the acceptance, and every end of a command is a completion. -/
theorem acceptedCommandIsLatchedRunAndCompleted :
    Obligations.AcceptedCommandIsLatchedRunAndCompleted := by
  intro s w i rest hb hs hw
  refine ⟨accept { s with script := rest } w, ?_, rfl, engineTurn_of_busy rfl hw,
    fun _ => exec_completes⟩
  rw [step_write_of_idle hb hs, hostWrite_reg _ (by decide)]
  exact congrArg Host.Outcome.next (writeCmd_of_legal hw _)

/-- Settles O7: the script's head says who moves. -/
theorem idleEngineKeepsStateAndWaitEnds : Obligations.IdleEngineKeepsStateAndWaitEnds := by
  refine ⟨fun s hb hs => ?_, fun _ _ _ _ _ => step_write_of_idle, fun s sp i rest hb hs => ?_,
    fun s rest hs => ⟨fun hb => ?_, fun hb => ?_⟩⟩
  · rw [step, hs]
    exact engineTurn_of_idle hb
  · exact (step_of_idle hb hs).trans (hostTurn_read_of_idle (s := { s with script := rest }) hb sp i)
  · rw [step, hs]
    exact if_pos ⟨rfl, hb⟩
  · exact (step_of_idle hb hs).trans (hostTurn_wait_of_idle (s := { s with script := rest }) hb)

end Sys2Proof.Machine

/-! Reset and the hazards of a busy engine (R230, R240, R241). -/

namespace Sys2Proof.Machine

/-- R60, R71: a transaction other than `wait` is the host's turn, the engine busy or not. -/
theorem step_of_ne_wait {s : State} {op : HostOp} {rest : List HostOp}
    (hs : s.script = op :: rest) (hw : op ≠ .wait) : step s = hostTurn { s with script := rest } op := by
  rw [step, hs]
  exact if_neg fun ⟨hop, _⟩ => hw hop

/-- R240, R241: with BUSY = 1 a transaction that is not allowed then is refused. -/
theorem hostTurn_of_forbidden {s : State} {op : HostOp} (hb : s.busy = true)
    (ha : allowedWhileBusy op = false) : hostTurn s op = .refused .hostWhileBusy :=
  if_pos (by rw [hb, ha]; rfl)

/-- R241: a read of STATUS answers its word, with BUSY = 1 too. -/
theorem hostTurn_readStatus (s : State) :
    hostTurn s (.read .reg 1) = .next { s with answer := some s.statusWord } := by
  rw [hostTurn, if_neg (by simp [allowedWhileBusy])]
  exact congrArg Host.Outcome.next (hostRead_of_some rfl)

/-- R230: a reset is never refused. -/
theorem hostTurn_reset (s : State) : hostTurn s .reset = .next (hostReset s) :=
  if_neg (by simp [allowedWhileBusy])

/-- R241: of the reads only that of STATUS is allowed while BUSY = 1. -/
theorem allowedWhileBusy_read {sp : Space} {i : ℕ} (h : ¬(sp = .reg ∧ i = 1)) :
    allowedWhileBusy (.read sp i) = false := by
  rw [allowedWhileBusy]
  exact fun hsp hi => h ⟨hsp, hi⟩

/-- R230: the registers after `HostReset` are those of the reset state, so every one reads 0. -/
theorem regWord_hostReset (s : State) (i : ℕ) : (hostReset s).regWord i = 0 :=
  resetRegistersAreZero.1 i

/-- Settles O8: the step is the host's turn, which forbids writes and reads while BUSY = 1, save of STATUS. -/
theorem busyMachineRefusesTheHost : Obligations.BusyMachineRefusesTheHost := by
  intro s op rest hb hs
  refine ⟨?_, ?_, ?_⟩
  · rintro sp i v rfl
    exact (step_of_ne_wait hs nofun).trans (hostTurn_of_forbidden hb rfl)
  · rintro sp i rfl hstatus
    exact (step_of_ne_wait hs nofun).trans
      (hostTurn_of_forbidden hb (allowedWhileBusy_read hstatus))
  · rintro rfl
    obtain ⟨hbit, -⟩ := statusWordHasItsFields s
    exact ⟨(step_of_ne_wait hs nofun).trans (hostTurn_readStatus _), hbit.trans hb⟩

/-- Settles O11: the step is `hostReset`, whose registers are 0 and whose memories are empty lists. -/
theorem hostResetClearsEverything : Obligations.HostResetClearsEverything := by
  intro s rest hs
  have hstep := (step_of_ne_wait hs nofun).trans (hostTurn_reset { s with script := rest })
  exact ⟨_, hstep, regWord_hostReset _, rfl, rfl, rfl, rfl, rfl, rfl,
    fun _ => ⟨rfl, rfl, rfl, rfl, rfl, rfl, rfl, rfl, rfl, rfl, rfl, rfl⟩, rfl, rfl, rfl⟩

end Sys2Proof.Machine
